-- ==== Sys2Proof/Word.lean ====
section
/-! DEFINITION. The bus word, the bus spaces and nothing else: the plainest vocabulary of the block. -/

namespace Sys2Proof

/-- One bus word, 32 bits, bit 0 the least significant (R11, R82). -/
abbrev Word := BitVec 32

/-- The five word-addressed bus spaces (R65). -/
inductive Space
  | csr
  | profile
  | param
  | pcm
  | state
deriving DecidableEq, Repr

end Sys2Proof
end

