-- ==== Sys2Proof/Syntax.lean ====
section
/-! DEFINITION. The operations of the block, one constructor for each row of spec/opcode_table.json: the four host
commands and the illegal command word (format CMDW, R111, R112), and the 32 stage operations of the sequencer
(format STAGE, R130). -/

namespace Sys2Proof

/-- One operation of the block. The command word has no operand fields (R111): only the illegal word carries the
bits it was made of. A stage takes its subframe and retry bit from `SEQ` (R30), which is the program counter, not
an operand. -/
inductive Instr
  /-- Command `NOP` (R151). -/
  | nop
  /-- Command `INIT` (R152). -/
  | init
  /-- Command `DECODE` (R155). -/
  | decode
  /-- Command `RESET` (R161). -/
  | reset
  /-- Every other command word, with its two bit fields `OP` = bits 3:0 and `ZERO` = bits 31:4 (R112). -/
  | illegal (op : BitVec 4) (zero : BitVec 28)
  /-- Stage 0x00 (R154). -/
  | idle
  /-- Stage 0x01 (R156). -/
  | check
  /-- Stage 0x02 (R171). -/
  | lsfDec
  /-- Stage 0x03 (R173). -/
  | lsfStab
  /-- Stage 0x04 (R292). -/
  | lsfConceal
  /-- Stage 0x05 (R176). -/
  | lsf2lsp
  /-- Stage 0x06 (R179). -/
  | lspInterp
  /-- Stage 0x07 (R181). -/
  | lsp2lpc
  /-- Stage 0x08 (R192). -/
  | pitchAbs
  /-- Stage 0x09 (R194). -/
  | pitchRel
  /-- Stage 0x0A (R294). -/
  | pitchConceal
  /-- Stage 0x0B (R207). -/
  | acbInterp
  /-- Stage 0x0C (R217). -/
  | fcbTrack
  /-- Stage 0x0D (R218). -/
  | fcbGray
  /-- Stage 0x0E (R219). -/
  | fcbBaseb
  /-- Stage 0x0F (R220). -/
  | fcbExpl
  /-- Stage 0x10 (R296). -/
  | fcbConceal
  /-- Stage 0x11 (R252). -/
  | fcbBuild
  /-- Stage 0x12 (R237). -/
  | gainDec
  /-- Stage 0x13 (R298). -/
  | gainConceal
  /-- Stage 0x14 (R243). -/
  | gainUpd
  /-- Stage 0x15 (R256). -/
  | phaseDisp
  /-- Stage 0x16 (R259). -/
  | excMix
  /-- Stage 0x17 (R266). -/
  | lpSynth
  /-- Stage 0x18 (R268). -/
  | lpRetry
  /-- Stage 0x19 (R270). -/
  | sfCommit
  /-- Stage 0x1A (R279). -/
  | pfResid
  /-- Stage 0x1B (R281). -/
  | pfLongterm
  /-- Stage 0x1C (R283). -/
  | pfSyntilt
  /-- Stage 0x1D (R286). -/
  | pfAgc
  /-- Stage 0x1E (R159). -/
  | out
  /-- Stage 0x1F (R160). -/
  | frameCommit
deriving DecidableEq, Repr

end Sys2Proof
end

