-- ==== Sys2Proof/WellFormed.lean ====
section
/-! DEFINITION. Which terms of `Instr` stand for an encoding. -/

namespace Sys2Proof

/-- An `illegal` term is well formed when its bits are those of an illegal command word: any of bits 31:4 set, or
`OP` in 0x4..0xF (R112). Every other operation has no operands and is always well formed. -/
def Instr.wellFormed : Instr → Bool
  | .illegal op zero => decide (zero ≠ 0#28) || decide (4 ≤ op.toNat)
  | _ => true

end Sys2Proof
end

