-- ==== Sys2Proof/Decode.lean ====
section
/-! DEFINITION. The decoders of the two formats of spec/opcode_table.json, total on every word (R111, R112, R130),
and after them the encoder, written from the same tables. -/

namespace Sys2Proof

/-- Bits 3:0 of a command word, the field `OP` (R111). -/
def cmdOp (w : Word) : BitVec 4 := w.extractLsb' 0 4

/-- Bits 31:4 of a command word, the field `ZERO` (R111). -/
def cmdZero (w : Word) : BitVec 28 := w.extractLsb' 4 28

/-- The command a word written to `CSR[CMD]` selects (R150, last paragraph): the illegal command when
`w[31:4] ≠ 0` or `w[3:0] ≥ 4`, otherwise the command of `w[3:0]`. -/
def decodeCommand (w : Word) : Instr :=
  if cmdZero w = 0#28 then
    match (cmdOp w).toNat with
    | 0 => .nop
    | 1 => .init
    | 2 => .decode
    | 3 => .reset
    | _ => .illegal (cmdOp w) (cmdZero w)
  else .illegal (cmdOp w) (cmdZero w)

/-- The 32 stages in the order of their ids 0x00 to 0x1F (R130). -/
def stageTable : List Instr :=
  [.idle, .check, .lsfDec, .lsfStab, .lsfConceal, .lsf2lsp, .lspInterp, .lsp2lpc,
   .pitchAbs, .pitchRel, .pitchConceal, .acbInterp, .fcbTrack, .fcbGray, .fcbBaseb, .fcbExpl,
   .fcbConceal, .fcbBuild, .gainDec, .gainConceal, .gainUpd, .phaseDisp, .excMix, .lpSynth,
   .lpRetry, .sfCommit, .pfResid, .pfLongterm, .pfSyntilt, .pfAgc, .out, .frameCommit]

/-- The stage of a 5-bit id. All 32 codes are assigned (R130). -/
def decodeStage (b : BitVec 5) : Instr := (stageTable[b.toNat]?).getD .idle

/-- Bits 4:0 of `SEQ`, the stage id (R30). -/
def seqStage (q : BitVec 8) : BitVec 5 := q.extractLsb' 0 5

/-- Bits 6:5 of `SEQ`, the subframe index (R30). -/
def seqSf (q : BitVec 8) : Nat := (q.extractLsb' 5 2).toNat

/-- Bit 7 of `SEQ`, set while the subframe is in its overflow retry (R30). -/
def seqRetry (q : BitVec 8) : Bool := q.getLsbD 7

/-- Why a bit pattern is not an encoding of either format. -/
inductive DecodeError
  /-- The format is neither a stage byte (at most 8 bits) nor a command word (at most 32 bits). -/
  | noSuchFormat (nbits : Nat)
  /-- The value does not fit in the number of bits given. -/
  | tooManyBits (nbits w : Nat)
deriving DecidableEq, Repr

/-- The decoder on a bit pattern of a stated width: a pattern of at most 8 bits is read as the low byte of `SEQ`
(format STAGE), one of 9 to 32 bits as a command word (format CMDW). Anything else is rejected by name. -/
def decodeBits (nbits w : Nat) : Except DecodeError Instr :=
  if 2 ^ nbits ≤ w then .error (.tooManyBits nbits w)
  else if nbits = 0 then .error (.noSuchFormat nbits)
  else if nbits ≤ 8 then .ok (decodeStage (seqStage (BitVec.ofNat 8 w)))
  else if nbits ≤ 32 then .ok (decodeCommand (BitVec.ofNat 32 w))
  else .error (.noSuchFormat nbits)

/-- The instruction the decoder reads from a row's bits; `none` where it rejects them. -/
def decodeTableWord (nbits w : Nat) : Option Instr :=
  match decodeBits nbits w with
  | .ok i => some i
  | .error _ => none

/-- What an operation is encoded as: a command word written to `CSR[CMD]`, or the byte `SEQ` shows while the
stage runs (R110). -/
inductive Code
  | command (w : Word)
  | stage (q : BitVec 8)
deriving DecidableEq, Repr

/-- The decoder on either kind of code. -/
def decode : Code → Instr
  | .command w => decodeCommand w
  | .stage q => decodeStage (seqStage q)

/-- The 5-bit id of a stage (R130). A command executes in `IDLE` (R154), so its id is that of `IDLE`. -/
def stageId : Instr → BitVec 5
  | .nop => 0x00#5
  | .init => 0x00#5
  | .decode => 0x00#5
  | .reset => 0x00#5
  | .illegal _ _ => 0x00#5
  | .idle => 0x00#5
  | .check => 0x01#5
  | .lsfDec => 0x02#5
  | .lsfStab => 0x03#5
  | .lsfConceal => 0x04#5
  | .lsf2lsp => 0x05#5
  | .lspInterp => 0x06#5
  | .lsp2lpc => 0x07#5
  | .pitchAbs => 0x08#5
  | .pitchRel => 0x09#5
  | .pitchConceal => 0x0A#5
  | .acbInterp => 0x0B#5
  | .fcbTrack => 0x0C#5
  | .fcbGray => 0x0D#5
  | .fcbBaseb => 0x0E#5
  | .fcbExpl => 0x0F#5
  | .fcbConceal => 0x10#5
  | .fcbBuild => 0x11#5
  | .gainDec => 0x12#5
  | .gainConceal => 0x13#5
  | .gainUpd => 0x14#5
  | .phaseDisp => 0x15#5
  | .excMix => 0x16#5
  | .lpSynth => 0x17#5
  | .lpRetry => 0x18#5
  | .sfCommit => 0x19#5
  | .pfResid => 0x1A#5
  | .pfLongterm => 0x1B#5
  | .pfSyntilt => 0x1C#5
  | .pfAgc => 0x1D#5
  | .out => 0x1E#5
  | .frameCommit => 0x1F#5

/-- `SEQ = retry ++ sf[1:0] ++ stage[4:0]` (R131). -/
def seqOf (stage : BitVec 5) (sf : Nat) (retry : Bool) : BitVec 8 :=
  BitVec.ofBool retry ++ (BitVec.ofNat 2 sf ++ stage)

/-- The encoder: a command's word (R111), a stage's byte for subframe 0 and no retry (R131). -/
def encode : Instr → Code
  | .nop => .command 0x00000000#32
  | .init => .command 0x00000001#32
  | .decode => .command 0x00000002#32
  | .reset => .command 0x00000003#32
  | .illegal op zero => .command (zero ++ op)
  | i => .stage (seqOf (stageId i) 0 false)

end Sys2Proof
end

