-- ==== Sys2Proof/Config.lean ====
section
/-! DEFINITION. What an implementation fixes (the capacities of R8) and the free values: opaque constants without
a body, so that no proof can know their value (the "any value" items of the spec's list of treatments). -/

namespace Sys2Proof

/-- The capacity parameters of R8. A model takes them as arguments: they are a field of `State` that nothing
writes, so that every statement about all states holds for every choice of them (log entry 10). -/
structure Caps where
  order        : Nat   -- CAP_ORDER
  sfLen        : Nat   -- CAP_L
  nsf          : Nat   -- CAP_NSF
  lspStages    : Nat   -- CAP_LSP_STAGES
  lspMaNp      : Nat   -- CAP_LSP_MA_NP
  lspMaSets    : Nat   -- CAP_LSP_MA_SETS
  pulses       : Nat   -- CAP_PULSES
  maOrder      : Nat   -- CAP_MA_ORDER
  hist         : Nat   -- CAP_HIST
  profileWords : Nat   -- CAP_PROFILE_WORDS
  gainHistLen  : Nat   -- GAIN_HIST_LEN
deriving DecidableEq, Repr

/-- The default capacities, third column of the table of R8. -/
def Config.defaultCaps : Caps :=
  { order := 16, sfLen := 80, nsf := 4, lspStages := 5, lspMaNp := 4, lspMaSets := 2,
    pulses := 10, maOrder := 8, hist := 1024, profileWords := 65536, gainHistLen := 5 }

/-- The word an address of a space holds while the spec calls its contents unspecified (R62, R75, R127, R128).
`epoch` counts the events that made the space unspecified, so the word is the same at every read in between
(R84) and unrelated across such events. Free: nothing constrains it (log entries 3 and 4). -/
opaque Config.unspecWord (sp : Space) (addr epoch : Nat) : Word

/-- The word a read of PCM or STATE space returns while a command runs (R87); `n` is the count of free draws
so far, so two reads need not agree. Free (log entry 5). -/
opaque Config.freeWord (n : Nat) : Word

/-- The draw behind a read of `SEQ` while a command runs (R32): which of the positions on the command's path is
shown. Free (log entry 6). -/
opaque Config.freeIndex (n : Nat) : Nat

/-- The element of an array outside its declared range. R11 calls such a read an error of the spec; no reachable
state makes one, and where a state does, the value is free (log entry 11). -/
opaque Config.noElement (i : Int) : Int

/-- `clip(v, lo, hi)` for `lo > hi`, where R13 does not define it. Free (log entry 29). -/
opaque Config.noClip (v lo hi : Int) : Int

/-- `a div b` for `b ≤ 0`, where R13 does not define it. Free (log entry 29). -/
opaque Config.noQuotient (a b : Int) : Int

/-- `a mod b` for `b ≤ 0`, where R13 does not define it. Free (log entry 29). -/
opaque Config.noRemainder (a b : Int) : Int

end Sys2Proof
end

