-- ==== Sys2Proof/Machine/Arith.lean ====
section
/-! DEFINITION. The arithmetic primitives of R13, exact on `Int`, and the array forms the pseudocode of the rules is
written with: element read, tabulation, sum, the array a recursive loop builds, the last samples of a history. -/

namespace Sys2Proof.Machine

/-- `a >>a n`: arithmetic shift right, `floor(a / 2^n)` for every sign of `a` (R13). -/
def asr (a : Int) (n : Nat) : Int := a >>> n

/-- `sat16(v)` (R13). -/
def sat16 (v : Int) : Int := max (-32768) (min 32767 v)

/-- `clip(v, lo, hi)`, which R13 defines for `lo ≤ hi` only; otherwise the value is free (log entry 29). -/
def clip (v lo hi : Int) : Int := if lo ≤ hi then max lo (min hi v) else Config.noClip v lo hi

/-- `a div b`, floor division, which R13 defines for `b > 0` only; otherwise the value is free (log entry 29). -/
def floorDiv (a b : Int) : Int := if 0 < b then a / b else Config.noQuotient a b

/-- `a mod b`, the remainder of `a div b`, which R13 defines for `b > 0` only; otherwise the value is free (log entry
29). -/
def floorMod (a b : Int) : Int := if 0 < b then a % b else Config.noRemainder a b

/-- `a div b` of natural numbers. -/
def natDiv (a b : Nat) : Nat := if 0 < b then a / b else (Config.noQuotient a b).toNat

/-- `a mod b` of natural numbers. -/
def natMod (a b : Nat) : Nat := if 0 < b then a % b else (Config.noRemainder a b).toNat

/-- `A[i]`. An index outside the declared range is an error of the spec (R11): the value is then free. -/
def elem (l : List Int) (i : Int) : Int :=
  if i < 0 then Config.noElement i else (l[i.toNat]?).getD (Config.noElement i)

/-- The array whose element `i` is `f i` for `i` in `0 .. n-1`. -/
def tab (n : Nat) (f : Nat → Int) : List Int := (List.range n).map f

/-- The sum of `f i` over `i` in `0 .. n-1`. -/
def sumTo : Nat → (Nat → Int) → Int
  | 0, _ => 0
  | n + 1, f => sumTo n f + f n

/-- The array a loop `for i in 0..n-1` builds when step `i` may read the elements written before it: `f` is given
the elements `0 .. i-1` and the index `i` (R347). -/
def buildUp (f : List Int → Nat → Int) : Nat → List Int
  | 0 => []
  | n + 1 => buildUp f n ++ [f (buildUp f n) n]

/-- The last `n` elements of a list. -/
def lastN (n : Nat) (l : List Int) : List Int := l.drop (l.length - n)

/-- A history with the newest element first takes in `x` and drops its oldest element (R243, R160). -/
def pushNewest {α : Type} (x : α) (l : List α) : List α := (x :: l).take l.length

/-- The largest number below `2^k` above `g` that satisfies `p`, found bit by bit from the top; `p` is meant to
hold of every number below one it holds of. -/
def search (p : Nat → Bool) : Nat → Nat → Nat
  | 0, g => g
  | k + 1, g => if p (g + 2 ^ k) then search p k (g + 2 ^ k) else search p k g

/-- A word's low 16 bits as two's complement, `sext_16(w[15:0])` (R85). -/
def wordI16 (w : Word) : Int := (w.setWidth 16).toInt

/-- The word the block shows an `i16` value as: sign-extended from 16 bits (R85, R127, R128). -/
def i16Word (v : Int) : Word := (BitVec.ofInt 16 v).signExtend 32

/-- `gray_decode(g)`, the inverse of the reflected binary Gray code on 32 bits (R221). -/
def grayDecode (g : Nat) : Nat :=
  let b1 := g ^^^ (g >>> 1)
  let b2 := b1 ^^^ (b1 >>> 2)
  let b3 := b2 ^^^ (b2 >>> 4)
  let b4 := b3 ^^^ (b3 >>> 8)
  b4 ^^^ (b4 >>> 16)

end Sys2Proof.Machine
end

