-- ==== Sys2Proof/Machine/State.lean ====
section
/-! DEFINITION. Everything the spec gives the machine to hold, as plain data (R20): the flags and registers of the
CSR file, the sequencer position, the working registers, the DecoderState and its working copy, the three stored
bus spaces; beside them the model's own fields (the host's script, the words it has read, the counters behind the
free values, the capacities), each marked so. `State.reset` is the column "hardware reset" of R75. -/

namespace Sys2Proof.Machine

/-- The contents of a stored bus space: the words that have been determined, at strictly rising word addresses.
An address that is not listed holds an unspecified word (log entries 3, 4 and 9). -/
abbrev Mem := List (Nat × Word)

/-- The fields of `STATUS` (R42). -/
structure Status where
  /-- Bit 0: a command is executing. -/
  busy : Bool
  /-- Bit 1: the last accepted command has ended. -/
  done : Bool
  /-- Bit 2: a well-formed profile is latched and `S` is valid. -/
  inited : Bool
  /-- Bit 3: the last DECODE was decoded by concealment. -/
  erased : Bool
  /-- Bit 4: the last DECODE was muted. -/
  muted : Bool
  /-- Bit 5: at least one subframe took the overflow retry. -/
  ovfRetry : Bool
  /-- Bit 6: the host wrote `CMD`, PROFILE or PARAM while a command ran. -/
  busyViol : Bool
  /-- Bits 11:8: the error code of the last command, 0 for none. -/
  err : BitVec 4
  /-- Bits 23:16: the copy of `S.erasure_run`. -/
  erun : BitVec 8
deriving DecidableEq, Repr

/-- `STATUS` = 0. -/
def Status.zero : Status :=
  { busy := false, done := false, inited := false, erased := false, muted := false,
    ovfRetry := false, busyViol := false, err := 0#4, erun := 0#8 }

/-- The SparseExcitationVector `W.SP` (R216). -/
structure SparseVec where
  /-- Pulse count. -/
  n : Nat
  /-- Pulse positions, in pulse order. -/
  pos : List Nat
  /-- Signed pulse amplitudes, Q13. -/
  amp : List Int
  /-- Pitch-repeat lag. -/
  lag : Int
  /-- Pitch-repeat decay factor, Q14. -/
  fac : Int
  /-- Bit k set: pulse k is not repeated. -/
  mask : Nat
deriving DecidableEq, Repr

/-- The working registers `W.*` (R22), with `num` and `den`, the working values of the subframe that R276 adds.
`none` is the spec's own "no value" (R23, R75): the register's writer stage has not run in this DECODE. -/
structure Work where
  erased : Option Bool
  muted : Option Bool
  run : Option Nat
  res : Option (List Int)
  pred : Option (List Int)
  lsf : Option (List Int)
  lspq : Option (List Int)
  lspi : Option (List Int)
  lpc : Option (List Int)
  tInt : Option Int
  tFrac : Option Int
  acbv : Option (List Int)
  sp : Option SparseVec
  fcv : Option (List Int)
  corr : Option Int
  gp : Option Int
  gc : Option Int
  excv : Option (List Int)
  exc2 : Option (List Int)
  syn : Option (List Int)
  ovf : Option Bool
  num : Option (List Int)
  den : Option (List Int)
  resid : Option (List Int)
  pfy : Option (List Int)
  pfz : Option (List Int)
  out : Option (List Int)
deriving DecidableEq, Repr

/-- No working register holds a value (R75). -/
def Work.none : Work :=
  { erased := .none, muted := .none, run := .none, res := .none, pred := .none, lsf := .none,
    lspq := .none, lspi := .none, lpc := .none, tInt := .none, tFrac := .none, acbv := .none,
    sp := .none, fcv := .none, corr := .none, gp := .none, gc := .none, excv := .none,
    exc2 := .none, syn := .none, ovf := .none, num := .none, den := .none, resid := .none,
    pfy := .none, pfz := .none, out := .none }

/-- The persistent DecoderState `S.*` (R50 to R57). Every `i16` field is held as the integer it stands for (R12);
the arithmetic of the rules is exact (R13) and nothing wraps (log entry 12). -/
structure DecState where
  /-- `S.prev_lsf`, unit π/32768 (R51). -/
  prevLsf : List Int
  /-- `S.prev_lsp`, Q15 (R51). -/
  prevLsp : List Int
  /-- `S.lsf_ma_hist`, newest residual vector first; empty when `P.LSP_PRED_MODE = 0` (R51). -/
  lsfMaHist : List (List Int)
  /-- `S.exc_hist`, newest sample last (R52). -/
  excHist : List Int
  /-- `S.energy_hist`, Q10 dB, newest first (R53). -/
  energyHist : List Int
  /-- `S.gp_hist`, Q14, newest first (R53). -/
  gpHist : List Int
  /-- `S.gc_hist`, Q1, newest first (R53). -/
  gcHist : List Int
  /-- `S.sharp_beta`, Q14 (R54). -/
  sharpBeta : Int
  /-- `S.prev_lag_int` (R54). -/
  prevLagInt : Int
  /-- `S.disp_onset` (R54). -/
  dispOnset : Nat
  /-- `S.disp_prev_filt` (R54). -/
  dispPrevFilt : Nat
  /-- `S.disp_prev_gc`, Q1 (R54). -/
  dispPrevGc : Int
  /-- `S.syn_mem`, newest sample last (R55). -/
  synMem : List Int
  /-- `S.pf_fir_mem`, newest last (R56). -/
  pfFirMem : List Int
  /-- `S.pf_iir_mem`, newest last (R56). -/
  pfIirMem : List Int
  /-- `S.pf_res_hist`, newest last (R56). -/
  pfResHist : List Int
  /-- `S.pf_tilt_mem` (R56). -/
  pfTiltMem : Int
  /-- `S.pf_agc_gain`, Q12 (R56). -/
  pfAgcGain : Int
  /-- `S.erasure_run` (R57). -/
  erasureRun : Nat
  /-- `S.prng_seed`, u16 (R57). -/
  prngSeed : Nat
deriving DecidableEq, Repr

/-- The value the model names for every field of `S` while the spec calls it unspecified (R75). It is never shown:
while `INITED = 0` the STATE window reads free words and DECODE ends before it reads `S` (log entry 7). -/
def DecState.blank : DecState :=
  { prevLsf := [], prevLsp := [], lsfMaHist := [], excHist := [], energyHist := [], gpHist := [],
    gcHist := [], sharpBeta := 0, prevLagInt := 0, dispOnset := 0, dispPrevFilt := 0,
    dispPrevGc := 0, synMem := [], pfFirMem := [], pfIirMem := [], pfResHist := [], pfTiltMem := 0,
    pfAgcGain := 0, erasureRun := 0, prngSeed := 0 }

/-- One line of the host's script (R132), the bus agent's pending input: a write, a read, `wait`, the assertion of
the `rst` input (R340), and `run`, the model's own line that lets the block take one step before the next
transaction arrives, so that a transaction can land at any point of a running command (log entry 1). -/
inductive HostOp
  | wr (sp : Space) (addr : Nat) (v : Word)
  | rd (sp : Space) (addr : Nat)
  | wait
  | rst
  | run
deriving DecidableEq, Repr

/-- The names of the working registers, for the fault that reports a read of one that holds no value. -/
inductive WReg
  | erased | muted | run | res | pred | lsf | lspq | lspi | lpc | tInt | tFrac | acbv | sp | fcv
  | corr | gp | gc | excv | exc2 | syn | ovf | num | den | resid | pfy | pfz | out
deriving DecidableEq, Repr

/-- Why the model stops where the spec gives no effect. Every one is safe: the block reaches none of them, because
a DECODE starts at CHECK and runs the stages in the order of R158. -/
inductive Fault
  /-- A stage read a working register whose writer stage has not run in this DECODE: "a model should make such a
  read a fault, not a zero" (R23). Raised by every stage that reads a working register. Safe. -/
  | unwritten (r : WReg)
  /-- A pitch or fixed-codebook stage decoded an index that CHECK rejects; R191 and R222 say it cannot fail there.
  Raised by PITCH_ABS, PITCH_REL and the four FCB decoders. Safe. -/
  | notValidated
  /-- A header field selects a case no rule defines (its offset is given); INIT rejects such a profile (R153).
  Raised by GAIN_DEC, FCB_BUILD and the choice of the FCB decoder. Safe. -/
  | profileCase (offset : Nat)
  /-- `W.SP` breaks its invariant (R24, R216). Raised by FCB_BUILD. Safe. -/
  | sparseVector
  /-- The pitch-repeat lag is below 1, where R252 gives no terminating repeat; a decoded or concealed delay is
  never below `P.PITCH_DELAY_MIN ≥ 1` (R196). Raised by FCB_BUILD. Safe. -/
  | lagNotPositive
deriving DecidableEq, Repr

/-- Why the model has no meaning for an instruction. No arm of `exec` uses it: every row has its meaning. -/
inductive Refusal
  /-- The row named has no meaning yet. Raised by `exec` alone. Safe. -/
  | notModelled (mnemonic : String)
deriving DecidableEq, Repr

/-- The error classes of the block with a code (R306). -/
inductive ErrCode
  | invalidParameter
  | unsupportedMode
  | internalInvariant
  | notInitialized
  | badProfile
  | illegalCommand
  | alreadyInitialized
deriving DecidableEq, Repr

/-- The machine: the block and its host interface. -/
structure State where
  /-- `STATUS` (R42). -/
  status : Status
  /-- `SEQ`, the sequencer position, the block's program counter (R30). -/
  seq : BitVec 8
  /-- `ERRINFO` (R44). -/
  errinfo : Word
  /-- `CTRL.IE` (R45). -/
  ie : Bool
  /-- `PCMLEN` (R46). -/
  pcmlen : Word
  /-- The accepted command word that has not executed yet (R150; hidden state, log entry 2). -/
  cmd : Option Word
  /-- The working registers `W.*` (R22). -/
  w : Work
  /-- The DecoderState `S.*` as the host sees it (R50). -/
  dec : DecState
  /-- The working copy of `S` that the stages of a DECODE read and write (R58). -/
  wrk : DecState
  /-- PROFILE space (R60); while `INITED = 1` it is the latched profile `P`. -/
  profile : Mem
  /-- PARAM space (R61). -/
  param : Mem
  /-- PCM space (R62). -/
  pcm : Mem
  /-- The model's own: the capacities the block is built with (R8); nothing writes them. -/
  caps : Caps
  /-- The model's own: the host's script, the transactions still to come, first one first. -/
  host : List HostOp
  /-- The model's own: the words the bus has returned to the host, newest first. -/
  readLog : List Word
  /-- The model's own: how many hardware resets there have been (free PROFILE and PARAM words). -/
  rstEpoch : Nat
  /-- The model's own: how often PCM or STATE space has become unspecified (free PCM and STATE words). -/
  unspecEpoch : Nat
  /-- The model's own: how many free draws there have been (reads while a command runs). -/
  freeCtr : Nat
deriving DecidableEq, Repr

/-- What a meaning answers. -/
abbrev Out := Host.Outcome State Fault Refusal

/-- The machine right after hardware reset (R75, R340): nothing is listed in any space, no working register holds
a value, and the host's script is empty. -/
def State.reset : State :=
  { status := Status.zero, seq := 0x00#8, errinfo := 0#32, ie := false, pcmlen := 0#32, cmd := .none,
    w := Work.none, dec := DecState.blank, wrk := DecState.blank, profile := [], param := [], pcm := [],
    caps := Config.defaultCaps, host := [], readLog := [], rstEpoch := 0, unspecEpoch := 0, freeCtr := 0 }

end Sys2Proof.Machine
end

