-- ==== Sys2Proof/Machine/Flags.lean ====
section
/-! DEFINITION. The flags: the bits of `STATUS` as the host reads them, what accepting a command clears, what ending
one sets (R42, R150, R312), and the interrupt line (R320). The block has no arithmetic condition codes (R33). -/

namespace Sys2Proof.Machine

/-- The word of `STATUS` (R42): reserved bits are 0. -/
def Status.word (st : Status) : Word :=
  (0#8 ++ st.erun) ++ (0#4 ++ st.err ++ (0#1 ++ BitVec.ofBool st.busyViol ++ BitVec.ofBool st.ovfRetry
    ++ BitVec.ofBool st.muted ++ BitVec.ofBool st.erased ++ BitVec.ofBool st.inited
    ++ BitVec.ofBool st.done ++ BitVec.ofBool st.busy))

/-- `STATUS` as a read returns it. While a command runs the host can observe nothing of its progress but `BUSY`
(R90 item 4), so the retry flag, which SF_COMMIT sets during the command (R270), shows at its end (R42; log entry
13). -/
def Status.shown (st : Status) : Status :=
  if st.busy then { st with ovfRetry := false } else st

/-- What acceptance does to `STATUS` (R150). -/
def Status.accepted (st : Status) : Status :=
  { st with done := false, erased := false, muted := false, ovfRetry := false, busyViol := false,
            err := 0#4, busy := true }

/-- What the end of a command does to `STATUS` (R150). -/
def Status.ended (st : Status) : Status :=
  { st with busy := false, done := true }

/-- What a raise does to `STATUS` (R312): the flags of a DECODE stay cleared as acceptance left them. -/
def Status.failed (st : Status) (code : BitVec 4) : Status :=
  { st with err := code, erased := false, muted := false, ovfRetry := false, busy := false, done := true }

/-- The code of an error class (R306). -/
def ErrCode.code : ErrCode → BitVec 4
  | .invalidParameter => 1#4
  | .unsupportedMode => 2#4
  | .internalInvariant => 3#4
  | .notInitialized => 4#4
  | .badProfile => 5#4
  | .illegalCommand => 6#4
  | .alreadyInitialized => 7#4

/-- `irq = STATUS.DONE and CTRL.IE` (R320). -/
def irq (s : State) : Bool := s.status.done && s.ie

end Sys2Proof.Machine
end

