-- ==== Sys2Proof/Machine/Ops.lean ====
section
/-! DEFINITION. The named operations over memory, registers and the sequencer that the meanings are written with:
reading and writing a stored space, reading a working register, moving the sequencer, accepting a command, ending
it, and raising an error, which is the block's one exception entry (R312; there is no return from it: R312 gives no
return address, no saved context and no handler). -/

namespace Sys2Proof.Machine

/-! ## The stored spaces -/

/-- The word listed at an address. -/
def Mem.find (a : Nat) : Mem → Option Word
  | [] => none
  | (b, v) :: m => if a = b then some v else Mem.find a m

/-- Stores a word, keeping the addresses strictly rising. -/
def Mem.put (a : Nat) (v : Word) : Mem → Mem
  | [] => [(a, v)]
  | (b, u) :: m =>
    if a < b then (a, v) :: (b, u) :: m
    else if a = b then (a, v) :: m
    else (b, u) :: Mem.put a v m

/-- The canonical form: every address is above `lo` in turn and below the size of the space. -/
def Mem.risingFrom (size : Nat) : Nat → Mem → Bool
  | _, [] => true
  | lo, (a, _) :: m => decide (lo ≤ a) && decide (a < size) && Mem.risingFrom size (a + 1) m

/-- The canonical form of a stored space of `size` words: strictly rising addresses inside the space. An unlisted
address reads as a free word, which no listed word can be shown equal to, so equal memories are equal lists. -/
def Mem.wf (size : Nat) (m : Mem) : Bool := Mem.risingFrom size 0 m

/-- The sizes of the spaces in words (R65). -/
def spaceSize (s : State) : Space → Nat
  | .csr => 8
  | .profile => s.caps.profileWords
  | .param => 64
  | .pcm => 512
  | .state => 4096

/-- The word a stored space holds at an address: 0 beyond the space (R83), the listed word, or, at an address that
is not listed, the free word of that space (R75). This is the one definition of what an unlisted address reads
as. -/
def storedWord (s : State) (sp : Space) (epoch : Nat) (m : Mem) (a : Nat) : Word :=
  if spaceSize s sp ≤ a then 0#32 else (m.find a).getD (Config.unspecWord sp a epoch)

/-- A word of PROFILE space. -/
def profWord (s : State) (a : Nat) : Word := storedWord s .profile s.rstEpoch s.profile a

/-- A word of PARAM space. -/
def paramWord (s : State) (a : Nat) : Word := storedWord s .param s.rstEpoch s.param a

/-- A word of PCM space while no command runs. -/
def pcmWord (s : State) (a : Nat) : Word := storedWord s .pcm s.unspecEpoch s.pcm a

/-- `MemWrite` on a list: a write beyond the space is ignored (R83). -/
def putIn (size : Nat) (m : Mem) (a : Nat) (v : Word) : Mem :=
  if a < size then m.put a v else m

/-- The block's write of PCM words `base, base+1, …`, each an `i16` value (R159, R128). -/
def putSamples (size : Nat) (m : Mem) (base : Nat) : List Int → Mem
  | [] => m
  | v :: vs => putSamples size (putIn size m base (i16Word v)) (base + 1) vs

/-! ## Working registers and the working copy -/

/-- Reads a working register: one that holds no value is a fault (R23). -/
def need {α : Type} (r : WReg) (v : Option α) (k : α → Out) : Out :=
  match v with
  | some a => k a
  | none => .fault (.unwritten r)

/-- Writes the working registers. -/
def State.setW (s : State) (w : Work) : State := { s with w := w }

/-- Writes the working copy of `S` (R58). -/
def State.setWrk (s : State) (d : DecState) : State := { s with wrk := d }

/-! ## The sequencer -/

/-- `SEQ <- (stage, sf, retry)` (R14, R158). -/
def State.goto (s : State) (stage : Instr) (sf : Nat) (retry : Bool) : State :=
  { s with seq := seqOf (stageId stage) sf retry }

/-- The subframe the sequencer is in (R31). -/
def State.sf (s : State) : Nat := seqSf s.seq

/-! ## Commands -/

/-- Acceptance of a command word (R150): the flags of the last command are cleared, `BUSY` is set and the word is
held until the block executes it. -/
def State.accept (s : State) (w : Word) : State :=
  { s with status := s.status.accepted, errinfo := 0#32, cmd := some w }

/-- The end of a command (R150): the sequencer is idle, `BUSY` clears, `DONE` sets; the working registers hold no
value any more (R21: their lifetime is one frame's processing). -/
def State.endCommand (s : State) : State :=
  { s with status := s.status.ended, seq := 0x00#8, cmd := none, w := Work.none }

/-- What a `raise` names (R14, R312): the error, the stage, the subframe, the field and the offending value. -/
structure Raise where
  code : ErrCode
  stage : Instr
  sf : Nat
  field : Nat
  value : Nat
deriving DecidableEq, Repr

/-- `ERRINFO` as R44 and R312 lay it out. -/
def Raise.info (r : Raise) : Word :=
  BitVec.ofNat 16 r.value ++ (BitVec.ofNat 8 r.field ++ (0#1 ++ (BitVec.ofNat 2 r.sf ++ stageId r.stage)))

/-- `raise E(stage, sf, field)` with its value (R312): the error is recorded, the working copy of `S` is dropped,
the working registers are discarded and the command ends. -/
def State.raise (s : State) (r : Raise) : State :=
  { s with status := s.status.failed r.code.code, errinfo := r.info, wrk := s.dec, w := Work.none,
           seq := 0x00#8, cmd := none }

/-- PCM space becomes unspecified (R62, R155, R161). -/
def State.dropPcm (s : State) : State :=
  { s with pcm := [], unspecEpoch := s.unspecEpoch + 1 }

/-- The operation the block runs next: an accepted command word that has not executed, else the stage `SEQ` is at
(R150, R158). -/
def fetch (s : State) : Instr :=
  match s.cmd with
  | some w => decodeCommand w
  | none => decodeStage (seqStage s.seq)

end Sys2Proof.Machine
end

