-- ==== Sys2Proof/Machine/Operands.lean ====
section
/-! DEFINITION. The operand forms of the rules: every field and table of the CodecProfile, `P.*` (R120 to R126), every
field of the FrameParameters record, `F.*` (R115 to R117), and the lengths derived from the profile. The block reads
them from PROFILE and PARAM space, which no command writes (R162). -/

namespace Sys2Proof.Machine

/-! ## The profile header -/

/-- A header field of unsigned type: the whole word (R120). -/
def P.u (s : State) (off : Nat) : Nat := (profWord s off).toNat

/-- A header field of type i16 (R120). -/
def P.i16 (s : State) (off : Nat) : Int := wordI16 (profWord s off)

/-- A header field of type i32 (R120). -/
def P.i32 (s : State) (off : Nat) : Int := (profWord s off).toInt

/-- `P.ORDER`, the abbreviation `p` of the rules (R121). -/
def P.order (s : State) : Nat := P.u s 0x00
/-- `P.L`, the subframe size. -/
def P.sfLen (s : State) : Nat := P.u s 0x01
/-- `P.NSF`, the subframe count. -/
def P.nsf (s : State) : Nat := P.u s 0x02
/-- `P.FRAME_TYPES`. -/
def P.frameTypes (s : State) : Nat := P.u s 0x03
/-- `P.FLAGS`. -/
def P.flags (s : State) : Nat := P.u s 0x04
/-- `P.ZERO_IS_ERASURE`, bit 0 of `FLAGS`. -/
def P.zeroIsErasure (s : State) : Bool := (P.flags s).testBit 0
/-- `P.PF_EN`, bit 1 of `FLAGS`. -/
def P.pfEn (s : State) : Bool := (P.flags s).testBit 1
/-- `P.PF_LT_EN`, bit 2 of `FLAGS`. -/
def P.pfLtEn (s : State) : Bool := (P.flags s).testBit 2
/-- `P.DISP_EN`, bit 3 of `FLAGS`. -/
def P.dispEn (s : State) : Bool := (P.flags s).testBit 3
/-- `P.FEC_PITCH_PRNG`, bit 4 of `FLAGS`. -/
def P.fecPitchPrng (s : State) : Bool := (P.flags s).testBit 4
/-- `P.LSP_STAGES`. -/
def P.lspStages (s : State) : Nat := P.u s 0x05
/-- `P.LSP_PRED_MODE`. -/
def P.lspPredMode (s : State) : Nat := P.u s 0x06
/-- `P.LSP_MA_NP`. -/
def P.lspMaNp (s : State) : Nat := P.u s 0x07
/-- `P.LSP_MA_SETS`. -/
def P.lspMaSets (s : State) : Nat := P.u s 0x08
/-- `P.MIN_SPACING`. -/
def P.minSpacing (s : State) : Nat := P.u s 0x09
/-- `P.LSF_LOWER`. -/
def P.lsfLower (s : State) : Nat := P.u s 0x0A
/-- `P.LSF_UPPER`. -/
def P.lsfUpper (s : State) : Nat := P.u s 0x0B
/-- `P.PITCH_DELAY_MIN` (R122). -/
def P.pitchMin (s : State) : Nat := P.u s 0x0C
/-- `P.PITCH_DELAY_MAX`. -/
def P.pitchMax (s : State) : Nat := P.u s 0x0D
/-- `P.PITCH_RES`, the abbreviation `R` of the rules. -/
def P.pitchRes (s : State) : Nat := P.u s 0x0E
/-- `P.PITCH_ABS_MASK`. -/
def P.pitchAbsMask (s : State) : Nat := P.u s 0x0F
/-- `P.ABS_BITS`. -/
def P.absBits (s : State) : Nat := P.u s 0x10
/-- `P.ABS_BIAS`. -/
def P.absBias (s : State) : Nat := P.u s 0x11
/-- `P.ABS_THRESH`. -/
def P.absThresh (s : State) : Nat := P.u s 0x12
/-- `P.ABS_SUB`. -/
def P.absSub (s : State) : Nat := P.u s 0x13
/-- `P.REL_BITS`. -/
def P.relBits (s : State) : Nat := P.u s 0x14
/-- `P.REL_MODE`. -/
def P.relMode (s : State) : Nat := P.u s 0x15
/-- `P.REL_OFFS`. -/
def P.relOffs (s : State) : Nat := P.u s 0x16
/-- `P.REL_Z1`. -/
def P.relZ1 (s : State) : Nat := P.u s 0x17
/-- `P.REL_Z2`. -/
def P.relZ2 (s : State) : Nat := P.u s 0x18
/-- `P.REL_ZB_ADD`. -/
def P.relZbAdd (s : State) : Nat := P.u s 0x19
/-- `P.REL_ZC_SUB`. -/
def P.relZcSub (s : State) : Nat := P.u s 0x1A
/-- `P.WIN_BACK`. -/
def P.winBack (s : State) : Nat := P.u s 0x1B
/-- `P.WIN_MARGIN`. -/
def P.winMargin (s : State) : Nat := P.u s 0x1C
/-- `P.ACB_PREC`. -/
def P.acbPrec (s : State) : Nat := P.u s 0x1D
/-- `P.ACB_HALF_LEN`. -/
def P.acbHalfLen (s : State) : Nat := P.u s 0x1E
/-- `P.FCB_FAMILY` (R123). -/
def P.fcbFamily (s : State) : Nat := P.u s 0x1F
/-- `P.FCB_NPULSES`, the abbreviation `N` of the rules. -/
def P.fcbNpulses (s : State) : Nat := P.u s 0x20
/-- `P.FCB_AMP`, Q13. -/
def P.fcbAmp (s : State) : Nat := P.u s 0x21
/-- `P.FCB_BASE`. -/
def P.fcbBase (s : State) : Nat := P.u s 0x22
/-- `P.FCB_C_STRIDE`. -/
def P.fcbStride (s : State) : Nat := P.u s 0x23
/-- `P.FCB_POSBITS`. -/
def P.fcbPosbits (s : State) : Nat := P.u s 0x24
/-- `P.FCB_NOREPEAT_MASK`, one word: no bit for pulses 32 and on (log entry 28). -/
def P.fcbNorepeatMask (s : State) : Nat := P.u s 0x25
/-- `P.SHARP_MODE`. -/
def P.sharpMode (s : State) : Nat := P.u s 0x26
/-- `P.SHARP_MIN`, Q14. -/
def P.sharpMin (s : State) : Nat := P.u s 0x27
/-- `P.SHARP_MAX`, Q14. -/
def P.sharpMax (s : State) : Nat := P.u s 0x28
/-- `P.GAIN_MODE`. -/
def P.gainMode (s : State) : Nat := P.u s 0x29
/-- `P.GAIN_CF_SIZE`. -/
def P.gainCfSize (s : State) : Nat := P.u s 0x2A
/-- `P.GAIN_GP_SIZE`. -/
def P.gainGpSize (s : State) : Nat := P.u s 0x2B
/-- `P.MA_ORDER`. -/
def P.maOrder (s : State) : Nat := P.u s 0x2C
/-- `P.MEAN_ENERGY`, i32 Q13 dB. -/
def P.meanEnergy (s : State) : Int := P.i32 s 0x2D
/-- `P.ENERGY_INIT`, i16 Q10 dB. -/
def P.energyInit (s : State) : Int := P.i16 s 0x2E
/-- `P.ERASE_ATT`, Q10 dB. -/
def P.eraseAtt (s : State) : Nat := P.u s 0x2F
/-- `P.ERASE_FLOOR`, i16 Q10 dB. -/
def P.eraseFloor (s : State) : Int := P.i16 s 0x30
/-- `P.DISP_T_LOW`, Q14 (R124). -/
def P.dispTLow (s : State) : Nat := P.u s 0x31
/-- `P.DISP_T_HIGH`, Q14. -/
def P.dispTHigh (s : State) : Nat := P.u s 0x32
/-- `P.DISP_MIN_GC`, Q1. -/
def P.dispMinGc (s : State) : Nat := P.u s 0x33
/-- `P.SYNTH_BOUND`. -/
def P.synthBound (s : State) : Nat := P.u s 0x34
/-- `P.RETRY_SHIFT`. -/
def P.retryShift (s : State) : Nat := P.u s 0x35
/-- `P.PF_LT_RANGE`. -/
def P.pfLtRange (s : State) : Nat := P.u s 0x36
/-- `P.PF_LT_GAMMA`, Q15. -/
def P.pfLtGamma (s : State) : Nat := P.u s 0x37
/-- `P.PF_TILT_NEG`, Q15. -/
def P.pfTiltNeg (s : State) : Nat := P.u s 0x38
/-- `P.PF_TILT_POS`, Q15. -/
def P.pfTiltPos (s : State) : Nat := P.u s 0x39
/-- `P.PF_AGC_ALPHA`, Q15. -/
def P.pfAgcAlpha (s : State) : Nat := P.u s 0x3A
/-- `P.PF_IR_LEN`. -/
def P.pfIrLen (s : State) : Nat := P.u s 0x3B
/-- `P.FEC_LSP_DECAY`, Q15. -/
def P.fecLspDecay (s : State) : Nat := P.u s 0x3C
/-- `P.FEC_GP_DECAY`, Q15. -/
def P.fecGpDecay (s : State) : Nat := P.u s 0x3D
/-- `P.FEC_GC_DECAY`, Q15. -/
def P.fecGcDecay (s : State) : Nat := P.u s 0x3E
/-- `P.MUTE_THRESHOLD`. -/
def P.muteThreshold (s : State) : Nat := P.u s 0x3F
/-- `P.FEC_PRNG_MUL`. -/
def P.fecPrngMul (s : State) : Nat := P.u s 0x40
/-- `P.FEC_PRNG_ADD`. -/
def P.fecPrngAdd (s : State) : Nat := P.u s 0x41
/-- `P.FEC_PRNG_SEED`. -/
def P.fecPrngSeed (s : State) : Nat := P.u s 0x42
/-- `P.FEC_VOICED_THR`, Q14. -/
def P.fecVoicedThr (s : State) : Nat := P.u s 0x43

/-! ## The profile tables (R125) -/

/-- An unsigned element of the table whose pointer is header word `ptr`. An index beyond the table, which no accepted
profile and frame bring about (R95), reads the word at that place (log entry 29). -/
def P.tabU (s : State) (ptr i : Nat) : Nat := (profWord s (P.u s ptr + i)).toNat

/-- An i16 element of the table whose pointer is header word `ptr`. -/
def P.tabI (s : State) (ptr i : Nat) : Int := wordI16 (profWord s (P.u s ptr + i))

/-- `SIZE` of LSP quantiser stage `st`. -/
def P.stSize (s : State) (st : Nat) : Nat := P.tabU s 0x50 (4 * st)
/-- `LO` of LSP quantiser stage `st`. -/
def P.stLo (s : State) (st : Nat) : Nat := P.tabU s 0x50 (4 * st + 1)
/-- `HI` of LSP quantiser stage `st`. -/
def P.stHi (s : State) (st : Nat) : Nat := P.tabU s 0x50 (4 * st + 2)
/-- `GRAY` of LSP quantiser stage `st`. -/
def P.stGray (s : State) (st : Nat) : Nat := P.tabU s 0x50 (4 * st + 3)

/-- Where the codebook of stage `st` starts in `LSP_CB`: `Σ_{t<st} SIZE_t·(HI_t − LO_t)`. For `st = LSP_STAGES` it is
the length of the table. -/
def P.cbBase (s : State) : Nat → Nat
  | 0 => 0
  | st + 1 => P.cbBase s st + P.stSize s st * (P.stHi s st - P.stLo s st)

/-- `LSP_CB_st[idx][j]`. -/
def P.lspCb (s : State) (st idx j : Nat) : Int :=
  P.tabI s 0x51 (P.cbBase s st + idx * (P.stHi s st - P.stLo s st) + j)

/-- `LSP_MEAN[i]`. -/
def P.lspMean (s : State) (i : Nat) : Int := P.tabI s 0x52 i
/-- `LSP_MA_COEF[set][j][i]`, Q15. -/
def P.lspMaCoef (s : State) (set j i : Nat) : Int :=
  P.tabI s 0x53 ((set * P.lspMaNp s + j) * P.order s + i)
/-- `LSP_INIT[i]`. -/
def P.lspInit (s : State) (i : Nat) : Nat := P.tabU s 0x54 i
/-- `LSP_DEFAULT[i]`. -/
def P.lspDefault (s : State) (i : Nat) : Nat := P.tabU s 0x55 i
/-- `INTERP_W[sf]`, Q15. -/
def P.interpW (s : State) (sf : Nat) : Nat := P.tabU s 0x56 sf
/-- `ACB_FILT[j]`, Q15. -/
def P.acbFilt (s : State) (j : Nat) : Int := P.tabI s 0x57 j
/-- `BITS` of pulse `k`. -/
def P.fcbBits (s : State) (k : Nat) : Nat := P.tabU s 0x58 (3 * k)
/-- `TAB_SIZE` of pulse `k`. -/
def P.fcbTabSize (s : State) (k : Nat) : Nat := P.tabU s 0x58 (3 * k + 1)
/-- `C_OFS` of pulse `k`. -/
def P.fcbCOfs (s : State) (k : Nat) : Nat := P.tabU s 0x58 (3 * k + 2)

/-- Where the position table of pulse `k` starts in `FCB_TAB`: `Σ_{j<k} TAB_SIZE_j`. -/
def P.fcbTabBase (s : State) : Nat → Nat
  | 0 => 0
  | k + 1 => P.fcbTabBase s k + P.fcbTabSize s k

/-- `FCB_TAB[k][m]`. -/
def P.fcbTab (s : State) (k m : Nat) : Nat := P.tabU s 0x59 (P.fcbTabBase s k + m)
/-- `GAIN_CF[i]`, Q12. -/
def P.gainCf (s : State) (i : Nat) : Nat := P.tabU s 0x5A i
/-- `GAIN_GP[i]`, Q14. -/
def P.gainGp (s : State) (i : Nat) : Nat := P.tabU s 0x5B i
/-- `MA_COEF[i]`, Q13. -/
def P.maCoef (s : State) (i : Nat) : Int := P.tabI s 0x5C i
/-- `DISP_FILT[f][n]`, Q15. -/
def P.dispFilt (s : State) (f n : Nat) : Int := P.tabI s 0x5D (f * P.sfLen s + n)
/-- `PF_GN_POW[i]`, Q15. -/
def P.pfGnPow (s : State) (i : Nat) : Nat := P.tabU s 0x5E i
/-- `PF_GD_POW[i]`, Q15. -/
def P.pfGdPow (s : State) (i : Nat) : Nat := P.tabU s 0x5F i

/-! ## Lengths derived from the profile -/

/-- `HIST_LEN` (R52). -/
def P.histLen (s : State) : Nat := P.pitchMax s + max (P.order s) (P.acbHalfLen s) + 1

/-- `RES_LEN` (R56). -/
def P.resLen (s : State) : Nat := P.pitchMax s + P.pfLtRange s

/-! ## The frame's parameters (R115) -/

/-- The word `F.CTRL`. -/
def F.ctrl (s : State) : Nat := (paramWord s 0x00).toNat
/-- `F.bad_frame`, bit 0 of `F.CTRL`. -/
def F.badFrame (s : State) : Bool := (F.ctrl s).testBit 0
/-- `F.frame_type`, bits 7:4 of `F.CTRL`. -/
def F.frameType (s : State) : Nat := F.ctrl s / 16 % 16
/-- `F.lsp_idx[st]`. PARAM space has words for `st < 5`; with `CAP_LSP_STAGES` above 5 the spec gives no word for the
others, and the model goes on counting: DESIGN CHOICE, unsafe for such a block (log entry 28). -/
def F.lspIdx (s : State) (st : Nat) : Nat := (paramWord s (0x01 + st)).toNat
/-- `F.lsp_ma_sel`. -/
def F.lspMaSel (s : State) : Nat := (paramWord s 0x06).toNat
/-- Word `k` of the record of subframe `sf`. -/
def F.sfWord (s : State) (sf k : Nat) : Nat := (paramWord s (0x08 + 8 * sf + k)).toNat
/-- `F.sf[sf].pitch_idx`. -/
def F.pitchIdx (s : State) (sf : Nat) : Nat := F.sfWord s sf 0
/-- `F.sf[sf].gain_idx_a`. -/
def F.gainIdxA (s : State) (sf : Nat) : Nat := F.sfWord s sf 1
/-- `F.sf[sf].gain_idx_b`. -/
def F.gainIdxB (s : State) (sf : Nat) : Nat := F.sfWord s sf 2
/-- `F.sf[sf].fcb_code`, the two halves joined. -/
def F.fcbCode (s : State) (sf : Nat) : Nat := F.sfWord s sf 4 * 2 ^ 32 + F.sfWord s sf 3
/-- `F.sf[sf].fcb_sign`. -/
def F.fcbSign (s : State) (sf : Nat) : Nat := F.sfWord s sf 5

end Sys2Proof.Machine
end

