-- ==== Sys2Proof/Machine/Sequence.lean ====
section
/-! DEFINITION. The order of the stages inside DECODE (R158): where the sequencer goes after a stage, where that
depends on the profile or on a working register. -/

namespace Sys2Proof.Machine

/-- The head of the loop `for sf in 0 .. P.NSF-1`: the next subframe, or FRAME_COMMIT when none is left. -/
def State.toSubframe (s : State) (sf : Nat) : State :=
  if sf < P.nsf s then s.goto .lspInterp sf false else s.goto .frameCommit 0 false

/-- The pitch stage of a subframe. -/
def pitchStage (s : State) (erased : Bool) (sf : Nat) : Instr :=
  if erased then .pitchConceal
  else if (P.pitchAbsMask s).testBit sf then .pitchAbs
  else .pitchRel

/-- The fixed-codebook stage of a subframe; no rule gives one for a family above 3. -/
def fcbStage (s : State) (erased : Bool) : Option Instr :=
  if erased then some .fcbConceal
  else match P.fcbFamily s with
    | 0 => some .fcbTrack
    | 1 => some .fcbGray
    | 2 => some .fcbBaseb
    | 3 => some .fcbExpl
    | _ => none

/-- The gain stage of a subframe. -/
def gainStage (erased : Bool) : Instr := if erased then .gainConceal else .gainDec

/-- After GAIN_UPD: PHASE_DISP when `P.DISP_EN = 1`, else EXC_MIX. -/
def dispStage (s : State) : Instr := if P.dispEn s then .phaseDisp else .excMix

/-- After SF_COMMIT: the postfilter when `P.PF_EN = 1`, else OUT. -/
def postStage (s : State) : Instr := if P.pfEn s then .pfResid else .out

end Sys2Proof.Machine
end

