-- ==== Sys2Proof/Machine/Fcb.lean ====
section
/-! DEFINITION. Fixed-codebook sparse-pulse reconstructor (44_fcb.md): FCB_TRACK, FCB_GRAY, FCB_BASEB, FCB_EXPL. -/

namespace Sys2Proof.Machine

/-- Pulses `k, k+1, …` of `TrackPositions(code, gray)`, `off` bits into the code (R217, R218). -/
def trackFrom (s : State) (gray : Bool) (code : Nat) : Nat → Nat → Nat → Option (List Nat)
  | 0, _, off => if code >>> off = 0 then some [] else none
  | n + 1, k, off =>
    let b := P.fcbBits s k
    let raw := (code >>> off) % 2 ^ b
    let fld := if gray then grayDecode raw else raw
    if P.fcbTabSize s k ≤ fld then none
    else (trackFrom s gray code n (k + 1) (off + b)).map (P.fcbTab s k fld :: ·)

/-- `TrackPositions(code, gray)` (R217, R218). -/
def trackPositions (s : State) (gray : Bool) (code : Nat) : Option (List Nat) :=
  trackFrom s gray code (P.fcbNpulses s) 0 0

/-- Pulses `k, k+1, …` of `BaseBPositions`, from what is left of the code (R219). With a base of 0, which INIT refuses,
digits and quotients are free (log entry 29). -/
def baseBFrom (s : State) : Nat → Nat → Nat → Option (List Nat)
  | 0, _, x => if x = 0 then some [] else none
  | n + 1, k, x =>
    (baseBFrom s n (k + 1) (natDiv x (P.fcbBase s))).map
      ((P.fcbStride s * natMod x (P.fcbBase s) + P.fcbCOfs s k) :: ·)

/-- `BaseBPositions(code)` (R219). -/
def baseBPositions (s : State) (code : Nat) : Option (List Nat) :=
  baseBFrom s (P.fcbNpulses s) 0 code

/-- Pulses `k, k+1, …` of `ExplicitPositions` (R220). -/
def explicitFrom (s : State) (code : Nat) : Nat → Nat → Option (List Nat)
  | 0, k => if code >>> (k * P.fcbPosbits s) = 0 then some [] else none
  | n + 1, k =>
    let q := (code >>> (k * P.fcbPosbits s)) % 2 ^ P.fcbPosbits s
    if P.sfLen s ≤ q then none
    else (explicitFrom s code n (k + 1)).map (q :: ·)

/-- `ExplicitPositions(code)` (R220). -/
def explicitPositions (s : State) (code : Nat) : Option (List Nat) :=
  explicitFrom s code (P.fcbNpulses s) 0

/-- The positions by family (R222); there is no family above 3. -/
def fcbPositions (s : State) (family code : Nat) : Option (List Nat) :=
  match family with
  | 0 => trackPositions s false code
  | 1 => trackPositions s true code
  | 2 => baseBPositions s code
  | 3 => explicitPositions s code
  | _ => none

/-- The amplitude of pulse `k`: `+A` where bit `k` of the sign word is set, else `-A` (R223). With `CAP_PULSES` above 32
the 32-bit sign word has no bit for pulses 32 and on, and the model takes it as 0: DESIGN CHOICE, unsafe for such a block
(log entry 28). -/
def fcbAmpOf (s : State) (sign k : Nat) : Int :=
  if sign.testBit k then (P.fcbAmp s : Int) else -(P.fcbAmp s : Int)

/-- The two ways `FcbDecode` fails (R222). -/
inductive FcbFail
  | code
  | sign
deriving DecidableEq, Repr

/-- `FcbDecode(code, sign)` in a given family: the code is examined before the sign word (R222). -/
def fcbDecode (s : State) (family code sign : Nat) : Except FcbFail (List Nat × List Int) :=
  match fcbPositions s family code with
  | none => .error .code
  | some pos =>
    if sign >>> P.fcbNpulses s ≠ 0 then .error .sign
    else .ok (pos, tab (P.fcbNpulses s) fun k => fcbAmpOf s sign k)

/-- `W.SP` with its pitch-repeat parameters (R216, R222). -/
def sparseOf (s : State) (pos : List Nat) (amp : List Int) (lag : Int) : SparseVec :=
  { n := P.fcbNpulses s, pos := pos, amp := amp, lag := lag, fac := s.wrk.sharpBeta,
    mask := P.fcbNorepeatMask s }

/-- Writes `W.SP` and goes on to FCB_BUILD. The lag is read only where the profile sharpens (R216). -/
def sparseInto (s : State) (pos : List Nat) (amp : List Int) : Out :=
  let put := fun (lag : Int) =>
    Host.Outcome.next ((s.setW { s.w with sp := some (sparseOf s pos amp lag) }).goto .fcbBuild s.sf false)
  if P.sharpMode s = 0 then put 0 else need .tInt s.w.tInt put

/-- The body the four decoder stages share (R222). -/
def fcbInto (s : State) (family : Nat) : Out :=
  match fcbDecode s family (F.fcbCode s s.sf) (F.fcbSign s s.sf) with
  | .error _ => .fault .notValidated
  | .ok (pos, amp) => sparseInto s pos amp

/-- `FCB_TRACK`, family 0 (R217). -/
def execFcbTrack (s : State) : Out := fcbInto s 0

/-- `FCB_GRAY`, family 1 (R218). -/
def execFcbGray (s : State) : Out := fcbInto s 1

/-- `FCB_BASEB`, family 2 (R219). -/
def execFcbBaseb (s : State) : Out := fcbInto s 2

/-- `FCB_EXPL`, family 3 (R220). -/
def execFcbExpl (s : State) : Out := fcbInto s 3

end Sys2Proof.Machine
end

