-- ==== Sys2Proof/Machine/Lsp.lean ====
section
/-! DEFINITION. LSP coefficient decoder, interpolator and LSP-to-LPC converter (41_lsp.md): LSF_DEC, LSF_STAB, LSF2LSP,
LSP_INTERP, LSP2LPC. -/

namespace Sys2Proof.Machine

/-- The cosine table, the block's one built-in table (R177). -/
def cosTab : List Int :=
  [ 32767,  32728,  32609,  32412,  32137,  31785,  31356,  30852,
    30273,  29621,  28898,  28105,  27245,  26319,  25329,  24279,
    23170,  22005,  20787,  19519,  18204,  16846,  15446,  14010,
    12539,  11039,   9512,   7962,   6393,   4808,   3212,   1608,
        0,  -1608,  -3212,  -4808,  -6393,  -7962,  -9512, -11039,
   -12539, -14010, -15446, -16846, -18204, -19519, -20787, -22005,
   -23170, -24279, -25329, -26319, -27245, -28105, -28898, -29621,
   -30273, -30852, -31356, -31785, -32137, -32412, -32609, -32728,
   -32767]

/-- `COS(x)` (R177). -/
def cosQ15 (x : Int) : Int :=
  let k := asr x 9
  let off := x % 512
  elem cosTab k + asr ((elem cosTab (k + 1) - elem cosTab k) * off) 9

/-- The codebook index of quantiser stage `st`, gray-decoded where the stage says so (R171). -/
def lspIndex (s : State) (st : Nat) : Nat :=
  if P.stGray s st = 1 then grayDecode (F.lspIdx s st) else F.lspIdx s st

/-- The residual of coefficient `i` before saturation: the sum over the first `n` quantiser stages (R171). -/
def lsfResidual (s : State) (i : Nat) : Nat → Int
  | 0 => 0
  | st + 1 =>
    lsfResidual s i st +
      (if P.stLo s st ≤ i ∧ i < P.stHi s st then P.lspCb s st (lspIndex s st) (i - P.stLo s st) else 0)

/-- Element `i` of history vector `j`, `S.lsf_ma_hist[j][i]`. -/
def maHist (d : DecState) (j i : Nat) : Int := elem ((d.lsfMaHist[j]?).getD []) i

/-- `LsfPred(sel, i)` (R172). -/
def lsfPred (s : State) (sel i : Nat) : Int :=
  if P.lspPredMode s = 0 then P.lspMean s i
  else P.lspMean s i
    + asr (sumTo (P.lspMaNp s) fun j => P.lspMaCoef s sel j i * maHist s.wrk j i) 15

/-- `LSF_DEC` (R171). -/
def execLsfDec (s : State) : Out :=
  let p := P.order s
  let res := tab p fun i => sat16 (lsfResidual s i (P.lspStages s))
  let pred := tab p fun i => lsfPred s (F.lspMaSel s) i
  let lsf := tab p fun i => sat16 (elem res i + elem pred i)
  .next ((s.setW { s.w with res := some res, pred := some pred, lsf := some lsf }).goto .lsfStab 0 false)

/-- Pass 1 of LSF_STAB, the ascending scan that pushes a close pair apart; `a` is the element before the list
(R173). -/
def pushApart (d a : Int) : List Int → List Int
  | [] => [a]
  | b :: rest =>
    if 0 < a + d - b then
      let h := asr (a + d - b) 1
      (a - h) :: pushApart d (b + h) rest
    else a :: pushApart d b rest

/-- Pass 1 on the whole vector. -/
def stabPass1 (d : Int) : List Int → List Int
  | [] => []
  | a :: rest => pushApart d a rest

/-- Pass 2 of LSF_STAB, the floor from below (R173). -/
def stabPass2 (d : Int) : Int → List Int → List Int
  | _, [] => []
  | m, x :: rest =>
    let y := if x < m then m else x
    y :: stabPass2 d (y + d) rest

/-- Pass 3 of LSF_STAB on the vector read from its end, the ceiling from above (R173). -/
def stabPass3 (d : Int) : Int → List Int → List Int
  | _, [] => []
  | m, x :: rest =>
    let y := if m < x then m else x
    y :: stabPass3 d (y - d) rest

/-- The three passes of LSF_STAB (R173). -/
def stabilise (d lower upper : Int) (x : List Int) : List Int :=
  (stabPass3 d upper (stabPass2 d lower (stabPass1 d x)).reverse).reverse

/-- Every gap of the vector is at least `d`. -/
def gapsOk (d : Int) : List Int → Bool
  | a :: b :: rest => decide (d ≤ b - a) && gapsOk d (b :: rest)
  | _ => true

/-- The check that ends LSF_STAB: first element, last element, gaps (R173). -/
def lsfStable (d lower upper : Int) (x : List Int) : Bool :=
  decide (lower ≤ elem x 0) && decide (elem x ((x.length : Int) - 1) ≤ upper) && gapsOk d x

/-- `LSF_STAB` (R173). -/
def execLsfStab (s : State) : Out :=
  need .lsf s.w.lsf fun lsf =>
    let x := stabilise (P.minSpacing s) (P.lsfLower s) (P.lsfUpper s) lsf
    if lsfStable (P.minSpacing s) (P.lsfLower s) (P.lsfUpper s) x then
      .next ((s.setW { s.w with lsf := some x }).goto .lsf2lsp 0 false)
    else
      .next (s.raise { code := .internalInvariant, stage := .lsfStab, sf := 0, field := 0, value := 0 })

/-- `LSF2LSP` (R176). -/
def execLsf2lsp (s : State) : Out :=
  need .lsf s.w.lsf fun lsf =>
    let q := tab (P.order s) fun i => cosQ15 (elem lsf i)
    .next ((s.setW { s.w with lspq := some q }).toSubframe 0)

/-- `LSP_INTERP` (R179). -/
def execLspInterp (s : State) : Out :=
  need .lspq s.w.lspq fun lspq =>
    let w : Int := P.interpW s s.sf
    let q := tab (P.order s) fun i => asr (w * elem lspq i + (32768 - w) * elem s.wrk.prevLsp i) 15
    .next ((s.setW { s.w with lspi := some q }).goto .lsp2lpc s.sf false)

/-- One turn `i` of the outer loop of `LspPoly` with `q = lsp[o + 2i - 2]`: from the coefficients `f[0..i-1]` to
`f[0..i]`. The inner loop runs downwards, so every element on the right is of the turn before (R182). -/
def lspPolyStep (q : Int) (i : Nat) (f : List Int) : List Int :=
  tab (i + 1) fun j =>
    if j = 0 then elem f 0
    else if j = 1 then elem f 1 - q * 256
    else
      let old := if j = i then elem f ((i : Int) - 2) else elem f j
      old - (asr (elem f ((j : Int) - 1) * q) 14 - elem f ((j : Int) - 2))

/-- `LspPoly(lsp, o, h)` for `h ≥ 1`, by turns (R182). -/
def lspPoly (lsp : List Int) (o : Nat) : Nat → List Int
  | 0 => [0x400000]
  | 1 => [0x400000, -(elem lsp o) * 256]
  | h + 2 => lspPolyStep (elem lsp ((o : Int) + 2 * (h + 2) - 2)) (h + 2) (lspPoly lsp o (h + 1))

/-- The coefficients `W.LPC[0..p]` of a vector of `p` LSPs (R181). -/
def lsp2lpc (p : Nat) (lsp : List Int) : List Int :=
  let h := p / 2
  let f1 := lspPoly lsp 0 h
  let f2 := lspPoly lsp 1 h
  let ff1 := fun (i : Nat) => elem f1 i + elem f1 ((i : Int) - 1) + 1024
  let ff2 := fun (i : Nat) => elem f2 i - elem f2 ((i : Int) - 1)
  tab (p + 1) fun k =>
    if k = 0 then 4096
    else if k ≤ h then sat16 (asr (ff1 k + ff2 k) 11)
    else sat16 (asr (ff1 (p + 1 - k) - ff2 (p + 1 - k)) 11)

/-- `LSP2LPC` (R181). -/
def execLsp2lpc (s : State) : Out :=
  need .lspi s.w.lspi fun lspi =>
  need .erased s.w.erased fun erased =>
    .next ((s.setW { s.w with lpc := some (lsp2lpc (P.order s) lspi) }).goto
      (pitchStage s erased s.sf) s.sf false)

end Sys2Proof.Machine
end

