-- ==== Sys2Proof/Machine/Pitch.lean ====
section
/-! DEFINITION. Pitch-delay decoder (42_pitch.md): PITCH_ABS, PITCH_REL. -/

namespace Sys2Proof.Machine

/-- `PitchAbsT(idx)`, the two-piece linear law (R193). -/
def pitchAbsT (s : State) (idx : Nat) : Int :=
  let k : Int := idx + P.absBias s
  if k ≤ P.absThresh s then k else P.pitchRes s * k - P.absSub s

/-- The base of the differential search window (R195), free where the window is empty, which check 0x62 excludes. -/
def pitchTmin (s : State) (prev : Int) : Int :=
  clip (prev - P.winBack s) (P.pitchMin s) (P.pitchMax s - P.winMargin s)

/-- `PitchRelT(idx, prev)` (R195). -/
def pitchRelT (s : State) (idx : Nat) (prev : Int) : Int :=
  let tmin := pitchTmin s prev
  let r : Int := P.pitchRes s
  if P.relMode s = 0 then r * tmin + idx - P.relOffs s
  else if idx < P.relZ1 s then r * (idx + tmin)
  else if idx < P.relZ2 s then r * tmin + idx + P.relZbAdd s
  else r * (idx + tmin) - P.relZcSub s

/-- `PitchDecode` by the absolute or the differential law: `(T_INT, T_FRAC)`, or `none` where it fails (R191). -/
def pitchDecodeBy (s : State) (abs : Bool) (idx : Nat) (prev : Int) : Option (Int × Int) :=
  let bits := if abs then P.absBits s else P.relBits s
  let r : Int := P.pitchRes s
  let t := if abs then pitchAbsT s idx else pitchRelT s idx prev
  if 2 ^ bits ≤ idx then none
  else if t < r * P.pitchMin s then none
  else if r * P.pitchMax s + (r - 1) < t then none
  else some (floorDiv t r, floorMod t r)

/-- `PitchDecode(sf, idx, prev)`: the profile's mask says which law the subframe uses (R191). -/
def pitchDecode (s : State) (sf idx : Nat) (prev : Int) : Option (Int × Int) :=
  pitchDecodeBy s ((P.pitchAbsMask s).testBit sf) idx prev

/-- Writes a decoded delay and goes on to ACB_INTERP. -/
def pitchInto (s : State) (v : Option (Int × Int)) : Out :=
  match v with
  | none => .fault .notValidated
  | some (ti, tf) =>
    .next ((s.setW { s.w with tInt := some ti, tFrac := some tf }).goto .acbInterp s.sf false)

/-- `PITCH_ABS` (R192): the stage runs in the subframes the mask marks, so the law is the absolute one. -/
def execPitchAbs (s : State) : Out :=
  pitchInto s (pitchDecodeBy s true (F.pitchIdx s s.sf) s.wrk.prevLagInt)

/-- `PITCH_REL` (R194): the stage runs in the other subframes, so the law is the differential one. -/
def execPitchRel (s : State) : Out :=
  pitchInto s (pitchDecodeBy s false (F.pitchIdx s s.sf) s.wrk.prevLagInt)

end Sys2Proof.Machine
end

