-- ==== Sys2Proof/Machine/ProfileCheck.lean ====
section
/-! DEFINITION. The numbered checks of INIT, which define a well-formed profile (R153, with the legal ranges of R121 to
R126). -/

namespace Sys2Proof.Machine

/-- `lo ≤ v ≤ hi`. -/
def inRange (v lo hi : Nat) : Bool := decide (lo ≤ v) && decide (v ≤ hi)

/-- The legal range of the scalar header field at an offset, checks 0x00 to 0x43; fields that the selected family or
`PF_EN` does not use pass (R121 to R124). -/
def headerOk (s : State) (off : Nat) : Bool :=
  let v := P.u s off
  match off with
  | 0x00 => inRange v 2 s.caps.order && decide (v % 2 = 0)
  | 0x01 => inRange v 1 s.caps.sfLen
  | 0x02 => inRange v 1 s.caps.nsf
  | 0x03 => inRange v 1 0xFFFF
  | 0x04 => decide (v < 32)
  | 0x05 => inRange v 1 s.caps.lspStages
  | 0x06 => decide (v ≤ 1)
  | 0x07 => decide (v ≤ s.caps.lspMaNp)
  | 0x08 => decide (v ≤ s.caps.lspMaSets)
  | 0x09 => decide (v ≤ 32767)
  | 0x0A => decide (v ≤ 32767)
  | 0x0B => decide (v ≤ 32767)
  | 0x0C => inRange v 1 1023
  | 0x0D => inRange v 1 1023
  | 0x0E => decide (v = 3) || decide (v = 6)
  | 0x0F => decide (v < 2 ^ P.nsf s)
  | 0x10 => inRange v 1 16
  | 0x11 => decide (v ≤ 65535)
  | 0x12 => decide (v ≤ 65535)
  | 0x13 => decide (v ≤ 65535)
  | 0x14 => inRange v 1 16
  | 0x15 => decide (v ≤ 1)
  | 0x16 => decide (v ≤ 65535)
  | 0x17 => decide (v ≤ 65535)
  | 0x18 => decide (v ≤ 65535)
  | 0x19 => decide (v ≤ 65535)
  | 0x1A => decide (v ≤ 65535)
  | 0x1B => decide (v ≤ 1023)
  | 0x1C => decide (v ≤ 1023)
  | 0x1D => inRange v 1 64
  | 0x1E => inRange v 1 32
  | 0x1F => decide (v ≤ 3)
  | 0x20 => inRange v 1 s.caps.pulses
  | 0x21 => inRange v 1 32767
  | 0x22 => decide (P.fcbFamily s ≠ 2) || inRange v 2 s.caps.sfLen
  | 0x23 => decide (P.fcbFamily s ≠ 2) || inRange v 1 s.caps.sfLen
  | 0x24 => decide (P.fcbFamily s ≠ 3) || inRange v 1 7
  | 0x25 => decide (v < 2 ^ P.fcbNpulses s)
  | 0x26 => decide (v ≤ 2)
  | 0x27 => decide (v ≤ 32767)
  | 0x28 => decide (v ≤ 32767)
  | 0x29 => decide (v ≤ 1)
  | 0x2A => inRange v 1 4096
  | 0x2B => inRange v 1 4096
  | 0x2C => inRange v 1 s.caps.maOrder
  | 0x2D => decide (-2097152 ≤ P.meanEnergy s) && decide (P.meanEnergy s ≤ 2097151)
  | 0x2E => true
  | 0x2F => decide (v ≤ 32767)
  | 0x30 => true
  | 0x31 => decide (v ≤ 32767)
  | 0x32 => decide (v ≤ 32767)
  | 0x33 => decide (v ≤ 32767)
  | 0x34 => inRange v 1 32767
  | 0x35 => decide (v ≤ 15)
  | 0x36 => decide (v ≤ 15)
  | 0x37 => decide (v ≤ 32767)
  | 0x38 => decide (v ≤ 32767)
  | 0x39 => decide (v ≤ 32767)
  | 0x3A => decide (v ≤ 32767)
  | 0x3B => !P.pfEn s || inRange v 2 64
  | 0x3C => decide (v ≤ 32768)
  | 0x3D => decide (v ≤ 32768)
  | 0x3E => decide (v ≤ 32768)
  | 0x3F => decide (v ≤ 255)
  | 0x40 => decide (v ≤ 65535)
  | 0x41 => decide (v ≤ 65535)
  | 0x42 => decide (v ≤ 65535)
  | 0x43 => decide (v ≤ 32767)
  | _ => true

/-- "Table in range": `0x60 ≤ ptr` and `ptr + length ≤ CAP_PROFILE_WORDS` (R153), for the pointer at header word
`ptr`. -/
def tableOk (s : State) (ptr len : Nat) : Bool :=
  decide (0x60 ≤ P.u s ptr) && decide (P.u s ptr + len ≤ s.caps.profileWords)

/-- A condition on every index below `n`. -/
def allBelow (n : Nat) (p : Nat → Bool) : Bool := (List.range n).all p

/-- The sum of the field widths of the pulses, `Σ BITS`. -/
def fcbBitsSum (s : State) (n : Nat) : Nat :=
  match n with
  | 0 => 0
  | k + 1 => fcbBitsSum s k + P.fcbBits s k

/-- Check 0x71, one quantiser stage descriptor. -/
def stageDescOk (s : State) (st : Nat) : Bool :=
  inRange (P.stSize s st) 1 4096 && decide (P.stLo s st < P.stHi s st)
    && decide (P.stHi s st ≤ P.order s) && decide (P.stGray s st ≤ 1)

/-- Check 0x76, the contents of `LSP_INIT`. -/
def lspInitOk (s : State) : Bool :=
  let p := P.order s
  allBelow p (fun i => decide (P.lspInit s i ≤ 32767))
    && decide (P.lsfLower s ≤ P.lspInit s 0)
    && allBelow (p - 1) (fun i => decide (P.lspInit s i + P.minSpacing s ≤ P.lspInit s (i + 1)))
    && decide (P.lspInit s (p - 1) ≤ P.lsfUpper s)

/-- Check 0x7D, the contents of the pulse descriptors, by family. -/
def fcbDescOk (s : State) : Bool :=
  let n := P.fcbNpulses s
  match P.fcbFamily s with
  | 2 => allBelow n fun k => decide (P.fcbCOfs s k + P.fcbStride s * (P.fcbBase s - 1) ≤ P.sfLen s - 1)
  | 3 => true
  | f =>
    decide (1 < f)
      || (allBelow n (fun k => decide (P.fcbBits s k ≤ 16) && inRange (P.fcbTabSize s k) 1 (2 ^ P.fcbBits s k))
        && decide (fcbBitsSum s n ≤ 64))

/-- Whether the table of check number `c` is used and holds: the condition of the check, with "skipped" as true
(R153). -/
def checkHolds (s : State) (c : Nat) : Bool :=
  if c ≤ 0x43 then headerOk s c
  else if c ≤ 0x4F then decide (P.u s c = 0)
  else match c with
  | 0x60 =>
    (decide (P.lspPredMode s = 0) && decide (P.lspMaNp s = 0) && decide (P.lspMaSets s = 0))
      || (decide (P.lspPredMode s = 1) && decide (1 ≤ P.lspMaNp s) && decide (1 ≤ P.lspMaSets s))
  | 0x61 => decide (P.lsfLower s + (P.order s - 1) * P.minSpacing s ≤ P.lsfUpper s)
  | 0x62 => decide (P.pitchMin s + P.winMargin s ≤ P.pitchMax s)
  | 0x63 => decide (P.acbHalfLen s ≤ P.pitchMin s)
  | 0x64 =>
    decide (P.pitchMax s + max (P.order s) (P.acbHalfLen s) + 1 ≤ s.caps.hist)
      && decide (P.pitchMax s + P.pfLtRange s ≤ 1024)
  | 0x65 => decide (P.acbPrec s % P.pitchRes s = 0)
  | 0x66 => decide (P.relMode s = 0) || decide (P.relZ1 s ≤ P.relZ2 s)
  | 0x67 => decide (P.sharpMin s ≤ P.sharpMax s)
  | 0x68 => decide (P.dispTLow s ≤ P.dispTHigh s)
  | 0x69 =>
    match P.fcbFamily s with
    | 2 => decide (P.fcbBase s ^ P.fcbNpulses s ≤ 2 ^ 64)
    | 3 => decide (P.fcbNpulses s * P.fcbPosbits s ≤ 64)
    | _ => true
  | 0x70 => tableOk s 0x50 (4 * P.lspStages s)
  | 0x71 => allBelow (P.lspStages s) (stageDescOk s)
  | 0x72 => tableOk s 0x51 (P.cbBase s (P.lspStages s))
  | 0x73 => tableOk s 0x52 (P.order s)
  | 0x74 => decide (P.lspPredMode s ≠ 1) || tableOk s 0x53 (P.lspMaSets s * P.lspMaNp s * P.order s)
  | 0x75 => tableOk s 0x54 (P.order s)
  | 0x76 => lspInitOk s
  | 0x77 => tableOk s 0x55 (P.order s)
  | 0x78 => allBelow (P.order s) fun i => decide (P.lspDefault s i ≤ 32767)
  | 0x79 => tableOk s 0x56 (P.nsf s)
  | 0x7A => allBelow (P.nsf s) fun i => decide (P.interpW s i ≤ 32768)
  | 0x7B => tableOk s 0x57 (P.acbPrec s * P.acbHalfLen s + 1)
  | 0x7C => tableOk s 0x58 (3 * P.fcbNpulses s)
  | 0x7D => fcbDescOk s
  | 0x7E => decide (1 < P.fcbFamily s) || tableOk s 0x59 (P.fcbTabBase s (P.fcbNpulses s))
  | 0x7F =>
    decide (1 < P.fcbFamily s)
      || allBelow (P.fcbTabBase s (P.fcbNpulses s)) fun m => decide (P.tabU s 0x59 m ≤ P.sfLen s - 1)
  | 0x80 => tableOk s 0x5A (P.gainCfSize s)
  | 0x81 => allBelow (P.gainCfSize s) fun i => decide (P.gainCf s i ≤ 32767)
  | 0x82 => tableOk s 0x5B (P.gainGpSize s)
  | 0x83 => allBelow (P.gainGpSize s) fun i => decide (P.gainGp s i ≤ 32767)
  | 0x84 => tableOk s 0x5C (P.maOrder s)
  | 0x85 => !P.dispEn s || tableOk s 0x5D (2 * P.sfLen s)
  | 0x86 => !P.pfEn s || tableOk s 0x5E (P.order s)
  | 0x87 => !P.pfEn s || allBelow (P.order s) fun i => decide (P.pfGnPow s i ≤ 32767)
  | 0x88 => !P.pfEn s || tableOk s 0x5F (P.order s)
  | 0x89 => !P.pfEn s || allBelow (P.order s) fun i => decide (P.pfGdPow s i ≤ 32767)
  | _ => true

/-- The checks in the order they are evaluated: ascending (R153). Numbers the table of R153 does not list hold
always. -/
def checkNumbers : List Nat := List.range 0x8A

/-- The first check that fails; `none` for a well-formed profile (R153). -/
def failedCheck (s : State) : Option Nat := checkNumbers.find? fun c => !checkHolds s c

/-- `ERRINFO.VALUE` of a failed check: the header word for checks 0x00 to 0x4F, else 0 (R153). -/
def checkValue (s : State) (c : Nat) : Nat := if c ≤ 0x4F then P.u s c else 0

/-- A well-formed profile (R153). -/
def profileOk (s : State) : Bool := (failedCheck s).isNone

end Sys2Proof.Machine
end

