-- ==== Sys2Proof/Machine/HostCommands.lean ====
section
/-! DEFINITION. The host commands NOP, INIT, DECODE, RESET and the illegal command word, and the stages of the frame that
belong to no codec component: IDLE, CHECK, OUT, FRAME_COMMIT (40_host_commands.md, R112). Each command's meaning runs
after its acceptance (R150), which is the host's write to `CSR[CMD]`. -/

namespace Sys2Proof.Machine

/-! ## Commands -/

/-- `NOP` (R151): nothing but the end of the command. -/
def execNop (s : State) : Out := .next s.endCommand

/-- The DecoderState a successful INIT creates (R51 to R57, R343). -/
def initState (s : State) : DecState :=
  let p := P.order s
  { prevLsf := tab p fun i => (P.lspInit s i : Int)
    prevLsp := tab p fun i => cosQ15 (P.lspInit s i)
    lsfMaHist :=
      if P.lspPredMode s = 0 then [] else List.replicate (P.lspMaNp s) (List.replicate p 0)
    excHist := List.replicate (P.histLen s) 0
    energyHist := List.replicate (P.maOrder s) (P.energyInit s)
    gpHist := List.replicate s.caps.gainHistLen 0
    gcHist := List.replicate s.caps.gainHistLen 0
    sharpBeta := P.sharpMin s
    prevLagInt := P.pitchMin s
    dispOnset := 0
    dispPrevFilt := 0
    dispPrevGc := 0
    synMem := List.replicate p 0
    pfFirMem := List.replicate p 0
    pfIirMem := List.replicate p 0
    pfResHist := List.replicate (P.resLen s) 0
    pfTiltMem := 0
    pfAgcGain := 4096
    erasureRun := 0
    prngSeed := P.fecPrngSeed s }

/-- A successful INIT (R152 step 3): `S` gets its values after INIT, the profile is latched by `INITED`, and PCM
space stays unspecified. -/
def State.initialise (s : State) : State :=
  { s.dropPcm with
    dec := initState s
    wrk := initState s
    pcmlen := BitVec.ofNat 32 (P.nsf s * P.sfLen s)
    status := { s.status with inited := true, erun := 0#8 } }

/-- `INIT` (R152). -/
def execInit (s : State) : Out :=
  if s.status.inited then
    .next (s.raise { code := .alreadyInitialized, stage := .idle, sf := 0, field := 0, value := 0 })
  else
    match failedCheck s with
    | some c =>
      .next (s.raise { code := .badProfile, stage := .idle, sf := 0, field := c, value := checkValue s c })
    | none => .next s.initialise.endCommand

/-- The start of a DECODE on an initialised block (R155 step 2): the working copy starts equal to `S` (R58), no
working register holds a value (R23), and the sequencer goes to CHECK. -/
def State.startDecode (s : State) : State :=
  { s.dropPcm with cmd := none, wrk := s.dec, w := Work.none }.goto .check 0 false

/-- `DECODE` (R155): it ends in NotInitialized, or it starts the stage sequence of R158, which the stages go on
with. PCM space is unspecified from here until the frame ends without error (R62). -/
def execDecode (s : State) : Out :=
  if s.status.inited then .next s.startDecode
  else .next (s.dropPcm.raise { code := .notInitialized, stage := .idle, sf := 0, field := 0, value := 0 })

/-- `RESET` (R161). PROFILE and PARAM space keep their contents; `S` and PCM space become unspecified. -/
def execReset (s : State) : Out :=
  .next { s.dropPcm with
    status := Status.zero, seq := 0x00#8, errinfo := 0#32, ie := false, pcmlen := 0#32, cmd := none,
    w := Work.none, dec := DecState.blank, wrk := DecState.blank }

/-- The illegal command word (R112, R150): it ends at once with IllegalCommand and the low 16 bits of the word. -/
def execIllegal (op : BitVec 4) (zero : BitVec 28) (s : State) : Out :=
  .next (s.raise { code := .illegalCommand, stage := .idle, sf := 0, field := 0,
                   value := (zero ++ op).toNat % 65536 })

/-! ## Stages outside the codec components -/

/-- `IDLE` (R154): no operation, no state read or written. -/
def execIdle (s : State) : Out := .next s

/-- Every used field of the frame equals 0 (R116, R157). -/
def frameIsZero (s : State) : Bool :=
  allBelow (P.lspStages s) (fun st => decide (F.lspIdx s st = 0))
    && (decide (P.lspPredMode s ≠ 1) || decide (F.lspMaSel s = 0))
    && allBelow (P.nsf s) fun sf =>
      decide (F.pitchIdx s sf = 0) && decide (F.gainIdxA s sf = 0)
        && (decide (P.gainMode s ≠ 1) || decide (F.gainIdxB s sf = 0))
        && decide (F.fcbCode s sf = 0) && decide (F.fcbSign s sf = 0)

/-- `W.erased` (R157). -/
def frameErased (s : State) : Bool := F.badFrame s || (P.zeroIsErasure s && frameIsZero s)

/-- `W.run` (R157). -/
def frameRun (s : State) : Nat := if frameErased s then min 255 (s.wrk.erasureRun + 1) else 0

/-- `W.muted` (R157). -/
def frameMuted (s : State) : Bool :=
  frameErased s && decide (0 < P.muteThreshold s) && decide (P.muteThreshold s ≤ frameRun s)

/-- An InvalidParameter error of CHECK (R156, R308). -/
def badParam (sf field value : Nat) : Raise :=
  { code := .invalidParameter, stage := .check, sf := sf, field := field, value := value }

/-- Steps 1 and 2 of CHECK: the reserved bits of `F.CTRL`, then the frame type (R156). -/
def checkHead (s : State) : Option Raise :=
  if F.ctrl s / 2 % 8 ≠ 0 ∨ 256 ≤ F.ctrl s then some (badParam 0 0 (F.ctrl s))
  else if !(P.frameTypes s).testBit (F.frameType s) then
    some { code := .unsupportedMode, stage := .check, sf := 0, field := 0, value := F.frameType s }
  else none

/-- Step 4 of CHECK, quantiser stages `st, st+1, …` (R156). -/
def checkLsp (s : State) : Nat → Nat → Option Raise
  | 0, _ => none
  | n + 1, st =>
    if P.stSize s st ≤ lspIndex s st then some (badParam 0 (8 + st) (F.lspIdx s st))
    else checkLsp s n (st + 1)

/-- Step 5 of CHECK (R156). -/
def checkMaSel (s : State) : Option Raise :=
  if P.lspPredMode s = 1 ∧ P.lspMaSets s ≤ F.lspMaSel s then some (badParam 0 13 (F.lspMaSel s)) else none

/-- Steps 6b to 6d of CHECK for one subframe (R156). -/
def checkIndices (s : State) (sf : Nat) : Option Raise :=
  let a := F.gainIdxA s sf
  if P.gainCfSize s ≤ a ∨ (P.gainMode s = 0 ∧ P.gainGpSize s ≤ a) then some (badParam sf 2 a)
  else if P.gainMode s = 1 ∧ P.gainGpSize s ≤ F.gainIdxB s sf then some (badParam sf 3 (F.gainIdxB s sf))
  else
    match fcbDecode s (P.fcbFamily s) (F.fcbCode s sf) (F.fcbSign s sf) with
    | .error .code => some (badParam sf 4 (F.fcbCode s sf))
    | .error .sign => some (badParam sf 5 (F.fcbSign s sf))
    | .ok _ => none

/-- Step 6 of CHECK, subframes `sf, sf+1, …`, with the integer delay of the subframe before (R156). -/
def checkSubframes (s : State) : Nat → Nat → Int → Option Raise
  | 0, _, _ => none
  | n + 1, sf, prev =>
    match pitchDecode s sf (F.pitchIdx s sf) prev with
    | none => some (badParam sf 1 (F.pitchIdx s sf))
    | some (ti, _) =>
      match checkIndices s sf with
      | some r => some r
      | none => checkSubframes s n (sf + 1) ti

/-- Steps 4 to 6 of CHECK: the index fields of a good frame, the first failure winning (R156). -/
def checkFrame (s : State) : Option Raise :=
  (checkLsp s (P.lspStages s) 0).orElse fun _ =>
    (checkMaSel s).orElse fun _ => checkSubframes s (P.nsf s) 0 s.wrk.prevLagInt

/-- `CHECK` (R156, R157). -/
def execCheck (s : State) : Out :=
  match checkHead s with
  | some r => .next (s.raise r)
  | none =>
    let s1 := s.setW { s.w with
      erased := some (frameErased s), run := some (frameRun s), muted := some (frameMuted s) }
    if frameErased s then .next (s1.goto .lsfConceal 0 false)
    else
      match checkFrame s with
      | some r => .next (s.raise r)
      | none => .next (s1.goto .lsfDec 0 false)

/-- The samples of a subframe as OUT delivers them: zeros when the frame is muted (R159). -/
def outSamples (len : Nat) (muted : Bool) (x : List Int) : List Int :=
  tab len fun n => if muted then 0 else elem x n

/-- Writes the subframe's PCM words and goes on to the next subframe (R159). -/
def outInto (s : State) (muted : Bool) (x : List Int) : Out :=
  let o := outSamples (P.sfLen s) muted x
  let s1 := s.setW { s.w with out := some o }
  .next ({ s1 with pcm := putSamples 512 s.pcm (s.sf * P.sfLen s) o }.toSubframe (s.sf + 1))

/-- `OUT` (R159). -/
def execOut (s : State) : Out :=
  need .muted s.w.muted fun muted =>
    if P.pfEn s then need .out s.w.out fun x => outInto s muted x
    else need .syn s.w.syn fun x => outInto s muted x

/-- The residual history entry of the frame (R160): the decoded residual, or in an erased frame the residual that
would have produced the concealed vector. -/
def commitResidual (s : State) (erased : Bool) (lsf : List Int) (k : List Int → Out) : Out :=
  if erased then
    need .pred s.w.pred fun pred => k (tab (P.order s) fun i => sat16 (elem lsf i - elem pred i))
  else need .res s.w.res fun res => k res

/-- `S` after FRAME_COMMIT (R160). -/
def committed (s : State) (lspq lsf : List Int) (hist : List (List Int)) (run : Nat) : DecState :=
  { s.wrk with prevLsp := lspq, prevLsf := lsf, lsfMaHist := hist, erasureRun := run }

/-- The end of a DECODE without error (R155 step 3, R160): the working copy replaces `S`, the flags of the frame show,
and the command ends. -/
def finishFrame (s : State) (d : DecState) (erased muted : Bool) : Out :=
  .next { s with
    dec := d, wrk := d
    status := { s.status with erased := erased, muted := muted, erun := BitVec.ofNat 8 d.erasureRun }
    }.endCommand

/-- `FRAME_COMMIT` (R160). -/
def execFrameCommit (s : State) : Out :=
  need .lspq s.w.lspq fun lspq =>
  need .lsf s.w.lsf fun lsf =>
  need .run s.w.run fun run =>
  need .erased s.w.erased fun erased =>
  need .muted s.w.muted fun muted =>
    if P.lspPredMode s = 1 then
      commitResidual s erased lsf fun new =>
        finishFrame s (committed s lspq lsf (pushNewest new s.wrk.lsfMaHist) run) erased muted
    else finishFrame s (committed s lspq lsf s.wrk.lsfMaHist run) erased muted

end Sys2Proof.Machine
end

