-- ==== Sys2Proof/Machine/Acb.lean ====
section
/-! DEFINITION. Adaptive-codebook fractional-delay interpolator (43_acb.md): ACB_INTERP. -/

namespace Sys2Proof.Machine

/-- `X(j)`: past subframes from the excitation history, this subframe from the samples already written (R205). -/
def acbSource (hist acc : List Int) (histLen : Nat) (j : Int) : Int :=
  if j < 0 then elem hist (histLen + j) else elem acc j

/-- Sample `n` of the adaptive-codebook vector, from the samples before it (R207). -/
def acbSample (s : State) (tInt : Int) (fp : Nat) (acc : List Int) (n : Nat) : Int :=
  let pt := P.acbPrec s
  let x := acbSource s.wrk.excHist acc (P.histLen s)
  let v := sumTo (P.acbHalfLen s) fun i =>
    x (n - tInt + i) * P.acbFilt s (i * pt + fp)
      + x (n - tInt - (i + 1)) * P.acbFilt s ((i + 1) * pt - fp)
  sat16 (asr (0x4000 + v) 15)

/-- The phase `fp = T_FRAC · (Pt div R)` (R207); off its domain see log entry 29. -/
def acbPhase (s : State) (tFrac : Int) : Nat := (tFrac * natDiv (P.acbPrec s) (P.pitchRes s)).toNat

/-- `ACB_INTERP` (R207). -/
def execAcbInterp (s : State) : Out :=
  need .tInt s.w.tInt fun tInt =>
  need .tFrac s.w.tFrac fun tFrac =>
  need .erased s.w.erased fun erased =>
    match fcbStage s erased with
    | none => .fault (.profileCase 0x1F)
    | some nextStage =>
      .next ((s.setW { s.w with
        acbv := some (buildUp (acbSample s tInt (acbPhase s tFrac)) (P.sfLen s)) }).goto nextStage s.sf false)

end Sys2Proof.Machine
end

