-- ==== Sys2Proof/Machine/Concealment.lean ====
section
/-! DEFINITION. Frame-erasure concealment (49_concealment.md): LSF_CONCEAL, PITCH_CONCEAL, FCB_CONCEAL, GAIN_CONCEAL. -/

namespace Sys2Proof.Machine

/-- The next value of the concealment generator, which is also its next state (R291). -/
def prngNext (s : State) (seed : Nat) : Nat := (seed * P.fecPrngMul s + P.fecPrngAdd s) % 65536

/-- `LSF_CONCEAL` (R292). -/
def execLsfConceal (s : State) : Out :=
  let a : Int := P.fecLspDecay s
  let lsf := tab (P.order s) fun i =>
    asr (a * elem s.wrk.prevLsf i + (32768 - a) * P.lspDefault s i) 15
  let pred := tab (P.order s) fun i => lsfPred s 0 i
  .next ((s.setW { s.w with lsf := some lsf, pred := some pred }).goto .lsfStab 0 false)

/-- Whether PITCH_CONCEAL regenerates the delay: the profile asks for it and the last pitch gain is low (R294). -/
def pitchUnvoiced (s : State) : Bool :=
  P.fecPitchPrng s && decide (elem s.wrk.gpHist 0 < P.fecVoicedThr s)

/-- `PITCH_CONCEAL` (R294). -/
def execPitchConceal (s : State) : Out :=
  if pitchUnvoiced s then
    let r := prngNext s s.wrk.prngSeed
    let t : Int := P.pitchMin s + floorMod r ((P.pitchMax s : Int) - P.pitchMin s + 1)
    .next (((s.setW { s.w with tInt := some t, tFrac := some 0 }).setWrk { s.wrk with prngSeed := r }).goto
      .acbInterp s.sf false)
  else
    .next ((s.setW { s.w with tInt := some s.wrk.prevLagInt, tFrac := some 0 }).goto .acbInterp s.sf false)

/-- The pulses drawn, two draws a pulse, and the generator's state after them (R296). -/
def drawPulses (s : State) : Nat → Nat → List Nat × List Int × Nat
  | 0, seed => ([], [], seed)
  | n + 1, seed =>
    let r1 := prngNext s seed
    let r2 := prngNext s r1
    let rest := drawPulses s n r2
    let amp : Int := if r2.testBit 15 then (P.fcbAmp s : Int) else -(P.fcbAmp s : Int)
    ((r1 * P.sfLen s) >>> 16 :: rest.1, amp :: rest.2.1, rest.2.2)

/-- `FCB_CONCEAL` (R296). -/
def execFcbConceal (s : State) : Out :=
  let d := drawPulses s (P.fcbNpulses s) s.wrk.prngSeed
  sparseInto (s.setWrk { s.wrk with prngSeed := d.2.2 }) d.1 d.2.1

/-- `GAIN_CONCEAL` (R298). -/
def execGainConceal (s : State) : Out :=
  need .muted s.w.muted fun muted =>
    let gp := if muted then 0 else asr (P.fecGpDecay s * elem s.wrk.gpHist 0) 15
    let gc := if muted then 0 else asr (P.fecGcDecay s * elem s.wrk.gcHist 0) 15
    .next ((s.setW { s.w with gp := some gp, gc := some gc }).goto .gainUpd s.sf false)

end Sys2Proof.Machine
end

