-- ==== Sys2Proof/Machine/Excitation.lean ====
section
/-! DEFINITION. Excitation synthesis (46_excitation.md): FCB_BUILD, PHASE_DISP, EXC_MIX. -/

namespace Sys2Proof.Machine

/-! ## Materialising and sharpening the fixed vector -/

/-- `v[x] <- sat16(v[x] + y)`: amplitudes at equal positions add (R224, R252). -/
def addAt (v : List Int) (x : Nat) (y : Int) : List Int := v.set x (sat16 (elem v x + y))

/-- The all-zero vector of a subframe. -/
def zeros (n : Nat) : List Int := List.replicate n 0

/-- The first loop of FCB_BUILD: the pulses in pulse order (R252, modes 0 and 1). -/
def addPulses : List Int → List Nat → List Int → List Int
  | v, x :: xs, y :: ys => addPulses (addAt v x y) xs ys
  | v, _, _ => v

/-- The dense recursion of mode 1, ascending: element `i ≥ lag` reads element `i - lag` as already rewritten
(R252). -/
def sharpenDense (v : List Int) (lag : Int) (beta : Int) (n : Nat) : List Int :=
  buildUp (fun acc i =>
    if (i : Int) < lag then elem v i
    else sat16 (elem v i + asr (beta * elem acc ((i : Int) - lag)) 14)) n

/-- The repeat loop of mode 2 for one pulse, at most `fuel` turns: add, stop if masked, decay, step by the lag, stop
past the end (R252). -/
def repeatPulse (lag : Nat) (beta : Int) (masked : Bool) (len : Nat) : Nat → List Int → Nat → Int → List Int
  | 0, v, _, _ => v
  | fuel + 1, v, x, y =>
    let v' := addAt v x y
    if masked then v'
    else if len ≤ x + lag then v'
    else repeatPulse lag beta masked len fuel v' (x + lag) (asr (y * beta) 14)

/-- Mode 2 over the pulses `k, k+1, …` (R252). With a lag of at least 1 no pulse takes more than `len` turns. The mask
of a decoded vector is one 32-bit word: with `CAP_PULSES` above 32 the spec gives no mask bit for pulses 32 and on, and
the model takes it as 0, so that they are always repeated, DESIGN CHOICE, unsafe for such a block (log entry 28). -/
def repeatPulses (sp : SparseVec) (len : Nat) : Nat → List Int → List Nat → List Int → List Int
  | k, v, x :: xs, y :: ys =>
    repeatPulses sp len (k + 1)
      (repeatPulse sp.lag.toNat sp.fac (sp.mask.testBit k) len len v x y) xs ys
  | _, v, _, _ => v

/-- The invariant of `W.SP`: as many positions and amplitudes as pulses, every position inside the subframe (R24,
R216). -/
def SparseVec.ok (sp : SparseVec) (len : Nat) : Bool :=
  decide (sp.pos.length = sp.n) && decide (sp.amp.length = sp.n) && sp.pos.all fun x => decide (x < len)

/-- The dense vector of each sharpening mode (R252). -/
def denseVector (mode : Nat) (sp : SparseVec) (len : Nat) : List Int :=
  match mode with
  | 0 => addPulses (zeros len) sp.pos sp.amp
  | 1 => sharpenDense (addPulses (zeros len) sp.pos sp.amp) sp.lag sp.fac len
  | _ => repeatPulses sp len 0 (zeros len) sp.pos sp.amp

/-- `FCB_BUILD` (R252). -/
def execFcbBuild (s : State) : Out :=
  need .sp s.w.sp fun sp =>
  need .erased s.w.erased fun erased =>
    if !sp.ok (P.sfLen s) then .fault .sparseVector
    else if 2 < P.sharpMode s then .fault (.profileCase 0x26)
    else if P.sharpMode s ≠ 0 ∧ sp.lag < 1 then .fault .lagNotPositive
    else
      .next ((s.setW { s.w with fcv := some (denseVector (P.sharpMode s) sp (P.sfLen s)) }).goto
        (gainStage erased) s.sf false)

/-! ## Anti-sparseness -/

/-- Step 1: the strength from the pitch gain (R256). -/
def dispStrength (s : State) (gp : Int) : Nat :=
  if gp < P.dispTLow s then 0 else if gp < P.dispTHigh s then 1 else 2

/-- Step 2: the onset counter (R256). -/
def dispOnset (d : DecState) (gc : Int) : Nat :=
  if 2 * d.dispPrevGc < gc then 2
  else if 0 < d.dispOnset then d.dispOnset - 1
  else d.dispOnset

/-- How many of the recent pitch gains are below the low threshold (R256). -/
def lowGains (s : State) : Nat :=
  ((List.range s.caps.gainHistLen).filter fun i => decide (elem s.wrk.gpHist (i : Nat) < P.dispTLow s)).length

/-- Step 3: the adjustment, with the counter as step 2 left it (R256). -/
def dispAdjust (s : State) (onset nr : Nat) : Nat :=
  if onset = 0 then
    let nr1 := if 2 < lowGains s then 0 else nr
    if s.wrk.dispPrevFilt + 1 < nr1 then nr1 - 1 else nr1
  else if nr < 2 then nr + 1
  else nr

/-- Steps 1 to 4: the filter chosen (R256). -/
def dispChoice (s : State) (gp gc : Int) : Nat :=
  if gc < P.dispMinGc s then 2
  else dispAdjust s (dispOnset s.wrk gc) (dispStrength s gp)

/-- Step 5: the circular convolution, every output from the vector as it was (R256). -/
def disperse (s : State) (f : Nat) (fcv : List Int) : List Int :=
  let len := P.sfLen s
  tab len fun n =>
    sat16 (asr (0x4000 + sumTo len fun k =>
      elem fcv k * P.dispFilt s f (((n : Int) - k) % (len : Int)).toNat) 15)

/-- `PHASE_DISP` (R256). -/
def execPhaseDisp (s : State) : Out :=
  need .fcv s.w.fcv fun fcv =>
  need .gp s.w.gp fun gp =>
  need .gc s.w.gc fun gc =>
    let nr := dispChoice s gp gc
    let fcv' := if nr < 2 then disperse s nr fcv else fcv
    .next (((s.setW { s.w with fcv := some fcv' }).setWrk { s.wrk with
      dispOnset := dispOnset s.wrk gc, dispPrevFilt := nr, dispPrevGc := gc }).goto .excMix s.sf false)

/-! ## Mixing -/

/-- One sample of the mix (R259). -/
def mixSample (gp gc acb fcb : Int) : Int := sat16 (asr (gp * acb + gc * fcb + 0x2000) 14)

/-- `EXC_MIX` (R259). -/
def execExcMix (s : State) : Out :=
  need .gp s.w.gp fun gp =>
  need .gc s.w.gc fun gc =>
  need .acbv s.w.acbv fun acbv =>
  need .fcv s.w.fcv fun fcv =>
    let e := tab (P.sfLen s) fun n => mixSample gp gc (elem acbv n) (elem fcv n)
    .next ((s.setW { s.w with excv := some e }).goto .lpSynth s.sf false)

end Sys2Proof.Machine
end

