-- ==== Sys2Proof/Machine/Numeric.lean ====
section
/-! DEFINITION. The four numeric functions of R10 by their reference definitions, exactly (R238, R240, R277): every
real inequality behind a floor is decided in whole numbers. A first comparison uses 256-bit lower and upper bounds of
the powers; only where those bounds leave it open are the powers themselves compared, so the answer is exact in
every case (log entry 17). -/

namespace Sys2Proof.Machine

/-- A number `m·2^e`, as the pair `(m, e)`, with `m` cut down to 256 bits from below. -/
def cutDown (x : Nat × Nat) : Nat × Nat :=
  let k := x.1.log2 + 1 - 256
  (x.1 >>> k, x.2 + k)

/-- The same from above. -/
def cutUp (x : Nat × Nat) : Nat × Nat :=
  let k := x.1.log2 + 1 - 256
  if k = 0 then x else ((x.1 >>> k) + 1, x.2 + k)

/-- A lower bound of `x^n` for `n < 2^f`, by repeated squaring. -/
def powDown (x : Nat) : Nat → Nat → Nat × Nat
  | 0, _ => (1, 0)
  | f + 1, n =>
    let h := powDown x f (n / 2)
    let q := cutDown (h.1 * h.1, h.2 + h.2)
    if n % 2 = 1 then cutDown (q.1 * x, q.2) else q

/-- An upper bound of `x^n` for `n < 2^f`, by repeated squaring. -/
def powUp (x : Nat) : Nat → Nat → Nat × Nat
  | 0, _ => (1, 0)
  | f + 1, n =>
    let h := powUp x f (n / 2)
    let q := cutUp (h.1 * h.1, h.2 + h.2)
    if n % 2 = 1 then cutUp (q.1 * x, q.2) else q

/-- `m₁·2^e₁ ≤ m₂·2^e₂` for non-zero `m₁`, `m₂`: the positions of the leading bits first, then the bits. -/
def pairLe (x y : Nat × Nat) : Bool :=
  if x.1.log2 + x.2 < y.1.log2 + y.2 then true
  else if y.1.log2 + y.2 < x.1.log2 + x.2 then false
  else decide (x.1 <<< (x.2 - min x.2 y.2) ≤ y.1 <<< (y.2 - min x.2 y.2))

/-- `10·2^23`, the denominator of the exponent of R238 once both sides are squared. -/
def gainDen : Nat := 83886080

/-- `a^gainDen · 10^ka ≤ b^gainDen · 10^kb`, for non-zero `a` and `b`: by the bounds where they decide it, by the
powers themselves otherwise. -/
def powerLe (a b ka kb : Nat) : Bool :=
  let aLo := powDown a 27 gainDen
  let aUp := powUp a 27 gainDen
  let bLo := powDown b 27 gainDen
  let bUp := powUp b 27 gainDen
  let tLo := powDown 10 (ka.log2 + 1) ka
  let tUp := powUp 10 (ka.log2 + 1) ka
  let uLo := powDown 10 (kb.log2 + 1) kb
  let uUp := powUp 10 (kb.log2 + 1) kb
  if pairLe (aUp.1 * tUp.1, aUp.2 + tUp.2) (bLo.1 * uLo.1, bLo.2 + uLo.2) then true
  else if pairLe (aLo.1 * tLo.1, aLo.2 + tLo.2) (bUp.1 * uUp.1, bUp.2 + uUp.2) then
    decide (a ^ gainDen * 10 ^ ka ≤ b ^ gainDen * 10 ^ kb)
  else false

/-- `a ≤ b · 10^(E / (10·2^23))`, an inequality between real numbers. Where the exponent is a whole number it is an
inequality of whole numbers and decided as such; ties occur only there (R238). -/
def scaledLe (a b : Nat) (e : Int) : Bool :=
  if a = 0 then true
  else if b = 0 then false
  else if e % (gainDen : Int) = 0 then
    decide (a * 10 ^ (-(e / (gainDen : Int))).toNat ≤ b * 10 ^ (e / (gainDen : Int)).toNat)
  else powerLe a b (-e).toNat e.toNat

/-- `g ≤ x` for the real number `x` of R238, both branches, squared. -/
def gaincFits (corr ss len : Nat) (e : Int) (g : Nat) : Bool :=
  if ss = 0 then scaledLe (g * g * 4194304) (corr * corr) e
  else scaledLe (g * g * ss) (16 * (corr * corr) * len) e

/-- `NUM.gainc(corr, E, SS, L)`, the fixed gain in Q1: the largest integer in 0..32767 not above `x` (R238). -/
def gainc (corr e ss : Int) (len : Nat) : Int :=
  (search (gaincFits corr.toNat ss.toNat len e) 15 0 : Nat)

/-- `m - 32768 ≤ 1024·20·log10(corr / 4096)`, as an inequality of powers (R240). -/
def loggainFits (corr m : Nat) : Bool :=
  decide (10 ^ (m - 32768) * 4096 ^ 20480 ≤ corr ^ 20480 * 10 ^ (32768 - m))

/-- `NUM.loggain(corr)`, the quantised log-energy in Q10 dB (R240). -/
def loggain (corr : Int) : Int :=
  if corr ≤ 0 then -32768 else (search (loggainFits corr.toNat) 16 0 : Nat) - 32768

/-- `NUM.div_q15(a, b) = floor(32768·a / b)` for `a ≥ 0`, `b > 0` (R277). -/
def divQ15 (a b : Int) : Int := floorDiv (32768 * a) b

/-- `NUM.sqrt_ratio_q12(a, b)`, the largest `g ≥ 0` with `g·g·b ≤ 16777216·a`, for `a ≥ 0`, `b > 0` (R277). -/
def sqrtRatioQ12 (a b : Int) : Int :=
  let x := 16777216 * a.toNat
  (search (fun g => decide (g * g * b.toNat ≤ x)) (x.log2 / 2 + 1) 0 : Nat)

end Sys2Proof.Machine
end

