-- ==== Sys2Proof/Machine/Gain.lean ====
section
/-! DEFINITION. Gain predictor with log-energy moving average (45_gain.md): GAIN_DEC, GAIN_UPD. -/

namespace Sys2Proof.Machine

/-- The predicted energy `E`, Q23 dB (R237). -/
def predictedEnergy (s : State) : Int :=
  P.meanEnergy s * 1024 + sumTo (P.maOrder s) fun i => elem s.wrk.energyHist i * P.maCoef s i

/-- The sum of squares of the first `n` elements. -/
def sumSquares (n : Nat) (x : List Int) : Int := sumTo n fun i => elem x i * elem x i

/-- The pitch gain the frame's indices select, by `P.GAIN_MODE` (R236, R237). -/
def decodedGp (s : State) : Option Nat :=
  match P.gainMode s with
  | 0 => some (P.gainGp s (F.gainIdxA s s.sf))
  | 1 => some (P.gainGp s (F.gainIdxB s s.sf))
  | _ => none

/-- `GAIN_DEC` (R237). -/
def execGainDec (s : State) : Out :=
  need .fcv s.w.fcv fun fcv =>
    match decodedGp s with
    | none => .fault (.profileCase 0x29)
    | some gp =>
      let corr : Int := P.gainCf s (F.gainIdxA s s.sf)
      let gc := gainc corr (predictedEnergy s) (sumSquares (P.sfLen s) fcv) (P.sfLen s)
      .next ((s.setW { s.w with corr := some corr, gp := some (gp : Int), gc := some gc }).goto .gainUpd s.sf false)

/-- The attenuated average of the erasure branch (R243, R244); free where `MA_ORDER = 0` (log entry 29). -/
def erasedEnergy (s : State) : Int :=
  let m := P.maOrder s
  let avg := floorDiv (sumTo m fun i => elem s.wrk.energyHist i) m
  max (avg - P.eraseAtt s) (P.eraseFloor s)

/-- Shifts the three histories, each with its new entry (R243). -/
def gainUpdInto (s : State) (new gp gc : Int) : Out :=
  .next ((s.setWrk { s.wrk with
    energyHist := pushNewest new s.wrk.energyHist
    gpHist := pushNewest gp s.wrk.gpHist
    gcHist := pushNewest gc s.wrk.gcHist }).goto (dispStage s) s.sf false)

/-- `GAIN_UPD` (R243). The correction factor is read in a good frame only. -/
def execGainUpd (s : State) : Out :=
  need .erased s.w.erased fun erased =>
  need .gp s.w.gp fun gp =>
  need .gc s.w.gc fun gc =>
    if erased then gainUpdInto s (erasedEnergy s) gp gc
    else need .corr s.w.corr fun corr => gainUpdInto s (loggain corr) gp gc

end Sys2Proof.Machine
end

