-- ==== Sys2Proof/Machine/LpSynth.lean ====
section
/-! DEFINITION. LP synthesis filter, overflow retry, subframe commit (47_lpsynth.md): LP_SYNTH, LP_RETRY, SF_COMMIT. -/

namespace Sys2Proof.Machine

/-- `Y(j)`: the last `p` outputs of the previous subframe, then this subframe's samples (R265). -/
def synSource (mem acc : List Int) (p : Nat) (j : Int) : Int :=
  if j < 0 then elem mem (p + j) else elem acc j

/-- The unclipped output `v` of sample `n` (R266, R268). -/
def synSample (p : Nat) (lpc mem exc acc : List Int) (n : Nat) : Int :=
  let fb := sumTo p fun i => elem lpc (i + 1 : Nat) * synSource mem acc p ((n : Int) - (i + 1))
  asr (0x800 - fb) 12 + elem exc n

/-- `v > B or v < -B - 1` (R266). -/
def outOfBound (b v : Int) : Bool := decide (b < v) || decide (v < -b - 1)

/-- The first pass over the first `n` samples: `none` once a sample leaves the bound, since the stage then stops
(R266). -/
def synthPass (p : Nat) (lpc mem exc : List Int) (b : Int) : Nat → Option (List Int)
  | 0 => some []
  | n + 1 =>
    match synthPass p lpc mem exc b n with
    | none => none
    | some acc =>
      let v := synSample p lpc mem exc acc n
      if outOfBound b v then none else some (acc ++ [v])

/-- `LP_SYNTH` (R266). An abandoned `W.SYN` holds no value: LP_RETRY writes it. -/
def execLpSynth (s : State) : Out :=
  need .lpc s.w.lpc fun lpc =>
  need .excv s.w.excv fun excv =>
    match synthPass (P.order s) lpc s.wrk.synMem excv (P.synthBound s) (P.sfLen s) with
    | some y =>
      .next ((s.setW { s.w with syn := some y, ovf := some false }).goto .sfCommit s.sf false)
    | none =>
      .next ((s.setW { s.w with syn := none, ovf := some true }).goto .lpRetry s.sf true)

/-- The rescaled excitation of a retry (R268). -/
def retryExcitation (s : State) (gp gc : Int) (acbv fcv : List Int) : List Int :=
  tab (P.sfLen s) fun n => mixSample gp gc (asr (elem acbv n) (P.retryShift s)) (elem fcv n)

/-- The clipped pass of a retry (R268). -/
def retryPass (p : Nat) (lpc mem exc : List Int) (b : Int) (n : Nat) : List Int :=
  buildUp (fun acc i => clip (synSample p lpc mem exc acc i) (-b - 1) b) n

/-- `LP_RETRY` (R268). -/
def execLpRetry (s : State) : Out :=
  need .gp s.w.gp fun gp =>
  need .gc s.w.gc fun gc =>
  need .acbv s.w.acbv fun acbv =>
  need .fcv s.w.fcv fun fcv =>
  need .lpc s.w.lpc fun lpc =>
    let e := retryExcitation s gp gc acbv fcv
    let y := retryPass (P.order s) lpc s.wrk.synMem e (P.synthBound s) (P.sfLen s)
    .next ((s.setW { s.w with exc2 := some e, syn := some y }).goto .sfCommit s.sf true)

/-- `SF_COMMIT` (R270). A history takes in the subframe's samples and keeps its last ones, which covers the case of a
subframe longer than the history. The excitation stored is that of the first pass, also after a retry. -/
def execSfCommit (s : State) : Out :=
  need .syn s.w.syn fun syn =>
  need .excv s.w.excv fun excv =>
  need .gp s.w.gp fun gp =>
  need .tInt s.w.tInt fun tInt =>
  need .ovf s.w.ovf fun ovf =>
    let d := { s.wrk with
      synMem := lastN (P.order s) (s.wrk.synMem ++ syn)
      excHist := lastN (P.histLen s) (s.wrk.excHist ++ excv)
      sharpBeta := clip gp (P.sharpMin s) (P.sharpMax s)
      prevLagInt := tInt }
    let st := { s.status with ovfRetry := s.status.ovfRetry || ovf }
    .next ({ s.setWrk d with status := st }.goto (postStage s) s.sf false)

end Sys2Proof.Machine
end

