-- ==== Sys2Proof/Machine/Postfilter.lean ====
section
/-! DEFINITION. Adaptive postfilter (48_postfilter.md): PF_RESID, PF_LONGTERM, PF_SYNTILT, PF_AGC. -/

namespace Sys2Proof.Machine

/-- A weighted coefficient: `(W.LPC[i+1] · pow + 0x4000) >>a 15` (R276). -/
def weighted (lpc : List Int) (pow : Nat → Nat) (p : Nat) : List Int :=
  tab p fun i => asr (elem lpc (i + 1 : Nat) * pow i + 0x4000) 15

/-- The samples of a subframe continued into the past by a memory of `m` samples, newest last (R279, R281, R283). -/
def continued (mem cur : List Int) (m : Nat) (j : Int) : Int :=
  if j < 0 then elem mem (m + j) else elem cur j

/-- The residual of the numerator filter (R279). -/
def pfResidual (p len : Nat) (num mem syn : List Int) : List Int :=
  tab len fun n =>
    sat16 (asr (elem syn n * 4096 + 0x800
      + sumTo p fun i => elem num i * continued mem syn p ((n : Int) - 1 - i)) 12)

/-- `PF_RESID` (R279, with the coefficients of R276). -/
def execPfResid (s : State) : Out :=
  need .syn s.w.syn fun syn =>
  need .lpc s.w.lpc fun lpc =>
    let p := P.order s
    let num := weighted lpc (P.pfGnPow s) p
    let den := weighted lpc (P.pfGdPow s) p
    let r := pfResidual p (P.sfLen s) num s.wrk.pfFirMem syn
    .next ((s.setW { s.w with num := some num, den := some den, resid := some r }).goto
      .pfLongterm s.sf false)

/-! ## The long-term postfilter -/

/-- The correlation `C` of the residual with itself `t` samples back (R281). -/
def ltCorr (len : Nat) (r : List Int) (rx : Int → Int) (t : Int) : Int :=
  sumTo len fun n => elem r n * rx ((n : Int) - t)

/-- The energy `E` of the residual `t` samples back (R281). -/
def ltEnergy (len : Nat) (rx : Int → Int) (t : Int) : Int :=
  sumTo len fun n => rx ((n : Int) - t) * rx ((n : Int) - t)

/-- The search over the lags `t, t+1, …`, the first of equals winning; the answer is the best lag with its `C` and
`E` (R281). -/
def ltSearch (len : Nat) (r : List Int) (rx : Int → Int) :
    Nat → Int → Option (Int × Int × Int) → Option (Int × Int × Int)
  | 0, _, best => best
  | k + 1, t, best =>
    let c := ltCorr len r rx t
    let e := ltEnergy len rx t
    let better :=
      match best with
      | none => true
      | some (_, cb, eb) => decide (cb * cb * e < c * c * eb)
    let best' := if decide (0 < c) && decide (0 < e) && better then some (t, c, e) else best
    ltSearch len r rx k (t + 1) best'

/-- The best lag of the search window, dropped when the prediction gain is below 3 dB; `none` when the filter is
disabled (R281). -/
def ltBest (s : State) (tInt : Int) (r : List Int) (rx : Int → Int) : Option (Int × Int × Int) :=
  if P.pfLtEn s then
    let lo := max (tInt - P.pfLtRange s) (P.pitchMin s)
    let hi := min (tInt + P.pfLtRange s) (P.pitchMax s)
    match ltSearch (P.sfLen s) r rx (hi + 1 - lo).toNat lo none with
    | none => none
    | some (t, c, e) =>
      if 2 * c * c < e * sumSquares (P.sfLen s) r then none else some (t, c, e)
  else none

/-- The blend of original and delayed residual at the best lag (R281). -/
def ltBlend (s : State) (r : List Int) (rx : Int → Int) (t c e : Int) : List Int :=
  let gl := clip (divQ15 c e) 0 32767
  let b := asr (P.pfLtGamma s * gl) 15
  let w0 := divQ15 32768 (32768 + b)
  let w1 := asr (w0 * b) 15
  tab (P.sfLen s) fun n => sat16 (asr (w0 * elem r n + w1 * rx ((n : Int) - t) + 0x4000) 15)

/-- `PF_LONGTERM` (R281). The history takes in the residual as it entered the stage, whether or not the filter
acts. -/
def execPfLongterm (s : State) : Out :=
  need .resid s.w.resid fun r =>
  need .tInt s.w.tInt fun tInt =>
    let rx := continued s.wrk.pfResHist r (P.resLen s)
    let r' :=
      match ltBest s tInt r rx with
      | none => r
      | some (t, c, e) => ltBlend s r rx t c e
    .next (((s.setW { s.w with resid := some r' }).setWrk { s.wrk with
      pfResHist := lastN (P.resLen s) (s.wrk.pfResHist ++ r) }).goto .pfSyntilt s.sf false)

/-! ## Denominator and tilt -/

/-- The all-pole part (R283 a). -/
def pfAllPole (p len : Nat) (den mem resid : List Int) : List Int :=
  buildUp (fun acc n =>
    sat16 (asr (elem resid n * 4096 + 0x800
      - sumTo p fun i => elem den i * continued mem acc p ((n : Int) - 1 - i)) 12)) len

/-- The truncated impulse response `h` (R283 b). -/
def pfImpulse (p k : Nat) (num den : List Int) : List Int :=
  buildUp (fun acc n =>
    let first : Int :=
      if n = 0 then 16777216 else if n ≤ p then elem num ((n : Int) - 1) * 4096 else 0
    asr (first - sumTo p fun i =>
      if i + 1 ≤ n then elem den i * elem acc ((n : Int) - 1 - i) else 0) 12) k

/-- The first reflection coefficient of `h`, Q15 (R283 c). -/
def reflection (k : Nat) (h : List Int) : Int :=
  let rh0 := sumSquares k h
  let rh1 := sumTo (k - 1) fun n => elem h n * elem h (n + 1 : Nat)
  if rh0 = 0 then 0 else clip (floorDiv (-32768 * rh1) rh0) (-32768) 32767

/-- The tilt coefficient `c`, Q15 (R283 c). -/
def tiltCoef (s : State) (num den : List Int) : Int :=
  let kq := reflection (P.pfIrLen s) (pfImpulse (P.order s) (P.pfIrLen s) num den)
  let gt : Int := if kq < 0 then P.pfTiltNeg s else P.pfTiltPos s
  asr (gt * kq) 15

/-- The tilt filter `1 + c z^-1` (R283 d). -/
def tiltFilter (len : Nat) (c mem : Int) (pfy : List Int) : List Int :=
  tab len fun n =>
    let prev := if n = 0 then mem else elem pfy ((n : Int) - 1)
    sat16 (elem pfy n + asr (c * prev + 0x4000) 15)

/-- `PF_SYNTILT` (R283). -/
def execPfSyntilt (s : State) : Out :=
  need .resid s.w.resid fun resid =>
  need .num s.w.num fun num =>
  need .den s.w.den fun den =>
    let len := P.sfLen s
    let y := pfAllPole (P.order s) len den s.wrk.pfIirMem resid
    let z := tiltFilter len (tiltCoef s num den) s.wrk.pfTiltMem y
    .next (((s.setW { s.w with pfy := some y, pfz := some z }).setWrk { s.wrk with
      pfTiltMem := elem y ((len : Int) - 1) }).goto .pfAgc s.sf false)

/-! ## Adaptive gain control -/

/-- The smoothed gain after each of the first `n` samples, the last one first in the pair: the gain `g` carried on
(R286). -/
def agcGain (alpha target g : Int) : Nat → Int
  | 0 => g
  | n + 1 => asr (alpha * agcGain alpha target g n + (32768 - alpha) * target) 15

/-- The target gain `G`, Q12 (R286). -/
def agcTarget (ein eout : Int) : Int :=
  if eout = 0 then 4096 else min 32767 (sqrtRatioQ12 ein eout)

/-- `PF_AGC` (R286). -/
def execPfAgc (s : State) : Out :=
  need .syn s.w.syn fun syn =>
  need .pfz s.w.pfz fun pfz =>
  need .pfy s.w.pfy fun pfy =>
    let len := P.sfLen s
    let p := P.order s
    let target := agcTarget (sumSquares len syn) (sumSquares len pfz)
    let g := agcGain (P.pfAgcAlpha s) target s.wrk.pfAgcGain
    let o := tab len fun n => sat16 (asr (elem pfz n * g (n + 1) + 0x800) 12)
    .next (((s.setW { s.w with out := some o }).setWrk { s.wrk with
      pfAgcGain := g len
      pfFirMem := lastN p (s.wrk.pfFirMem ++ syn)
      pfIirMem := lastN p (s.wrk.pfIirMem ++ pfy) }).goto .out s.sf false)

end Sys2Proof.Machine
end

