-- ==== Sys2Proof/Machine/Dispatch.lean ====
section
/-! DEFINITION. One arm for each operation, each a direct call of its meaning. -/

namespace Sys2Proof.Machine

/-- The meaning of an operation. -/
def exec (i : Instr) (s : State) : Host.Outcome State Fault Refusal :=
  match i with
  | .nop => Sys2Proof.Machine.execNop s
  | .init => Sys2Proof.Machine.execInit s
  | .decode => Sys2Proof.Machine.execDecode s
  | .reset => Sys2Proof.Machine.execReset s
  | .illegal op zero => Sys2Proof.Machine.execIllegal op zero s
  | .idle => Sys2Proof.Machine.execIdle s
  | .check => Sys2Proof.Machine.execCheck s
  | .lsfDec => Sys2Proof.Machine.execLsfDec s
  | .lsfStab => Sys2Proof.Machine.execLsfStab s
  | .lsfConceal => Sys2Proof.Machine.execLsfConceal s
  | .lsf2lsp => Sys2Proof.Machine.execLsf2lsp s
  | .lspInterp => Sys2Proof.Machine.execLspInterp s
  | .lsp2lpc => Sys2Proof.Machine.execLsp2lpc s
  | .pitchAbs => Sys2Proof.Machine.execPitchAbs s
  | .pitchRel => Sys2Proof.Machine.execPitchRel s
  | .pitchConceal => Sys2Proof.Machine.execPitchConceal s
  | .acbInterp => Sys2Proof.Machine.execAcbInterp s
  | .fcbTrack => Sys2Proof.Machine.execFcbTrack s
  | .fcbGray => Sys2Proof.Machine.execFcbGray s
  | .fcbBaseb => Sys2Proof.Machine.execFcbBaseb s
  | .fcbExpl => Sys2Proof.Machine.execFcbExpl s
  | .fcbConceal => Sys2Proof.Machine.execFcbConceal s
  | .fcbBuild => Sys2Proof.Machine.execFcbBuild s
  | .gainDec => Sys2Proof.Machine.execGainDec s
  | .gainConceal => Sys2Proof.Machine.execGainConceal s
  | .gainUpd => Sys2Proof.Machine.execGainUpd s
  | .phaseDisp => Sys2Proof.Machine.execPhaseDisp s
  | .excMix => Sys2Proof.Machine.execExcMix s
  | .lpSynth => Sys2Proof.Machine.execLpSynth s
  | .lpRetry => Sys2Proof.Machine.execLpRetry s
  | .sfCommit => Sys2Proof.Machine.execSfCommit s
  | .pfResid => Sys2Proof.Machine.execPfResid s
  | .pfLongterm => Sys2Proof.Machine.execPfLongterm s
  | .pfSyntilt => Sys2Proof.Machine.execPfSyntilt s
  | .pfAgc => Sys2Proof.Machine.execPfAgc s
  | .out => Sys2Proof.Machine.execOut s
  | .frameCommit => Sys2Proof.Machine.execFrameCommit s

end Sys2Proof.Machine
end

