-- ==== Sys2Proof/Machine/Path.lean ====
section
/-! DEFINITION. The positions the running command passes through (R32, R158), found by running its stages: a command is
not influenced by the host while it runs (R86), so where it has been and where it will be is a function of the profile,
the parameters and `S` as they are before it. -/

namespace Sys2Proof.Machine

/-- The positions of a running DECODE from `s` on, for at most `n` stages: `SEQ` before each stage, until the command
ends (R158). -/
def positionsFrom : Nat → State → List (BitVec 8)
  | 0, _ => []
  | n + 1, s =>
    if s.status.busy then
      s.seq :: match exec (fetch s) s with
        | .next t => positionsFrom n t
        | .fault _ => []
        | .refused _ => []
    else []

/-- A bound on the stages of a DECODE (R352). -/
def stageBound (s : State) : Nat := 4 + 18 * P.nsf s + 1

/-- The running command is a DECODE that runs stages: one that has been accepted on an initialised block, or one whose
stages run already. A command other than DECODE executes in IDLE, and so does a DECODE that ends in NotInitialized
(R154, R155). -/
def runsStages (s : State) : Bool :=
  match s.cmd with
  | some w => decide (decodeCommand w = .decode) && s.status.inited
  | none => true

/-- The positions the running command passes through, for a read of `SEQ` while `BUSY = 1` (R32): IDLE, where a command
stands when it is accepted and where it ends, and for a DECODE the position of every stage it runs from its start,
which `S` as the host sees it still gives (R58; log entry 6). -/
def commandPath (s : State) : List (BitVec 8) :=
  seqOf (stageId .idle) 0 false :: if runsStages s then positionsFrom (stageBound s) s.startDecode else []

end Sys2Proof.Machine
end

