-- ==== Sys2Proof/Machine/Bus.lean ====
section
/-! DEFINITION. The bus: how the block serves one host transaction (R82 to R90), what a read returns in each space, and
the `rst` input (R340). -/

namespace Sys2Proof.Machine

/-! ## Reads -/

/-- One row of the STATE window: a word offset, the words set aside for the field, the words of the field (R127). -/
structure WindowRow where
  off : Nat
  words : Nat
  vals : List Word
deriving DecidableEq, Repr

/-- A one-word row for an i16 field. -/
def rowI (off : Nat) (v : Int) : WindowRow := { off := off, words := 1, vals := [i16Word v] }

/-- A one-word row for an `Int` field, zero-extended; none of them is negative. -/
def rowU (off : Nat) (v : Nat) : WindowRow := { off := off, words := 1, vals := [BitVec.ofNat 32 v] }

/-- A row for an array of i16 values, index 0 first. -/
def rowA (off words : Nat) (l : List Int) : WindowRow := { off := off, words := words, vals := l.map i16Word }

/-- History vector `j` of `S.lsf_ma_hist`. -/
def maRow (d : DecState) (j : Nat) : List Int := (d.lsfMaHist[j]?).getD []

/-- The rows of the STATE window (R127). With capacities above the room of a row the spec does not say where the elements
beyond it show: each row is cut at its words, DESIGN CHOICE, unsafe for such a block (log entry 28). -/
def windowRows (d : DecState) : List WindowRow :=
  [rowA 0x000 16 d.prevLsp, rowA 0x010 16 d.prevLsf,
   rowA 0x020 16 (maRow d 0), rowA 0x030 16 (maRow d 1), rowA 0x040 16 (maRow d 2), rowA 0x050 16 (maRow d 3),
   rowA 0x060 8 d.energyHist, rowA 0x068 8 d.gpHist, rowA 0x070 8 d.gcHist,
   rowI 0x078 d.sharpBeta, rowU 0x079 d.prevLagInt.toNat, rowU 0x07A d.dispOnset,
   rowU 0x07B d.dispPrevFilt, rowI 0x07C d.dispPrevGc, rowU 0x07D d.erasureRun,
   rowU 0x07E d.prngSeed, rowI 0x07F d.pfTiltMem, rowI 0x080 d.pfAgcGain,
   rowA 0x090 16 d.synMem, rowA 0x0A0 16 d.pfFirMem, rowA 0x0B0 16 d.pfIirMem,
   rowA 0x100 1024 d.excHist, rowA 0x500 1024 d.pfResHist]

/-- The row an address lies in. -/
def WindowRow.covers (r : WindowRow) (a : Nat) : Bool := decide (r.off ≤ a) && decide (a < r.off + r.words)

/-- A word of the STATE window of a valid `S`: words not listed, and array words beyond the actual length, read 0
(R127). -/
def windowWord (d : DecState) (a : Nat) : Word :=
  match (windowRows d).find? (fun r => r.covers a) with
  | none => 0#32
  | some r => (r.vals[a - r.off]?).getD 0#32

/-- A word of STATE space while no command runs: the window, or a free word while `INITED = 0` (R127). -/
def stateWord (s : State) (a : Nat) : Word :=
  if spaceSize s .state ≤ a then 0#32
  else if s.status.inited then windowWord s.dec a
  else Config.unspecWord .state a s.unspecEpoch

/-- The position a read of `SEQ` shows while a command runs: a free draw from the positions the command passes
through (R32). -/
def seqDraw (s : State) : BitVec 8 :=
  let path := commandPath s
  (path[Config.freeIndex s.freeCtr % path.length]?).getD 0x00#8

/-- A word of the CSR file (R40 to R46). -/
def csrWord (s : State) (a : Nat) : Word :=
  match a with
  | 0 => 0x41535031#32
  | 2 => s.status.shown.word
  | 3 => (if s.status.busy then seqDraw s else s.seq).setWidth 32
  | 4 => s.errinfo
  | 5 => (BitVec.ofBool s.ie).setWidth 32
  | 6 => s.pcmlen
  | _ => 0#32

/-- Whether a read draws a free value, so that two reads need not agree (R84, R87, R32). -/
def readIsFree (s : State) (sp : Space) (a : Nat) : Bool :=
  s.status.busy &&
    match sp with
    | .csr => decide (a = 3)
    | .pcm => decide (a < spaceSize s .pcm)
    | .state => decide (a < spaceSize s .state)
    | _ => false

/-- The word `MemRead(space, addr, 1)` returns (R82, R83, R87). -/
def readWord (s : State) (sp : Space) (a : Nat) : Word :=
  match sp with
  | .csr => csrWord s a
  | .profile => profWord s a
  | .param => paramWord s a
  | .pcm => if readIsFree s .pcm a then Config.freeWord s.freeCtr else pcmWord s a
  | .state => if readIsFree s .state a then Config.freeWord s.freeCtr else stateWord s a

/-- Serves a read: the word goes to the host, and a free draw is used up. Nothing else changes (R84). -/
def serveRead (s : State) (sp : Space) (a : Nat) : State :=
  { s with
    readLog := readWord s sp a :: s.readLog
    freeCtr := if readIsFree s sp a then s.freeCtr + 1 else s.freeCtr }

/-! ## Writes -/

/-- The sticky flag of an ignored write (R86 a). -/
def State.busyViolation (s : State) : State := { s with status := { s.status with busyViol := true } }

/-- A write of `CSR[CMD]`: dropped while a command runs, else accepted; RESET executes in the same step, since its
effect is atomic at acceptance (R43, R150, R161). -/
def writeCmd (s : State) (v : Word) : Out :=
  if s.status.busy then .next s.busyViolation
  else
    match decodeCommand v with
    | .reset => execReset (s.accept v)
    | _ => .next (s.accept v)

/-- A write to a CSR: `CMD` and `CTRL` take it, every other address ignores it (R40, R45, R86 c). -/
def writeCsr (s : State) (a : Nat) (v : Word) : Out :=
  match a with
  | 1 => writeCmd s v
  | 5 => .next { s with ie := v.getLsbD 0 }
  | _ => .next s

/-- A write to PROFILE space (R60, R86 a, b). An address beyond the space is ignored before anything else (R83; log
entry 14). While `BUSY = 1` and `INITED = 1` the write falls under R86 (a), which sets `BUSY_VIOL`, and under R86 (b),
which sets no flag: the model takes (a), DESIGN CHOICE, unsafe (log entry 27). -/
def writeProfile (s : State) (a : Nat) (v : Word) : State :=
  if spaceSize s .profile ≤ a then s
  else if s.status.busy then s.busyViolation
  else if s.status.inited then s
  else { s with profile := putIn (spaceSize s .profile) s.profile a v }

/-- A write to PARAM space (R61, R86 a). R65 and R90 make every word of the space storage, U20 says that a reserved word
may hold any value, and D48 says that reserved PARAM words are ignored on write: the model stores them like the others,
DESIGN CHOICE, unsafe for those words (log entry 30). An address beyond the space is ignored first (log entry 14). -/
def writeParam (s : State) (a : Nat) (v : Word) : State :=
  if spaceSize s .param ≤ a then s
  else if s.status.busy then s.busyViolation
  else { s with param := putIn (spaceSize s .param) s.param a v }

/-- Serves `MemWrite(space, addr, 1, v)` (R82, R83, R86). -/
def serveWrite (s : State) (sp : Space) (a : Nat) (v : Word) : Out :=
  match sp with
  | .csr => writeCsr s a v
  | .profile => .next (writeProfile s a v)
  | .param => .next (writeParam s a v)
  | .pcm => .next s
  | .state => .next s

/-! ## The reset input -/

/-- The assertion and release of `rst`, one atomic event between transactions (R340): the block takes the values of
`State.reset`, every space and `S` become unspecified, and a running command is abandoned. The host's script and what
it has read are not the block's. -/
def State.hardReset (s : State) : State :=
  { State.reset with
    caps := s.caps, host := s.host, readLog := s.readLog, freeCtr := s.freeCtr
    rstEpoch := s.rstEpoch + 1, unspecEpoch := s.unspecEpoch + 1 }

end Sys2Proof.Machine
end

