-- ==== Sys2Proof/Machine/Step.lean ====
section
/-! DEFINITION. One step of the machine: the host's next transaction, or one operation of the block (R80, R90). -/

namespace Sys2Proof.Machine

/-- One operation of the block: what is fetched is executed. In IDLE that is IDLE itself (R154). -/
def blockStep (s : State) : Host.Outcome State Fault Refusal := exec (fetch s) s

/-- One step. The first line of the host's script is served, transactions one at a time in their order (R90); `run`
and an unfinished `wait` let the block take one step, and so does an empty script (log entry 1). -/
def step (s : State) : Host.Outcome State Fault Refusal :=
  match s.host with
  | [] => blockStep s
  | .run :: r => blockStep { s with host := r }
  | .wait :: r => if s.status.done then .next { s with host := r } else blockStep s
  | .wr sp a v :: r => serveWrite { s with host := r } sp a v
  | .rd sp a :: r => .next (serveRead { s with host := r } sp a)
  | .rst :: r => .next { s with host := r }.hardReset

/-- The state whose next step runs the operation of a table row's bits: the host lets the block take one step, and the
block stands at that operation, as a command word that has been accepted (format CMDW) or as the byte `SEQ` holds
inside a running command (format STAGE; log entry 24). -/
def State.withFetchWord (s : State) (nbits w : Nat) : State :=
  if nbits ≤ 8 then
    { s with
      host := .run :: s.host, cmd := none, seq := BitVec.ofNat 8 w
      status := { s.status with
        busy := s.status.busy || decide (seqStage (BitVec.ofNat 8 w) ≠ 0#5)
        done := s.status.done && decide (seqStage (BitVec.ofNat 8 w) = 0#5) } }
  else { s.accept (BitVec.ofNat 32 w) with host := .run :: s.host }

end Sys2Proof.Machine
end

