-- ==== Sys2Proof/Safety.lean ====
section
/-! DEFINITION. What a good state is, in the terms the statements use: the canonical form of memory, the relations between
the registers of the CSR file (R42, R44, R46, R150), the invariants of the DecoderState (R163), and, for a running
DECODE, that every working register a later stage reads has been written and that the frame has passed CHECK (R23,
R156). -/

namespace Sys2Proof.Machine

/-! ## Memory -/

/-- Every stored space has its canonical form. -/
structure MemOk (s : State) : Prop where
  profile : s.profile.wf (spaceSize s .profile) = true
  param : s.param.wf (spaceSize s .param) = true
  pcm : s.pcm.wf (spaceSize s .pcm) = true

/-! ## The CSR file and the sequencer -/

/-- The relations between the flags and registers that hold between any two steps. -/
structure ControlOk (s : State) : Prop where
  /-- `SEQ.sf` is two bits wide (R30), so a block has at most four subframes (log entry 22). -/
  caps : s.caps.nsf ≤ 4
  /-- `BUSY` and `DONE` are never both 1 (R42). -/
  exclusive : s.status.busy = true → s.status.done = false
  /-- While no command runs the sequencer is idle and no working register holds a value (R30, R154, R21). -/
  idle : s.status.busy = false → s.seq = 0x00#8 ∧ s.cmd = none ∧ s.w = Work.none
  /-- An accepted command that has not executed stands in IDLE (R154). -/
  pending : s.cmd ≠ none → s.seq = 0x00#8 ∧ s.w = Work.none
  /-- Stages run only inside DECODE, on an initialised block (R130, R155). -/
  running : s.status.busy = true → s.cmd = none → s.status.inited = true ∧ seqStage s.seq ≠ 0x00#5
  /-- Acceptance cleared the flags of the last command (R150). -/
  cleared : s.status.busy = true → s.status.err = 0#4 ∧ s.status.erased = false ∧ s.status.muted = false
  /-- `ERRINFO` is 0 when `STATUS.ERR = 0` (R44). -/
  errinfo : s.status.err = 0#4 → s.errinfo = 0#32
  /-- Codes 8 to 15 are never produced (R306). -/
  err : s.status.err.toNat ≤ 7
  /-- `PCMLEN` is 0 while `INITED = 0` and `P.NSF·P.L` afterwards (R46). -/
  pcmlen : s.pcmlen = if s.status.inited then BitVec.ofNat 32 (P.nsf s * P.sfLen s) else 0#32
  /-- `ERUN` is the copy of `S.erasure_run`, 0 while `INITED = 0` (R42). -/
  erun : s.status.erun = if s.status.inited then BitVec.ofNat 8 s.dec.erasureRun else 0#8
  /-- A latched profile is well-formed (R152, R60). -/
  profile : s.status.inited = true → profileOk s = true

/-! ## The DecoderState -/

/-- An integer pitch delay inside the profile's bounds (R196). -/
def LagOk (s : State) (t : Int) : Prop := (P.pitchMin s : Int) ≤ t ∧ t ≤ P.pitchMax s

/-- The LSF invariant of R174 on a vector. -/
structure LsfOk (s : State) (x : List Int) : Prop where
  length : x.length = P.order s
  lower : (P.lsfLower s : Int) ≤ elem x 0
  gaps : ∀ i : Nat, i + 1 < P.order s → elem x (i : Nat) + P.minSpacing s ≤ elem x (i + 1 : Nat)
  upper : elem x (P.order s - 1 : Nat) ≤ P.lsfUpper s

/-- The invariants of the DecoderState: R163 items 1, 2 and 5, the range of the AGC gain (R286), and the lengths its
fields are declared with (R51 to R56). -/
structure DecOk (s : State) (d : DecState) : Prop where
  lsf : LsfOk s d.prevLsf
  lag : LagOk s d.prevLagInt
  sharp : (P.sharpMin s : Int) ≤ d.sharpBeta ∧ d.sharpBeta ≤ P.sharpMax s
  run : d.erasureRun ≤ 255
  onset : d.dispOnset ≤ 2
  filt : d.dispPrevFilt ≤ 2
  agc : 0 ≤ d.pfAgcGain ∧ d.pfAgcGain ≤ 32767
  seed : d.prngSeed < 65536
  lspLen : d.prevLsp.length = P.order s
  maLen : d.lsfMaHist.length = if P.lspPredMode s = 1 then P.lspMaNp s else 0
  maElem : ∀ v ∈ d.lsfMaHist, v.length = P.order s
  excLen : d.excHist.length = P.histLen s
  energyLen : d.energyHist.length = P.maOrder s
  gpLen : d.gpHist.length = s.caps.gainHistLen
  gcLen : d.gcHist.length = s.caps.gainHistLen
  synLen : d.synMem.length = P.order s
  firLen : d.pfFirMem.length = P.order s
  iirLen : d.pfIirMem.length = P.order s
  resLen : d.pfResHist.length = P.resLen s

/-- What the working registers that go into `S` hold, whatever stage the sequencer is at. -/
structure WorkOk (s : State) : Prop where
  run : ∀ n, s.w.run = some n → n ≤ 255
  lag : ∀ t, s.w.tInt = some t → LagOk s t
  res : ∀ r, s.w.res = some r → r.length = P.order s
  lspq : ∀ q, s.w.lspq = some q → q.length = P.order s
  lsfLen : ∀ x, s.w.lsf = some x → x.length = P.order s
  lsf : 5 ≤ (seqStage s.seq).toNat → ∀ x, s.w.lsf = some x → LsfOk s x

/-- `S` is valid while the block is initialised, and so is its working copy inside a DECODE. -/
structure DecoderOk (s : State) : Prop where
  valid : s.status.inited = true → DecOk s s.dec
  working : s.status.busy = true → s.cmd = none → DecOk s s.wrk ∧ WorkOk s

/-- The invariant of the machine. -/
structure Inv (s : State) : Prop where
  mem : MemOk s
  control : ControlOk s
  decoder : DecoderOk s

/-! ## A running DECODE -/

/-- The stage id the sequencer is at, as a number. -/
def State.stage (s : State) : Nat := (seqStage s.seq).toNat

/-- The frame being decoded is a good one. -/
def State.good (s : State) : Prop := s.w.erased = some false

/-- The frame being decoded is an erased one. -/
def State.bad (s : State) : Prop := s.w.erased = some true

/-- The subframes from `sf` on pass step 6 of CHECK when the delay before them is `prev` (R156). -/
def SubframesPass (s : State) (sf : Nat) (prev : Int) : Prop :=
  checkSubframes s (P.nsf s - sf) sf prev = none

/-- What the earlier stages of a DECODE have left for the stage the sequencer is at: by the order of R158 a stage id
stands after the ids below it, but for LSF_STAB, which comes after LSF_CONCEAL too. -/
structure FrameOk (s : State) : Prop where
  subframe : 0x06 ≤ s.stage → s.stage ≤ 0x1E → s.sf < P.nsf s
  frameLevel : s.stage < 0x06 ∨ s.stage = 0x1F → s.sf = 0
  retry : seqRetry s.seq = true → s.stage = 0x18 ∨ s.stage = 0x19
  retryBit : s.stage = 0x18 → seqRetry s.seq = true
  start : s.stage = 0x01 → s.w = Work.none
  flags : 0x02 ≤ s.stage → s.w.erased.isSome ∧ s.w.muted.isSome ∧ s.w.run.isSome
  isGood : s.stage = 0x02 ∨ s.stage = 0x08 ∨ s.stage = 0x09
    ∨ (0x0C ≤ s.stage ∧ s.stage ≤ 0x0F) ∨ s.stage = 0x12 → s.good
  isBad : s.stage = 0x04 ∨ s.stage = 0x0A ∨ s.stage = 0x10 ∨ s.stage = 0x13 → s.bad
  law : (s.stage = 0x08 → (P.pitchAbsMask s).testBit s.sf = true)
    ∧ (s.stage = 0x09 → (P.pitchAbsMask s).testBit s.sf = false)
  family : 0x0C ≤ s.stage → s.stage ≤ 0x0F → P.fcbFamily s = s.stage - 0x0C
  disp : s.stage = 0x15 → P.dispEn s = true
  post : 0x1A ≤ s.stage → s.stage ≤ 0x1D → P.pfEn s = true
  lsf : s.stage = 0x03 ∨ 0x05 ≤ s.stage → s.w.lsf.isSome ∧ s.w.pred.isSome ∧ (s.good → s.w.res.isSome)
  lspq : 0x06 ≤ s.stage → s.w.lspq.isSome
  lspi : 0x07 ≤ s.stage → s.w.lspi.isSome
  lpc : 0x08 ≤ s.stage → s.w.lpc.isSome
  delay : 0x0B ≤ s.stage → s.w.tInt.isSome ∧ s.w.tFrac.isSome
  acbv : 0x0C ≤ s.stage → s.w.acbv.isSome
  sp : 0x11 ≤ s.stage → ∃ v, s.w.sp = some v ∧ v.ok (P.sfLen s) = true ∧ (P.sharpMode s ≠ 0 → 1 ≤ v.lag)
  fcv : 0x12 ≤ s.stage → s.w.fcv.isSome
  gains : 0x14 ≤ s.stage → s.w.gp.isSome ∧ s.w.gc.isSome ∧ (s.good → s.w.corr.isSome)
  excv : 0x17 ≤ s.stage → s.w.excv.isSome
  ovf : 0x18 ≤ s.stage → s.w.ovf.isSome
  syn : 0x19 ≤ s.stage → s.w.syn.isSome
  resid : 0x1B ≤ s.stage → s.stage ≤ 0x1D → s.w.resid.isSome ∧ s.w.num.isSome ∧ s.w.den.isSome
  pfyz : s.stage = 0x1D → s.w.pfy.isSome ∧ s.w.pfz.isSome
  out : s.stage = 0x1E → P.pfEn s = true → s.w.out.isSome
  /-- A good frame passed CHECK; until SF_COMMIT the subframe itself is among those that pass. -/
  passed : s.good → (s.stage < 0x06 → SubframesPass s 0 s.wrk.prevLagInt)
    ∧ (0x06 ≤ s.stage → s.stage ≤ 0x19 → SubframesPass s s.sf s.wrk.prevLagInt)
    ∧ (0x1A ≤ s.stage → s.stage ≤ 0x1E → SubframesPass s (s.sf + 1) s.wrk.prevLagInt)
  /-- Between the pitch stage and SF_COMMIT the delay is the one CHECK computed. -/
  checked : s.good → 0x0B ≤ s.stage → s.stage ≤ 0x19 →
    ∃ ti tf, s.w.tInt = some ti ∧ pitchDecode s s.sf (F.pitchIdx s s.sf) s.wrk.prevLagInt = some (ti, tf)

/-- The states of a block that host scripts bring about: the invariant, and in a running DECODE what the earlier stages
left. From such a state no step stops. -/
structure Ready (s : State) : Prop where
  inv : Inv s
  frame : s.status.busy = true → s.cmd = none → FrameOk s

end Sys2Proof.Machine
end

