-- ==== Sys2Proof/Certificates/Slice0/Obligations.lean ====
section
/-! DEFINITION. The statements for the provers, after the reference forms of the loops some of them compare with. Floors
are written as Euclidean division by a positive number, sums as `Finset` sums and arrays as functions, so that a
statement says what its rule says in other words than the meaning does. -/

open Sys2Proof Sys2Proof.Machine

namespace Sys2Proof.Spec

/-! ## Reference forms -/

/-- `x[i] <- v` on an array held as a function. -/
def put (x : Nat → Int) (i : Nat) (v : Int) : Nat → Int := fun j => if j = i then v else x j

/-- Pass 1 of R173 for `i = 1 .. n`. -/
def stabScan (d : Int) : Nat → (Nat → Int) → Nat → Int
  | 0, x => x
  | n + 1, x =>
    let y := stabScan d n x
    let deficit := y n + d - y (n + 1)
    if 0 < deficit then put (put y n (y n - deficit / 2)) (n + 1) (y (n + 1) + deficit / 2) else y

/-- Pass 2 of R173 for `i = 0 .. n-1`: the array and the floor `m` after them. -/
def stabFloor (d lower : Int) : Nat → (Nat → Int) → (Nat → Int) × Int
  | 0, x => (x, lower)
  | n + 1, x =>
    let r := stabFloor d lower n x
    let y := if r.1 n < r.2 then put r.1 n r.2 else r.1
    (y, y n + d)

/-- Pass 3 of R173 for `i = p-1 downto p-n`: the array and the ceiling `M` after them. -/
def stabCeil (d upper : Int) (p : Nat) : Nat → (Nat → Int) → (Nat → Int) × Int
  | 0, x => (x, upper)
  | n + 1, x =>
    let r := stabCeil d upper p n x
    let i := p - 1 - n
    let y := if r.2 < r.1 i then put r.1 i r.2 else r.1
    (y, y i - d)

/-- The three passes of R173 on an array of `p` elements. -/
def stab (d lower upper : Int) (p : Nat) (x : Nat → Int) : Nat → Int :=
  (stabCeil d upper p p (stabFloor d lower p (stabScan d (p - 1) x)).1).1

/-- The inner loop of R182, `j = i downto 2`, as `n` turns from `j = i` down. -/
def polyInner (q : Int) (i : Nat) : Nat → (Nat → Int) → Nat → Int
  | 0, f => f
  | n + 1, f =>
    let g := polyInner q i n f
    let j := i - n
    put g j (g j - (g (j - 1) * q / 2 ^ 14 - g (j - 2)))

/-- `LspPoly(lsp, o, h)` of R182, in place. -/
def poly (lsp : Nat → Int) (o : Nat) : Nat → Nat → Int
  | 0 => put (fun _ => 0) 0 0x400000
  | 1 => put (put (fun _ => 0) 0 0x400000) 1 (-(lsp o) * 256)
  | h + 2 =>
    let q := lsp (o + 2 * (h + 2) - 2)
    let f := poly lsp o (h + 1)
    let g := polyInner q (h + 2) (h + 1) (put f (h + 2) (f h))
    put g 1 (g 1 - q * 256)

/-- The repeat loop of R252, mode 2, for one pulse, as the run of the loop: from `v`, `x`, `y` to the vector it stops
with. -/
inductive PulseRun (len : Nat) (lag beta : Int) (masked : Bool) : List Int → Nat → Int → List Int → Prop
  | masked (v : List Int) (x : Nat) (y : Int) (h : masked = true) :
      PulseRun len lag beta masked v x y (v.set x (sat16 (elem v x + y)))
  | ended (v : List Int) (x : Nat) (y : Int) (h : masked = false) (hx : (len : Int) ≤ x + lag) :
      PulseRun len lag beta masked v x y (v.set x (sat16 (elem v x + y)))
  | again (v : List Int) (x x' : Nat) (y : Int) (r : List Int) (h : masked = false) (hx : (x' : Int) = x + lag)
      (hl : x' < len)
      (rest : PulseRun len lag beta masked (v.set x (sat16 (elem v x + y))) x' (y * beta / 2 ^ 14) r) :
      PulseRun len lag beta masked v x y r

/-- The pulse loop of R252, mode 2, from pulse `k` on. -/
inductive PulsesRun (len : Nat) (lag beta : Int) (mask : Nat) :
    Nat → List Int → List Nat → List Int → List Int → Prop
  | done (k : Nat) (v : List Int) : PulsesRun len lag beta mask k v [] [] v
  | pulse (k : Nat) (v v' r : List Int) (x : Nat) (xs : List Nat) (y : Int) (ys : List Int)
      (h : PulseRun len lag beta (mask.testBit k) v x y v') (rest : PulsesRun len lag beta mask (k + 1) v' xs ys r) :
      PulsesRun len lag beta mask k v (x :: xs) (y :: ys) r

/-- The pulse loop of R252, modes 0 and 1: the vector after the pulses, in pulse order. -/
def addPulses (v : List Int) (pulses : List (Nat × Int)) : List Int :=
  pulses.foldl (fun v q => v.set q.1 (sat16 (elem v q.1 + q.2))) v

/-- A signal continued into the past by a memory whose last sample is the newest: `m` samples of it (R205, R265, R279,
R281, R283). -/
def past (mem : List Int) (m : Nat) (cur : Nat → Int) (j : Int) : Int :=
  if j < 0 then elem mem (m + j) else cur j.toNat

/-- The 65 values of R177, eight in a row as the rule lists them. -/
def cosTable : List Int :=
  [32767, 32728, 32609, 32412, 32137, 31785, 31356, 30852] ++
  [30273, 29621, 28898, 28105, 27245, 26319, 25329, 24279] ++
  [23170, 22005, 20787, 19519, 18204, 16846, 15446, 14010] ++
  [12539, 11039, 9512, 7962, 6393, 4808, 3212, 1608] ++
  [0, -1608, -3212, -4808, -6393, -7962, -9512, -11039] ++
  [-12539, -14010, -15446, -16846, -18204, -19519, -20787, -22005] ++
  [-23170, -24279, -25329, -26319, -27245, -28105, -28898, -29621] ++
  [-30273, -30852, -31356, -31785, -32137, -32412, -32609, -32728] ++
  [-32767]

/-! ### The profile checks -/

/-- A word of PROFILE space as the host reads it. -/
abbrev u (s : State) (a : Nat) : Nat := (readWord s .profile a).toNat

/-- Word `i` of the table whose pointer is header word `ptr` (R125). -/
abbrev el (s : State) (ptr i : Nat) : Nat := u s (u s ptr + i)

/-- "Table in range" (R153). -/
abbrev table (s : State) (ptr len : Nat) : Prop := 0x60 ≤ u s ptr ∧ u s ptr + len ≤ s.caps.profileWords

/-- Checks 0x00 to 0x4F of R153: the legal ranges of R121 to R124 in numbers, on the words of PROFILE space. A check whose
condition of use is false holds; words 0x2E and 0x30 may have any value. -/
def headerChecks (s : State) : List (Nat × Prop) :=
  [(0x00, 2 ≤ u s 0x00 ∧ u s 0x00 ≤ s.caps.order ∧ u s 0x00 % 2 = 0),
   (0x01, 1 ≤ u s 0x01 ∧ u s 0x01 ≤ s.caps.sfLen),
   (0x02, 1 ≤ u s 0x02 ∧ u s 0x02 ≤ s.caps.nsf),
   (0x03, 1 ≤ u s 0x03 ∧ u s 0x03 ≤ 0xFFFF),
   (0x04, u s 0x04 / 2 ^ 5 = 0),
   (0x05, 1 ≤ u s 0x05 ∧ u s 0x05 ≤ s.caps.lspStages),
   (0x06, u s 0x06 = 0 ∨ u s 0x06 = 1),
   (0x07, u s 0x07 ≤ s.caps.lspMaNp),
   (0x08, u s 0x08 ≤ s.caps.lspMaSets),
   (0x09, u s 0x09 ≤ 32767),
   (0x0A, u s 0x0A ≤ 32767),
   (0x0B, u s 0x0B ≤ 32767)] ++
  [(0x0C, 1 ≤ u s 0x0C ∧ u s 0x0C ≤ 1023),
   (0x0D, 1 ≤ u s 0x0D ∧ u s 0x0D ≤ 1023),
   (0x0E, u s 0x0E = 3 ∨ u s 0x0E = 6),
   (0x0F, u s 0x0F / 2 ^ u s 0x02 = 0),
   (0x10, 1 ≤ u s 0x10 ∧ u s 0x10 ≤ 16),
   (0x11, u s 0x11 ≤ 65535),
   (0x12, u s 0x12 ≤ 65535),
   (0x13, u s 0x13 ≤ 65535),
   (0x14, 1 ≤ u s 0x14 ∧ u s 0x14 ≤ 16),
   (0x15, u s 0x15 = 0 ∨ u s 0x15 = 1),
   (0x16, u s 0x16 ≤ 65535),
   (0x17, u s 0x17 ≤ 65535)] ++
  [(0x18, u s 0x18 ≤ 65535),
   (0x19, u s 0x19 ≤ 65535),
   (0x1A, u s 0x1A ≤ 65535),
   (0x1B, u s 0x1B ≤ 1023),
   (0x1C, u s 0x1C ≤ 1023),
   (0x1D, 1 ≤ u s 0x1D ∧ u s 0x1D ≤ 64),
   (0x1E, 1 ≤ u s 0x1E ∧ u s 0x1E ≤ 32),
   (0x1F, u s 0x1F ≤ 3),
   (0x20, 1 ≤ u s 0x20 ∧ u s 0x20 ≤ s.caps.pulses),
   (0x21, 1 ≤ u s 0x21 ∧ u s 0x21 ≤ 32767),
   (0x22, u s 0x1F = 2 → 2 ≤ u s 0x22 ∧ u s 0x22 ≤ s.caps.sfLen),
   (0x23, u s 0x1F = 2 → 1 ≤ u s 0x23 ∧ u s 0x23 ≤ s.caps.sfLen)] ++
  [(0x24, u s 0x1F = 3 → 1 ≤ u s 0x24 ∧ u s 0x24 ≤ 7),
   (0x25, u s 0x25 / 2 ^ u s 0x20 = 0),
   (0x26, u s 0x26 ≤ 2),
   (0x27, u s 0x27 ≤ 32767),
   (0x28, u s 0x28 ≤ 32767),
   (0x29, u s 0x29 = 0 ∨ u s 0x29 = 1),
   (0x2A, 1 ≤ u s 0x2A ∧ u s 0x2A ≤ 4096),
   (0x2B, 1 ≤ u s 0x2B ∧ u s 0x2B ≤ 4096),
   (0x2C, 1 ≤ u s 0x2C ∧ u s 0x2C ≤ s.caps.maOrder),
   (0x2D, u s 0x2D ≤ 2097151 ∨ 2 ^ 32 - 2097152 ≤ u s 0x2D),
   (0x2F, u s 0x2F ≤ 32767),
   (0x31, u s 0x31 ≤ 32767)] ++
  [(0x32, u s 0x32 ≤ 32767),
   (0x33, u s 0x33 ≤ 32767),
   (0x34, 1 ≤ u s 0x34 ∧ u s 0x34 ≤ 32767),
   (0x35, u s 0x35 ≤ 15),
   (0x36, u s 0x36 ≤ 15),
   (0x37, u s 0x37 ≤ 32767),
   (0x38, u s 0x38 ≤ 32767),
   (0x39, u s 0x39 ≤ 32767),
   (0x3A, u s 0x3A ≤ 32767),
   (0x3B, u s 0x04 / 2 % 2 = 1 → 2 ≤ u s 0x3B ∧ u s 0x3B ≤ 64),
   (0x3C, u s 0x3C ≤ 32768),
   (0x3D, u s 0x3D ≤ 32768)] ++
  [(0x3E, u s 0x3E ≤ 32768),
   (0x3F, u s 0x3F ≤ 255),
   (0x40, u s 0x40 ≤ 65535),
   (0x41, u s 0x41 ≤ 65535),
   (0x42, u s 0x42 ≤ 65535),
   (0x43, u s 0x43 ≤ 32767),
   (0x44, u s 0x44 = 0),
   (0x45, u s 0x45 = 0),
   (0x46, u s 0x46 = 0),
   (0x47, u s 0x47 = 0),
   (0x48, u s 0x48 = 0),
   (0x49, u s 0x49 = 0)] ++
  [(0x4A, u s 0x4A = 0),
   (0x4B, u s 0x4B = 0),
   (0x4C, u s 0x4C = 0),
   (0x4D, u s 0x4D = 0),
   (0x4E, u s 0x4E = 0),
   (0x4F, u s 0x4F = 0)]

/-- Checks 0x60 to 0x69 of R153. -/
def relationChecks (s : State) : List (Nat × Prop) :=
  [(0x60, (u s 0x06 = 0 ∧ u s 0x07 = 0 ∧ u s 0x08 = 0) ∨ (u s 0x06 = 1 ∧ 1 ≤ u s 0x07 ∧ 1 ≤ u s 0x08)),
   (0x61, u s 0x0A + (u s 0x00 - 1) * u s 0x09 ≤ u s 0x0B),
   (0x62, u s 0x0C + u s 0x1C ≤ u s 0x0D),
   (0x63, u s 0x1E ≤ u s 0x0C),
   (0x64, u s 0x0D + max (u s 0x00) (u s 0x1E) + 1 ≤ s.caps.hist ∧ u s 0x0D + u s 0x36 ≤ 1024),
   (0x65, u s 0x1D % u s 0x0E = 0),
   (0x66, u s 0x15 = 0 ∨ u s 0x17 ≤ u s 0x18),
   (0x67, u s 0x27 ≤ u s 0x28),
   (0x68, u s 0x31 ≤ u s 0x32),
   (0x69, (u s 0x1F = 2 → u s 0x22 ^ u s 0x20 ≤ 2 ^ 64) ∧ (u s 0x1F = 3 → u s 0x20 * u s 0x24 ≤ 64))]

/-- Checks 0x70 to 0x89 of R153, with the tables of R125 and the element ranges of R126. -/
def tableChecks (s : State) : List (Nat × Prop) :=
  [(0x70, table s 0x50 (4 * u s 0x05)),
   (0x71, ∀ st < u s 0x05, 1 ≤ el s 0x50 (4 * st) ∧ el s 0x50 (4 * st) ≤ 4096
      ∧ el s 0x50 (4 * st + 1) < el s 0x50 (4 * st + 2) ∧ el s 0x50 (4 * st + 2) ≤ u s 0x00
      ∧ el s 0x50 (4 * st + 3) ≤ 1),
   (0x72, table s 0x51 (∑ st ∈ Finset.range (u s 0x05),
      el s 0x50 (4 * st) * (el s 0x50 (4 * st + 2) - el s 0x50 (4 * st + 1)))),
   (0x73, table s 0x52 (u s 0x00)),
   (0x74, u s 0x06 = 1 → table s 0x53 (u s 0x08 * u s 0x07 * u s 0x00)),
   (0x75, table s 0x54 (u s 0x00)),
   (0x76, (∀ i < u s 0x00, el s 0x54 i ≤ 32767) ∧ u s 0x0A ≤ el s 0x54 0
      ∧ (∀ i < u s 0x00 - 1, el s 0x54 i + u s 0x09 ≤ el s 0x54 (i + 1)) ∧ el s 0x54 (u s 0x00 - 1) ≤ u s 0x0B),
   (0x77, table s 0x55 (u s 0x00)),
   (0x78, ∀ i < u s 0x00, el s 0x55 i ≤ 32767),
   (0x79, table s 0x56 (u s 0x02)),
   (0x7A, ∀ i < u s 0x02, el s 0x56 i ≤ 32768),
   (0x7B, table s 0x57 (u s 0x1D * u s 0x1E + 1))] ++
  [(0x7C, table s 0x58 (3 * u s 0x20)),
   (0x7D, (u s 0x1F ≤ 1 → (∀ k < u s 0x20, el s 0x58 (3 * k) ≤ 16
      ∧ 1 ≤ el s 0x58 (3 * k + 1) ∧ el s 0x58 (3 * k + 1) ≤ 2 ^ el s 0x58 (3 * k))
      ∧ ∑ k ∈ Finset.range (u s 0x20), el s 0x58 (3 * k) ≤ 64)
      ∧ (u s 0x1F = 2 → ∀ k < u s 0x20, el s 0x58 (3 * k + 2) + u s 0x23 * (u s 0x22 - 1) ≤ u s 0x01 - 1)),
   (0x7E, u s 0x1F ≤ 1 → table s 0x59 (∑ k ∈ Finset.range (u s 0x20), el s 0x58 (3 * k + 1))),
   (0x7F, u s 0x1F ≤ 1 → ∀ m < (∑ k ∈ Finset.range (u s 0x20), el s 0x58 (3 * k + 1)),
      el s 0x59 m ≤ u s 0x01 - 1),
   (0x80, table s 0x5A (u s 0x2A)),
   (0x81, ∀ i < u s 0x2A, el s 0x5A i ≤ 32767),
   (0x82, table s 0x5B (u s 0x2B)),
   (0x83, ∀ i < u s 0x2B, el s 0x5B i ≤ 32767),
   (0x84, table s 0x5C (u s 0x2C)),
   (0x85, u s 0x04 / 8 % 2 = 1 → table s 0x5D (2 * u s 0x01)),
   (0x86, u s 0x04 / 2 % 2 = 1 → table s 0x5E (u s 0x00)),
   (0x87, u s 0x04 / 2 % 2 = 1 → ∀ i < u s 0x00, el s 0x5E i ≤ 32767)] ++
  [(0x88, u s 0x04 / 2 % 2 = 1 → table s 0x5F (u s 0x00)),
   (0x89, u s 0x04 / 2 % 2 = 1 → ∀ i < u s 0x00, el s 0x5F i ≤ 32767)]

/-- The numbered checks of R153: what each asks of the words of PROFILE space. -/
def checks (s : State) : List (Nat × Prop) := headerChecks s ++ relationChecks s ++ tableChecks s

/-! ### The frame checks -/

/-- The head of CHECK lets the frame pass: no reserved bit of `F.CTRL` is set, and the profile defines the frame type
(R156, steps 1 and 2). -/
abbrev headOk (s : State) : Prop :=
  F.ctrl s / 2 % 8 = 0 ∧ F.ctrl s < 256 ∧ (P.frameTypes s).testBit (F.ctrl s / 16 % 16) = true

/-- Every used field of the frame is 0 (R157, R116). -/
abbrev frameZero (s : State) : Prop :=
  (∀ st < P.lspStages s, F.lspIdx s st = 0) ∧ (P.lspPredMode s = 1 → F.lspMaSel s = 0)
    ∧ ∀ sf < P.nsf s, F.pitchIdx s sf = 0 ∧ F.gainIdxA s sf = 0 ∧ (P.gainMode s = 1 → F.gainIdxB s sf = 0)
      ∧ F.fcbCode s sf = 0 ∧ F.fcbSign s sf = 0

/-- The frame is erased (R157). -/
abbrev erased (s : State) : Prop := F.ctrl s % 2 = 1 ∨ (P.flags s % 2 = 1 ∧ frameZero s)

/-- The index of LSP quantiser stage `st` is inside its codebook (R156, step 4). -/
def lspOk (s : State) (st : Nat) : Prop :=
  (if P.stGray s st = 1 then grayDecode (F.lspIdx s st) else F.lspIdx s st) < P.stSize s st

/-- The predictor selector is legal where it is used (R156, step 5). -/
def maSelOk (s : State) : Prop := P.lspPredMode s = 1 → F.lspMaSel s < P.lspMaSets s

/-- The first gain index of a subframe is legal (R156, step 6b). -/
def gainAOk (s : State) (sf : Nat) : Prop :=
  F.gainIdxA s sf < P.gainCfSize s ∧ (P.gainMode s = 0 → F.gainIdxA s sf < P.gainGpSize s)

/-- The second gain index of a subframe is legal where it is used (R156, step 6c). -/
def gainBOk (s : State) (sf : Nat) : Prop := P.gainMode s = 1 → F.gainIdxB s sf < P.gainGpSize s

/-- Subframes `0 .. n-1` pass step 6 of R156, `prev sf` being the integer delay before subframe `sf`. -/
def subframesOk (s : State) (n : Nat) (prev : Nat → Int) : Prop :=
  prev 0 = s.wrk.prevLagInt ∧ ∀ sf < n,
    (∃ tf, pitchDecode s sf (F.pitchIdx s sf) (prev sf) = some (prev (sf + 1), tf))
      ∧ gainAOk s sf ∧ gainBOk s sf
      ∧ (∃ pos, fcbPositions s (P.fcbFamily s) (F.fcbCode s sf) = some pos)
      ∧ F.fcbSign s sf < 2 ^ P.fcbNpulses s

/-- The absolute law of R193. -/
def absT (s : State) (idx : Nat) : Int :=
  if idx + P.absBias s ≤ P.absThresh s then ((idx + P.absBias s : Nat) : Int)
  else (P.pitchRes s : Int) * (idx + P.absBias s : Nat) - P.absSub s

/-- The differential law of R195, for a window that is not empty. -/
def relT (s : State) (idx : Nat) (prev : Int) : Int :=
  let tmin : Int := max (P.pitchMin s) (min ((P.pitchMax s : Int) - P.winMargin s) (prev - P.winBack s))
  if P.relMode s = 0 then (P.pitchRes s : Int) * tmin + idx - P.relOffs s
  else if idx < P.relZ1 s then (P.pitchRes s : Int) * (idx + tmin)
  else if idx < P.relZ2 s then (P.pitchRes s : Int) * tmin + idx + P.relZbAdd s
  else (P.pitchRes s : Int) * (idx + tmin) - P.relZcSub s

/-- A delay in units of `1/R` sample is inside the two bounds of R191. -/
abbrev inRange (s : State) (t : Int) : Prop :=
  (P.pitchRes s : Int) * P.pitchMin s ≤ t ∧ t ≤ (P.pitchRes s : Int) * P.pitchMax s + ((P.pitchRes s : Int) - 1)

/-- CHECK raises InvalidParameter with this subframe, field and value (R156, R308). -/
def checkRaises (s : State) (sf field value : Nat) : Prop :=
  exec .check s = .next (s.raise
    { code := .invalidParameter, stage := .check, sf := sf, field := field, value := value })

end Sys2Proof.Spec

/-! ## Encoding and decoding -/

/-- R110, R111, R130, R131: encoding and decoding agree both ways, for every operation, every command word and every
position. -/
def Obligations.DecodeEncodeAgree : Prop :=
  (∀ i : Instr, i.wellFormed = true → decode (encode i) = i)
    ∧ (∀ w : Word, encode (decodeCommand w) = .command w)
    ∧ (∀ q : BitVec 8,
        encode (decodeStage (seqStage q)) = .stage (seqOf (seqStage q) 0 false)
          ∧ seqOf (stageId (decodeStage (seqStage q))) (seqSf q) (seqRetry q) = q)
    ∧ (∀ (i : Instr) (sf : Nat) (retry : Bool), sf < 4 → (∃ q, encode i = .stage q) →
        decode (.stage (seqOf (stageId i) sf retry)) = i
          ∧ seqSf (seqOf (stageId i) sf retry) = sf ∧ seqRetry (seqOf (stageId i) sf retry) = retry)

/-- R111, R112: the command of a word by its number; every word of 4 or more (an `OP` of 4 or more, or any of bits
31:4 set) is illegal, with its fields, and nothing but its low 16 bits is reported of it. -/
def Obligations.CommandWordFormat : Prop :=
  ∀ w : Word,
    (w.toNat = 0 → decodeCommand w = .nop) ∧ (w.toNat = 1 → decodeCommand w = .init)
      ∧ (w.toNat = 2 → decodeCommand w = .decode) ∧ (w.toNat = 3 → decodeCommand w = .reset)
      ∧ (4 ≤ w.toNat →
          decodeCommand w = .illegal (BitVec.ofNat 4 (w.toNat % 16)) (BitVec.ofNat 28 (w.toNat / 16))
            ∧ ∀ s, exec (decodeCommand w) s = .next (s.raise
                { code := .illegalCommand, stage := .idle, sf := 0, field := 0, value := w.toNat % 65536 }))

/-- Sanity: words written out from the tables of R111 and R130 decode to the operations they stand for. -/
def Obligations.DecodedWords : Prop :=
  decodeTableWord 32 0x00000000 = some .nop ∧ decodeTableWord 32 0x00000001 = some .init
    ∧ decodeTableWord 32 0x00000002 = some .decode ∧ decodeTableWord 32 0x00000003 = some .reset
    ∧ decodeTableWord 32 0x00000012 = some (.illegal 0x2#4 0x0000001#28)
    ∧ decodeTableWord 8 0x02 = some .lsfDec ∧ decodeTableWord 8 0x08 = some .pitchAbs
    ∧ decodeTableWord 8 0x2B = some .acbInterp ∧ decodeTableWord 8 0x0F = some .fcbExpl
    ∧ decodeTableWord 8 0x52 = some .gainDec ∧ decodeTableWord 8 0x16 = some .excMix
    ∧ decodeTableWord 8 0xB8 = some .lpRetry ∧ decodeTableWord 8 0x1D = some .pfAgc
    ∧ decodeTableWord 8 0x10 = some .fcbConceal ∧ decodeTableWord 8 0x1F = some .frameCommit

/-- R80, R150, R158: a step that the host leaves to the block runs exactly the decoded operation, and what is decoded
is always well formed. The script lines are the model's (log entry 1). -/
def Obligations.StepRunsDecoded : Prop :=
  (∀ c : Code, (decode c).wellFormed = true)
    ∧ ∀ (s : State) (i : Instr), i.wellFormed = true →
        (match s.cmd with
          | some w => decode (.command w) = i
          | none => decode (.stage s.seq) = i) →
        (s.host = [] → step s = exec i s)
          ∧ (∀ r, s.host = .run :: r → step s = exec i { s with host := r })
          ∧ (∀ r, s.host = .wait :: r → s.status.done = false → step s = exec i s)
          ∧ (∀ r, s.host = .wait :: r → s.status.done = true → step s = .next { s with host := r })

/-! ## The bus -/

/-- R150, R320: a `CMD` write while no command runs is accepted: the flags of the last command are cleared, `BUSY` is
set, the interrupt line is low, and nothing else changes. That the accepted word waits one step in the model is its
choice (log entry 2). -/
def Obligations.CommandAcceptance : Prop :=
  ∀ (s : State) (r : List HostOp) (v : Word), s.host = .wr .csr 1 v :: r → s.status.busy = false →
    decodeCommand v ≠ .reset →
    ∃ t, step s = .next t
      ∧ t = { s with
          host := r, cmd := some v, errinfo := 0#32
          status := { busy := true, done := false, inited := s.status.inited, erased := false, muted := false,
                      ovfRetry := false, busyViol := false, err := 0#4, erun := s.status.erun } }
      ∧ irq t = false

/-- R86, R43, at addresses inside the space: the writes that are ignored, and the one flag an ignored write sets. That
a PROFILE write while `BUSY = 1` and `INITED = 1` sets `BUSY_VIOL` is the model's choice between R86 (a) and R86 (b)
(log entry 27). -/
def Obligations.IgnoredWrites : Prop :=
  ∀ (s : State) (r : List HostOp) (sp : Space) (a : Nat) (v : Word), s.host = .wr sp a v :: r →
    (s.status.busy = true →
        ((sp = .csr ∧ a = 1) ∨ (sp = .profile ∧ a < s.caps.profileWords) ∨ (sp = .param ∧ a < 64)) →
        step s = .next { s with host := r, status := { s.status with busyViol := true } })
      ∧ (s.status.busy = false → s.status.inited = true → sp = .profile → step s = .next { s with host := r })
      ∧ ((sp = .pcm ∨ sp = .state ∨ (sp = .csr ∧ a ≠ 1 ∧ a ≠ 5)) → step s = .next { s with host := r })

/-- R60, R61, R62, R82, R84, R87, R90. A word written to PROFILE or PARAM space while the write is not ignored reads
back, every other word of every space reads as before, the memory keeps its form, and a second read gives the same
word; that a reserved word of PARAM space is stored too is the model's choice (log entry 30). A read gives its word to
the host and changes nothing else; it does not depend on `STATUS` in PROFILE and PARAM space, which give the stored
word; while a command runs PCM and STATE space give a free word, a new one for every read (log entry 5), and otherwise
no read changes what any word of any space reads as, and PCM space gives the stored word. -/
def Obligations.ReadAfterWrite : Prop :=
  ∀ (s : State) (r : List HostOp) (sp : Space) (a : Nat),
    (∀ v : Word, s.host = .wr sp a v :: r → s.status.busy = false → a < spaceSize s sp →
      ((sp = .profile ∧ s.status.inited = false) ∨ sp = .param) →
      ∃ t, step s = .next t ∧ t = { s with host := r, profile := t.profile, param := t.param }
        ∧ readWord t sp a = v
        ∧ (∀ sp' a', (sp' ≠ sp ∨ a' ≠ a) → readWord t sp' a' = readWord s sp' a')
        ∧ (MemOk s → MemOk t)
        ∧ ∀ l, readWord (serveRead { t with readLog := l } sp a) sp a = v)
    ∧ (s.host = .rd sp a :: r →
      ∃ t, step s = .next t
        ∧ t = { s with
            host := r, readLog := readWord { s with host := r } sp a :: s.readLog
            freeCtr := s.freeCtr + if s.status.busy = true
              ∧ ((sp = .csr ∧ a = 3) ∨ (sp = .pcm ∧ a < 512) ∨ (sp = .state ∧ a < 4096)) then 1 else 0 }
        ∧ (s.status.busy = false → ∀ sp' a', readWord t sp' a' = readWord s sp' a')
        ∧ ∀ a', readWord t .profile a' = readWord s .profile a' ∧ readWord t .param a' = readWord s .param a')
    ∧ (s.status.busy = true → ((sp = .pcm ∧ a < 512) ∨ (sp = .state ∧ a < 4096)) →
        readWord s sp a = Config.freeWord s.freeCtr)
    ∧ (∀ v, a < s.caps.profileWords → (a, v) ∈ s.profile → s.profile.wf s.caps.profileWords = true →
        ∀ st : Status, readWord { s with status := st } .profile a = v)
    ∧ (∀ v, a < 64 → (a, v) ∈ s.param → s.param.wf 64 = true →
        ∀ st : Status, readWord { s with status := st } .param a = v)
    ∧ (s.status.busy = false → readWord s .pcm a = pcmWord s a
        ∧ ∀ v, a < 512 → (a, v) ∈ s.pcm → s.pcm.wf 512 = true → readWord s .pcm a = v)

/-- R83: an address at or beyond the size of its space reads 0 and ignores writes, and raises nothing. That it sets no
`BUSY_VIOL` in PROFILE and PARAM space while `BUSY = 1` either, where R86 (a) speaks of every ignored write, is the
model's order of the two rules (log entry 14). -/
def Obligations.OutOfRangeAccess : Prop :=
  ∀ (s : State) (r : List HostOp) (sp : Space) (a : Nat) (v : Word), spaceSize s sp ≤ a →
    readWord s sp a = 0#32
      ∧ (s.host = .wr sp a v :: r → step s = .next { s with host := r })
      ∧ (s.host = .rd sp a :: r → step s = .next { s with host := r, readLog := 0#32 :: s.readLog })

/-- R40 to R46: what each CSR reads as; `STATUS` with every field at its bits. The retry flag shows when the command
has ended (log entry 13). -/
def Obligations.CsrFile : Prop :=
  ∀ s : State,
    readWord s .csr 0 = 0x41535031#32 ∧ readWord s .csr 1 = 0#32
      ∧ (readWord s .csr 2).toNat =
          s.status.busy.toNat + 2 * s.status.done.toNat + 4 * s.status.inited.toNat + 8 * s.status.erased.toNat
            + 16 * s.status.muted.toNat + 32 * (s.status.ovfRetry && !s.status.busy).toNat
            + 64 * s.status.busyViol.toNat + 256 * s.status.err.toNat + 65536 * s.status.erun.toNat
      ∧ (s.status.busy = false → (readWord s .csr 3).toNat = s.seq.toNat)
      ∧ readWord s .csr 4 = s.errinfo ∧ (readWord s .csr 5).toNat = s.ie.toNat ∧ readWord s .csr 6 = s.pcmlen
      ∧ readWord s .csr 7 = 0#32
      ∧ ∀ r v, s.host = .wr .csr 5 v :: r → step s = .next { s with host := r, ie := v.getLsbD 0 }

/-- R30, R32, R86: `SEQ` reads as IDLE while no command runs and otherwise as some position the running command passes
through. For a DECODE these positions are exactly those the block stands at between its acceptance and its end when
the host lets it run, and they stay the same positions until the command ends, whatever the host does in between. IDLE
as one of them is the model's reading (log entry 6). -/
def Obligations.SeqRead : Prop :=
  ∀ s : State,
    (s.status.busy = true → ∃ q ∈ commandPath s, readWord s .csr 3 = q.setWidth 32)
      ∧ (Ready s → s.status.busy = false → readWord s .csr 3 = 0#32)
      ∧ (Ready s → s.host = [] → s.cmd = some 2#32 → s.status.busy = true → s.status.inited = true →
          ∀ q, q ∈ commandPath s ↔
            ∃ k t, Host.Core.run Sys2Proof.core k s = .next t ∧ t.status.busy = true ∧ t.seq = q)
      ∧ (∀ w, s.cmd = some w → (w ≠ 2#32 ∨ s.status.inited = false) → commandPath s = [0x00#8])
      ∧ ∀ t, step s = .next t → s.status.busy = true → t.status.busy = true → commandPath t = commandPath s

/-- R127: the STATE window of an initialised block between commands shows every field of `S` at its offset, index 0
first, and 0 elsewhere. -/
def Obligations.StateWindow : Prop :=
  ∀ s : State, s.status.busy = false → s.status.inited = true →
    (∀ i < 16, readWord s .state i = if i < s.dec.prevLsp.length then i16Word (elem s.dec.prevLsp i) else 0#32)
      ∧ (∀ i < 16, readWord s .state (0x010 + i) =
          if i < s.dec.prevLsf.length then i16Word (elem s.dec.prevLsf i) else 0#32)
      ∧ (∀ j < 4, ∀ i < 16, readWord s .state (0x020 + 16 * j + i) =
          if i < ((s.dec.lsfMaHist[j]?).getD []).length then i16Word (elem ((s.dec.lsfMaHist[j]?).getD []) i) else 0#32)
      ∧ (∀ i < 8, readWord s .state (0x060 + i) =
          if i < s.dec.energyHist.length then i16Word (elem s.dec.energyHist i) else 0#32)
      ∧ (∀ i < 8, readWord s .state (0x068 + i) =
          if i < s.dec.gpHist.length then i16Word (elem s.dec.gpHist i) else 0#32)
      ∧ (∀ i < 8, readWord s .state (0x070 + i) =
          if i < s.dec.gcHist.length then i16Word (elem s.dec.gcHist i) else 0#32)
      ∧ readWord s .state 0x078 = i16Word s.dec.sharpBeta
      ∧ readWord s .state 0x079 = BitVec.ofNat 32 s.dec.prevLagInt.toNat
      ∧ readWord s .state 0x07A = BitVec.ofNat 32 s.dec.dispOnset
      ∧ readWord s .state 0x07B = BitVec.ofNat 32 s.dec.dispPrevFilt
      ∧ readWord s .state 0x07C = i16Word s.dec.dispPrevGc
      ∧ readWord s .state 0x07D = BitVec.ofNat 32 s.dec.erasureRun
      ∧ readWord s .state 0x07E = BitVec.ofNat 32 s.dec.prngSeed
      ∧ readWord s .state 0x07F = i16Word s.dec.pfTiltMem ∧ readWord s .state 0x080 = i16Word s.dec.pfAgcGain
      ∧ (∀ i < 16, readWord s .state (0x090 + i) =
          if i < s.dec.synMem.length then i16Word (elem s.dec.synMem i) else 0#32)
      ∧ (∀ i < 16, readWord s .state (0x0A0 + i) =
          if i < s.dec.pfFirMem.length then i16Word (elem s.dec.pfFirMem i) else 0#32)
      ∧ (∀ i < 16, readWord s .state (0x0B0 + i) =
          if i < s.dec.pfIirMem.length then i16Word (elem s.dec.pfIirMem i) else 0#32)
      ∧ (∀ i < 1024, readWord s .state (0x100 + i) =
          if i < s.dec.excHist.length then i16Word (elem s.dec.excHist i) else 0#32)
      ∧ (∀ i < 1024, readWord s .state (0x500 + i) =
          if i < s.dec.pfResHist.length then i16Word (elem s.dec.pfResHist i) else 0#32)
      ∧ ∀ a, (0x081 ≤ a ∧ a < 0x090) ∨ (0x0C0 ≤ a ∧ a < 0x100) ∨ 0x900 ≤ a → readWord s .state a = 0#32

/-! ## Errors, reset, interrupt -/

/-- R312, R306, R44, R320: what a raise changes, with `ERRINFO` and `ERR` by number, and that it changes nothing else.
-/
def Obligations.RaiseEffect : Prop :=
  ∀ (s : State) (r : Raise), r.field < 256 → r.sf < 4 →
    (s.raise r).errinfo.toNat =
        r.value % 65536 * 65536 + r.field * 256 + r.sf * 32 + (stageId r.stage).toNat
      ∧ (s.raise r) = { s with
          errinfo := (s.raise r).errinfo, wrk := s.dec, w := Work.none, seq := 0x00#8, cmd := none
          status := { busy := false, done := true, inited := s.status.inited, erased := false, muted := false,
                      ovfRetry := false, busyViol := s.status.busyViol, err := r.code.code, erun := s.status.erun } }
      ∧ irq (s.raise r) = s.ie
      ∧ (s.raise r).status.err.toNat = match r.code with
          | .invalidParameter => 1
          | .unsupportedMode => 2
          | .internalInvariant => 3
          | .notInitialized => 4
          | .badProfile => 5
          | .illegalCommand => 6
          | .alreadyInitialized => 7

/-- R340, R75: the `rst` input, in any state, also while a command runs; the block takes the values of the machine
right after reset, and the words of every space are unspecified anew. The counters behind the unspecified words are
the model's choice (log entries 3 and 4). -/
def Obligations.HardwareReset : Prop :=
  ∀ (s : State) (r : List HostOp), s.host = .rst :: r →
    ∃ t, step s = .next t
      ∧ t.status = Status.zero ∧ t.seq = 0x00#8 ∧ t.errinfo = 0#32 ∧ t.ie = false ∧ t.pcmlen = 0#32
      ∧ t.cmd = none ∧ t.w = Work.none ∧ t.profile = [] ∧ t.param = [] ∧ t.pcm = []
      ∧ t.caps = s.caps ∧ t.host = r ∧ t.readLog = s.readLog ∧ irq t = false
      ∧ (∀ a < spaceSize s .profile, readWord t .profile a = Config.unspecWord .profile a (s.rstEpoch + 1))
      ∧ (∀ a < 64, readWord t .param a = Config.unspecWord .param a (s.rstEpoch + 1))
      ∧ (∀ a < 512, readWord t .pcm a = Config.unspecWord .pcm a (s.unspecEpoch + 1))
      ∧ (∀ a < 4096, readWord t .state a = Config.unspecWord .state a (s.unspecEpoch + 1))

/-- R161: RESET, as the operation and as the write of `CMD` that executes it at acceptance: the listed registers are
0, PROFILE and PARAM space keep their words, PCM and STATE space are unspecified anew. The counter behind the
unspecified words is the model's choice (log entry 4). -/
def Obligations.ResetCommand : Prop :=
  ∀ s : State,
    (∃ t, exec .reset s = .next t
      ∧ t.status = Status.zero ∧ t.seq = 0x00#8 ∧ t.errinfo = 0#32 ∧ t.ie = false ∧ t.pcmlen = 0#32
      ∧ t.cmd = none ∧ t.w = Work.none ∧ t.profile = s.profile ∧ t.param = s.param
      ∧ t.caps = s.caps ∧ t.host = s.host ∧ t.readLog = s.readLog ∧ irq t = false
      ∧ (∀ a, profWord t a = profWord s a ∧ paramWord t a = paramWord s a)
      ∧ (∀ a < 512, readWord t .pcm a = Config.unspecWord .pcm a (s.unspecEpoch + 1))
      ∧ (∀ a < 4096, readWord t .state a = Config.unspecWord .state a (s.unspecEpoch + 1)))
    ∧ ∀ (r : List HostOp) (v : Word), s.host = .wr .csr 1 v :: r → s.status.busy = false → v.toNat = 3 →
        step s = exec .reset ({ s with host := r }.accept v)

/-! ## Commands -/

/-- R151, R154, R155: NOP ends its command and changes nothing else; IDLE changes nothing; DECODE on an initialised
block starts at CHECK with the working copy equal to `S`, otherwise it raises NotInitialized. That PCM space is
unspecified from the start of a DECODE on is the model's choice (log entry 4). -/
def Obligations.NopIdleDecode : Prop :=
  ∀ s : State,
    exec .nop s = .next { s with
        status := { s.status with busy := false, done := true }, seq := 0x00#8, cmd := none, w := Work.none }
      ∧ exec .idle s = .next s
      ∧ (s.status.inited = true →
          exec .decode s = .next { s with
            cmd := none, seq := 0x01#8, w := Work.none, wrk := s.dec, pcm := []
            unspecEpoch := s.unspecEpoch + 1 })
      ∧ (s.status.inited = false →
          exec .decode s = .next { s with
            cmd := none, seq := 0x00#8, w := Work.none, wrk := s.dec, pcm := []
            unspecEpoch := s.unspecEpoch + 1, errinfo := 0#32
            status := { s.status with busy := false, done := true, erased := false, muted := false,
                                      ovfRetry := false, err := 4#4 } })

/-- R152, R153, R309, with the ranges of R121 to R126: the outcomes of INIT. AlreadyInitialized; the first failing
check in ascending number, which is reported; or, when every check holds, an initialised block. The checks are written
out on the words of PROFILE space, and the profiles the model calls well-formed are those that pass them. The counter
behind the unspecified PCM words is the model's choice (log entry 4). -/
def Obligations.InitOutcome : Prop :=
  ∀ s : State,
    (s.status.inited = true →
        exec .init s = .next (s.raise { code := .alreadyInitialized, stage := .idle, sf := 0, field := 0, value := 0 }))
      ∧ (∀ (c : Nat) (holds : Prop), s.status.inited = false → (c, holds) ∈ Spec.checks s → ¬ holds →
          (∀ q ∈ Spec.checks s, q.1 < c → q.2) →
          exec .init s = .next (s.raise
            { code := .badProfile, stage := .idle, sf := 0, field := c
              value := if c ≤ 0x4F then (readWord s .profile c).toNat else 0 }))
      ∧ (s.status.inited = false → (∀ q ∈ Spec.checks s, q.2) →
          ∃ d, exec .init s = .next { s with
            dec := d, wrk := d, pcm := [], unspecEpoch := s.unspecEpoch + 1
            pcmlen := BitVec.ofNat 32 (P.nsf s * P.sfLen s), cmd := none, seq := 0x00#8, w := Work.none
            status := { s.status with busy := false, done := true, inited := true, erun := 0#8 } }
            ∧ DecOk s d)
      ∧ (profileOk s = true ↔ ∀ q ∈ Spec.checks s, q.2)

/-- R343, R51 to R57: the values of `S` after a successful INIT, every history at its declared length. -/
def Obligations.InitValues : Prop :=
  ∀ s : State, s.status.inited = false → profileOk s = true →
    ∃ t, exec .init s = .next t
      ∧ t.dec.prevLsf.length = P.order s ∧ t.dec.prevLsp.length = P.order s
      ∧ (∀ i < P.order s, elem t.dec.prevLsf i = P.lspInit s i ∧ elem t.dec.prevLsp i = cosQ15 (P.lspInit s i))
      ∧ (∀ v ∈ t.dec.lsfMaHist, ∀ x ∈ v, x = 0) ∧ (∀ x ∈ t.dec.excHist, x = 0)
      ∧ t.dec.energyHist.length = P.maOrder s ∧ (∀ x ∈ t.dec.energyHist, x = P.energyInit s)
      ∧ (∀ x ∈ t.dec.gpHist, x = 0) ∧ (∀ x ∈ t.dec.gcHist, x = 0)
      ∧ t.dec.sharpBeta = P.sharpMin s ∧ t.dec.prevLagInt = P.pitchMin s
      ∧ t.dec.dispOnset = 0 ∧ t.dec.dispPrevFilt = 0 ∧ t.dec.dispPrevGc = 0
      ∧ (∀ x ∈ t.dec.synMem, x = 0) ∧ (∀ x ∈ t.dec.pfFirMem, x = 0) ∧ (∀ x ∈ t.dec.pfIirMem, x = 0)
      ∧ (∀ x ∈ t.dec.pfResHist, x = 0) ∧ t.dec.pfTiltMem = 0 ∧ t.dec.pfAgcGain = 4096
      ∧ t.dec.erasureRun = 0 ∧ t.dec.prngSeed = P.fecPrngSeed s
      ∧ DecOk s t.dec

/-- R112: an illegal command word ends at once with IllegalCommand and its low 16 bits, and changes nothing else. -/
def Obligations.IllegalCommand : Prop :=
  ∀ (w : Word) (s : State), 4 ≤ w.toNat →
    exec (decodeCommand w) s = .next { s with
      errinfo := BitVec.ofNat 32 (w.toNat % 65536 * 65536), wrk := s.dec, w := Work.none, seq := 0x00#8, cmd := none
      status := { s.status with busy := false, done := true, erased := false, muted := false,
                                ovfRetry := false, err := 6#4 } }

/-! ## CHECK -/

/-- R156 steps 1 to 3, R157: the reserved bits of `CTRL`, then the frame type, then an erased frame, which is
concealed whatever its indices are. -/
def Obligations.CheckHeadAndErasure : Prop :=
  ∀ s : State,
    ((F.ctrl s / 2 % 8 ≠ 0 ∨ 256 ≤ F.ctrl s) →
        exec .check s = .next (s.raise
          { code := .invalidParameter, stage := .check, sf := 0, field := 0, value := F.ctrl s }))
      ∧ (F.ctrl s / 2 % 8 = 0 → F.ctrl s < 256 → (P.frameTypes s).testBit (F.ctrl s / 16 % 16) = false →
          exec .check s = .next (s.raise
            { code := .unsupportedMode, stage := .check, sf := 0, field := 0, value := F.ctrl s / 16 % 16 }))
      ∧ (Spec.headOk s → Spec.erased s →
          exec .check s = .next ((s.setW { s.w with
            erased := some true, run := some (min 255 (s.wrk.erasureRun + 1))
            muted := some (decide (0 < P.muteThreshold s ∧ P.muteThreshold s ≤ min 255 (s.wrk.erasureRun + 1)))
            }).goto .lsfConceal 0 false))

/-- R156 steps 4 to 6, R157, R308, R309, R310: a frame that is not erased passes CHECK exactly when every index it
uses is legal, the delays chained through the subframes. Otherwise CHECK raises InvalidParameter at the first index
that is not, with its field, its subframe and the value: the LSP indices by stage, the predictor selector, then
subframe by subframe the pitch index, the two gain indices, the code and the sign word. -/
def Obligations.CheckGoodFrame : Prop :=
  ∀ s : State, Spec.headOk s → ¬ Spec.erased s →
    ((∀ st < P.lspStages s, Spec.lspOk s st) → Spec.maSelOk s → (∃ prev, Spec.subframesOk s (P.nsf s) prev) →
        exec .check s = .next ((s.setW { s.w with
          erased := some false, run := some 0, muted := some false }).goto .lsfDec 0 false))
      ∧ (¬ ((∀ st < P.lspStages s, Spec.lspOk s st) ∧ Spec.maSelOk s ∧ ∃ prev, Spec.subframesOk s (P.nsf s) prev) →
          ∃ sf field value, 1 ≤ field ∧ Spec.checkRaises s sf field value)
      ∧ (∀ st < P.lspStages s, (∀ i < st, Spec.lspOk s i) → ¬ Spec.lspOk s st →
          Spec.checkRaises s 0 (8 + st) (F.lspIdx s st))
      ∧ ((∀ st < P.lspStages s, Spec.lspOk s st) → ¬ Spec.maSelOk s → Spec.checkRaises s 0 13 (F.lspMaSel s))
      ∧ ∀ sf < P.nsf s, ∀ prev, (∀ st < P.lspStages s, Spec.lspOk s st) → Spec.maSelOk s →
          Spec.subframesOk s sf prev →
          (pitchDecode s sf (F.pitchIdx s sf) (prev sf) = none → Spec.checkRaises s sf 1 (F.pitchIdx s sf))
            ∧ (pitchDecode s sf (F.pitchIdx s sf) (prev sf) ≠ none →
              (¬ Spec.gainAOk s sf → Spec.checkRaises s sf 2 (F.gainIdxA s sf))
                ∧ (Spec.gainAOk s sf → ¬ Spec.gainBOk s sf → Spec.checkRaises s sf 3 (F.gainIdxB s sf))
                ∧ (Spec.gainAOk s sf → Spec.gainBOk s sf →
                  (fcbPositions s (P.fcbFamily s) (F.fcbCode s sf) = none →
                      Spec.checkRaises s sf 4 (F.fcbCode s sf))
                    ∧ (∀ pos, fcbPositions s (P.fcbFamily s) (F.fcbCode s sf) = some pos →
                        2 ^ P.fcbNpulses s ≤ F.fcbSign s sf → Spec.checkRaises s sf 5 (F.fcbSign s sf))))

/-! ## LSP -/

/-- R171, R172: LSF_DEC, coefficient by coefficient. -/
def Obligations.LsfDecCoefficients : Prop :=
  ∀ s : State, ∃ res pred lsf : List Int,
    exec .lsfDec s = .next ((s.setW { s.w with res := some res, pred := some pred, lsf := some lsf }).goto
        .lsfStab 0 false)
      ∧ res.length = P.order s ∧ pred.length = P.order s ∧ lsf.length = P.order s
      ∧ ∀ i < P.order s,
        elem res i = sat16 (∑ st ∈ Finset.range (P.lspStages s),
            if P.stLo s st ≤ i ∧ i < P.stHi s st then
              P.lspCb s st (if P.stGray s st = 1 then grayDecode (F.lspIdx s st) else F.lspIdx s st) (i - P.stLo s st)
            else 0)
          ∧ elem pred i = (if P.lspPredMode s = 0 then P.lspMean s i
              else P.lspMean s i + (∑ j ∈ Finset.range (P.lspMaNp s),
                P.lspMaCoef s (F.lspMaSel s) j i * elem ((s.wrk.lsfMaHist[j]?).getD []) i) / 2 ^ 15)
          ∧ elem lsf i = sat16 (elem res i + elem pred i)

/-- R173, R174: on a well-formed profile LSF_STAB never raises, and leaves the vector the three passes of the rule
give, which is inside the bounds with every gap at least the minimum spacing. -/
def Obligations.LsfStabInvariant : Prop :=
  ∀ (s : State) (x : List Int), profileOk s = true → s.w.lsf = some x → x.length = P.order s →
    ∃ y, exec .lsfStab s = .next ((s.setW { s.w with lsf := some y }).goto .lsf2lsp 0 false)
      ∧ y = tab (P.order s) (Spec.stab (P.minSpacing s) (P.lsfLower s) (P.lsfUpper s) (P.order s) fun i => elem x i)
      ∧ LsfOk s y ∧ ∀ i < P.order s, 0 ≤ elem y i ∧ elem y i ≤ 32767

/-- R173, R347: the three passes on lists are the three loops of the rule on an array, in place and in their stated
directions. -/
def Obligations.LsfStabLoops : Prop :=
  ∀ (d lower upper : Int) (p : Nat) (x : Nat → Int),
    stabilise d lower upper (tab p x) = tab p (Spec.stab d lower upper p x)

/-- R177: `COS` by linear interpolation in the listed table, and that it is non-increasing and inside the i16 range.
-/
def Obligations.CosineTable : Prop :=
  (∀ k : Nat, k < 64 → ∃ a b, Spec.cosTable[k]? = some a ∧ Spec.cosTable[k + 1]? = some b
      ∧ ∀ off : Nat, off < 512 → cosQ15 (512 * k + off) = a + (b - a) * off / 2 ^ 9)
    ∧ (∀ k : Nat, k < 64 → ∃ c, Spec.cosTable[k]? = some c ∧ cosQ15 (512 * k) = c)
    ∧ (∀ x y : Int, 0 ≤ x → x ≤ y → y ≤ 32767 → cosQ15 y ≤ cosQ15 x)
    ∧ (∀ x : Int, 0 ≤ x → x ≤ 32767 → -32767 ≤ cosQ15 x ∧ cosQ15 x ≤ 32767)

/-- R176, R179: LSF2LSP and LSP_INTERP, coefficient by coefficient; with a weight of at most 1.0 an interpolated value
lies between its two operands, and the end weights give the operands themselves. -/
def Obligations.LspInterpBounds : Prop :=
  ∀ s : State,
    (∀ lsf, s.w.lsf = some lsf → 0 < P.nsf s →
        ∃ q, exec .lsf2lsp s = .next ((s.setW { s.w with lspq := some q }).goto .lspInterp 0 false)
          ∧ q.length = P.order s ∧ ∀ i < P.order s, elem q i = cosQ15 (elem lsf i))
      ∧ (∀ lspq, s.w.lspq = some lspq →
        ∃ q, exec .lspInterp s = .next ((s.setW { s.w with lspi := some q }).goto .lsp2lpc s.sf false)
          ∧ q.length = P.order s
          ∧ ∀ i < P.order s,
            elem q i = ((P.interpW s s.sf : Int) * elem lspq i
                + (32768 - (P.interpW s s.sf : Int)) * elem s.wrk.prevLsp i) / 2 ^ 15
            ∧ (P.interpW s s.sf ≤ 32768 → min (elem lspq i) (elem s.wrk.prevLsp i) ≤ elem q i
                ∧ elem q i ≤ max (elem lspq i) (elem s.wrk.prevLsp i))
            ∧ (P.interpW s s.sf = 32768 → elem q i = elem lspq i)
            ∧ (P.interpW s s.sf = 0 → elem q i = elem s.wrk.prevLsp i))

/-- R181, R182: LSP2LPC with the polynomials of the in-place recursion, and the pitch stage it goes on to (R158). -/
def Obligations.Lsp2lpcPolynomials : Prop :=
  ∀ (s : State) (lspi : List Int) (erased : Bool), s.w.lspi = some lspi → s.w.erased = some erased →
    2 ≤ P.order s → P.order s % 2 = 0 →
    ∃ lpc, exec .lsp2lpc s = .next ((s.setW { s.w with lpc := some lpc }).goto
        (if erased then .pitchConceal else if (P.pitchAbsMask s).testBit s.sf then .pitchAbs else .pitchRel) s.sf false)
      ∧ lpc.length = P.order s + 1 ∧ elem lpc 0 = 4096
      ∧ ∀ i : Nat, 1 ≤ i → i ≤ P.order s / 2 →
        let f1 := Spec.poly (fun n => elem lspi n) 0 (P.order s / 2)
        let f2 := Spec.poly (fun n => elem lspi n) 1 (P.order s / 2)
        elem lpc i = sat16 ((f1 i + f1 (i - 1) + 1024 + (f2 i - f2 (i - 1))) / 2 ^ 11)
          ∧ elem lpc (P.order s + 1 - i : Nat) = sat16 ((f1 i + f1 (i - 1) + 1024 - (f2 i - f2 (i - 1))) / 2 ^ 11)

/-! ## Pitch -/

/-- R191 to R195: PITCH_ABS and PITCH_REL where the decoded delay is in range, with both laws written out. Off the
path each stage uses its own law, by the model's choice (log entry 15). -/
def Obligations.PitchStages : Prop :=
  ∀ (s : State) (t : Int), Spec.inRange s t →
    (F.pitchIdx s s.sf < 2 ^ P.absBits s → t = Spec.absT s (F.pitchIdx s s.sf) →
        exec .pitchAbs s = .next ((s.setW { s.w with
          tInt := some (t / P.pitchRes s), tFrac := some (t % P.pitchRes s) }).goto .acbInterp s.sf false))
      ∧ (F.pitchIdx s s.sf < 2 ^ P.relBits s → P.pitchMin s + P.winMargin s ≤ P.pitchMax s →
        t = Spec.relT s (F.pitchIdx s s.sf) s.wrk.prevLagInt →
        exec .pitchRel s = .next ((s.setW { s.w with
          tInt := some (t / P.pitchRes s), tFrac := some (t % P.pitchRes s) }).goto .acbInterp s.sf false))

/-- R190, R191, R193, R195, R196, R197: when `PitchDecode` fails, and what it gives otherwise: it fails exactly when
the index has a bit beyond its field or the delay of the subframe's law is out of range, and never clips the delay.
Every delay that leaves it is inside the profile's bounds, so that a lag of 0 never does, and the fraction is inside
the resolution. -/
def Obligations.PitchRange : Prop :=
  ∀ (s : State) (sf idx : Nat) (prev : Int), 0 < P.pitchRes s →
    (∀ ti tf, pitchDecode s sf idx prev = some (ti, tf) →
        LagOk s ti ∧ 0 ≤ tf ∧ tf < P.pitchRes s ∧ (1 ≤ P.pitchMin s → ti ≠ 0))
      ∧ ∀ (bits : Nat) (t : Int),
        (((P.pitchAbsMask s).testBit sf = true ∧ bits = P.absBits s ∧ t = Spec.absT s idx)
          ∨ ((P.pitchAbsMask s).testBit sf = false ∧ bits = P.relBits s ∧ P.pitchMin s + P.winMargin s ≤ P.pitchMax s
            ∧ t = Spec.relT s idx prev)) →
        (pitchDecode s sf idx prev = none ↔ 2 ^ bits ≤ idx ∨ ¬ Spec.inRange s t)
          ∧ (idx < 2 ^ bits → Spec.inRange s t → pitchDecode s sf idx prev = some (t / P.pitchRes s, t % P.pitchRes s))

/-! ## Adaptive codebook -/

/-- R205, R207, R208: ACB_INTERP, sample by sample, where a delay shorter than the subframe reads the vector being
built; with a delay of at least the filter's half length only samples before `n` are read. -/
def Obligations.AcbInterpSamples : Prop :=
  ∀ (s : State) (tInt tFrac : Int) (erased : Bool), s.w.tInt = some tInt → s.w.tFrac = some tFrac →
    s.w.erased = some erased → (P.acbHalfLen s : Int) ≤ tInt → 0 ≤ tFrac → (erased = true ∨ P.fcbFamily s ≤ 3) →
    ∃ v, exec .acbInterp s = .next ((s.setW { s.w with acbv := some v }).goto
        (if erased then .fcbConceal
          else if P.fcbFamily s = 0 then .fcbTrack else if P.fcbFamily s = 1 then .fcbGray
          else if P.fcbFamily s = 2 then .fcbBaseb else .fcbExpl) s.sf false)
      ∧ v.length = P.sfLen s
      ∧ (tFrac < P.pitchRes s → ∀ n < P.sfLen s,
        let x := Spec.past s.wrk.excHist (P.histLen s) (fun j => elem v j)
        let fp := tFrac.toNat * (P.acbPrec s / P.pitchRes s)
        elem v n = sat16 ((0x4000 + ∑ i ∈ Finset.range (P.acbHalfLen s),
          (x ((n : Int) - tInt + i) * P.acbFilt s (i * P.acbPrec s + fp)
            + x ((n : Int) - tInt - (i + 1)) * P.acbFilt s ((i + 1) * P.acbPrec s - fp))) / 2 ^ 15))

/-! ## Fixed codebook -/

/-- R216, R222, R223: each of the four stages writes `W.SP` from the frame's code and sign word by its family's rule,
with the pitch-repeat parameters, and goes on to FCB_BUILD. Off the path each stage uses its own family's rule, by the
model's choice (log entry 15), and so is what the sign word and the mask say of pulses 32 and on (log entry 28). -/
def Obligations.FcbStages : Prop :=
  ∀ (s : State) (lag : Int) (pos : List Nat),
    F.fcbSign s s.sf < 2 ^ P.fcbNpulses s → (P.sharpMode s = 0 → lag = 0) → (P.sharpMode s ≠ 0 → s.w.tInt = some lag) →
    ∃ amp : List Int, amp.length = P.fcbNpulses s
      ∧ (∀ k < P.fcbNpulses s, elem amp k =
          if (F.fcbSign s s.sf).testBit k then (P.fcbAmp s : Int) else -(P.fcbAmp s : Int))
      ∧ let sp : SparseVec := { n := P.fcbNpulses s, pos := pos, amp := amp, lag := lag,
                                fac := s.wrk.sharpBeta, mask := P.fcbNorepeatMask s }
        let t := (s.setW { s.w with sp := some sp }).goto .fcbBuild s.sf false
        (trackPositions s false (F.fcbCode s s.sf) = some pos → exec .fcbTrack s = .next t)
          ∧ (trackPositions s true (F.fcbCode s s.sf) = some pos → exec .fcbGray s = .next t)
          ∧ (baseBPositions s (F.fcbCode s s.sf) = some pos → exec .fcbBaseb s = .next t)
          ∧ (explicitPositions s (F.fcbCode s s.sf) = some pos → exec .fcbExpl s = .next t)

/-- R217 to R220: which positions each family decodes, pulse by pulse, and exactly when it fails: fields of the code
for the tracks, with or without the Gray code; the digits of the code in base B; explicit fields. -/
def Obligations.FcbPositions : Prop :=
  ∀ (s : State) (code : Nat) (pos : List Nat),
    (∀ gray : Bool, trackPositions s gray code = some pos ↔
        pos.length = P.fcbNpulses s ∧ code / 2 ^ (∑ j ∈ Finset.range (P.fcbNpulses s), P.fcbBits s j) = 0
        ∧ ∀ k < P.fcbNpulses s,
          let raw := code / 2 ^ (∑ j ∈ Finset.range k, P.fcbBits s j) % 2 ^ P.fcbBits s k
          let fld := if gray then grayDecode raw else raw
          fld < P.fcbTabSize s k ∧ pos[k]? = some (P.fcbTab s k fld))
      ∧ (0 < P.fcbBase s → (baseBPositions s code = some pos ↔
        pos.length = P.fcbNpulses s ∧ code < P.fcbBase s ^ P.fcbNpulses s
        ∧ ∀ k < P.fcbNpulses s,
          pos[k]? = some (P.fcbStride s * (code / P.fcbBase s ^ k % P.fcbBase s) + P.fcbCOfs s k)))
      ∧ (explicitPositions s code = some pos ↔
        pos.length = P.fcbNpulses s ∧ code < 2 ^ (P.fcbNpulses s * P.fcbPosbits s)
        ∧ ∀ k < P.fcbNpulses s,
          code / 2 ^ (k * P.fcbPosbits s) % 2 ^ P.fcbPosbits s < P.sfLen s
            ∧ pos[k]? = some (code / 2 ^ (k * P.fcbPosbits s) % 2 ^ P.fcbPosbits s))

/-- R24, R95, R216: on a well-formed profile every decoded vector has its pulse count and every position inside the
subframe. -/
def Obligations.FcbPositionsInRange : Prop :=
  ∀ (s : State) (code sign : Nat) (pos : List Nat) (amp : List Int), profileOk s = true →
    fcbDecode s (P.fcbFamily s) code sign = .ok (pos, amp) →
    pos.length = P.fcbNpulses s ∧ amp.length = P.fcbNpulses s ∧ ∀ x ∈ pos, x < P.sfLen s

/-- R221: `gray_decode` is the inverse of the reflected binary Gray code, both ways, and a bijection on every range of
`w` bits. -/
def Obligations.GrayInverse : Prop :=
  (∀ b < 2 ^ 32, grayDecode (b ^^^ (b >>> 1)) = b)
    ∧ (∀ g < 2 ^ 32, grayDecode g ^^^ (grayDecode g >>> 1) = g)
    ∧ ∀ w ≤ 32, ∀ g < 2 ^ w, grayDecode g < 2 ^ w

/-! ## Excitation -/

/-- R252: FCB_BUILD in its three sharpening modes: the pulses in pulse order; the dense recursion reading what it
wrote; the repeat loop of each pulse, run as the rule writes it. -/
def Obligations.FcbBuildModes : Prop :=
  ∀ (s : State) (sp : SparseVec) (erased : Bool), s.w.sp = some sp → s.w.erased = some erased →
    sp.pos.length = sp.n → sp.amp.length = sp.n → (∀ x ∈ sp.pos, x < P.sfLen s) → P.sharpMode s ≤ 2 →
    (P.sharpMode s ≠ 0 → 1 ≤ sp.lag) →
    ∃ v v0 : List Int, exec .fcbBuild s = .next ((s.setW { s.w with fcv := some v }).goto
        (if erased then .gainConceal else .gainDec) s.sf false)
      ∧ v.length = P.sfLen s
      ∧ v0 = Spec.addPulses (List.replicate (P.sfLen s) 0) (sp.pos.zip sp.amp)
      ∧ (P.sharpMode s = 0 → v = v0)
      ∧ (P.sharpMode s = 1 → ∀ i : Nat, i < P.sfLen s →
          elem v i = if (i : Int) < sp.lag then elem v0 i
            else sat16 (elem v0 i + sp.fac * elem v ((i : Int) - sp.lag) / 2 ^ 14))
      ∧ (P.sharpMode s = 2 → Spec.PulsesRun (P.sfLen s) sp.lag sp.fac sp.mask 0
          (List.replicate (P.sfLen s) 0) sp.pos sp.amp v)

/-- R224: pulses at one position add: where no sum can leave the i16 range, every sample of the unsharpened vector is
the sum of the amplitudes of the pulses at that position, so opposite pulses cancel and equal ones double. -/
def Obligations.PulsesAdd : Prop :=
  ∀ (len : Nat) (pulses : List (Nat × Int)) (bound : Nat), (∀ q ∈ pulses, q.1 < len ∧ |q.2| ≤ bound) →
    pulses.length * bound ≤ 32767 → ∀ n < len,
    elem (addPulses (zeros len) (pulses.map Prod.fst) (pulses.map Prod.snd)) n =
      (pulses.map fun q => if q.1 = n then q.2 else 0).sum

/-- R256: PHASE_DISP: the strength, the onset counter, the adjustment and the very small gain, written out, and the
circular convolution, every output from the vector as it was. The depth of the gain history is the parameter
`GAIN_HIST_LEN` (log entry 23). -/
def Obligations.PhaseDispSelection : Prop :=
  ∀ (s : State) (fcv : List Int) (gp gc : Int) (nr0 nr1 nr2 nr3 nr onset cnt : Nat),
    s.w.fcv = some fcv → s.w.gp = some gp → s.w.gc = some gc → fcv.length = P.sfLen s →
    nr0 = (if gp < P.dispTLow s then 0 else if gp < P.dispTHigh s then 1 else 2) →
    onset = (if gc > 2 * s.wrk.dispPrevGc then 2
      else if 0 < s.wrk.dispOnset then s.wrk.dispOnset - 1 else s.wrk.dispOnset) →
    cnt = ((Finset.range s.caps.gainHistLen).filter fun i => elem s.wrk.gpHist (i : Nat) < P.dispTLow s).card →
    nr1 = (if 2 < cnt then 0 else nr0) →
    nr2 = (if nr1 > s.wrk.dispPrevFilt + 1 then nr1 - 1 else nr1) →
    nr3 = (if onset = 0 then nr2 else if nr0 < 2 then nr0 + 1 else nr0) →
    nr = (if gc < P.dispMinGc s then 2 else nr3) →
    ∃ v, exec .phaseDisp s = .next (((s.setW { s.w with fcv := some v }).setWrk { s.wrk with
          dispOnset := onset, dispPrevFilt := nr, dispPrevGc := gc }).goto .excMix s.sf false)
      ∧ v.length = P.sfLen s
      ∧ (2 ≤ nr → v = fcv)
      ∧ (nr < 2 → ∀ n < P.sfLen s, elem v n = sat16 ((0x4000 + ∑ k ∈ Finset.range (P.sfLen s),
          elem fcv k * P.dispFilt s nr ((n + (P.sfLen s - k)) % P.sfLen s)) / 2 ^ 15))

/-- R259: EXC_MIX, sample by sample. -/
def Obligations.ExcMixSamples : Prop :=
  ∀ (s : State) (gp gc : Int) (acbv fcv : List Int), s.w.gp = some gp → s.w.gc = some gc →
    s.w.acbv = some acbv → s.w.fcv = some fcv →
    ∃ e, exec .excMix s = .next ((s.setW { s.w with excv := some e }).goto .lpSynth s.sf false)
      ∧ e.length = P.sfLen s
      ∧ ∀ n < P.sfLen s, elem e n = sat16 ((gp * elem acbv n + gc * elem fcv n + 0x2000) / 2 ^ 14)
        ∧ -32768 ≤ elem e n ∧ elem e n ≤ 32767

/-! ## Gain -/

/-- R236, R237: GAIN_DEC in both gain modes, with the predicted energy and the energy of the vector as sums. -/
def Obligations.GainDecResults : Prop :=
  ∀ (s : State) (fcv : List Int) (b : Nat), s.w.fcv = some fcv →
    ((P.gainMode s = 0 ∧ b = F.gainIdxA s s.sf) ∨ (P.gainMode s = 1 ∧ b = F.gainIdxB s s.sf)) →
    exec .gainDec s = .next ((s.setW { s.w with
      corr := some (P.gainCf s (F.gainIdxA s s.sf) : Int), gp := some (P.gainGp s b : Int)
      gc := some (gainc (P.gainCf s (F.gainIdxA s s.sf))
        (P.meanEnergy s * 1024 + ∑ i ∈ Finset.range (P.maOrder s), elem s.wrk.energyHist i * P.maCoef s i)
        (∑ n ∈ Finset.range (P.sfLen s), elem fcv n * elem fcv n) (P.sfLen s)) }).goto .gainUpd s.sf false)

/-- R238: `NUM.gainc` is the clipped floor of the rule's real number, in both of its branches. -/
def Obligations.GaincExact : Prop :=
  ∀ (corr ss len : Nat) (e : Int), 1 ≤ len →
    gainc corr e ss len = max 0 (min 32767
      ⌊if 0 < ss then
          4 * (corr : ℝ) * (10 : ℝ) ^ ((e : ℝ) / (20 * 2 ^ 23)) * Real.sqrt len / Real.sqrt ss
        else (corr : ℝ) * (10 : ℝ) ^ ((e : ℝ) / (20 * 2 ^ 23)) / 2048⌋)

/-- R240: `NUM.loggain` is the saturated floor of the rule's logarithm. -/
def Obligations.LoggainExact : Prop :=
  ∀ corr : Int,
    (corr ≤ 0 → loggain corr = -32768)
      ∧ (0 < corr → loggain corr = sat16 ⌊1024 * 20 * Real.logb 10 ((corr : ℝ) / 4096)⌋)

/-- R277: the two postfilter helpers by their specifications: the floor of a quotient, and the largest `g` whose
square fits. -/
def Obligations.NumericHelpers : Prop :=
  ∀ a b : Int, 0 ≤ a → 0 < b →
    (divQ15 a b * b ≤ 32768 * a ∧ 32768 * a < (divQ15 a b + 1) * b)
      ∧ 0 ≤ sqrtRatioQ12 a b
      ∧ sqrtRatioQ12 a b * sqrtRatioQ12 a b * b ≤ 16777216 * a
      ∧ ∀ g : Int, 0 ≤ g → g * g * b ≤ 16777216 * a → g ≤ sqrtRatioQ12 a b

/-- R243, R244: GAIN_UPD shifts the three histories by one, each with its new entry first: the log-energy of a good
subframe, the attenuated and floored mean of an erased one. The depth of the gain histories is the parameter
`GAIN_HIST_LEN` (log entry 23). -/
def Obligations.GainUpdHistories : Prop :=
  ∀ (s : State) (erased : Bool) (gp gc new : Int), s.w.erased = some erased → s.w.gp = some gp → s.w.gc = some gc →
    s.wrk.energyHist.length = P.maOrder s → s.wrk.gpHist.length = s.caps.gainHistLen →
    s.wrk.gcHist.length = s.caps.gainHistLen → 0 < P.maOrder s → 0 < s.caps.gainHistLen →
    (erased = false → ∃ corr, s.w.corr = some corr ∧ new = loggain corr) →
    (erased = true → new = max ((∑ i ∈ Finset.range (P.maOrder s), elem s.wrk.energyHist i) / P.maOrder s
        - P.eraseAtt s) (P.eraseFloor s)) →
    ∃ e p c : List Int, exec .gainUpd s = .next ((s.setWrk { s.wrk with
          energyHist := e, gpHist := p, gcHist := c }).goto
        (if P.dispEn s then .phaseDisp else .excMix) s.sf false)
      ∧ e.length = P.maOrder s ∧ p.length = s.caps.gainHistLen ∧ c.length = s.caps.gainHistLen
      ∧ elem e 0 = new ∧ elem p 0 = gp ∧ elem c 0 = gc
      ∧ (∀ i : Nat, i + 1 < P.maOrder s → elem e (i + 1 : Nat) = elem s.wrk.energyHist i)
      ∧ ∀ i : Nat, i + 1 < s.caps.gainHistLen →
        elem p (i + 1 : Nat) = elem s.wrk.gpHist i ∧ elem c (i + 1 : Nat) = elem s.wrk.gcHist i

/-- R298, R302: GAIN_CONCEAL decays both gains, or gives zero gains in a muted frame; with decay factors of at most
1.0 the gains do not increase. -/
def Obligations.GainConcealDecay : Prop :=
  ∀ (s : State) (muted : Bool), s.w.muted = some muted →
    ∃ gp gc : Int, exec .gainConceal s = .next ((s.setW { s.w with gp := some gp, gc := some gc }).goto
        .gainUpd s.sf false)
      ∧ (muted = true → gp = 0 ∧ gc = 0)
      ∧ (muted = false → gp = (P.fecGpDecay s : Int) * elem s.wrk.gpHist 0 / 2 ^ 15
          ∧ gc = (P.fecGcDecay s : Int) * elem s.wrk.gcHist 0 / 2 ^ 15)
      ∧ (P.fecGpDecay s ≤ 32768 → 0 ≤ elem s.wrk.gpHist 0 → 0 ≤ gp ∧ gp ≤ elem s.wrk.gpHist 0)
      ∧ (P.fecGcDecay s ≤ 32768 → 0 ≤ elem s.wrk.gcHist 0 → 0 ≤ gc ∧ gc ≤ elem s.wrk.gcHist 0)

/-! ## Synthesis -/

/-- R265, R266: LP_SYNTH: with `y` the unclipped all-pole recursion over the excitation, the stage ends with `W.SYN =
y` where every sample is inside the bound, and otherwise goes to the retry with nothing of the pass kept. -/
def Obligations.LpSynthRecursion : Prop :=
  ∀ (s : State) (lpc excv : List Int), s.w.lpc = some lpc → s.w.excv = some excv →
    ∃ y : Nat → Int,
      (∀ n : Nat, y n = (0x800 - ∑ i ∈ Finset.range (P.order s),
          elem lpc (i + 1 : Nat) * Spec.past s.wrk.synMem (P.order s) y ((n : Int) - (i + 1))) / 2 ^ 12
            + elem excv n)
      ∧ ((∀ n < P.sfLen s, -(P.synthBound s : Int) - 1 ≤ y n ∧ y n ≤ P.synthBound s) →
          exec .lpSynth s = .next ((s.setW { s.w with syn := some (tab (P.sfLen s) y), ovf := some false }).goto
            .sfCommit s.sf false))
      ∧ ((∃ n < P.sfLen s, y n < -(P.synthBound s : Int) - 1 ∨ (P.synthBound s : Int) < y n) →
          exec .lpSynth s = .next ((s.setW { s.w with syn := none, ovf := some true }).goto .lpRetry s.sf true))

/-- R268: LP_RETRY: the rescaled excitation, the recursion on the clipped output, and that every sample is inside the
bound. -/
def Obligations.LpRetryRecursion : Prop :=
  ∀ (s : State) (gp gc : Int) (acbv fcv lpc : List Int), s.w.gp = some gp → s.w.gc = some gc →
    s.w.acbv = some acbv → s.w.fcv = some fcv → s.w.lpc = some lpc →
    ∃ e y : List Int, exec .lpRetry s = .next ((s.setW { s.w with exc2 := some e, syn := some y }).goto
        .sfCommit s.sf true)
      ∧ e.length = P.sfLen s ∧ y.length = P.sfLen s
      ∧ ∀ n < P.sfLen s,
        elem e n = sat16 ((gp * (elem acbv n / 2 ^ P.retryShift s) + gc * elem fcv n + 0x2000) / 2 ^ 14)
          ∧ elem y n = max (-(P.synthBound s : Int) - 1) (min (P.synthBound s)
              ((0x800 - ∑ i ∈ Finset.range (P.order s),
                elem lpc (i + 1 : Nat)
                  * Spec.past s.wrk.synMem (P.order s) (fun j => elem y j) ((n : Int) - (i + 1))) / 2 ^ 12
                + elem e n))
          ∧ -(P.synthBound s : Int) - 1 ≤ elem y n ∧ elem y n ≤ P.synthBound s

/-- R270, R155: SF_COMMIT: the last samples of the synthesis and of the first-pass excitation enter the histories, the
sharpening factor is the clipped pitch gain, the delay is kept, and the retry flag is set once a subframe took one. -/
def Obligations.SfCommitHistories : Prop :=
  ∀ (s : State) (syn excv : List Int) (gp tInt : Int) (ovf : Bool), s.w.syn = some syn → s.w.excv = some excv →
    s.w.gp = some gp → s.w.tInt = some tInt → s.w.ovf = some ovf →
    syn.length = P.sfLen s → excv.length = P.sfLen s → s.wrk.synMem.length = P.order s →
    s.wrk.excHist.length = P.histLen s →
    ∃ (m h : List Int) (beta : Int), exec .sfCommit s = .next { (s.setWrk { s.wrk with
          synMem := m, excHist := h
          sharpBeta := beta, prevLagInt := tInt }).goto
            (if P.pfEn s then .pfResid else .out) s.sf false with
          status := { s.status with ovfRetry := s.status.ovfRetry || ovf } }
      ∧ (P.sharpMin s ≤ P.sharpMax s → beta = max (P.sharpMin s : Int) (min (P.sharpMax s) gp))
      ∧ m.length = P.order s ∧ h.length = P.histLen s
      ∧ (∀ i < P.order s, elem m i = Spec.past s.wrk.synMem (P.order s) (fun j => elem syn j)
          ((P.sfLen s : Int) - P.order s + i))
      ∧ ∀ j < P.histLen s, elem h j = Spec.past s.wrk.excHist (P.histLen s) (fun j => elem excv j)
          ((P.sfLen s : Int) - P.histLen s + j)

/-! ## Postfilter -/

/-- R276, R279: PF_RESID: the weighted coefficients and the FIR residual. -/
def Obligations.PfResidFilter : Prop :=
  ∀ (s : State) (syn lpc : List Int), s.w.syn = some syn → s.w.lpc = some lpc →
    ∃ num den r : List Int, exec .pfResid s = .next ((s.setW { s.w with
          num := some num, den := some den, resid := some r }).goto .pfLongterm s.sf false)
      ∧ num.length = P.order s ∧ den.length = P.order s ∧ r.length = P.sfLen s
      ∧ (∀ i < P.order s,
          elem num i = (elem lpc (i + 1 : Nat) * P.pfGnPow s i + 0x4000) / 2 ^ 15
            ∧ elem den i = (elem lpc (i + 1 : Nat) * P.pfGdPow s i + 0x4000) / 2 ^ 15)
      ∧ ∀ n < P.sfLen s, elem r n = sat16 ((elem syn n * 4096 + 0x800 + ∑ i ∈ Finset.range (P.order s),
          elem num i * Spec.past s.wrk.pfFirMem (P.order s) (fun j => elem syn j) ((n : Int) - 1 - i)) / 2 ^ 12)

/-- R281: PF_LONGTERM: a lag is used exactly when the filter is enabled and the best normalised correlation over the
search window reaches 3 dB; the best lag is the first of the best; the history takes in the residual as it was. -/
def Obligations.PfLongtermBlend : Prop :=
  ∀ (s : State) (r : List Int) (tInt : Int), s.w.resid = some r → s.w.tInt = some tInt → r.length = P.sfLen s →
    s.wrk.pfResHist.length = P.resLen s →
    let rx := Spec.past s.wrk.pfResHist (P.resLen s) (fun j => elem r j)
    let c := fun t : Int => ∑ n ∈ Finset.range (P.sfLen s), elem r n * rx ((n : Int) - t)
    let e := fun t : Int => ∑ n ∈ Finset.range (P.sfLen s), rx ((n : Int) - t) * rx ((n : Int) - t)
    let r0 := ∑ n ∈ Finset.range (P.sfLen s), elem r n * elem r n
    let inWindow := fun t : Int => max (tInt - P.pfLtRange s) (P.pitchMin s) ≤ t
      ∧ t ≤ min (tInt + P.pfLtRange s) (P.pitchMax s)
    let usable := fun t : Int => inWindow t ∧ 0 < c t ∧ 0 < e t
    let best := fun t : Int => usable t ∧ (∀ u, usable u → c u * c u * e t ≤ c t * c t * e u)
      ∧ ∀ u, usable u → u < t → c u * c u * e t < c t * c t * e u
    ∃ r' h : List Int, exec .pfLongterm s = .next (((s.setW { s.w with resid := some r' }).setWrk { s.wrk with
          pfResHist := h }).goto .pfSyntilt s.sf false)
      ∧ r'.length = P.sfLen s ∧ h.length = P.resLen s
      ∧ (∀ j < P.resLen s, elem h j = rx ((P.sfLen s : Int) - P.resLen s + j))
      ∧ (P.pfLtEn s = false → r' = r)
      ∧ ((∀ t, ¬ usable t) → r' = r)
      ∧ ∀ t, P.pfLtEn s = true → best t →
        (2 * c t * c t < e t * r0 → r' = r)
          ∧ (e t * r0 ≤ 2 * c t * c t → ∀ n < P.sfLen s,
            let gl := max 0 (min 32767 (32768 * c t / e t))
            let b := (P.pfLtGamma s : Int) * gl / 2 ^ 15
            let w0 := 32768 * 32768 / (32768 + b)
            let w1 := w0 * b / 2 ^ 15
            elem r' n = sat16 ((w0 * elem r n + w1 * rx ((n : Int) - t) + 0x4000) / 2 ^ 15))

/-- R283: PF_SYNTILT: the all-pole part, the truncated impulse response, the reflection coefficient, the tilt filter
and its memory. -/
def Obligations.PfSyntiltFilters : Prop :=
  ∀ (s : State) (r num den : List Int), s.w.resid = some r → s.w.num = some num → s.w.den = some den →
    num.length = P.order s → den.length = P.order s → 0 < P.sfLen s → 2 ≤ P.pfIrLen s →
    ∃ (y z : List Int) (h : Nat → Int) (kq cc : Int),
      exec .pfSyntilt s = .next (((s.setW { s.w with pfy := some y, pfz := some z }).setWrk { s.wrk with
          pfTiltMem := elem y ((P.sfLen s : Int) - 1) }).goto .pfAgc s.sf false)
      ∧ y.length = P.sfLen s ∧ z.length = P.sfLen s
      ∧ (∀ n < P.sfLen s, elem y n = sat16 ((elem r n * 4096 + 0x800 - ∑ i ∈ Finset.range (P.order s),
          elem den i * Spec.past s.wrk.pfIirMem (P.order s) (fun j => elem y j) ((n : Int) - 1 - i)) / 2 ^ 12))
      ∧ (∀ n < P.pfIrLen s, h n =
          ((if n = 0 then 16777216 else if n ≤ P.order s then elem num (n - 1 : Nat) * 4096 else 0)
            - ∑ i ∈ Finset.range (min n (P.order s)), elem den i * h (n - 1 - i)) / 2 ^ 12)
      ∧ h 0 = 4096
      ∧ kq = max (-32768) (min 32767 ((-32768 * ∑ n ∈ Finset.range (P.pfIrLen s - 1), h n * h (n + 1))
          / ∑ n ∈ Finset.range (P.pfIrLen s), h n * h n))
      ∧ cc = (if kq < 0 then (P.pfTiltNeg s : Int) else P.pfTiltPos s) * kq / 2 ^ 15
      ∧ ∀ n < P.sfLen s, elem z n = sat16 (elem y n
          + (cc * (if n = 0 then s.wrk.pfTiltMem else elem y (n - 1 : Nat)) + 0x4000) / 2 ^ 15)

/-- R286: PF_AGC: the target gain, the gain smoothed sample by sample, the output and the two filter memories; a gain
in 0..32767 stays there. -/
def Obligations.PfAgcGain : Prop :=
  ∀ (s : State) (syn pfy pfz : List Int), s.w.syn = some syn → s.w.pfz = some pfz → s.w.pfy = some pfy →
    syn.length = P.sfLen s → pfy.length = P.sfLen s → s.wrk.pfFirMem.length = P.order s →
    s.wrk.pfIirMem.length = P.order s →
    let ein := ∑ n ∈ Finset.range (P.sfLen s), elem syn n * elem syn n
    let eout := ∑ n ∈ Finset.range (P.sfLen s), elem pfz n * elem pfz n
    ∃ (o fir iir : List Int) (g : Nat → Int),
      exec .pfAgc s = .next (((s.setW { s.w with out := some o }).setWrk { s.wrk with
          pfAgcGain := g (P.sfLen s), pfFirMem := fir, pfIirMem := iir }).goto .out s.sf false)
      ∧ o.length = P.sfLen s ∧ fir.length = P.order s ∧ iir.length = P.order s
      ∧ g 0 = s.wrk.pfAgcGain
      ∧ (∀ n < P.sfLen s, g (n + 1) = ((P.pfAgcAlpha s : Int) * g n + (32768 - (P.pfAgcAlpha s : Int))
            * (if eout = 0 then 4096 else min 32767 (sqrtRatioQ12 ein eout))) / 2 ^ 15
          ∧ elem o n = sat16 ((elem pfz n * g (n + 1) + 0x800) / 2 ^ 12))
      ∧ (∀ i < P.order s,
          elem fir i = Spec.past s.wrk.pfFirMem (P.order s) (fun j => elem syn j) ((P.sfLen s : Int) - P.order s + i)
            ∧ elem iir i = Spec.past s.wrk.pfIirMem (P.order s) (fun j => elem pfy j)
              ((P.sfLen s : Int) - P.order s + i))
      ∧ (P.pfAgcAlpha s ≤ 32768 → 0 ≤ s.wrk.pfAgcGain → s.wrk.pfAgcGain ≤ 32767 →
          ∀ n ≤ P.sfLen s, 0 ≤ g n ∧ g n ≤ 32767)

/-! ## Concealment -/

/-- R292, R294: LSF_CONCEAL decays the vector towards the default and predicts with set 0; PITCH_CONCEAL holds the
delay, or draws one when the profile asks for it and the frame is unvoiced; a drawn delay is inside the profile's
bounds, and so is the delay it gives in either case when the one before it was. -/
def Obligations.LsfPitchConcealResults : Prop :=
  ∀ s : State,
    (∃ lsf pred : List Int, exec .lsfConceal s = .next ((s.setW { s.w with
          lsf := some lsf, pred := some pred }).goto .lsfStab 0 false)
        ∧ lsf.length = P.order s ∧ pred.length = P.order s
        ∧ ∀ i < P.order s,
          elem lsf i = ((P.fecLspDecay s : Int) * elem s.wrk.prevLsf i
              + (32768 - (P.fecLspDecay s : Int)) * P.lspDefault s i) / 2 ^ 15
            ∧ elem pred i = (if P.lspPredMode s = 0 then P.lspMean s i
              else P.lspMean s i + (∑ j ∈ Finset.range (P.lspMaNp s),
                P.lspMaCoef s 0 j i * elem ((s.wrk.lsfMaHist[j]?).getD []) i) / 2 ^ 15))
      ∧ ((P.flags s).testBit 4 = false ∨ (P.fecVoicedThr s : Int) ≤ elem s.wrk.gpHist 0 →
          exec .pitchConceal s = .next ((s.setW { s.w with
            tInt := some s.wrk.prevLagInt, tFrac := some 0 }).goto .acbInterp s.sf false))
      ∧ (∀ r : Nat, (P.flags s).testBit 4 = true → elem s.wrk.gpHist 0 < P.fecVoicedThr s →
          P.pitchMin s ≤ P.pitchMax s →
          r = (s.wrk.prngSeed * P.fecPrngMul s + P.fecPrngAdd s) % 65536 →
          ∃ t : Int, exec .pitchConceal s = .next (((s.setW { s.w with
              tInt := some t, tFrac := some 0 }).setWrk { s.wrk with prngSeed := r }).goto .acbInterp s.sf false)
            ∧ t = P.pitchMin s + (r % (P.pitchMax s - P.pitchMin s + 1) : Nat) ∧ LagOk s t)
      ∧ (LagOk s s.wrk.prevLagInt → ∃ t ti, exec .pitchConceal s = .next t ∧ t.w.tInt = some ti ∧ LagOk s ti)

/-- R291, R296: FCB_CONCEAL draws two numbers a pulse, the first for the position, the second for the sign; every
position is inside the subframe; the generator's state advances by two draws a pulse. -/
def Obligations.FcbConcealDraws : Prop :=
  ∀ (s : State) (lag : Int) (g : Nat → Nat), 0 < P.sfLen s → g 0 = s.wrk.prngSeed →
    (∀ k, g (k + 1) = (g k * P.fecPrngMul s + P.fecPrngAdd s) % 65536) →
    (P.sharpMode s = 0 → lag = 0) → (P.sharpMode s ≠ 0 → s.w.tInt = some lag) →
    ∃ (pos : List Nat) (amp : List Int) (sp : SparseVec),
      exec .fcbConceal s = .next (((s.setW { s.w with sp := some sp }).setWrk { s.wrk with
          prngSeed := g (2 * P.fcbNpulses s) }).goto .fcbBuild s.sf false)
      ∧ sp = { n := P.fcbNpulses s, pos := pos, amp := amp, lag := lag, fac := s.wrk.sharpBeta,
               mask := P.fcbNorepeatMask s }
      ∧ pos.length = P.fcbNpulses s ∧ amp.length = P.fcbNpulses s
      ∧ ∀ k < P.fcbNpulses s,
        pos[k]? = some (g (2 * k + 1) * P.sfLen s / 65536) ∧ g (2 * k + 1) * P.sfLen s / 65536 < P.sfLen s
          ∧ elem amp k = if 32768 ≤ g (2 * k + 2) then (P.fcbAmp s : Int) else -(P.fcbAmp s : Int)

/-! ## Output and commit -/

/-- R159, R62, R128, R301: OUT stores the subframe's samples at their PCM words, zeros in a muted frame, every other
word of every space is unchanged, and the sequencer goes to the next subframe or to FRAME_COMMIT. -/
def Obligations.OutStoresSamples : Prop :=
  ∀ (s : State) (muted : Bool) (x : List Int), s.w.muted = some muted →
    (if P.pfEn s then s.w.out = some x else s.w.syn = some x) → s.sf * P.sfLen s + P.sfLen s ≤ 512 →
    ∃ (o : List Int) (m : Mem), exec .out s = .next ({ s.setW { s.w with out := some o } with pcm := m }.goto
        (if s.sf + 1 < P.nsf s then .lspInterp else .frameCommit) (if s.sf + 1 < P.nsf s then s.sf + 1 else 0) false)
      ∧ o.length = P.sfLen s ∧ (∀ n < P.sfLen s, elem o n = if muted then 0 else elem x n)
      ∧ (s.pcm.wf 512 = true → m.wf 512 = true)
      ∧ ∀ t, t = ({ s.setW { s.w with out := some o } with pcm := m } : State) →
        (∀ n < P.sfLen s, pcmWord t (s.sf * P.sfLen s + n) = (BitVec.ofInt 16 (elem o n)).signExtend 32)
          ∧ ∀ a, ¬ (s.sf * P.sfLen s ≤ a ∧ a < s.sf * P.sfLen s + P.sfLen s) → pcmWord t a = pcmWord s a

/-- R160, R150, R155, R58: FRAME_COMMIT: the working copy with the frame's vectors, history entry and run becomes `S`,
the flags of the frame show, and the command ends without error. That no working register holds a value from then on
is the model's reading of where a command ends (log entry 19). -/
def Obligations.FrameCommitState : Prop :=
  ∀ (s : State) (lspq lsf : List Int) (run : Nat) (erased muted : Bool) (new : List Int),
    s.w.lspq = some lspq → s.w.lsf = some lsf → s.w.run = some run → s.w.erased = some erased →
    s.w.muted = some muted → (erased = false → s.w.res = some new) →
    (erased = true → ∃ pred, s.w.pred = some pred ∧ new.length = P.order s
      ∧ ∀ i < P.order s, elem new i = sat16 (elem lsf i - elem pred i)) →
    s.wrk.lsfMaHist.length = (if P.lspPredMode s = 1 then P.lspMaNp s else 0) →
    ∃ ma : List (List Int), exec .frameCommit s = .next { s with
        dec := { s.wrk with prevLsp := lspq, prevLsf := lsf, lsfMaHist := ma, erasureRun := run }
        wrk := { s.wrk with prevLsp := lspq, prevLsf := lsf, lsfMaHist := ma, erasureRun := run }
        seq := 0x00#8, cmd := none, w := Work.none
        status := { s.status with busy := false, done := true, erased := erased, muted := muted
                                  erun := BitVec.ofNat 8 run } }
      ∧ ma.length = s.wrk.lsfMaHist.length
      ∧ (P.lspPredMode s ≠ 1 → ma = s.wrk.lsfMaHist)
      ∧ (P.lspPredMode s = 1 → 0 < P.lspMaNp s → ma[0]? = some new
          ∧ ∀ j, j + 1 < P.lspMaNp s → ma[j + 1]? = s.wrk.lsfMaHist[j]?)

/-! ## The whole machine -/

/-- R162, R58, R50: what an operation may touch, for every operation: none writes PROFILE or PARAM space, the host's
script or the log; only INIT, RESET and FRAME_COMMIT write `S`; only RESET writes `CTRL`; only DECODE, INIT, RESET and
OUT change a word of PCM space; only RESET clears `INITED` and only INIT sets it. -/
def Obligations.CommandFrame : Prop :=
  ∀ (i : Instr) (s t : State), exec i s = .next t →
    t.profile = s.profile ∧ t.param = s.param ∧ t.caps = s.caps ∧ t.rstEpoch = s.rstEpoch
      ∧ t.host = s.host ∧ t.readLog = s.readLog ∧ t.freeCtr = s.freeCtr
      ∧ (∀ a, readWord t .profile a = readWord s .profile a ∧ readWord t .param a = readWord s .param a)
      ∧ (i ≠ .reset → t.ie = s.ie)
      ∧ (i ≠ .reset → i ≠ .init → t.status.inited = s.status.inited ∧ t.pcmlen = s.pcmlen)
      ∧ (i ≠ .reset → i ≠ .init → i ≠ .frameCommit → t.dec = s.dec ∧ t.status.erun = s.status.erun)
      ∧ (i ≠ .reset → i ≠ .init → i ≠ .decode → i ≠ .out → ∀ a, pcmWord t a = pcmWord s a)

/-- R30, R42, R44, R46, R163, R174, R196: the invariant of the machine is kept by every step, whatever the host does.
-/
def Obligations.StepKeepsInvariant : Prop :=
  ∀ s t : State, Inv s → step s = .next t → Inv t

/-- R75, R340: the machine right after reset is ready, with any script of the host. -/
def Obligations.ResetReady : Prop :=
  Ready State.reset ∧ ∀ h, Ready { State.reset with host := h }

/-- R23, R191, R314: in a state a host script can bring about no step stops: no stage reads a working register that
holds no value, no decoder meets an index that CHECK let through, and the next state is such a state again. -/
def Obligations.ReadyNeverStops : Prop :=
  ∀ s : State, Ready s → ∃ t, step s = .next t ∧ Ready t

/-- R352, R155: a DECODE that the host lets run ends within the rule's number of stages: one step to start and at most
`4 + 18·NSF + 1` stages later the block is idle with `DONE = 1`. An empty script lets the block run, by the model's
choice (log entry 1). -/
def Obligations.DecodeTerminates : Prop :=
  ∀ s : State, Ready s → s.host = [] → s.cmd = some 2#32 → s.status.busy = true → s.status.inited = true →
    ∃ k t, k ≤ 1 + (4 + 18 * P.nsf s + 1) ∧ Host.Core.run Sys2Proof.core k s = .next t
      ∧ t.status.busy = false ∧ t.status.done = true ∧ t.seq = 0x00#8 ∧ t.cmd = none

/-- R20, R163, R342: the position, the working registers, the working copy of `S` and `S` after a stage are functions
of the profile, the parameters, the capacities, the position, the working registers, the working copy and `S` before
it alone, whatever `STATUS`, `ERRINFO`, `CTRL`, PCM space, the host, the log and the free values are; `STATUS`,
`ERRINFO` and PCM space after it depend on nothing more than these and themselves. -/
def Obligations.NoHiddenState : Prop :=
  ∀ (q : BitVec 8) (s t s' : State),
    s.profile = t.profile → s.param = t.param → s.caps = t.caps → s.rstEpoch = t.rstEpoch →
    s.seq = t.seq → s.w = t.w → s.wrk = t.wrk → s.dec = t.dec →
    exec (decodeStage (seqStage q)) s = .next s' →
    ∃ t', exec (decodeStage (seqStage q)) t = .next t'
      ∧ s'.seq = t'.seq ∧ s'.w = t'.w ∧ s'.wrk = t'.wrk ∧ s'.dec = t'.dec
      ∧ (s.status = t.status → s'.status = t'.status)
      ∧ (s.errinfo = t.errinfo → s'.errinfo = t'.errinfo)
      ∧ (s.pcm = t.pcm → s'.pcm = t'.pcm)
end

