-- ==== Sys2Proof/Laws/Arith.lean ====
section
/-! SUPPORT. What the arithmetic primitives and the array forms give, one lemma for each thing a proof asks of them. -/

namespace Sys2Proof.Machine

/-! ## `elem` and `tab` -/

@[simp] theorem tab_length (n : Nat) (f : Nat → Int) : (tab n f).length = n := by simp [tab]

theorem tab_getElem? {n i : Nat} (h : i < n) (f : Nat → Int) : (tab n f)[i]? = some (f i) := by
  simp [tab, h]

/-- `A[i]` inside the declared range is the element itself. -/
theorem elem_of_getElem? {l : List Int} {i : Nat} {v : Int} (h : l[i]? = some v) : elem l i = v := by
  have h0 : ¬ ((i : Int) < 0) := by omega
  simp [elem, h]

theorem elem_eq_getElem {l : List Int} {i : Nat} (h : i < l.length) : elem l i = l[i] :=
  elem_of_getElem? (List.getElem?_eq_getElem h)

@[simp] theorem elem_tab {n i : Nat} (h : i < n) (f : Nat → Int) : elem (tab n f) (i : Int) = f i :=
  elem_of_getElem? (tab_getElem? h f)

theorem tab_congr {n : Nat} {f g : Nat → Int} (h : ∀ i, i < n → f i = g i) : tab n f = tab n g := by
  apply List.map_congr_left
  intro i hi
  exact h i (List.mem_range.mp hi)

/-- A list of length `n` is the table of its elements. -/
theorem eq_tab_elem {n : Nat} {l : List Int} (h : l.length = n) : l = tab n fun i => elem l i := by
  apply List.ext_getElem?
  intro i
  by_cases hi : i < n
  · rw [tab_getElem? hi, List.getElem?_eq_getElem (by omega), elem_eq_getElem (by omega)]
  · rw [List.getElem?_eq_none (by omega), List.getElem?_eq_none (by simp; omega)]

/-! ## `sumTo` -/

theorem sumTo_congr {n : Nat} {f g : Nat → Int} (h : ∀ i, i < n → f i = g i) : sumTo n f = sumTo n g := by
  induction n with
  | zero => rfl
  | succ n ih => simp only [sumTo]; rw [ih fun i hi => h i (by omega), h n (by omega)]

theorem sumTo_eq_sum (n : Nat) (f : Nat → Int) : sumTo n f = ∑ i ∈ Finset.range n, f i := by
  induction n with
  | zero => rfl
  | succ n ih => simp only [sumTo, Finset.sum_range_succ, ih]

/-! ## `buildUp` -/

@[simp] theorem buildUp_length (f : List Int → Nat → Int) (n : Nat) : (buildUp f n).length = n := by
  induction n with
  | zero => rfl
  | succ n ih => simp [buildUp, ih]

/-- The array after `i` turns is the first `i` elements of the array after `n` turns. -/
theorem buildUp_take (f : List Int → Nat → Int) {i n : Nat} (h : i ≤ n) :
    (buildUp f n).take i = buildUp f i := by
  induction n with
  | zero =>
    obtain rfl : i = 0 := by omega
    rfl
  | succ n ih =>
    rcases Nat.lt_or_ge n i with hi | hi
    · obtain rfl : i = n + 1 := by omega
      exact List.take_of_length_le (by simp)
    · simp only [buildUp]
      rw [List.take_append_of_le_length (by simpa using hi), ih hi]

/-- Element `i` of the array is what turn `i` computed from the elements before it. -/
theorem buildUp_getElem? (f : List Int → Nat → Int) {i n : Nat} (h : i < n) :
    (buildUp f n)[i]? = some (f (buildUp f i) i) := by
  have h1 : (buildUp f n)[i]? = ((buildUp f n).take (i + 1))[i]? := by
    rw [List.getElem?_take_of_lt (Nat.lt_succ_self i)]
  rw [h1, buildUp_take f (by omega : i + 1 ≤ n)]
  simp only [buildUp]
  rw [List.getElem?_append_right (by simp)]
  simp

theorem elem_buildUp (f : List Int → Nat → Int) {i n : Nat} (h : i < n) :
    elem (buildUp f n) (i : Int) = f (buildUp f i) i := elem_of_getElem? (buildUp_getElem? f h)

/-- An element below `i` may be read from the array after `i` turns or from the whole array. -/
theorem elem_buildUp_prefix (f : List Int → Nat → Int) {j i n : Nat} (hj : j < i) (hi : i ≤ n) :
    elem (buildUp f i) (j : Int) = elem (buildUp f n) (j : Int) := by
  rw [elem_buildUp f hj, elem_buildUp f (by omega)]

/-! ## Histories -/

@[simp] theorem lastN_length (n : Nat) (l : List Int) : (lastN n l).length = min n l.length := by
  simp [lastN]; omega

theorem lastN_getElem? (n : Nat) (l : List Int) (i : Nat) : (lastN n l)[i]? = l[l.length - n + i]? := by
  simp [lastN]

@[simp] theorem pushNewest_length {α : Type} (x : α) (l : List α) : (pushNewest x l).length = l.length := by
  simp [pushNewest]

theorem pushNewest_zero {α : Type} (x : α) {l : List α} (h : 0 < l.length) : (pushNewest x l)[0]? = some x := by
  cases l with
  | nil => simp at h
  | cons a l => simp [pushNewest]

theorem pushNewest_succ {α : Type} (x : α) {l : List α} {i : Nat} (h : i + 1 < l.length) :
    (pushNewest x l)[i + 1]? = l[i]? := by
  simp [pushNewest, h]

/-! ## Saturation and the i16 words -/

theorem sat16_range (v : Int) : -32768 ≤ sat16 v ∧ sat16 v ≤ 32767 := by unfold sat16; omega

theorem sat16_of_range {v : Int} (h : -32768 ≤ v ∧ v ≤ 32767) : sat16 v = v := by unfold sat16; omega

theorem clip_range {lo hi : Int} (h : lo ≤ hi) (v : Int) : lo ≤ clip v lo hi ∧ clip v lo hi ≤ hi := by
  rw [clip, if_pos h]; omega

/-- `clip` where R13 defines it. -/
theorem clip_of_le {lo hi : Int} (h : lo ≤ hi) (v : Int) : clip v lo hi = max lo (min hi v) := if_pos h

/-- `div` where R13 defines it. -/
theorem floorDiv_of_pos {b : Int} (h : 0 < b) (a : Int) : floorDiv a b = a / b := if_pos h

/-- `mod` where R13 defines it. -/
theorem floorMod_of_pos {b : Int} (h : 0 < b) (a : Int) : floorMod a b = a % b := if_pos h

theorem natDiv_of_pos {b : Nat} (h : 0 < b) (a : Nat) : natDiv a b = a / b := if_pos h

theorem natMod_of_pos {b : Nat} (h : 0 < b) (a : Nat) : natMod a b = a % b := if_pos h

/-- `a >>a n` is the floor of the quotient (R13). -/
theorem asr_eq_ediv (a : Int) (n : Nat) : asr a n = a / 2 ^ n := Int.shiftRight_eq_div_pow a n

theorem wordI16_range (w : Word) : -32768 ≤ wordI16 w ∧ wordI16 w ≤ 32767 := by
  unfold wordI16
  have h := BitVec.toInt_lt (x := w.setWidth 16)
  have h' := BitVec.le_toInt (w.setWidth 16)
  have h2 : (2 : Int) ^ (16 - 1) = 32768 := by norm_num
  rw [h2] at h h'
  omega

/-- The word an i16 value is shown as reads back as the value. -/
theorem wordI16_i16Word {v : Int} (h : -32768 ≤ v ∧ v ≤ 32767) : wordI16 (i16Word v) = v := by
  have h1 : (i16Word v).setWidth 16 = BitVec.ofInt 16 v := by
    unfold i16Word
    apply BitVec.eq_of_getLsbD_eq
    intro i hi
    rw [BitVec.getLsbD_setWidth, BitVec.getLsbD_signExtend]
    simp [hi, show i < 32 by omega]
  unfold wordI16
  rw [h1, BitVec.toInt_ofInt]
  exact Int.bmod_eq_of_le (by norm_num; omega) (by norm_num; omega)

/-! ## The bit-by-bit search -/

/-- What `search` finds when `p` holds of every number below one it holds of: the largest number of the range that
satisfies `p`, or the start of the range when none does. -/
theorem search_spec {p : Nat → Bool} (hp : ∀ a b, a ≤ b → p b = true → p a = true) (k g : Nat) :
    g ≤ search p k g ∧ search p k g < g + 2 ^ k ∧ (search p k g = g ∨ p (search p k g) = true)
      ∧ ∀ m, m < g + 2 ^ k → p m = true → m ≤ search p k g := by
  induction k generalizing g with
  | zero => simp [search]; intro m hm _; omega
  | succ k ih =>
    have h2 : 2 ^ (k + 1) = 2 ^ k + 2 ^ k := by omega
    have hpos : 0 < 2 ^ k := by positivity
    simp only [search]
    split
    · rename_i h
      obtain ⟨h1, h3, h4, h5⟩ := ih (g + 2 ^ k)
      refine ⟨by omega, by omega, ?_, fun m hm => h5 m (by omega)⟩
      rcases h4 with h4 | h4
      · exact .inr (by rw [h4]; exact h)
      · exact .inr h4
    · rename_i h
      obtain ⟨h1, h3, h4, h5⟩ := ih g
      refine ⟨h1, by omega, h4, fun m hm hm' => ?_⟩
      rcases Nat.lt_or_ge m (g + 2 ^ k) with hlt | hge
      · exact h5 m hlt hm'
      · exact absurd (hp _ _ hge hm') h

end Sys2Proof.Machine
end

