-- ==== Sys2Proof/Laws/State.lean ====
section
/-! SUPPORT. One lemma per field of `State` per update, true by `rfl`, so that no proof unfolds a record update; and
what the operands read after an update. -/

namespace Sys2Proof.Machine

/-! ## `State.setW` -/

@[simp] theorem State.setW_status (s : State) (w : Work) : (s.setW w).status = s.status := rfl
@[simp] theorem State.setW_seq (s : State) (w : Work) : (s.setW w).seq = s.seq := rfl
@[simp] theorem State.setW_errinfo (s : State) (w : Work) : (s.setW w).errinfo = s.errinfo := rfl
@[simp] theorem State.setW_ie (s : State) (w : Work) : (s.setW w).ie = s.ie := rfl
@[simp] theorem State.setW_pcmlen (s : State) (w : Work) : (s.setW w).pcmlen = s.pcmlen := rfl
@[simp] theorem State.setW_cmd (s : State) (w : Work) : (s.setW w).cmd = s.cmd := rfl
@[simp] theorem State.setW_w (s : State) (w : Work) : (s.setW w).w = w := rfl
@[simp] theorem State.setW_dec (s : State) (w : Work) : (s.setW w).dec = s.dec := rfl
@[simp] theorem State.setW_wrk (s : State) (w : Work) : (s.setW w).wrk = s.wrk := rfl
@[simp] theorem State.setW_profile (s : State) (w : Work) : (s.setW w).profile = s.profile := rfl
@[simp] theorem State.setW_param (s : State) (w : Work) : (s.setW w).param = s.param := rfl
@[simp] theorem State.setW_pcm (s : State) (w : Work) : (s.setW w).pcm = s.pcm := rfl
@[simp] theorem State.setW_caps (s : State) (w : Work) : (s.setW w).caps = s.caps := rfl
@[simp] theorem State.setW_host (s : State) (w : Work) : (s.setW w).host = s.host := rfl
@[simp] theorem State.setW_readLog (s : State) (w : Work) : (s.setW w).readLog = s.readLog := rfl
@[simp] theorem State.setW_rstEpoch (s : State) (w : Work) : (s.setW w).rstEpoch = s.rstEpoch := rfl
@[simp] theorem State.setW_unspecEpoch (s : State) (w : Work) : (s.setW w).unspecEpoch = s.unspecEpoch := rfl
@[simp] theorem State.setW_freeCtr (s : State) (w : Work) : (s.setW w).freeCtr = s.freeCtr := rfl
@[simp] theorem profWord_setW (s : State) (w : Work) (a : Nat) : profWord (s.setW w) a = profWord s a := rfl
@[simp] theorem paramWord_setW (s : State) (w : Work) (a : Nat) : paramWord (s.setW w) a = paramWord s a := rfl

/-! ## `State.setWrk` -/

@[simp] theorem State.setWrk_status (s : State) (d : DecState) : (s.setWrk d).status = s.status := rfl
@[simp] theorem State.setWrk_seq (s : State) (d : DecState) : (s.setWrk d).seq = s.seq := rfl
@[simp] theorem State.setWrk_errinfo (s : State) (d : DecState) : (s.setWrk d).errinfo = s.errinfo := rfl
@[simp] theorem State.setWrk_ie (s : State) (d : DecState) : (s.setWrk d).ie = s.ie := rfl
@[simp] theorem State.setWrk_pcmlen (s : State) (d : DecState) : (s.setWrk d).pcmlen = s.pcmlen := rfl
@[simp] theorem State.setWrk_cmd (s : State) (d : DecState) : (s.setWrk d).cmd = s.cmd := rfl
@[simp] theorem State.setWrk_w (s : State) (d : DecState) : (s.setWrk d).w = s.w := rfl
@[simp] theorem State.setWrk_dec (s : State) (d : DecState) : (s.setWrk d).dec = s.dec := rfl
@[simp] theorem State.setWrk_wrk (s : State) (d : DecState) : (s.setWrk d).wrk = d := rfl
@[simp] theorem State.setWrk_profile (s : State) (d : DecState) : (s.setWrk d).profile = s.profile := rfl
@[simp] theorem State.setWrk_param (s : State) (d : DecState) : (s.setWrk d).param = s.param := rfl
@[simp] theorem State.setWrk_pcm (s : State) (d : DecState) : (s.setWrk d).pcm = s.pcm := rfl
@[simp] theorem State.setWrk_caps (s : State) (d : DecState) : (s.setWrk d).caps = s.caps := rfl
@[simp] theorem State.setWrk_host (s : State) (d : DecState) : (s.setWrk d).host = s.host := rfl
@[simp] theorem State.setWrk_readLog (s : State) (d : DecState) : (s.setWrk d).readLog = s.readLog := rfl
@[simp] theorem State.setWrk_rstEpoch (s : State) (d : DecState) : (s.setWrk d).rstEpoch = s.rstEpoch := rfl
@[simp] theorem State.setWrk_unspecEpoch (s : State) (d : DecState) : (s.setWrk d).unspecEpoch = s.unspecEpoch := rfl
@[simp] theorem State.setWrk_freeCtr (s : State) (d : DecState) : (s.setWrk d).freeCtr = s.freeCtr := rfl
@[simp] theorem profWord_setWrk (s : State) (d : DecState) (a : Nat) : profWord (s.setWrk d) a = profWord s a := rfl
@[simp] theorem paramWord_setWrk (s : State) (d : DecState) (a : Nat) : paramWord (s.setWrk d) a = paramWord s a := rfl

/-! ## `State.goto` -/

@[simp] theorem State.goto_status (s : State) (i : Instr) (sf : Nat) (r : Bool) : (s.goto i sf r).status = s.status := rfl
@[simp] theorem State.goto_seq (s : State) (i : Instr) (sf : Nat) (r : Bool) : (s.goto i sf r).seq = seqOf (stageId i) sf r := rfl
@[simp] theorem State.goto_errinfo (s : State) (i : Instr) (sf : Nat) (r : Bool) : (s.goto i sf r).errinfo = s.errinfo := rfl
@[simp] theorem State.goto_ie (s : State) (i : Instr) (sf : Nat) (r : Bool) : (s.goto i sf r).ie = s.ie := rfl
@[simp] theorem State.goto_pcmlen (s : State) (i : Instr) (sf : Nat) (r : Bool) : (s.goto i sf r).pcmlen = s.pcmlen := rfl
@[simp] theorem State.goto_cmd (s : State) (i : Instr) (sf : Nat) (r : Bool) : (s.goto i sf r).cmd = s.cmd := rfl
@[simp] theorem State.goto_w (s : State) (i : Instr) (sf : Nat) (r : Bool) : (s.goto i sf r).w = s.w := rfl
@[simp] theorem State.goto_dec (s : State) (i : Instr) (sf : Nat) (r : Bool) : (s.goto i sf r).dec = s.dec := rfl
@[simp] theorem State.goto_wrk (s : State) (i : Instr) (sf : Nat) (r : Bool) : (s.goto i sf r).wrk = s.wrk := rfl
@[simp] theorem State.goto_profile (s : State) (i : Instr) (sf : Nat) (r : Bool) : (s.goto i sf r).profile = s.profile := rfl
@[simp] theorem State.goto_param (s : State) (i : Instr) (sf : Nat) (r : Bool) : (s.goto i sf r).param = s.param := rfl
@[simp] theorem State.goto_pcm (s : State) (i : Instr) (sf : Nat) (r : Bool) : (s.goto i sf r).pcm = s.pcm := rfl
@[simp] theorem State.goto_caps (s : State) (i : Instr) (sf : Nat) (r : Bool) : (s.goto i sf r).caps = s.caps := rfl
@[simp] theorem State.goto_host (s : State) (i : Instr) (sf : Nat) (r : Bool) : (s.goto i sf r).host = s.host := rfl
@[simp] theorem State.goto_readLog (s : State) (i : Instr) (sf : Nat) (r : Bool) : (s.goto i sf r).readLog = s.readLog := rfl
@[simp] theorem State.goto_rstEpoch (s : State) (i : Instr) (sf : Nat) (r : Bool) : (s.goto i sf r).rstEpoch = s.rstEpoch := rfl
@[simp] theorem State.goto_unspecEpoch (s : State) (i : Instr) (sf : Nat) (r : Bool) : (s.goto i sf r).unspecEpoch = s.unspecEpoch := rfl
@[simp] theorem State.goto_freeCtr (s : State) (i : Instr) (sf : Nat) (r : Bool) : (s.goto i sf r).freeCtr = s.freeCtr := rfl
@[simp] theorem profWord_goto (s : State) (i : Instr) (sf : Nat) (r : Bool) (a : Nat) : profWord (s.goto i sf r) a = profWord s a := rfl
@[simp] theorem paramWord_goto (s : State) (i : Instr) (sf : Nat) (r : Bool) (a : Nat) : paramWord (s.goto i sf r) a = paramWord s a := rfl

/-! ## `State.accept` -/

@[simp] theorem State.accept_status (s : State) (v : Word) : (s.accept v).status = s.status.accepted := rfl
@[simp] theorem State.accept_seq (s : State) (v : Word) : (s.accept v).seq = s.seq := rfl
@[simp] theorem State.accept_errinfo (s : State) (v : Word) : (s.accept v).errinfo = 0#32 := rfl
@[simp] theorem State.accept_ie (s : State) (v : Word) : (s.accept v).ie = s.ie := rfl
@[simp] theorem State.accept_pcmlen (s : State) (v : Word) : (s.accept v).pcmlen = s.pcmlen := rfl
@[simp] theorem State.accept_cmd (s : State) (v : Word) : (s.accept v).cmd = some v := rfl
@[simp] theorem State.accept_w (s : State) (v : Word) : (s.accept v).w = s.w := rfl
@[simp] theorem State.accept_dec (s : State) (v : Word) : (s.accept v).dec = s.dec := rfl
@[simp] theorem State.accept_wrk (s : State) (v : Word) : (s.accept v).wrk = s.wrk := rfl
@[simp] theorem State.accept_profile (s : State) (v : Word) : (s.accept v).profile = s.profile := rfl
@[simp] theorem State.accept_param (s : State) (v : Word) : (s.accept v).param = s.param := rfl
@[simp] theorem State.accept_pcm (s : State) (v : Word) : (s.accept v).pcm = s.pcm := rfl
@[simp] theorem State.accept_caps (s : State) (v : Word) : (s.accept v).caps = s.caps := rfl
@[simp] theorem State.accept_host (s : State) (v : Word) : (s.accept v).host = s.host := rfl
@[simp] theorem State.accept_readLog (s : State) (v : Word) : (s.accept v).readLog = s.readLog := rfl
@[simp] theorem State.accept_rstEpoch (s : State) (v : Word) : (s.accept v).rstEpoch = s.rstEpoch := rfl
@[simp] theorem State.accept_unspecEpoch (s : State) (v : Word) : (s.accept v).unspecEpoch = s.unspecEpoch := rfl
@[simp] theorem State.accept_freeCtr (s : State) (v : Word) : (s.accept v).freeCtr = s.freeCtr := rfl
@[simp] theorem profWord_accept (s : State) (v : Word) (a : Nat) : profWord (s.accept v) a = profWord s a := rfl
@[simp] theorem paramWord_accept (s : State) (v : Word) (a : Nat) : paramWord (s.accept v) a = paramWord s a := rfl

/-! ## `State.endCommand` -/

@[simp] theorem State.endCommand_status (s : State) : (s.endCommand).status = s.status.ended := rfl
@[simp] theorem State.endCommand_seq (s : State) : (s.endCommand).seq = 0x00#8 := rfl
@[simp] theorem State.endCommand_errinfo (s : State) : (s.endCommand).errinfo = s.errinfo := rfl
@[simp] theorem State.endCommand_ie (s : State) : (s.endCommand).ie = s.ie := rfl
@[simp] theorem State.endCommand_pcmlen (s : State) : (s.endCommand).pcmlen = s.pcmlen := rfl
@[simp] theorem State.endCommand_cmd (s : State) : (s.endCommand).cmd = none := rfl
@[simp] theorem State.endCommand_w (s : State) : (s.endCommand).w = Work.none := rfl
@[simp] theorem State.endCommand_dec (s : State) : (s.endCommand).dec = s.dec := rfl
@[simp] theorem State.endCommand_wrk (s : State) : (s.endCommand).wrk = s.wrk := rfl
@[simp] theorem State.endCommand_profile (s : State) : (s.endCommand).profile = s.profile := rfl
@[simp] theorem State.endCommand_param (s : State) : (s.endCommand).param = s.param := rfl
@[simp] theorem State.endCommand_pcm (s : State) : (s.endCommand).pcm = s.pcm := rfl
@[simp] theorem State.endCommand_caps (s : State) : (s.endCommand).caps = s.caps := rfl
@[simp] theorem State.endCommand_host (s : State) : (s.endCommand).host = s.host := rfl
@[simp] theorem State.endCommand_readLog (s : State) : (s.endCommand).readLog = s.readLog := rfl
@[simp] theorem State.endCommand_rstEpoch (s : State) : (s.endCommand).rstEpoch = s.rstEpoch := rfl
@[simp] theorem State.endCommand_unspecEpoch (s : State) : (s.endCommand).unspecEpoch = s.unspecEpoch := rfl
@[simp] theorem State.endCommand_freeCtr (s : State) : (s.endCommand).freeCtr = s.freeCtr := rfl
@[simp] theorem profWord_endCommand (s : State) (a : Nat) : profWord (s.endCommand) a = profWord s a := rfl
@[simp] theorem paramWord_endCommand (s : State) (a : Nat) : paramWord (s.endCommand) a = paramWord s a := rfl

/-! ## `State.raise` -/

@[simp] theorem State.raise_status (s : State) (r : Raise) : (s.raise r).status = s.status.failed r.code.code := rfl
@[simp] theorem State.raise_seq (s : State) (r : Raise) : (s.raise r).seq = 0x00#8 := rfl
@[simp] theorem State.raise_errinfo (s : State) (r : Raise) : (s.raise r).errinfo = r.info := rfl
@[simp] theorem State.raise_ie (s : State) (r : Raise) : (s.raise r).ie = s.ie := rfl
@[simp] theorem State.raise_pcmlen (s : State) (r : Raise) : (s.raise r).pcmlen = s.pcmlen := rfl
@[simp] theorem State.raise_cmd (s : State) (r : Raise) : (s.raise r).cmd = none := rfl
@[simp] theorem State.raise_w (s : State) (r : Raise) : (s.raise r).w = Work.none := rfl
@[simp] theorem State.raise_dec (s : State) (r : Raise) : (s.raise r).dec = s.dec := rfl
@[simp] theorem State.raise_wrk (s : State) (r : Raise) : (s.raise r).wrk = s.dec := rfl
@[simp] theorem State.raise_profile (s : State) (r : Raise) : (s.raise r).profile = s.profile := rfl
@[simp] theorem State.raise_param (s : State) (r : Raise) : (s.raise r).param = s.param := rfl
@[simp] theorem State.raise_pcm (s : State) (r : Raise) : (s.raise r).pcm = s.pcm := rfl
@[simp] theorem State.raise_caps (s : State) (r : Raise) : (s.raise r).caps = s.caps := rfl
@[simp] theorem State.raise_host (s : State) (r : Raise) : (s.raise r).host = s.host := rfl
@[simp] theorem State.raise_readLog (s : State) (r : Raise) : (s.raise r).readLog = s.readLog := rfl
@[simp] theorem State.raise_rstEpoch (s : State) (r : Raise) : (s.raise r).rstEpoch = s.rstEpoch := rfl
@[simp] theorem State.raise_unspecEpoch (s : State) (r : Raise) : (s.raise r).unspecEpoch = s.unspecEpoch := rfl
@[simp] theorem State.raise_freeCtr (s : State) (r : Raise) : (s.raise r).freeCtr = s.freeCtr := rfl
@[simp] theorem profWord_raise (s : State) (r : Raise) (a : Nat) : profWord (s.raise r) a = profWord s a := rfl
@[simp] theorem paramWord_raise (s : State) (r : Raise) (a : Nat) : paramWord (s.raise r) a = paramWord s a := rfl

/-! ## `State.dropPcm` -/

@[simp] theorem State.dropPcm_status (s : State) : (s.dropPcm).status = s.status := rfl
@[simp] theorem State.dropPcm_seq (s : State) : (s.dropPcm).seq = s.seq := rfl
@[simp] theorem State.dropPcm_errinfo (s : State) : (s.dropPcm).errinfo = s.errinfo := rfl
@[simp] theorem State.dropPcm_ie (s : State) : (s.dropPcm).ie = s.ie := rfl
@[simp] theorem State.dropPcm_pcmlen (s : State) : (s.dropPcm).pcmlen = s.pcmlen := rfl
@[simp] theorem State.dropPcm_cmd (s : State) : (s.dropPcm).cmd = s.cmd := rfl
@[simp] theorem State.dropPcm_w (s : State) : (s.dropPcm).w = s.w := rfl
@[simp] theorem State.dropPcm_dec (s : State) : (s.dropPcm).dec = s.dec := rfl
@[simp] theorem State.dropPcm_wrk (s : State) : (s.dropPcm).wrk = s.wrk := rfl
@[simp] theorem State.dropPcm_profile (s : State) : (s.dropPcm).profile = s.profile := rfl
@[simp] theorem State.dropPcm_param (s : State) : (s.dropPcm).param = s.param := rfl
@[simp] theorem State.dropPcm_pcm (s : State) : (s.dropPcm).pcm = [] := rfl
@[simp] theorem State.dropPcm_caps (s : State) : (s.dropPcm).caps = s.caps := rfl
@[simp] theorem State.dropPcm_host (s : State) : (s.dropPcm).host = s.host := rfl
@[simp] theorem State.dropPcm_readLog (s : State) : (s.dropPcm).readLog = s.readLog := rfl
@[simp] theorem State.dropPcm_rstEpoch (s : State) : (s.dropPcm).rstEpoch = s.rstEpoch := rfl
@[simp] theorem State.dropPcm_unspecEpoch (s : State) : (s.dropPcm).unspecEpoch = s.unspecEpoch + 1 := rfl
@[simp] theorem State.dropPcm_freeCtr (s : State) : (s.dropPcm).freeCtr = s.freeCtr := rfl
@[simp] theorem profWord_dropPcm (s : State) (a : Nat) : profWord (s.dropPcm) a = profWord s a := rfl
@[simp] theorem paramWord_dropPcm (s : State) (a : Nat) : paramWord (s.dropPcm) a = paramWord s a := rfl

/-! ## `State.busyViolation` -/

@[simp] theorem State.busyViolation_status (s : State) : (s.busyViolation).status = { s.status with busyViol := true } := rfl
@[simp] theorem State.busyViolation_seq (s : State) : (s.busyViolation).seq = s.seq := rfl
@[simp] theorem State.busyViolation_errinfo (s : State) : (s.busyViolation).errinfo = s.errinfo := rfl
@[simp] theorem State.busyViolation_ie (s : State) : (s.busyViolation).ie = s.ie := rfl
@[simp] theorem State.busyViolation_pcmlen (s : State) : (s.busyViolation).pcmlen = s.pcmlen := rfl
@[simp] theorem State.busyViolation_cmd (s : State) : (s.busyViolation).cmd = s.cmd := rfl
@[simp] theorem State.busyViolation_w (s : State) : (s.busyViolation).w = s.w := rfl
@[simp] theorem State.busyViolation_dec (s : State) : (s.busyViolation).dec = s.dec := rfl
@[simp] theorem State.busyViolation_wrk (s : State) : (s.busyViolation).wrk = s.wrk := rfl
@[simp] theorem State.busyViolation_profile (s : State) : (s.busyViolation).profile = s.profile := rfl
@[simp] theorem State.busyViolation_param (s : State) : (s.busyViolation).param = s.param := rfl
@[simp] theorem State.busyViolation_pcm (s : State) : (s.busyViolation).pcm = s.pcm := rfl
@[simp] theorem State.busyViolation_caps (s : State) : (s.busyViolation).caps = s.caps := rfl
@[simp] theorem State.busyViolation_host (s : State) : (s.busyViolation).host = s.host := rfl
@[simp] theorem State.busyViolation_readLog (s : State) : (s.busyViolation).readLog = s.readLog := rfl
@[simp] theorem State.busyViolation_rstEpoch (s : State) : (s.busyViolation).rstEpoch = s.rstEpoch := rfl
@[simp] theorem State.busyViolation_unspecEpoch (s : State) : (s.busyViolation).unspecEpoch = s.unspecEpoch := rfl
@[simp] theorem State.busyViolation_freeCtr (s : State) : (s.busyViolation).freeCtr = s.freeCtr := rfl
@[simp] theorem profWord_busyViolation (s : State) (a : Nat) : profWord (s.busyViolation) a = profWord s a := rfl
@[simp] theorem paramWord_busyViolation (s : State) (a : Nat) : paramWord (s.busyViolation) a = paramWord s a := rfl

/-! ## `Status` -/

@[simp] theorem Status.accepted_busy (st : Status) : (st.accepted).busy = true := rfl
@[simp] theorem Status.accepted_done (st : Status) : (st.accepted).done = false := rfl
@[simp] theorem Status.accepted_inited (st : Status) : (st.accepted).inited = st.inited := rfl
@[simp] theorem Status.accepted_erased (st : Status) : (st.accepted).erased = false := rfl
@[simp] theorem Status.accepted_muted (st : Status) : (st.accepted).muted = false := rfl
@[simp] theorem Status.accepted_ovfRetry (st : Status) : (st.accepted).ovfRetry = false := rfl
@[simp] theorem Status.accepted_busyViol (st : Status) : (st.accepted).busyViol = false := rfl
@[simp] theorem Status.accepted_err (st : Status) : (st.accepted).err = 0#4 := rfl
@[simp] theorem Status.accepted_erun (st : Status) : (st.accepted).erun = st.erun := rfl

@[simp] theorem Status.ended_busy (st : Status) : (st.ended).busy = false := rfl
@[simp] theorem Status.ended_done (st : Status) : (st.ended).done = true := rfl
@[simp] theorem Status.ended_inited (st : Status) : (st.ended).inited = st.inited := rfl
@[simp] theorem Status.ended_erased (st : Status) : (st.ended).erased = st.erased := rfl
@[simp] theorem Status.ended_muted (st : Status) : (st.ended).muted = st.muted := rfl
@[simp] theorem Status.ended_ovfRetry (st : Status) : (st.ended).ovfRetry = st.ovfRetry := rfl
@[simp] theorem Status.ended_busyViol (st : Status) : (st.ended).busyViol = st.busyViol := rfl
@[simp] theorem Status.ended_err (st : Status) : (st.ended).err = st.err := rfl
@[simp] theorem Status.ended_erun (st : Status) : (st.ended).erun = st.erun := rfl

@[simp] theorem Status.failed_busy (st : Status) (c : BitVec 4) : (st.failed c).busy = false := rfl
@[simp] theorem Status.failed_done (st : Status) (c : BitVec 4) : (st.failed c).done = true := rfl
@[simp] theorem Status.failed_inited (st : Status) (c : BitVec 4) : (st.failed c).inited = st.inited := rfl
@[simp] theorem Status.failed_erased (st : Status) (c : BitVec 4) : (st.failed c).erased = false := rfl
@[simp] theorem Status.failed_muted (st : Status) (c : BitVec 4) : (st.failed c).muted = false := rfl
@[simp] theorem Status.failed_ovfRetry (st : Status) (c : BitVec 4) : (st.failed c).ovfRetry = false := rfl
@[simp] theorem Status.failed_busyViol (st : Status) (c : BitVec 4) : (st.failed c).busyViol = st.busyViol := rfl
@[simp] theorem Status.failed_err (st : Status) (c : BitVec 4) : (st.failed c).err = c := rfl
@[simp] theorem Status.failed_erun (st : Status) (c : BitVec 4) : (st.failed c).erun = st.erun := rfl

/-! ## Operands depend on the stored words, the capacities and the epoch alone -/

/-- Two states with the same PROFILE words, capacities and reset epoch read the same profile word. -/
theorem profWord_congr {s t : State} (hp : t.profile = s.profile) (hc : t.caps = s.caps)
    (he : t.rstEpoch = s.rstEpoch) (a : Nat) : profWord t a = profWord s a := by
  unfold profWord storedWord spaceSize; rw [hp, hc, he]

/-- Two states with the same PARAM words and reset epoch read the same parameter word. -/
theorem paramWord_congr {s t : State} (hp : t.param = s.param) (he : t.rstEpoch = s.rstEpoch) (a : Nat) :
    paramWord t a = paramWord s a := by
  unfold paramWord storedWord spaceSize; rw [hp, he]

end Sys2Proof.Machine
end

