-- ==== Sys2Proof/Laws/Inputs.lean ====
section
/-! SUPPORT. What the operands and the checks read of the state: the words of PROFILE and PARAM space and the capacities,
nothing else. A function of those is unchanged by any update of the other fields: go through `State.inputs`. -/

namespace Sys2Proof.Machine

/-- The machine right after reset with the profile words and the capacities of `s`. -/
def State.profileInputs (s : State) : State :=
  { State.reset with profile := s.profile, caps := s.caps, rstEpoch := s.rstEpoch }

/-- The same with the parameter words. -/
def State.inputs (s : State) : State := { s.profileInputs with param := s.param }

/-- Two states with the same profile, capacities and reset count have the same profile inputs. -/
theorem profileInputs_eq {s t : State} (hp : t.profile = s.profile) (hc : t.caps = s.caps)
    (he : t.rstEpoch = s.rstEpoch) : t.profileInputs = s.profileInputs := by
  unfold State.profileInputs
  rw [hp, hc, he]

/-- Two states with the same profile inputs and parameters have the same inputs. -/
theorem inputs_eq {s t : State} (h : t.profileInputs = s.profileInputs) (ha : t.param = s.param) :
    t.inputs = s.inputs := by
  unfold State.inputs
  rw [h, ha]

/-- A function of the profile inputs answers alike in two states of the same profile inputs. -/
theorem of_profileInputs {β : Type} (f : State → β) (hf : ∀ u, f u = f u.profileInputs) {s t : State}
    (h : t.profileInputs = s.profileInputs) : f t = f s := by rw [hf t, h, ← hf s]

/-- A function of the inputs answers alike in two states of the same inputs. -/
theorem of_inputs {β : Type} (f : State → β) (hf : ∀ u, f u = f u.inputs) {s t : State} (h : t.inputs = s.inputs) :
    f t = f s := by rw [hf t, h, ← hf s]

theorem cbBase_profileInputs (s : State) (n : Nat) : P.cbBase s n = P.cbBase s.profileInputs n := by
  induction n with
  | zero => rfl
  | succ n ih => simp only [P.cbBase, ih]; rfl

theorem fcbTabBase_profileInputs (s : State) (n : Nat) : P.fcbTabBase s n = P.fcbTabBase s.profileInputs n := by
  induction n with
  | zero => rfl
  | succ n ih => simp only [P.fcbTabBase, ih]; rfl

theorem fcbBitsSum_profileInputs (s : State) (n : Nat) : fcbBitsSum s n = fcbBitsSum s.profileInputs n := by
  induction n with
  | zero => rfl
  | succ n ih => simp only [fcbBitsSum, ih]; rfl

theorem fcbDescOk_profileInputs (s : State) : fcbDescOk s = fcbDescOk s.profileInputs := by
  unfold fcbDescOk
  simp only [fcbBitsSum_profileInputs s]
  rfl

theorem headerOk_profileInputs (s : State) (c : Nat) : headerOk s c = headerOk s.profileInputs c := rfl

theorem checkHolds_profileInputs (s : State) (c : Nat) : checkHolds s c = checkHolds s.profileInputs c := by
  unfold checkHolds
  simp only [headerOk_profileInputs s, fcbDescOk_profileInputs s, cbBase_profileInputs s, fcbTabBase_profileInputs s]
  rfl

/-- Whether a profile is well-formed is a matter of its words. -/
theorem profileOk_profileInputs (s : State) : profileOk s = profileOk s.profileInputs := by
  unfold profileOk failedCheck
  simp only [checkHolds_profileInputs s]

theorem fcbTab_profileInputs (s : State) (k m : Nat) : P.fcbTab s k m = P.fcbTab s.profileInputs k m := by
  unfold P.fcbTab
  rw [fcbTabBase_profileInputs]
  rfl

theorem trackFrom_profileInputs (s : State) (gray : Bool) (code n k off : Nat) :
    trackFrom s gray code n k off = trackFrom s.profileInputs gray code n k off := by
  induction n generalizing k off with
  | zero => rfl
  | succ n ih => simp only [trackFrom, ih, fcbTab_profileInputs s]; rfl

theorem baseBFrom_profileInputs (s : State) (n k x : Nat) : baseBFrom s n k x = baseBFrom s.profileInputs n k x := by
  induction n generalizing k x with
  | zero => rfl
  | succ n ih => simp only [baseBFrom, ih]; rfl

theorem explicitFrom_profileInputs (s : State) (code n k : Nat) :
    explicitFrom s code n k = explicitFrom s.profileInputs code n k := by
  induction n generalizing k with
  | zero => rfl
  | succ n ih => simp only [explicitFrom, ih]; rfl

/-- What an innovation code decodes to is a matter of the words. -/
theorem fcbDecode_profileInputs (s : State) (family code sign : Nat) :
    fcbDecode s family code sign = fcbDecode s.profileInputs family code sign := by
  unfold fcbDecode fcbPositions trackPositions baseBPositions explicitPositions
  simp only [trackFrom_profileInputs s, baseBFrom_profileInputs s, explicitFrom_profileInputs s]
  rfl

theorem checkIndices_inputs (s : State) (sf : Nat) : checkIndices s sf = checkIndices s.inputs sf := by
  unfold checkIndices
  rw [fcbDecode_profileInputs s, fcbDecode_profileInputs s.inputs]
  rfl

/-- Whether the subframes pass CHECK is a matter of the words and of the delay before them. -/
theorem checkSubframes_inputs (s : State) (n sf : Nat) (prev : Int) :
    checkSubframes s n sf prev = checkSubframes s.inputs n sf prev := by
  induction n generalizing sf prev with
  | zero => rfl
  | succ n ih => simp only [checkSubframes, ih, checkIndices_inputs s]; rfl

theorem checkLsp_inputs (s : State) (n st : Nat) : checkLsp s n st = checkLsp s.inputs n st := by
  induction n generalizing st with
  | zero => rfl
  | succ n ih => simp only [checkLsp, ih]; rfl

/-! ## The invariants between states of the same profile inputs -/

theorem LsfOk_profileInputs {s t : State} (h : t.profileInputs = s.profileInputs) {x : List Int} (k : LsfOk s x) : LsfOk t x := by
  have e1 : P.order t = P.order s := of_profileInputs P.order (fun _ => rfl) h
  have e2 : P.lsfLower t = P.lsfLower s := of_profileInputs P.lsfLower (fun _ => rfl) h
  have e3 : P.minSpacing t = P.minSpacing s := of_profileInputs P.minSpacing (fun _ => rfl) h
  have e4 : P.lsfUpper t = P.lsfUpper s := of_profileInputs P.lsfUpper (fun _ => rfl) h
  obtain ⟨a, b, c, d⟩ := k
  constructor <;> simpa only [e1, e2, e3, e4]

theorem LagOk_profileInputs {s t : State} (h : t.profileInputs = s.profileInputs) {x : Int} (k : LagOk s x) : LagOk t x := by
  have e1 : P.pitchMin t = P.pitchMin s := of_profileInputs P.pitchMin (fun _ => rfl) h
  have e2 : P.pitchMax t = P.pitchMax s := of_profileInputs P.pitchMax (fun _ => rfl) h
  simpa only [LagOk, e1, e2] using k

theorem DecOk_profileInputs {s t : State} (h : t.profileInputs = s.profileInputs) {d : DecState} (k : DecOk s d) : DecOk t d := by
  have e1 : P.order t = P.order s := of_profileInputs P.order (fun _ => rfl) h
  have e2 : P.sharpMin t = P.sharpMin s := of_profileInputs P.sharpMin (fun _ => rfl) h
  have e3 : P.sharpMax t = P.sharpMax s := of_profileInputs P.sharpMax (fun _ => rfl) h
  have e4 : P.lspPredMode t = P.lspPredMode s := of_profileInputs P.lspPredMode (fun _ => rfl) h
  have e5 : P.lspMaNp t = P.lspMaNp s := of_profileInputs P.lspMaNp (fun _ => rfl) h
  have e6 : P.histLen t = P.histLen s := of_profileInputs P.histLen (fun _ => rfl) h
  have e7 : P.maOrder t = P.maOrder s := of_profileInputs P.maOrder (fun _ => rfl) h
  have e8 : P.resLen t = P.resLen s := of_profileInputs P.resLen (fun _ => rfl) h
  have e9 : t.caps = s.caps := of_profileInputs State.caps (fun _ => rfl) h
  obtain ⟨a1, a2, a3, a4, a5, a6, a7, a8, a9, a10, a11, a12, a13, a14, a15, a16, a17, a18, a19⟩ := k
  refine ⟨LsfOk_profileInputs h a1, LagOk_profileInputs h a2, ?_, a4, a5, a6, a7, a8, ?_, ?_, ?_, ?_, ?_, ?_, ?_, ?_, ?_, ?_, ?_⟩
    <;> simpa only [e1, e2, e3, e4, e5, e6, e7, e8, e9]

end Sys2Proof.Machine
end

