-- ==== Sys2Proof/Laws/Memory.lean ====
section
/-! SUPPORT. The laws of a stored space: a read after a write, and that every memory operation keeps the canonical
form. -/

namespace Sys2Proof.Machine

/-- A read after a write to the same address. -/
@[simp] theorem Mem.find_put_same (a : Nat) (v : Word) (m : Mem) : (m.put a v).find a = some v := by
  induction m with
  | nil => simp [Mem.put, Mem.find]
  | cons c m ih =>
    obtain ⟨b, u⟩ := c
    simp only [Mem.put]
    split
    · simp [Mem.find]
    · split
      · simp [Mem.find]
      · rename_i h1 h2
        simp [Mem.find, h2, ih]

/-- A write leaves every other address alone. -/
theorem Mem.find_put_other {a b : Nat} (h : b ≠ a) (v : Word) (m : Mem) : (m.put a v).find b = m.find b := by
  induction m with
  | nil => simp [Mem.put, Mem.find, h]
  | cons c m ih =>
    obtain ⟨d, u⟩ := c
    simp only [Mem.put]
    split
    · simp [Mem.find, h]
    · split
      · rename_i h1 h2
        subst h2
        simp [Mem.find, h]
      · simp [Mem.find, ih]

/-- What a read gives after a write, at any address. -/
theorem Mem.find_put (a b : Nat) (v : Word) (m : Mem) :
    (m.put a v).find b = if b = a then some v else m.find b := by
  split
  · rename_i h; subst h; simp
  · rename_i h; exact Mem.find_put_other h v m

/-- A write keeps the addresses rising and inside the space. -/
theorem Mem.risingFrom_put {size lo a : Nat} (v : Word) (ha : lo ≤ a) (hs : a < size) {m : Mem}
    (h : Mem.risingFrom size lo m = true) : Mem.risingFrom size lo (m.put a v) = true := by
  induction m generalizing lo with
  | nil => simp [Mem.put, Mem.risingFrom, ha, hs]
  | cons c m ih =>
    obtain ⟨b, u⟩ := c
    simp only [Mem.risingFrom, Bool.and_eq_true, decide_eq_true_eq] at h
    simp only [Mem.put]
    split
    · simp only [Mem.risingFrom, Bool.and_eq_true, decide_eq_true_eq]
      exact ⟨⟨ha, hs⟩, ⟨by omega, h.1.2⟩, h.2⟩
    · split
      · rename_i h1 h2
        subst h2
        simpa [Mem.risingFrom, ha, hs] using h.2
      · simp only [Mem.risingFrom, Bool.and_eq_true, decide_eq_true_eq]
        exact ⟨h.1, ih (by omega) h.2⟩

/-- `Mem.put` keeps the canonical form. -/
theorem Mem.wf_put {size a : Nat} (v : Word) (hs : a < size) {m : Mem} (h : m.wf size = true) :
    (m.put a v).wf size = true := Mem.risingFrom_put v (Nat.zero_le a) hs h

/-- `putIn` keeps the canonical form. -/
theorem wf_putIn {size : Nat} (a : Nat) (v : Word) {m : Mem} (h : m.wf size = true) :
    (putIn size m a v).wf size = true := by
  unfold putIn
  split
  · exact Mem.wf_put v ‹_› h
  · exact h

/-- `putSamples` keeps the canonical form. -/
theorem wf_putSamples {size : Nat} (l : List Int) (base : Nat) {m : Mem} (h : m.wf size = true) :
    (putSamples size m base l).wf size = true := by
  induction l generalizing m base with
  | nil => exact h
  | cons v vs ih => exact ih (base + 1) (wf_putIn base (i16Word v) h)

/-- The empty space has the canonical form. -/
@[simp] theorem Mem.wf_nil (size : Nat) : Mem.wf size [] = true := rfl

/-- The spaces of the machine right after reset have the canonical form. -/
theorem reset_mem_wf :
    State.reset.profile.wf (spaceSize State.reset .profile) = true
      ∧ State.reset.param.wf (spaceSize State.reset .param) = true
      ∧ State.reset.pcm.wf (spaceSize State.reset .pcm) = true := by decide

/-- A canonical list finds nothing below its first possible address. -/
theorem Mem.find_below {size lo a : Nat} (ha : a < lo) {m : Mem} (h : Mem.risingFrom size lo m = true) :
    m.find a = none := by
  induction m generalizing lo with
  | nil => rfl
  | cons c m ih =>
    obtain ⟨b, u⟩ := c
    simp only [Mem.risingFrom, Bool.and_eq_true, decide_eq_true_eq] at h
    simp only [Mem.find]
    rw [if_neg (by omega)]
    exact ih (by omega) h.2

/-- Equal reads make equal canonical lists: the form is canonical. -/
theorem Mem.ext_of_find {size lo : Nat} {m n : Mem} (hm : Mem.risingFrom size lo m = true)
    (hn : Mem.risingFrom size lo n = true) (h : ∀ a, m.find a = n.find a) : m = n := by
  induction m generalizing n lo with
  | nil =>
    cases n with
    | nil => rfl
    | cons c n => obtain ⟨b, u⟩ := c; simpa [Mem.find] using h b
  | cons c m ih =>
    obtain ⟨b, u⟩ := c
    cases n with
    | nil => simpa [Mem.find] using h b
    | cons d n =>
      obtain ⟨b', u'⟩ := d
      simp only [Mem.risingFrom, Bool.and_eq_true, decide_eq_true_eq] at hm hn
      have hb := h b
      have hb' := h b'
      simp only [Mem.find, if_pos] at hb hb'
      rcases Nat.lt_trichotomy b b' with hlt | heq | hgt
      · rw [if_neg (by omega), Mem.find_below (by omega) hn.2] at hb
        cases hb
      · subst heq
        simp only [if_pos] at hb
        cases hb
        have : m = n := by
          refine ih hm.2 hn.2 fun a => ?_
          by_cases hab : a = b
          · subst hab
            rw [Mem.find_below (Nat.lt_succ_self a) hm.2, Mem.find_below (Nat.lt_succ_self a) hn.2]
          · simpa [Mem.find, hab] using h a
        rw [this]
      · rw [if_neg (by omega), Mem.find_below (by omega) hm.2] at hb'
        cases hb'

/-- Which word a run of samples leaves at an address: the sample stored there, or the word before. -/
theorem find_putSamples {size : Nat} (l : List Int) (base : Nat) (m : Mem) (a : Nat) (hs : base + l.length ≤ size) :
    (putSamples size m base l).find a =
      if base ≤ a ∧ a < base + l.length then (l[a - base]?).map i16Word else m.find a := by
  induction l generalizing m base with
  | nil =>
    simp only [putSamples, List.length_nil, Nat.add_zero]
    rw [if_neg (by omega)]
  | cons v vs ih =>
    simp only [List.length_cons] at hs
    simp only [putSamples]
    rw [ih (base + 1) _ (by omega)]
    simp only [List.length_cons]
    by_cases h : base + 1 ≤ a ∧ a < base + 1 + vs.length
    · rw [if_pos h, if_pos (by omega)]
      obtain ⟨k, hk⟩ : ∃ k, a - base = k + 1 := ⟨a - base - 1, by omega⟩
      have : a - (base + 1) = k := by omega
      simp [hk, this]
    · rw [if_neg h]
      unfold putIn
      rw [if_pos (by omega), Mem.find_put]
      by_cases hab : a = base
      · subst hab; simp
      · rw [if_neg hab, if_neg (by omega)]

end Sys2Proof.Machine
end

