-- ==== Sys2Proof/Laws/Ops.lean ====
section
/-! SUPPORT. What each shared operation can do, said once: reading a working register, the fields of `SEQ`, what is
fetched, the head of the subframe loop, and the three bus transactions. -/

namespace Sys2Proof.Machine

/-! ## Reading a working register -/

@[simp] theorem need_some {α : Type} (r : WReg) (a : α) (k : α → Out) : need r (some a) k = k a := rfl

@[simp] theorem need_none {α : Type} (r : WReg) (k : α → Out) :
    need r (none : Option α) k = .fault (.unwritten r) := rfl

/-- A read that goes on has found a value. -/
theorem need_next {α : Type} {r : WReg} {v : Option α} {k : α → Out} {t : State} :
    need r v k = .next t ↔ ∃ a, v = some a ∧ k a = .next t := by
  cases v <;> simp [need]

/-- A read that stops has found no value, or what follows stops. -/
theorem need_fault {α : Type} {r : WReg} {v : Option α} {k : α → Out} {f : Fault} :
    need r v k = .fault f ↔ (v = none ∧ f = .unwritten r) ∨ ∃ a, v = some a ∧ k a = .fault f := by
  cases v <;> simp [need, eq_comm]

/-! ## The fields of `SEQ` -/

/-- `seqOf` with the subframe already cut to its two bits. -/
theorem seqOf_parts (b : BitVec 5) (x : BitVec 2) (r : Bool) :
    seqStage (BitVec.ofBool r ++ (x ++ b)) = b
      ∧ (BitVec.ofBool r ++ (x ++ b)).extractLsb' 5 2 = x
      ∧ seqRetry (BitVec.ofBool r ++ (x ++ b)) = r := by
  revert b x r
  decide

@[simp] theorem seqStage_seqOf (b : BitVec 5) (sf : Nat) (r : Bool) : seqStage (seqOf b sf r) = b :=
  (seqOf_parts b (BitVec.ofNat 2 sf) r).1

@[simp] theorem seqSf_seqOf (b : BitVec 5) (sf : Nat) (r : Bool) : seqSf (seqOf b sf r) = sf % 4 := by
  unfold seqSf seqOf
  rw [(seqOf_parts b (BitVec.ofNat 2 sf) r).2.1]
  simp

@[simp] theorem seqRetry_seqOf (b : BitVec 5) (sf : Nat) (r : Bool) : seqRetry (seqOf b sf r) = r :=
  (seqOf_parts b (BitVec.ofNat 2 sf) r).2.2

/-- A position is determined by its three fields. -/
theorem seqOf_fields (q : BitVec 8) : seqOf (seqStage q) (seqSf q) (seqRetry q) = q := by
  have h : ∀ q : BitVec 8, seqOf (seqStage q) (seqSf q) (seqRetry q) = q := by decide
  exact h q

/-! ## What is fetched -/

theorem fetch_command {s : State} {w : Word} (h : s.cmd = some w) : fetch s = decodeCommand w := by
  simp [fetch, h]

theorem fetch_stage {s : State} (h : s.cmd = none) : fetch s = decodeStage (seqStage s.seq) := by
  simp [fetch, h]

/-! ## The head of the subframe loop -/

theorem toSubframe_eq (s : State) (sf : Nat) :
    s.toSubframe sf = s.goto (if sf < P.nsf s then .lspInterp else .frameCommit) (if sf < P.nsf s then sf else 0) false := by
  unfold State.toSubframe
  split <;> rfl

/-! ## The stored words, with the size of the space in numbers -/

theorem profWord_eq (s : State) (a : Nat) : profWord s a =
    if s.caps.profileWords ≤ a then 0#32 else (s.profile.find a).getD (Config.unspecWord .profile a s.rstEpoch) := rfl

theorem paramWord_eq (s : State) (a : Nat) : paramWord s a =
    if 64 ≤ a then 0#32 else (s.param.find a).getD (Config.unspecWord .param a s.rstEpoch) := rfl

theorem pcmWord_eq (s : State) (a : Nat) : pcmWord s a =
    if 512 ≤ a then 0#32 else (s.pcm.find a).getD (Config.unspecWord .pcm a s.unspecEpoch) := rfl

/-- While no command runs a read of PCM or STATE space is not a free draw (R87). -/
theorem readWord_idle {s : State} (h : s.status.busy = false) (a : Nat) :
    readWord s .pcm a = pcmWord s a ∧ readWord s .state a = stateWord s a := by
  simp [readWord, readIsFree, h]

/-! ## Bus transactions -/

/-- Serving a write always gives a next state. -/
theorem serveWrite_next (s : State) (sp : Space) (a : Nat) (v : Word) : ∃ t, serveWrite s sp a v = .next t := by
  unfold serveWrite writeCsr writeCmd execReset
  repeat' split
  all_goals exact ⟨_, rfl⟩

/-- What a read leaves alone: everything but the log and the count of free draws. -/
theorem serveRead_eq (s : State) (sp : Space) (a : Nat) :
    ∃ l n, serveRead s sp a = { s with readLog := l, freeCtr := n } := ⟨_, _, rfl⟩

end Sys2Proof.Machine
end

