-- ==== Sys2Proof/Laws/Path.lean ====
section
/-! SUPPORT. What the path of a command holds, stage by stage. -/

namespace Sys2Proof.Machine

/-- A command that has ended passes through nothing more. -/
theorem positionsFrom_ended {s : State} (h : s.status.busy = false) (n : Nat) : positionsFrom n s = [] := by
  cases n with
  | zero => rfl
  | succ n => simp [positionsFrom, h]

/-- A running command is at its position, and then where its next state takes it. -/
theorem positionsFrom_next {s t : State} (h : s.status.busy = true) (ht : exec (fetch s) s = .next t) (n : Nat) :
    positionsFrom (n + 1) s = s.seq :: positionsFrom n t := by simp [positionsFrom, h, ht]

/-- IDLE is on every path. -/
theorem idle_mem_commandPath (s : State) : 0x00#8 ∈ commandPath s := List.mem_cons_self

/-- A command that runs no stages has no other position. -/
theorem commandPath_of_not_runsStages {s : State} (h : runsStages s = false) : commandPath s = [0x00#8] := by
  simp only [commandPath, h]
  rfl

/-- The positions of a DECODE that runs stages. -/
theorem commandPath_of_runsStages {s : State} (h : runsStages s = true) :
    commandPath s = 0x00#8 :: positionsFrom (stageBound s) s.startDecode := by
  simp only [commandPath, h]
  rfl

end Sys2Proof.Machine
end

