-- ==== Sys2Proof/Laws/PerInstr.lean ====
section
/-! SUPPORT. Facts about the operations as syntax, one lemma for each constructor: decoding an encoded operation gives it
back. -/

namespace Sys2Proof.Laws

/-- The decoder reads a well-formed operation back from its encoding. -/
def RoundTrip.Statement (i : Instr) : Prop := i.wellFormed = true → decode (encode i) = i

theorem RoundTrip.nop : RoundTrip.Statement .nop := fun _ => by decide

theorem RoundTrip.init : RoundTrip.Statement .init := fun _ => by decide

theorem RoundTrip.decode : RoundTrip.Statement .decode := fun _ => by decide

theorem RoundTrip.reset : RoundTrip.Statement .reset := fun _ => by decide

/-- The bits of an illegal word are those of its two fields. -/
theorem RoundTrip.fields_append (op : BitVec 4) (zero : BitVec 28) :
    cmdOp (zero ++ op) = op ∧ cmdZero (zero ++ op) = zero := by
  unfold cmdOp cmdZero
  constructor <;> apply BitVec.eq_of_getLsbD_eq <;> intro i hi
  · simp only [BitVec.getLsbD_extractLsb', BitVec.getLsbD_append]
    simp [hi]
  · simp only [BitVec.getLsbD_extractLsb', BitVec.getLsbD_append]
    simp [hi]

theorem RoundTrip.illegal (op : BitVec 4) (zero : BitVec 28) : RoundTrip.Statement (.illegal op zero) := by
  intro h
  obtain ⟨h1, h2⟩ := RoundTrip.fields_append op zero
  simp only [Instr.wellFormed, Bool.or_eq_true, decide_eq_true_eq] at h
  simp only [encode, Sys2Proof.decode, decodeCommand, h1, h2]
  split
  · rename_i hz
    have h4 : 4 ≤ op.toNat := by rcases h with h | h <;> [exact absurd hz h; exact h]
    split <;> first | omega | rfl
  · rfl

theorem RoundTrip.idle : RoundTrip.Statement .idle := fun _ => by decide

theorem RoundTrip.check : RoundTrip.Statement .check := fun _ => by decide

theorem RoundTrip.lsfDec : RoundTrip.Statement .lsfDec := fun _ => by decide

theorem RoundTrip.lsfStab : RoundTrip.Statement .lsfStab := fun _ => by decide

theorem RoundTrip.lsfConceal : RoundTrip.Statement .lsfConceal := fun _ => by decide

theorem RoundTrip.lsf2lsp : RoundTrip.Statement .lsf2lsp := fun _ => by decide

theorem RoundTrip.lspInterp : RoundTrip.Statement .lspInterp := fun _ => by decide

theorem RoundTrip.lsp2lpc : RoundTrip.Statement .lsp2lpc := fun _ => by decide

theorem RoundTrip.pitchAbs : RoundTrip.Statement .pitchAbs := fun _ => by decide

theorem RoundTrip.pitchRel : RoundTrip.Statement .pitchRel := fun _ => by decide

theorem RoundTrip.pitchConceal : RoundTrip.Statement .pitchConceal := fun _ => by decide

theorem RoundTrip.acbInterp : RoundTrip.Statement .acbInterp := fun _ => by decide

theorem RoundTrip.fcbTrack : RoundTrip.Statement .fcbTrack := fun _ => by decide

theorem RoundTrip.fcbGray : RoundTrip.Statement .fcbGray := fun _ => by decide

theorem RoundTrip.fcbBaseb : RoundTrip.Statement .fcbBaseb := fun _ => by decide

theorem RoundTrip.fcbExpl : RoundTrip.Statement .fcbExpl := fun _ => by decide

theorem RoundTrip.fcbConceal : RoundTrip.Statement .fcbConceal := fun _ => by decide

theorem RoundTrip.fcbBuild : RoundTrip.Statement .fcbBuild := fun _ => by decide

theorem RoundTrip.gainDec : RoundTrip.Statement .gainDec := fun _ => by decide

theorem RoundTrip.gainConceal : RoundTrip.Statement .gainConceal := fun _ => by decide

theorem RoundTrip.gainUpd : RoundTrip.Statement .gainUpd := fun _ => by decide

theorem RoundTrip.phaseDisp : RoundTrip.Statement .phaseDisp := fun _ => by decide

theorem RoundTrip.excMix : RoundTrip.Statement .excMix := fun _ => by decide

theorem RoundTrip.lpSynth : RoundTrip.Statement .lpSynth := fun _ => by decide

theorem RoundTrip.lpRetry : RoundTrip.Statement .lpRetry := fun _ => by decide

theorem RoundTrip.sfCommit : RoundTrip.Statement .sfCommit := fun _ => by decide

theorem RoundTrip.pfResid : RoundTrip.Statement .pfResid := fun _ => by decide

theorem RoundTrip.pfLongterm : RoundTrip.Statement .pfLongterm := fun _ => by decide

theorem RoundTrip.pfSyntilt : RoundTrip.Statement .pfSyntilt := fun _ => by decide

theorem RoundTrip.pfAgc : RoundTrip.Statement .pfAgc := fun _ => by decide

theorem RoundTrip.out : RoundTrip.Statement .out := fun _ => by decide

theorem RoundTrip.frameCommit : RoundTrip.Statement .frameCommit := fun _ => by decide

end Sys2Proof.Laws
end

