-- ==== Sys2Proof/Tests/Slice0.lean ====
section
/-! SUPPORT. Tests of one step each, on a small profile, with expected values taken from 95_test_vectors.md or worked out by hand
from the rule named; the refusals of WellFormed; a word written out for every operation; and, for every statement that
has hypotheses, a concrete case that meets them. -/

namespace Sys2Proof.Tests

open Sys2Proof Sys2Proof.Machine

-- One theorem after another: the kernel evaluations below are small, but a thread each adds up.
set_option Elab.async false

/-! ## WellFormed -/

/-- `OP` = 1 with `ZERO` = 0 is the word of INIT, not an illegal one. -/
theorem test_wf_refuses_legal_word : (Instr.illegal 1#4 0#28).wellFormed = false := by decide

/-- `OP` = 3 with `ZERO` = 0 is the word of RESET: the last legal one. -/
theorem test_wf_refuses_last_legal_word : (Instr.illegal 3#4 0#28).wellFormed = false := by decide

/-- The first illegal `OP`, and the lowest bit of `ZERO`. -/
theorem test_wf_accepts_illegal_words :
    (Instr.illegal 4#4 0#28).wellFormed = true ∧ (Instr.illegal 0#4 1#28).wellFormed = true
      ∧ Instr.lpRetry.wellFormed = true := by decide

/-! ## Decoding: words written out from R111, R112 and R130 -/

/-- R111: `OP` = 0..3 with bits 31:4 zero. -/
theorem test_decode_commands :
    decodeCommand 0b00000000000000000000000000000000#32 = .nop
      ∧ decodeCommand 0b00000000000000000000000000000001#32 = .init
      ∧ decodeCommand 0b00000000000000000000000000000010#32 = .decode
      ∧ decodeCommand 0b00000000000000000000000000000011#32 = .reset := by decide

/-- R112: `OP` = 4; bit 4 set; the word 0x12 of script E3. -/
theorem test_decode_illegal :
    decodeCommand 0b00000000000000000000000000000100#32 = .illegal 0b0100#4 0#28
      ∧ decodeCommand 0b00000000000000000000000000010000#32 = .illegal 0#4 0b1#28
      ∧ decodeCommand 0b00000000000000000000000000010010#32 = .illegal 0b0010#4 0b1#28 := by decide

/-- R130, ids 0x00 to 0x0F, subframe 0. -/
theorem test_decode_stages_low :
    [0b00000#5, 0b00001#5, 0b00010#5, 0b00011#5, 0b00100#5, 0b00101#5, 0b00110#5, 0b00111#5,
     0b01000#5, 0b01001#5, 0b01010#5, 0b01011#5, 0b01100#5, 0b01101#5, 0b01110#5, 0b01111#5].map decodeStage
      = [.idle, .check, .lsfDec, .lsfStab, .lsfConceal, .lsf2lsp, .lspInterp, .lsp2lpc,
         .pitchAbs, .pitchRel, .pitchConceal, .acbInterp, .fcbTrack, .fcbGray, .fcbBaseb, .fcbExpl] := by decide

/-- R130, ids 0x10 to 0x1F. -/
theorem test_decode_stages_high :
    [0b10000#5, 0b10001#5, 0b10010#5, 0b10011#5, 0b10100#5, 0b10101#5, 0b10110#5, 0b10111#5,
     0b11000#5, 0b11001#5, 0b11010#5, 0b11011#5, 0b11100#5, 0b11101#5, 0b11110#5, 0b11111#5].map decodeStage
      = [.fcbConceal, .fcbBuild, .gainDec, .gainConceal, .gainUpd, .phaseDisp, .excMix, .lpSynth,
         .lpRetry, .sfCommit, .pfResid, .pfLongterm, .pfSyntilt, .pfAgc, .out, .frameCommit] := by decide

/-- R30, R131: `SEQ` = 0xB8 is LP_RETRY in subframe 1 with the retry bit; the encoder's bytes and words. -/
theorem test_seq_fields :
    decodeTableWord 8 0xB8 = some .lpRetry ∧ seqSf 0xB8#8 = 1 ∧ seqRetry 0xB8#8 = true
      ∧ seqOf (stageId .lpRetry) 1 true = 0xB8#8 ∧ encode .out = .stage 0x1E#8 ∧ encode .decode = .command 2#32
      ∧ decodeTableWord 8 256 = none ∧ decodeTableWord 33 0 = none := by decide

/-! ## The small profile of 95_test_vectors.md, part 3 -/

/-- The image of profile TOY. -/
def toyWords : List Int :=
  [2, 8, 2, 1, 0, 2, 0, 0, 0, 1000, 500, 32000, 4, 20, 3, 1, 6, 12, 35, 72, 4, 1, 0, 4]
   ++ [12, 6, 18, 5, 9, 3, 2, 0, 2, 8192, 0, 0, 0, 0, 1, 3277, 13017, 0, 4, 4, 2, 491520, 0, 4096]
   ++ [-14336, 9830, 14746, 10, 32767, 2, 0, 16384, 29491, 6554, 32440, 8, 29491, 29491, 32113, 3, 31821, 13849, 21845, 0, 0, 0, 0, 0]
   ++ [0, 0, 0, 0, 0, 0, 0, 0, 96, 104, 114, 0, 116, 118, 120, 122, 129, 135, 142, 146, 150, 0, 152, 154]
   ++ [4, 0, 2, 0, 2, 1, 2, 0, 0, 0, -2000, 1000, 3000, -3000, 6100, -5900, 0, 500, 8000, 20000, 10923, 21845, 10923, 21845]
   ++ [16384, 32768, 32767, 25000, 11500, 0, -2800, -900, 0, 2, 4, 0, 2, 3, 0, 0, 2, 4, 6, 1, 3, 4, 4096, 2048]
   ++ [8192, 0, 0, 8192, 16384, 13107, 4096, 2048, 18022, 9912, 22938, 16056]

/-- A space whose words `0, 1, …` are given. -/
def space (ws : List Int) : Mem := ws.zipIdx.map fun q => (q.2, BitVec.ofInt 32 q.1)

/-- A space with some words replaced. -/
def withWords (m : Mem) (ws : List (Nat × Nat)) : Mem := ws.foldl (fun m q => m.put q.1 (BitVec.ofNat 32 q.2)) m

/-- The block after reset with profile TOY written and every PARAM word 0. -/
def toy : State := { State.reset with profile := space toyWords, param := space (List.replicate 64 0) }

/-- `toy` with some profile words replaced. -/
def toyWith (ws : List (Nat × Nat)) : State := { toy with profile := withWords toy.profile ws }

/-- The same block after INIT. -/
def initialised (s : State) : State := s.initialise.endCommand

/-- Frame F1 of part 3. -/
def frameF1 : List (Nat × Nat) :=
  [(0x01, 1), (0x02, 1), (0x08, 24), (0x09, 2), (0x0B, 5), (0x0D, 1), (0x10, 6), (0x11, 1), (0x13, 10), (0x15, 3)]

/-- A running DECODE of frame F1 that stands at stage `i` of subframe `sf` with working registers `w`. -/
def at' (s : State) (i : Instr) (sf : Nat) (w : Work) : State :=
  { initialised s with
    param := withWords s.param frameF1, w := w, seq := seqOf (stageId i) sf false
    status := { Status.accepted (initialised s).status with busy := true } }

/-- The state after a step, if there is one. -/
def after (o : Out) : Option State :=
  match o with
  | .next t => some t
  | .fault _ => none
  | .refused _ => none

/-- One step of the block at stage `i`. -/
def run (s : State) (i : Instr) (sf : Nat) (w : Work) : Option State := after (step (at' s i sf w))

/-- Working registers of a good and of an erased frame. -/
def goodW : Work := { Work.none with erased := some false, muted := some false, run := some 0 }
def badW : Work := { Work.none with erased := some true, muted := some false, run := some 1 }

/-! ## One step of each operation -/

/-- R151: NOP on a block after reset: `DONE` alone is set (STATUS = 2). -/
theorem test_nop :
    (after (step (toy.accept 0#32))).map (fun t => (readWord t .csr 2, readWord t .csr 3)) = some (2#32, 0#32) := by decide +kernel

/-- P1: after INIT STATUS = 6, PCMLEN = 16, `prev_lsp` = [16378, -16379], `prev_lag_int` = 4. E2: INIT on an
initialised block: STATUS = 0x706. R153: `ORDER` = 3 fails check 0x00, which reports the word. -/
theorem test_init :
    ((after (step (toy.accept 1#32))).map (fun t =>
        ([2, 6].map (readWord t .csr), [0x000, 0x001, 0x079, 0x07E].map (readWord t .state)))
      = some ([6#32, 16#32], [16378#32, i16Word (-16379), 4#32, 21845#32]))
      ∧ ((after (step ((initialised toy).accept 1#32))).map (fun t => readWord t .csr 2) = some 0x706#32)
      ∧ ((after (step ((toyWith [(0x00, 3)]).accept 1#32))).map (fun t => (readWord t .csr 2, readWord t .csr 4))
      = some (0x502#32, 0x00030000#32)) := by decide +kernel

/-- E1: DECODE before INIT: STATUS = 0x402, ERRINFO = 0. R155: DECODE after INIT stands at CHECK, busy. -/
theorem test_decode :
    ((after (step (toy.accept 2#32))).map (fun t => (readWord t .csr 2, readWord t .csr 4)) = some (0x402#32, 0#32))
      ∧ ((after (step ((initialised toy).accept 2#32))).map (fun t => (t.seq, t.status.busy, t.wrk == t.dec))
      = some (0x01#8, true, true)) := by decide +kernel

/-- P6: RESET is complete at acceptance and leaves STATUS = 0. -/
theorem test_reset :
    (after (step { initialised toy with host := [.wr .csr 1 3#32] })).map (fun t => (readWord t .csr 2, t.cmd, t.profile == toy.profile))
      = some (0#32, none, true) := by decide +kernel

/-- E3: the word 0x12: STATUS = 0x606, ERRINFO = 0x00120000. -/
theorem test_illegal :
    (after (step ((initialised toy).accept 0x12#32))).map (fun t => (readWord t .csr 2, readWord t .csr 4))
      = some (0x606#32, 0x00120000#32) := by decide +kernel

/-- R154: IDLE changes nothing. -/
theorem test_idle :
    after (step toy) = some toy := by decide +kernel

/-- P1: frame F1 passes; the sequencer goes to LSF_DEC. P3, 2.4: `pitch_idx` 33 in subframe 0: ERRINFO = 0x00210101.
R156 2, R306: frame type 1, which TOY does not define: UnsupportedMode, code 2, with the type. -/
theorem test_check :
    ((run toy .check 0 Work.none).map (fun t => (t.seq, t.w.erased, t.w.run)) = some (0x02#8, some false, some 0))
      ∧ ((after (step { at' toy .check 0 Work.none with param := withWords toy.param [(0x08, 33)] })).map (fun t => (readWord t .csr 4, t.status.err))
      = some (0x00210101#32, 1#4))
      ∧ ((after (step { at' toy .check 0 Work.none with param := withWords toy.param [(0x00, 0x10)] })).map (fun t => (readWord t .csr 4, t.status.err))
      = some (0x00010001#32, 2#4)) := by decide +kernel

/-- 2.2: `lsp_idx` = [1, 1] gives [6000, 21500]. -/
theorem test_lsf_dec :
    (run toy .lsfDec 0 goodW).map (fun t => (t.w.res, t.w.lsf)) = some (some [-2000, 1500], some [6000, 21500]) := by decide +kernel

/-- 2.2: equal values are pushed apart symmetrically. 2.2: both bounds. R174, R306: bounds that no vector meets, which
INIT would refuse: InternalInvariant, code 3, at LSF_STAB. -/
theorem test_lsf_stab :
    ((run toy .lsfStab 0 { goodW with lsf := some [14100, 14100] }).map (·.w.lsf) = some (some [13600, 14600]))
      ∧ ((run toy .lsfStab 0 { goodW with lsf := some [400, 32500] }).map (·.w.lsf) = some (some [500, 32000]))
      ∧ ((run (toyWith [(0x0A, 20000), (0x0B, 10000)]) .lsfStab 0 { goodW with lsf := some [400, 32500] }).map (fun t => (readWord t .csr 4, t.status.err))
      = some (0x00000003#32, 3#4)) := by decide +kernel

/-- 2.11: the fixed point [10923, 21845]. -/
theorem test_lsf_conceal :
    (run toy .lsfConceal 0 badW).map (·.w.lsf) = some (some [10923, 21845]) := by decide +kernel

/-- 2.3: [6000, 21500] to [27486, -15435]. -/
theorem test_lsf2lsp :
    (run toy .lsf2lsp 0 { goodW with lsf := some [6000, 21500] }).map (·.w.lspq) = some (some [27486, -15435]) := by decide +kernel

/-- 2.3: weight 16384 from [16378, -16379]. 2.3: weight 32768 gives the operand itself. -/
theorem test_lsp_interp :
    ((run toy .lspInterp 0 { goodW with lspq := some [27486, -15435] }).map (·.w.lspi) = some (some [21932, -15907]))
      ∧ ((run toy .lspInterp 1 { goodW with lspq := some [27486, -15435] }).map (·.w.lspi) = some (some [27486, -15435])) := by decide +kernel

/-- 2.3: [21932, -15907] gives [4096, -753, -634]. 2.3: the row with p = 4. -/
theorem test_lsp2lpc :
    ((run toy .lsp2lpc 0 { goodW with lspi := some [21932, -15907] }).map (fun t => (t.w.lpc, t.seq))
      = some (some [4096, -753, -634], 0x08#8))
      ∧ (lsp2lpc 4 [30000, 15000, -5000, -25000] = [4096, -1875, -188, -158, -279]) := by decide +kernel

/-- P1: `pitch_idx` 24 is (12, 0). -/
theorem test_pitch_abs :
    (run toy .pitchAbs 0 goodW).map (fun t => (t.w.tInt, t.w.tFrac)) = some (some 12, some 0) := by decide +kernel

/-- 2.4: from 12, `pitch_idx` 6 is in zone B: T = 21 + 6 + 6 = 33, (11, 0). -/
theorem test_pitch_rel :
    (after (exec .pitchRel ((at' toy .pitchRel 1 goodW).setWrk { (initialised toy).wrk with prevLagInt := 12 }))).map (fun t => (t.w.tInt, t.w.tFrac))
      = some (some 11, some 0) := by decide +kernel

/-- R294: with `FEC_PITCH_PRNG` = 0 the delay is held, here 4, and nothing is drawn. R294: with it and a low pitch
gain: draw 3242 (2.1), 4 + 3242 mod 17 = 16. -/
theorem test_pitch_conceal :
    ((run toy .pitchConceal 0 badW).map (fun t => (t.w.tInt, t.w.tFrac, t.wrk.prngSeed)) = some (some 4, some 0, 21845))
      ∧ ((run (toyWith [(0x04, 16), (0x43, 1)]) .pitchConceal 0 badW).map (fun t => (t.w.tInt, t.wrk.prngSeed))
      = some (some 16, 3242)) := by decide +kernel

/-- 2.5: (4, 1), a delay shorter than the subframe. 2.5: (11, 0) reads the history alone. -/
theorem test_acb_interp :
    ((after (exec .acbInterp ((at' toy .acbInterp 0 { goodW with tInt := some 4, tFrac := some 1 }).setWrk
        { (initialised toy).wrk with excHist := List.replicate 15 0 ++ [100, -200, 300, -400, 500, -600, 700, -800] }))).map (·.w.acbv)
      = some (some [284, -331, 378, -372, -55, -163, 196, -137]))
      ∧ ((after (exec .acbInterp ((at' toy .acbInterp 0 { goodW with tInt := some 11, tFrac := some 0 }).setWrk
        { (initialised toy).wrk with excHist := List.replicate 15 0 ++ [100, -200, 300, -400, 500, -600, 700, -800] }))).map (·.w.acbv)
      = some (some [0, 0, 0, 100, -200, 300, -400, 500])) := by decide +kernel

/-- 2.6: code 0b0101, sign 0b01. -/
theorem test_fcb_track :
    (run toy .fcbTrack 0 { goodW with tInt := some 12 }).map (·.w.sp)
      = some (some { n := 2, pos := [2, 3], amp := [8192, -8192], lag := 12, fac := 3277, mask := 0 }) := by decide +kernel

/-- 2.6: code 0b0111 with the Gray code. -/
theorem test_fcb_gray :
    (after (exec .fcbGray { at' toy .fcbGray 0 { goodW with tInt := some 12 } with param := withWords toy.param [(0x0B, 7)] })).map
        (fun t => t.w.sp.map (·.pos)) = some (some [4, 3]) := by decide +kernel

/-- 2.6: B = 5, stride 8, N = 3, offsets 0, 2, 4, code 69. -/
theorem test_fcb_baseb :
    (after (exec .fcbBaseb { at' (toyWith [(0x01, 40), (0x20, 3), (0x22, 5), (0x23, 8), (0x83, 0), (0x86, 2), (0x89, 4)]) .fcbBaseb 0
        { goodW with tInt := some 12 } with param := withWords toy.param [(0x0B, 69)] })).map (fun t => t.w.sp.map (·.pos))
      = some (some [32, 26, 20]) := by decide +kernel

/-- 2.6: w = 6, N = 2, code 0x4C5. -/
theorem test_fcb_expl :
    (after (exec .fcbExpl { at' (toyWith [(0x01, 40), (0x24, 6)]) .fcbExpl 0
        { goodW with tInt := some 12 } with param := withWords toy.param [(0x0B, 0x4C5)] })).map (fun t => t.w.sp.map (·.pos))
      = some (some [5, 19]) := by decide +kernel

/-- 2.11: from seed 21845 the draws 3242, 23867, 54488, 56081. -/
theorem test_fcb_conceal :
    (run toy .fcbConceal 0 { badW with tInt := some 11 }).map (fun t => (t.w.sp.map fun v => (v.pos, v.amp), t.wrk.prngSeed))
      = some (some ([0, 6], [-8192, 8192]), 56081) := by decide +kernel

/-- 2.7: mode 1, the dense recursion. 2.7: mode 2, pulse 1 not repeated. -/
theorem test_fcb_build :
    ((run toy .fcbBuild 0 { goodW with sp := some { n := 2, pos := [0, 1], amp := [8192, -8192], lag := 3, fac := 13017, mask := 0 } }).map (·.w.fcv)
      = some (some [8192, -8192, 0, 6508, -6509, 0, 5170, -5172]))
      ∧ ((run (toyWith [(0x26, 2)]) .fcbBuild 0 { goodW with sp := some { n := 2, pos := [0, 1], amp := [8192, -8192], lag := 3, fac := 13017, mask := 2 } }).map (·.w.fcv)
      = some (some [8192, -8192, 0, 6508, 0, 0, 5170, 0])) := by decide +kernel

/-- P1, subframe 0 of F1: (8192, 16384, 8000). -/
theorem test_gain_dec :
    (run toy .gainDec 0 { goodW with fcv := some [0, 0, 8192, -8192, 0, 0, 0, 0] }).map (fun t => (t.w.corr, t.w.gp, t.w.gc))
      = some (some 8192, some 16384, some 8000) := by decide +kernel

/-- 2.8: (8192, 1999) decays to (7372, 1959). -/
theorem test_gain_conceal :
    (after (exec .gainConceal ((at' toy .gainConceal 0 badW).setWrk { (initialised toy).wrk with gpHist := [8192, 0, 0, 0, 0], gcHist := [1999, 0, 0, 0, 0] }))).map
        (fun t => (t.w.gp, t.w.gc)) = some (some 7372, some 1959) := by decide +kernel

/-- 2.8: a good subframe with `CORR` = 8192: [0, 0] to [6165, 0]. 2.8: an erased subframe: [-14000, -14000] to the
floor [-14336, -14000]. -/
theorem test_gain_upd :
    ((run toy .gainUpd 0 { goodW with gp := some 16384, gc := some 8000, corr := some 8192 }).map
        (fun t => (t.wrk.energyHist, t.wrk.gpHist)) = some ([6165, 0], [16384, 0, 0, 0, 0]))
      ∧ ((after (exec .gainUpd ((at' toy .gainUpd 0 { badW with gp := some 0, gc := some 0 }).setWrk { (initialised toy).wrk with energyHist := [-14000, -14000] }))).map
        (·.wrk.energyHist) = some [-14336, -14000]) := by decide +kernel

/-- 2.7: an onset lifts the strength from 0 to 1. -/
theorem test_phase_disp :
    (run (toyWith ([(0x5D, 300), (0x04, 8)] ++ [26214, 6554, 4294964019, 0, 0, 0, 0, 3277].zipIdx.map fun q => (308 + q.2, q.1))) .phaseDisp 0
        { goodW with fcv := some [0, 0, 8192, -8192, 0, 0, 0, 0], gp := some 8192, gc := some 100 }).map
        (fun t => (t.w.fcv, t.wrk.dispOnset, t.wrk.dispPrevFilt, t.wrk.dispPrevGc))
      = some (some [0, 819, 5734, -4915, -2458, 819, 0, 0], 2, 1, 100) := by decide +kernel

/-- P1: `W.EXCV` of subframe 0. -/
theorem test_exc_mix :
    (run toy .excMix 0 { goodW with
        gp := some 16384, gc := some 8000, acbv := some (zeros 8)
        fcv := some [0, 0, 8192, -8192, 0, 0, 0, 0] }).map (·.w.excv)
      = some (some [0, 0, 4000, -4000, 0, 0, 0, 0]) := by decide +kernel

/-- 2.9: no overflow. P4: with bound 3000 the sample 4000 leaves it; the retry bit shows in `SEQ`. -/
theorem test_lp_synth :
    ((run toy .lpSynth 0 { goodW with lpc := some [4096, -753, -634], excv := some [0, 0, 4000, -4000, 0, 0, 0, 0] }).map
        (fun t => (t.w.syn, t.seq)) = some (some [0, 0, 4000, -3265, 19, -502, -89, -94], 0x19#8))
      ∧ ((run (toyWith [(0x34, 3000)]) .lpSynth 0
        { goodW with lpc := some [4096, -753, -634], excv := some [0, 0, 4000, -4000, 0, 0, 0, 0] }).map
        (fun t => (t.w.syn, t.w.ovf, t.seq)) = some (none, some true, 0x98#8)) := by decide +kernel

/-- P4: the clipped pass. -/
theorem test_lp_retry :
    (run (toyWith [(0x34, 3000)]) .lpRetry 0
        { goodW with
          lpc := some [4096, -753, -634], gp := some 16384, gc := some 8000, acbv := some (zeros 8)
          fcv := some [0, 0, 8192, -8192, 0, 0, 0, 0] }).map (·.w.syn)
      = some (some [0, 0, 3000, -3001, -87, -481, -102, -93]) := by decide +kernel

/-- P1: after subframe 0: `sharp_beta` limited to 13017, the last two samples kept, the history shifted. -/
theorem test_sf_commit :
    (run toy .sfCommit 0 { goodW with
        syn := some [0, 0, 4000, -3265, 19, -502, -89, -94], excv := some [0, 0, 4000, -4000, 0, 0, 0, 0]
        gp := some 16384, tInt := some 12, ovf := some false }).map
        (fun t => (t.wrk.synMem, t.wrk.excHist, t.wrk.sharpBeta, t.wrk.prevLagInt))
      = some ([-89, -94], List.replicate 17 0 ++ [4000, -4000, 0, 0, 0, 0], 13017, 12) := by decide +kernel

/-- 2.10: the weighted coefficients. -/
theorem test_pf_resid :
    (run (toyWith [(0x04, 2)]) .pfResid 0 { goodW with syn := some (zeros 8), lpc := some [4096, -753, -634] }).map
        (fun t => (t.w.num, t.w.den)) = some (some [-414, -192], some [-527, -311]) := by decide +kernel

/-- R281 by hand: one usable lag, 8; `gl` = 32767, `w0` = 21845, `w1` = 10921; (21845000 + 5460500 + 16384) >> 15 =
833. -/
theorem test_pf_longterm :
    (after (exec .pfLongterm ((at' (toyWith [(0x04, 6)]) .pfLongterm 0 { goodW with resid := some [1000, 0, 0, 0, 0, 0, 0, 0], tInt := some 8 }).setWrk
        { (initialised toy).wrk with pfResHist := List.replicate 12 0 ++ [500, 0, 0, 0, 0, 0, 0, 0] }))).map (·.w.resid)
      = some (some [833, 0, 0, 0, 0, 0, 0, 0]) := by decide +kernel

/-- R283 by hand: equal numerator and denominator give `h` = [4096, 0, ...] and no tilt; the all-pole part halves. -/
theorem test_pf_syntilt :
    (run (toyWith [(0x04, 2)]) .pfSyntilt 0
        { goodW with resid := some [4096, 0, 0, 0, 0, 0, 0, 0], num := some [-2048, 0], den := some [-2048, 0] }).map
        (fun t => (t.w.pfy, t.w.pfz, t.wrk.pfTiltMem))
      = some (some [4096, 2048, 1024, 512, 256, 128, 64, 32], some [4096, 2048, 1024, 512, 256, 128, 64, 32], 32) := by decide +kernel

/-- R286 by hand: equal energies, the gain stays 4096 and the output is the input. -/
theorem test_pf_agc :
    (run (toyWith [(0x04, 2)]) .pfAgc 0
        { goodW with syn := some [0, 3, -4, 0, 0, 0, 0, 0], pfz := some [4, 0, 0, 0, 0, 0, 3, 0], pfy := some [0, 0, 0, 0, 0, 0, 7, 9] }).map
        (fun t => (t.w.out, t.wrk.pfAgcGain, t.wrk.pfIirMem)) = some (some [4, 0, 0, 0, 0, 0, 3, 0], 4096, [7, 9]) := by decide +kernel

/-- R159: subframe 1 goes to PCM words 8 to 15, sign-extended; then FRAME_COMMIT. R301: a muted frame delivers zeros.
-/
theorem test_out :
    ((run toy .out 1 { goodW with syn := some [-62, -52, -38, -30, 1976, 2717, -389, 699] }).map
        (fun t => ([8, 12, 14, 15].map (pcmWord t), t.seq)) = some ([0xFFFFFFC2#32, 1976#32, 0xFFFFFE7B#32, 699#32], 0x1F#8))
      ∧ ((run toy .out 0 { badW with muted := some true, syn := some [1, 2, 3, 4, 5, 6, 7, 8] }).map
        (fun t => ([0, 7].map (pcmWord t), t.seq)) = some ([0#32, 0#32], 0x26#8)) := by decide +kernel

/-- P1: STATUS = 6 and `prev_lsf` = [6000, 21500]. P2: STATUS = 0x0001000E. -/
theorem test_frame_commit :
    ((run toy .frameCommit 0 { goodW with lspq := some [27486, -15435], lsf := some [6000, 21500] }).map
        (fun t => (readWord t .csr 2, [0x010, 0x011].map (readWord t .state))) = some (6#32, [6000#32, 21500#32]))
      ∧ ((run toy .frameCommit 0 { badW with lspq := some [26615, -15529], lsf := some [6492, 21534], pred := some [8000, 20000] }).map
        (fun t => readWord t .csr 2) = some 0x0001000E#32) := by decide +kernel

/-! ## A case that meets the hypotheses of each statement -/

/-- `toy` with some PARAM words replaced. -/
def withParam (ws : List (Nat × Nat)) : State := { toy with param := withWords toy.param ws }

/-- `toy` with the postfilter on and an element of the last table out of range. -/
def toyLast : State := toyWith [(0x04, 2), (0x9A, 32768)]

/-- A residual history whose one sample `v` lies eight samples back. -/
def ltHist (v : Int) : List Int := List.replicate 12 0 ++ [v, 0, 0, 0, 0, 0, 0, 0]

/-- A quantity of the long-term search on the residual [1000, 0, ...] after that history. -/
def ltAt (v : Int) (f : List Int → (Int → Int) → Int) : Int :=
  let r := [1000, 0, 0, 0, 0, 0, 0, 0]
  f r (Spec.past (ltHist v) 20 fun j => elem r j)

/-- The same on the residual [1, 1000, 0, ...] after the sample 1. -/
def ltLow (f : List Int → (Int → Int) → Int) : Int :=
  let r := [1, 1000, 0, 0, 0, 0, 0, 0]
  f r (Spec.past (ltHist 1) 20 fun j => elem r j)

/-- A well-formed operation of either format; a subframe at the end of its range; a stage's code. -/
theorem witness_DecodeEncodeAgree :
    (Instr.illegal 0#4 1#28).wellFormed = true ∧ Instr.out.wellFormed = true ∧ 3 < 4 ∧ ∃ q, encode .out = .stage q := by exact ⟨rfl, rfl, by decide, _, rfl⟩

/-- The words 0 to 3, and 4, the first of the illegal ones. -/
theorem witness_CommandWordFormat :
    (0#32).toNat = 0 ∧ (1#32).toNat = 1 ∧ (2#32).toNat = 2 ∧ (3#32).toNat = 3 ∧ 4 ≤ (4#32).toNat := by decide

/-- The reset state with each head of the script; nothing accepted, so IDLE is decoded; and an accepted INIT. -/
theorem witness_StepRunsDecoded :
    State.reset.host = [] ∧ State.reset.cmd = none ∧ decode (.stage State.reset.seq) = .idle ∧ Instr.idle.wellFormed = true
      ∧ ({ State.reset with host := [.run] } : State).host = .run :: []
      ∧ ({ State.reset with host := [.wait] } : State).status.done = false
      ∧ (initialised toy).status.done = true
      ∧ (toy.accept 1#32).cmd = some 1#32 ∧ decode (.command 1#32) = .init := by decide +kernel

/-- A write of DECODE to `CMD` of the reset block. -/
theorem witness_CommandAcceptance :
    ({ State.reset with host := [.wr .csr 1 2#32] } : State).host = .wr .csr 1 2#32 :: []
      ∧ State.reset.status.busy = false ∧ decodeCommand 2#32 ≠ .reset := by exact ⟨rfl, rfl, by decide⟩

/-- The last PROFILE and the last PARAM word and `CMD` while a command runs; an initialised block between commands; a
read-only CSR. -/
theorem witness_IgnoredWrites :
    (at' toy .check 0 Work.none).status.busy = true ∧ 65535 < toy.caps.profileWords ∧ 63 < 64
      ∧ (initialised toy).status.busy = false ∧ (initialised toy).status.inited = true ∧ (Space.csr = .csr ∧ 6 ≠ 1 ∧ 6 ≠ 5) := by decide +kernel

/-- The last word of each of the two spaces on the block before INIT; a read of `SEQ` and of the last PCM and STATE
words while a command runs; a listed PROFILE, a listed PARAM and, between commands, a listed PCM word. -/
theorem witness_ReadAfterWrite :
    toy.status.busy = false ∧ 65535 < spaceSize toy .profile ∧ toy.status.inited = false ∧ 63 < spaceSize toy .param
      ∧ toy.profile.wf (spaceSize toy .profile) = true ∧ toy.param.wf (spaceSize toy .param) = true ∧ toy.pcm.wf 512 = true
      ∧ ({ toy with host := [.wr .param 63 7#32] } : State).host = .wr .param 63 7#32 :: []
      ∧ ({ at' toy .check 0 Work.none with host := [.rd .csr 3] } : State).host = .rd .csr 3 :: []
      ∧ (at' toy .check 0 Work.none).status.busy = true ∧ 511 < 512 ∧ 4095 < 4096
      ∧ (0, 2#32) ∈ toy.profile ∧ (63, 0#32) ∈ toy.param
      ∧ (511, 5#32) ∈ ({ toy with pcm := [(511, 5#32)] } : State).pcm ∧ Mem.wf 512 [(511, 5#32)] = true := by decide +kernel

/-- The first address beyond each space. -/
theorem witness_OutOfRangeAccess :
    spaceSize toy .csr ≤ 8 ∧ spaceSize toy .profile ≤ 65536 ∧ spaceSize toy .param ≤ 64 ∧ spaceSize toy .pcm ≤ 512
      ∧ spaceSize toy .state ≤ 4096
      ∧ ({ toy with host := [.wr .pcm 512 1#32] } : State).host = .wr .pcm 512 1#32 :: []
      ∧ ({ toy with host := [.rd .pcm 512] } : State).host = .rd .pcm 512 :: [] := by decide +kernel

/-- An idle block, and a write of `CTRL`. -/
theorem witness_CsrFile :
    toy.status.busy = false ∧ ({ toy with host := [.wr .csr 5 1#32] } : State).host = .wr .csr 5 1#32 :: [] := by decide +kernel

/-- The block after INIT. -/
theorem witness_StateWindow :
    (initialised toy).status.busy = false ∧ (initialised toy).status.inited = true := by decide +kernel

/-- A raise with its field and subframe at the ends of their ranges. -/
theorem witness_RaiseEffect :
    (badParam 3 255 65536).field < 256 ∧ (badParam 3 255 65536).sf < 4 := by decide

/-- `rst` while a DECODE runs. -/
theorem witness_HardwareReset :
    ({ at' toy .excMix 1 goodW with host := [.rst] } : State).host = .rst :: []
      ∧ 65535 < spaceSize toy .profile ∧ 511 < 512 ∧ 4095 < 4096 := by decide +kernel

/-- The word 3 written to `CMD` of the block after INIT. -/
theorem witness_ResetCommand :
    ({ initialised toy with host := [.wr .csr 1 3#32] } : State).host = .wr .csr 1 3#32 :: []
      ∧ (initialised toy).status.busy = false ∧ (3#32).toNat = 3 := by decide +kernel

/-- A block after INIT and one before it. -/
theorem witness_NopIdleDecode :
    (initialised toy).status.inited = true ∧ toy.status.inited = false := by decide +kernel

/-- A block after INIT; one whose first check fails; one whose last check alone fails; one whose checks all hold. -/
theorem witness_InitOutcome :
    (initialised toy).status.inited = true
      ∧ (∃ p, (0, p) ∈ Spec.checks (toyWith [(0x00, 3)]) ∧ ¬ p)
      ∧ (∃ p, (0x89, p) ∈ Spec.checks toyLast ∧ ¬ p)
      ∧ (∀ q ∈ Spec.checks toyLast, q.1 < 0x89 → q.2)
      ∧ toy.status.inited = false ∧ ∀ q ∈ Spec.checks toy, q.2 := by 
  refine ⟨by decide +kernel, ⟨_, .head _, by decide +kernel⟩, 
    ⟨Spec.u toyLast 4 / 2 % 2 = 1 → ∀ i < Spec.u toyLast 0, Spec.el toyLast 0x5F i ≤ 32767,
      List.mem_append_right _ (by simp [Spec.tableChecks]), by decide +kernel⟩, ?_, by decide +kernel, ?_⟩
  · simp only [Spec.checks, Spec.headerChecks, Spec.relationChecks, Spec.tableChecks, 
      List.forall_mem_append, List.forall_mem_cons]
    and_intros <;> first | decide +kernel | simp
  · simp only [Spec.checks, Spec.headerChecks, Spec.relationChecks, Spec.tableChecks, 
      List.forall_mem_append, List.forall_mem_cons]
    and_intros <;> first | decide +kernel | simp

/-- Profile TOY before INIT. -/
theorem witness_InitValues :
    toy.status.inited = false ∧ profileOk toy = true := by decide +kernel

/-- The first illegal word. -/
theorem witness_IllegalCommand :
    4 ≤ (4#32).toNat := by decide

/-- `F.CTRL` with a reserved bit, then with bit 8; a frame type that the profile lacks; a bad frame; the all-zero
frame where zero means erasure. -/
theorem witness_CheckHeadAndErasure :
    F.ctrl (withParam [(0, 2)]) / 2 % 8 ≠ 0 ∧ 256 ≤ F.ctrl (withParam [(0, 256)])
      ∧ (F.ctrl (withParam [(0, 0x10)]) / 2 % 8 = 0 ∧ F.ctrl (withParam [(0, 0x10)]) < 256
        ∧ (P.frameTypes toy).testBit (F.ctrl (withParam [(0, 0x10)]) / 16 % 16) = false)
      ∧ (Spec.headOk (withParam [(0, 1)]) ∧ F.ctrl (withParam [(0, 1)]) % 2 = 1)
      ∧ (Spec.headOk (toyWith [(4, 1)]) ∧ P.flags (toyWith [(4, 1)]) % 2 = 1 ∧ Spec.frameZero (toyWith [(4, 1)])) := by decide +kernel

/-- Frame F1 passes its head, is good and every index it uses is legal; then one frame for each field that CHECK can
report, in a profile that uses it: the first LSP index, the selector, and in subframe 0 the pitch index, the gain
indices, the code and the sign word. -/
theorem witness_CheckGoodFrame :
    Spec.headOk (withParam frameF1) ∧ ¬ Spec.erased (withParam frameF1)
      ∧ checkFrame ((withParam frameF1).setWrk (initState toy)) = none
      ∧ Spec.headOk (withParam [(8, 33)]) ∧ ¬ Spec.erased (withParam [(8, 33)])
      ∧ 0 < P.lspStages toy ∧ 0 < P.nsf toy
      ∧ P.stSize toy 0 ≤ lspIndex (withParam [(1, 4096)]) 0
      ∧ (P.lspPredMode (toyWith [(6, 1)]) = 1 ∧ P.lspMaSets (toyWith [(6, 1)]) ≤ F.lspMaSel (toyWith [(6, 1)]))
      ∧ pitchDecode (withParam [(8, 33)]) 0 33 4 = none ∧ pitchDecode toy 0 (F.pitchIdx toy 0) 4 ≠ none
      ∧ P.gainCfSize toy ≤ F.gainIdxA (withParam [(9, 4096)]) 0
      ∧ (P.gainMode (toyWith [(0x29, 1)]) = 1 ∧ P.gainGpSize toy ≤ F.gainIdxB (withParam [(10, 4096)]) 0)
      ∧ fcbPositions (withParam [(11, 65536)]) 0 65536 = none ∧ fcbPositions toy 0 (F.fcbCode toy 0) ≠ none
      ∧ 2 ^ P.fcbNpulses toy ≤ F.fcbSign (withParam [(13, 4)]) 0 := by decide +kernel

/-- A vector whose gap is 0. -/
theorem witness_LsfStabInvariant :
    profileOk toy = true ∧ [14100, 14100].length = P.order toy := by decide +kernel

/-- The ends of the ranges. -/
theorem witness_CosineTable :
    63 < 64 ∧ 511 < 512 ∧ (0 : Int) ≤ 0 ∧ (0 : Int) ≤ 32767 ∧ (32767 : Int) ≤ 32767 := by decide

/-- Both registers written; weights 0, 16384 and 32768. -/
theorem witness_LspInterpBounds :
    (at' toy .lsf2lsp 0 { goodW with lsf := some [6000, 21500] }).w.lsf = some [6000, 21500] ∧ 0 < P.nsf toy
      ∧ (at' toy .lspInterp 0 { goodW with lspq := some [1, 2] }).w.lspq = some [1, 2]
      ∧ P.interpW toy 0 ≤ 32768 ∧ P.interpW toy 1 = 32768 ∧ P.interpW (toyWith [(0x78, 0)]) 0 = 0 := by decide +kernel

/-- Order 2, a good and an erased frame, the first and the last coefficient. -/
theorem witness_Lsp2lpcPolynomials :
    (at' toy .lsp2lpc 0 { goodW with lspi := some [21932, -15907] }).w.lspi = some [21932, -15907]
      ∧ goodW.erased = some false ∧ badW.erased = some true ∧ 2 ≤ P.order toy ∧ P.order toy % 2 = 0 ∧ 1 ≤ P.order toy / 2 := by decide +kernel

/-- 2.4: the shortest absolute delay, index 0, T = 12; the longest, index 32, T = 60; zone B from 4, index 6, T = 24.
-/
theorem witness_PitchStages :
    Spec.inRange toy 12 ∧ F.pitchIdx toy 0 < 2 ^ P.absBits toy ∧ Spec.absT toy (F.pitchIdx toy 0) = 12
      ∧ Spec.inRange toy 60 ∧ Spec.absT toy (F.pitchIdx (withParam [(8, 32)]) 0) = 60
      ∧ Spec.inRange toy 24 ∧ F.pitchIdx (withParam [(0x10, 6)]) 1 < 2 ^ P.relBits toy
      ∧ P.pitchMin toy + P.winMargin toy ≤ P.pitchMax toy ∧ Spec.relT toy 6 4 = 24 := by decide +kernel

/-- The longest legal delay; an index of the absolute law that gives a delay out of range, and one with a bit too
many; the differential law. -/
theorem witness_PitchRange :
    0 < P.pitchRes toy ∧ pitchDecode toy 0 32 4 = some (20, 0) ∧ 1 ≤ P.pitchMin toy
      ∧ (P.pitchAbsMask toy).testBit 0 = true ∧ Spec.absT toy 33 = 63 ∧ ¬ Spec.inRange toy 63
      ∧ 2 ^ P.absBits toy ≤ 512 ∧ Spec.inRange toy (Spec.absT toy 32) ∧ 32 < 2 ^ P.absBits toy
      ∧ (P.pitchAbsMask toy).testBit 1 = false ∧ P.pitchMin toy + P.winMargin toy ≤ P.pitchMax toy
      ∧ Spec.relT toy 6 12 = 33 ∧ Spec.inRange toy 33 := by decide +kernel

/-- The shortest delay with the last fraction, in an erased frame and in a good one of each family. -/
theorem witness_AcbInterpSamples :
    ({ goodW with tInt := some 4, tFrac := some 2 } : Work).tInt = some 4 ∧ (P.acbHalfLen toy : Int) ≤ 4 ∧ (2 : Int) < P.pitchRes toy
      ∧ badW.erased = some true ∧ goodW.erased = some false ∧ P.fcbFamily toy = 0
      ∧ P.fcbFamily (toyWith [(0x1F, 1)]) = 1 ∧ P.fcbFamily (toyWith [(0x1F, 2)]) = 2 ∧ P.fcbFamily (toyWith [(0x1F, 3)]) = 3 := by decide +kernel

/-- 2.6: the position lists of the four families; a profile that sharpens and one that does not. -/
theorem witness_FcbStages :
    F.fcbSign (withParam frameF1) 0 < 2 ^ P.fcbNpulses toy ∧ P.sharpMode toy ≠ 0
      ∧ ({ goodW with tInt := some 12 } : Work).tInt = some 12 ∧ P.sharpMode (toyWith [(0x26, 0)]) = 0
      ∧ trackPositions toy false 5 = some [2, 3] ∧ trackPositions toy true 7 = some [4, 3]
      ∧ baseBPositions (toyWith [(0x22, 5), (0x23, 8), (0x86, 2)]) 24 = some [32, 34]
      ∧ explicitPositions (toyWith [(0x01, 40), (0x24, 6)]) 0x4C5 = some [5, 19] := by decide +kernel

/-- A base above 0. -/
theorem witness_FcbPositions :
    0 < P.fcbBase (toyWith [(0x22, 5)]) := by decide +kernel

/-- 2.6, first row. -/
theorem witness_FcbPositionsInRange :
    profileOk toy = true ∧ fcbDecode toy (P.fcbFamily toy) 5 1 = .ok ([2, 3], [8192, -8192]) := by decide +kernel

/-- The largest number of 32 bits. -/
theorem witness_GrayInverse :
    2 ^ 32 - 1 < 2 ^ 32 ∧ 32 ≤ 32 ∧ 2 ^ 32 - 1 < 2 ^ 32 := by decide

/-- Two pulses, one at the last position, lag 1; the three modes. -/
theorem witness_FcbBuildModes :
    ({ n := 2, pos := [2, 7], amp := [8192, -8192], lag := 1, fac := 3277, mask := 1 } : SparseVec).pos.length = 2
      ∧ (∀ x ∈ ({ n := 2, pos := [2, 7], amp := [8192, -8192], lag := 1, fac := 3277, mask := 1 } : SparseVec).pos, x < P.sfLen toy)
      ∧ P.sharpMode toy = 1 ∧ P.sharpMode (toyWith [(0x26, 0)]) = 0 ∧ P.sharpMode (toyWith [(0x26, 2)]) = 2 := by decide +kernel

/-- Two opposite pulses at one position, and the largest sum that cannot saturate. -/
theorem witness_PulsesAdd :
    (∀ q ∈ [((4 : Nat), (16383 : Int)), (4, -16383)], q.1 < 8 ∧ |q.2| ≤ ((16383 : Nat) : Int))
      ∧ [((4 : Nat), (16383 : Int)), (4, -16383)].length * 16383 ≤ 32767 := by decide

/-- 2.7, first row: strength 0, no low gains counted out, an onset; and a gain below the least one. -/
theorem witness_PhaseDispSelection :
    [0, 0, 8192, -8192, 0, 0, 0, 0].length = P.sfLen toy ∧ (8192 : Int) < P.dispTLow toy
      ∧ (100 : Int) > 2 * (initialised toy).wrk.dispPrevGc
      ∧ ((Finset.range toy.caps.gainHistLen).filter fun i => elem (initialised toy).wrk.gpHist (i : Nat) < P.dispTLow toy).card = 5
      ∧ ¬ (100 : Int) < P.dispMinGc toy ∧ (5 : Int) < P.dispMinGc toy := by decide +kernel

/-- The four registers written. -/
theorem witness_ExcMixSamples :
    ({ goodW with gp := some 16384, gc := some 8000, acbv := some (zeros 8), fcv := some (zeros 8) } : Work).gp = some 16384 := by decide +kernel

/-- Both gain modes, each with its index. -/
theorem witness_GainDecResults :
    P.gainMode toy = 0 ∧ F.gainIdxA (withParam frameF1) 0 = 2 ∧ P.gainMode (toyWith [(0x29, 1)]) = 1
      ∧ F.gainIdxB (withParam [(0x0A, 3)]) 0 = 3 ∧ ({ goodW with fcv := some (zeros 8) } : Work).fcv = some (zeros 8) := by decide +kernel

/-- A subframe of one sample. -/
theorem witness_GaincExact :
    1 ≤ 1 := by decide

/-- The ends of the two clauses. -/
theorem witness_LoggainExact :
    (0 : Int) ≤ 0 ∧ (0 : Int) < 1 := by decide

/-- The least arguments. -/
theorem witness_NumericHelpers :
    (0 : Int) ≤ 0 ∧ (0 : Int) < 1 ∧ (0 : Int) * 0 * 1 ≤ 16777216 * 0 := by decide

/-- The histories after INIT; a good subframe with its correction, and the mean of an erased one. -/
theorem witness_GainUpdHistories :
    (initialised toy).wrk.energyHist.length = P.maOrder toy ∧ (initialised toy).wrk.gpHist.length = toy.caps.gainHistLen
      ∧ (initialised toy).wrk.gcHist.length = toy.caps.gainHistLen ∧ 0 < P.maOrder toy ∧ 0 < toy.caps.gainHistLen
      ∧ ({ goodW with corr := some 8192 } : Work).corr = some 8192 ∧ loggain 8192 = 6165
      ∧ max ((∑ i ∈ Finset.range (P.maOrder toy), elem (initialised toy).wrk.energyHist i) / (P.maOrder toy : Int)
          - P.eraseAtt toy) (P.eraseFloor toy) = -4096 := by decide +kernel

/-- A muted and an unmuted erased frame; decays of at most 1.0; gains that are not negative. -/
theorem witness_GainConcealDecay :
    badW.muted = some false ∧ ({ badW with muted := some true } : Work).muted = some true
      ∧ P.fecGpDecay toy ≤ 32768 ∧ P.fecGcDecay toy ≤ 32768
      ∧ 0 ≤ elem (initialised toy).wrk.gpHist 0 ∧ 0 ≤ elem (initialised toy).wrk.gcHist 0 := by decide +kernel

/-- 2.9: an excitation whose outputs stay inside the bound 32767, and the same with the bound 3000. -/
theorem witness_LpSynthRecursion :
    (run toy .lpSynth 0 { goodW with lpc := some [4096, -753, -634], excv := some [0, 0, 4000, -4000, 0, 0, 0, 0] }).map (·.w.ovf)
      = some (some false)
      ∧ (run (toyWith [(0x34, 3000)]) .lpSynth 0
          { goodW with lpc := some [4096, -753, -634], excv := some [0, 0, 4000, -4000, 0, 0, 0, 0] }).map (·.w.ovf)
      = some (some true) := by decide +kernel

/-- The five registers written. -/
theorem witness_LpRetryRecursion :
    ({ goodW with
          lpc := some [4096, -753, -634], gp := some 1, gc := some 1, acbv := some (zeros 8), fcv := some (zeros 8) } : Work).lpc
      = some [4096, -753, -634] ∧ 7 < P.sfLen toy := by decide +kernel

/-- A subframe of 8 samples and histories of the declared lengths. -/
theorem witness_SfCommitHistories :
    (zeros 8).length = P.sfLen toy ∧ (initialised toy).wrk.synMem.length = P.order toy
      ∧ (initialised toy).wrk.excHist.length = P.histLen toy ∧ 22 < P.histLen toy ∧ P.sharpMin toy ≤ P.sharpMax toy := by decide +kernel

/-- Both registers written, the last coefficient and the last sample. -/
theorem witness_PfResidFilter :
    ({ goodW with syn := some (zeros 8), lpc := some [4096, 0, 0] } : Work).lpc = some [4096, 0, 0] ∧ 1 < P.order toy ∧ 7 < P.sfLen toy := by decide +kernel

/-- The filter disabled; no usable lag; one usable lag, 8, with `C` = 500000 and `E` = 250000 above 3 dB, and one with
`C` = 1 below it. -/
theorem witness_PfLongtermBlend :
    [1000, 0, 0, 0, 0, 0, 0, 0].length = P.sfLen toy ∧ (ltHist 500).length = P.resLen toy
      ∧ P.pfLtEn toy = false ∧ P.pfLtEn (toyWith [(0x04, 6)]) = true
      ∧ max (8 - (P.pfLtRange toy : Int)) (P.pitchMin toy) = 8 ∧ min (8 + (P.pfLtRange toy : Int)) (P.pitchMax toy) = 8
      ∧ ltAt 500 (fun r x => ∑ n ∈ Finset.range 8, elem r n * x ((n : Int) - 8)) = 500000
      ∧ ltAt 500 (fun _ x => ∑ n ∈ Finset.range 8, x ((n : Int) - 8) * x ((n : Int) - 8)) = 250000
      ∧ ltAt 0 (fun r x => ∑ n ∈ Finset.range 8, elem r n * x ((n : Int) - 8)) = 0
      ∧ ltLow (fun r x => ∑ n ∈ Finset.range 8, elem r n * x ((n : Int) - 8)) = 1
      ∧ ltLow (fun _ x => ∑ n ∈ Finset.range 8, x ((n : Int) - 8) * x ((n : Int) - 8)) = 1
      ∧ 2 * (1 : Int) * 1 < 1 * (1 * 1 + 1000 * 1000) ∧ 250000 * (1000 * 1000) ≤ 2 * (500000 : Int) * 500000 := by decide +kernel

/-- Order 2, an impulse response of 8 samples. -/
theorem witness_PfSyntiltFilters :
    [-2048, 0].length = P.order toy ∧ 0 < P.sfLen toy ∧ 2 ≤ P.pfIrLen toy := by decide +kernel

/-- Vectors and memories of the declared lengths, and a gain in its range. -/
theorem witness_PfAgcGain :
    (zeros 8).length = P.sfLen toy ∧ (initialised toy).wrk.pfFirMem.length = P.order toy
      ∧ (initialised toy).wrk.pfIirMem.length = P.order toy ∧ P.pfAgcAlpha toy ≤ 32768
      ∧ 0 ≤ (initialised toy).wrk.pfAgcGain ∧ (initialised toy).wrk.pfAgcGain ≤ 32767 := by decide +kernel

/-- The delay held, and drawn: 21845 gives 3242 (2.1); the delay before is the least one. -/
theorem witness_LsfPitchConcealResults :
    (P.flags toy).testBit 4 = false ∧ (P.flags (toyWith [(4, 16), (0x43, 1)])).testBit 4 = true
      ∧ elem (initialised toy).wrk.gpHist 0 < P.fecVoicedThr (toyWith [(4, 16), (0x43, 1)]) ∧ P.pitchMin toy ≤ P.pitchMax toy
      ∧ 3242 = ((initialised toy).wrk.prngSeed * P.fecPrngMul toy + P.fecPrngAdd toy) % 65536
      ∧ (P.pitchMin toy : Int) ≤ (initialised toy).wrk.prevLagInt ∧ (initialised toy).wrk.prevLagInt ≤ P.pitchMax toy := by decide +kernel

/-- The generator's run from its seed, by its law; both kinds of profile. -/
theorem witness_FcbConcealDraws :
    0 < P.sfLen toy ∧ (∃ g : Nat → Nat, g 0 = (initialised toy).wrk.prngSeed
        ∧ ∀ k, g (k + 1) = (g k * P.fecPrngMul toy + P.fecPrngAdd toy) % 65536)
      ∧ P.sharpMode (toyWith [(0x26, 0)]) = 0 ∧ P.sharpMode toy ≠ 0 ∧ ({ badW with tInt := some 4 } : Work).tInt = some 4 := by exact ⟨by decide +kernel, ⟨fun k => Nat.rec (initialised toy).wrk.prngSeed
    (fun _ x => (x * P.fecPrngMul toy + P.fecPrngAdd toy) % 65536) k, rfl, fun _ => rfl⟩, by decide +kernel, by decide +kernel, rfl⟩

/-- Without and with the postfilter; the last subframe lies inside PCM space. -/
theorem witness_OutStoresSamples :
    goodW.muted = some false ∧ P.pfEn toy = false ∧ P.pfEn (toyWith [(4, 2)]) = true
      ∧ (at' toy .out 1 goodW).sf * P.sfLen toy + P.sfLen toy ≤ 512 := by decide +kernel

/-- A good frame with its residual, an erased one with its prediction; a profile without and one with prediction. -/
theorem witness_FrameCommitState :
    goodW.erased = some false ∧ ({ goodW with res := some [-2000, 1500] } : Work).res = some [-2000, 1500]
      ∧ badW.erased = some true ∧ ({ badW with pred := some [8000, 20000] } : Work).pred = some [8000, 20000]
      ∧ [-1508, 1534].length = P.order toy ∧ (∀ i : Nat, i < 2 → elem [-1508, 1534] i = sat16 (elem [6492, 21534] i - elem [8000, 20000] i))
      ∧ P.lspPredMode toy = 0 ∧ (initialised toy).wrk.lsfMaHist.length = 0
      ∧ P.lspPredMode (toyWith [(6, 1), (7, 2)]) = 1
      ∧ (initialised (toyWith [(6, 1), (7, 2)])).wrk.lsfMaHist.length = P.lspMaNp (toyWith [(6, 1), (7, 2)]) := by decide +kernel

/-- An operation that gives a next state. -/
theorem witness_CommandFrame :
    ∃ t, exec .nop toy = .next t := by exact ⟨_, rfl⟩

/-- Two states that differ in the host's script, in `STATUS` and in `ERRINFO`, at LSF_DEC. -/
theorem witness_NoHiddenState :
    (at' toy .lsfDec 0 goodW).seq = ({ at' toy .lsfDec 0 goodW with host := [.run], status := Status.zero, errinfo := 1#32 } : State).seq
      ∧ ∃ t, exec (decodeStage (seqStage 0x02#8)) (at' toy .lsfDec 0 goodW) = .next t := by exact ⟨rfl, _, rfl⟩

/-- `S` after INIT of profile TOY meets the invariants of `S`. -/
theorem toy_dec_ok : DecOk (initialised toy) (initialised toy).dec := by
  refine ⟨⟨?_, ?_, ?_, ?_⟩, ⟨?_, ?_⟩, ⟨?_, ?_⟩, ?_, ?_, ?_, ⟨?_, ?_⟩, ?_, ?_, ?_, ?_, ?_, ?_, ?_, ?_, ?_, ?_, ?_, ?_⟩
  all_goals first
    | decide +kernel
    | (intro i h
       have hp : P.order (initialised toy) = 2 := by decide +kernel
       obtain rfl : i = 0 := by omega
       decide +kernel)

/-- The block after INIT with a DECODE accepted. -/
def toyAccepted : State := (initialised toy).accept 2#32

/-- The same one step later, at CHECK of frame F1. -/
def toyChecking : State := { toyAccepted.startDecode with param := withWords toy.param frameF1 }

/-- `S` of `toyAccepted` and of `toyChecking` is that of `toy` after INIT, and so are their profile words. -/
theorem toy_accepted_dec_ok : DecOk toyAccepted (initialised toy).dec :=
  DecOk_profileInputs (s := initialised toy) (t := toyAccepted) rfl toy_dec_ok

theorem toy_checking_dec_ok : DecOk toyChecking (initialised toy).dec :=
  DecOk_profileInputs (s := initialised toy) (t := toyChecking) rfl toy_dec_ok

/-- Witness of StepKeepsInvariant, ReadyNeverStops, SeqRead and DecodeTerminates: a ready state in which a DECODE has been
accepted. -/
theorem witness_accepted :
    Ready toyAccepted ∧ toyAccepted.host = [] ∧ toyAccepted.cmd = some 2#32 ∧ toyAccepted.status.busy = true
      ∧ toyAccepted.status.inited = true := by
  have hp : profileOk toyAccepted = true := by decide +kernel
  refine ⟨⟨⟨⟨?_, ?_, ?_⟩, ⟨?_, ?_, ?_, ?_, ?_, ?_, ?_, ?_, ?_, ?_, ?_⟩, ⟨?_, ?_⟩⟩, ?_⟩, rfl, rfl, rfl, rfl⟩
  · decide +kernel
  · decide +kernel
  · decide +kernel
  · decide +kernel
  · exact fun _ => rfl
  · exact fun h => absurd h (by decide +kernel)
  · exact fun _ => ⟨rfl, rfl⟩
  · exact fun _ h => absurd h (by decide +kernel)
  · exact fun _ => ⟨rfl, rfl, rfl⟩
  · exact fun _ => rfl
  · decide +kernel
  · decide +kernel
  · decide +kernel
  · exact fun _ => hp
  · exact fun _ => toy_accepted_dec_ok
  · exact fun _ h => absurd h (by decide +kernel)
  · exact fun _ h => absurd h (by decide +kernel)

/-- The step that the hypothesis of StepKeepsInvariant asks for, from that state. -/
theorem witness_accepted_step : step toyAccepted = .next toyAccepted.startDecode := rfl

/-- The last two clauses of SeqRead: a command that runs no stage, and that step, in which the command goes on. -/
theorem witness_SeqRead :
    ((initialised toy).accept 0#32).cmd = some 0#32 ∧ (0#32 : Word) ≠ 2#32 ∧ (toy.accept 2#32).status.inited = false
      ∧ toyAccepted.startDecode.status.busy = true := by decide +kernel

/-- The same inside a running DECODE, at CHECK. -/
theorem witness_running : Ready toyChecking ∧ toyChecking.status.busy = true ∧ toyChecking.cmd = none := by
  have hp : profileOk toyChecking = true := by decide +kernel
  refine ⟨⟨⟨⟨?_, ?_, ?_⟩, ⟨?_, ?_, ?_, ?_, ?_, ?_, ?_, ?_, ?_, ?_, ?_⟩, ⟨?_, ?_⟩⟩, fun _ _ => ?_⟩, rfl, rfl⟩
  · decide +kernel
  · decide +kernel
  · decide +kernel
  · decide +kernel
  · exact fun _ => rfl
  · exact fun h => absurd h (by decide +kernel)
  · exact fun h => absurd rfl h
  · exact fun _ _ => ⟨rfl, by decide +kernel⟩
  · exact fun _ => ⟨rfl, rfl, rfl⟩
  · exact fun _ => rfl
  · decide +kernel
  · decide +kernel
  · decide +kernel
  · exact fun _ => hp
  · exact fun _ => toy_checking_dec_ok
  · exact fun _ _ => ⟨toy_checking_dec_ok, by constructor <;> intros <;> simp_all [toyChecking, State.startDecode, Work.none]⟩
  · have hs : toyChecking.stage = 1 := by decide +kernel
    have hf : toyChecking.sf = 0 := by decide +kernel
    have hr : seqRetry toyChecking.seq = false := by decide +kernel
    have hw : toyChecking.w = Work.none := rfl
    constructor <;> simp [hs, hf, hr, hw, State.good, State.bad, Work.none]

/-- An idle state for the second clause of SeqRead: after reset nothing runs. -/
theorem witness_idle : State.reset.status.busy = false ∧ State.reset.seq = 0x00#8 := by decide

end Sys2Proof.Tests
end

