-- ==== Sys2Proof/Proofs/CommandWord.lean ====
section
/-! The command word (R111, R112): its two fields as numbers, when it is illegal, and what an illegal word does. -/

namespace Sys2Proof.Proofs
open Sys2Proof Sys2Proof.Machine

/-! ## The fields of a command word -/

@[simp] theorem toNat_cmdOp (w : Word) : (cmdOp w).toNat = w.toNat % 16 := by
  simp [cmdOp]

@[simp] theorem toNat_cmdZero (w : Word) : (cmdZero w).toNat = w.toNat / 16 := by
  simp only [cmdZero, BitVec.extractLsb'_toNat, Nat.shiftRight_eq_div_pow]
  omega

/-- A bit vector is the literal of its number. -/
theorem eq_ofNat_of_toNat {k n : Nat} {x : BitVec k} (h : x.toNat = n) : x = BitVec.ofNat k n := by
  rw [← h, BitVec.ofNat_toNat, BitVec.setWidth_eq]

theorem cmdOp_eq_ofNat (w : Word) : cmdOp w = BitVec.ofNat 4 (w.toNat % 16) :=
  eq_ofNat_of_toNat (toNat_cmdOp w)

theorem cmdZero_eq_ofNat (w : Word) : cmdZero w = BitVec.ofNat 28 (w.toNat / 16) :=
  eq_ofNat_of_toNat (toNat_cmdZero w)

/-- A word is its two fields, `ZERO` above `OP`. -/
theorem cmdZero_append_cmdOp (w : Word) : cmdZero w ++ cmdOp w = w := by
  have hop : w.toNat % 16 < 2 ^ 4 := by omega
  apply BitVec.eq_of_toNat_eq
  rw [BitVec.toNat_append, toNat_cmdOp, toNat_cmdZero, ← Nat.shiftLeft_add_eq_or_of_lt hop,
    Nat.shiftLeft_eq]
  omega

/-! ## Legal and illegal words -/

/-- A word of 4 or more has a nonzero `ZERO` field or an `OP` of 4 or more: it is illegal either way (R112). -/
theorem decodeCommand_of_four_le {w : Word} (h : 4 ≤ w.toNat) :
    decodeCommand w = .illegal (cmdOp w) (cmdZero w) := by
  unfold decodeCommand
  by_cases hz : cmdZero w = 0#28
  · have hdiv : w.toNat / 16 = 0 := by rw [← toNat_cmdZero, hz]; rfl
    have hop : 4 ≤ (cmdOp w).toNat := by rw [toNat_cmdOp]; omega
    rw [if_pos hz]
    split
    case h_5 => rfl
    all_goals omega
  · rw [if_neg hz]

theorem exec_illegal (op : BitVec 4) (zero : BitVec 28) (s : State) :
    exec (.illegal op zero) s = execIllegal op zero s := by
  rfl

/-- The two fields of a word carry its number, so the raise reports the word's own low 16 bits (R112). -/
theorem exec_illegal_fields (w : Word) (s : State) :
    exec (.illegal (cmdOp w) (cmdZero w)) s = .next (s.raise
      { code := .illegalCommand, stage := .idle, sf := 0, field := 0, value := w.toNat % 65536 }) := by
  rw [exec_illegal, execIllegal, cmdZero_append_cmdOp]

/-- Settles O2: a legal word is one of four literals, and an illegal word is read by its two fields. -/
theorem commandWordFormat : Obligations.CommandWordFormat := by
  intro w
  refine ⟨fun h => ?_, fun h => ?_, fun h => ?_, fun h => ?_, fun h => ⟨?_, fun s => ?_⟩⟩
  · rw [eq_ofNat_of_toNat h]; rfl
  · rw [eq_ofNat_of_toNat h]; rfl
  · rw [eq_ofNat_of_toNat h]; rfl
  · rw [eq_ofNat_of_toNat h]; rfl
  · rw [decodeCommand_of_four_le h, cmdOp_eq_ofNat, cmdZero_eq_ofNat]
  · rw [decodeCommand_of_four_le h, exec_illegal_fields]

end Sys2Proof.Proofs
end

