-- ==== Sys2Proof/Proofs/OutputStage.lean ====
section
/-! OUT (R159, R62, R128): what a run of samples leaves in PCM space, and the stage's next state. -/

namespace Sys2Proof.Proofs
open Sys2Proof Sys2Proof.Machine

/-! ## The subframe's samples -/

@[simp] theorem length_outSamples (len : Nat) (muted : Bool) (x : List Int) :
    (outSamples len muted x).length = len := tab_length _ _

/-- A muted frame delivers zeros whatever the operand holds (R159). -/
theorem elem_outSamples {len n : Nat} (hn : n < len) (muted : Bool) (x : List Int) :
    elem (outSamples len muted x) n = if muted then 0 else elem x n := elem_tab hn _

/-! ## PCM words after a run of samples -/

/-- Word `base + n` is sample `n`, sign-extended (R128). -/
theorem pcmWord_putSamples_inside {s : State} {o : List Int} {base n : Nat} (hn : n < o.length)
    (hfit : base + o.length ≤ 512) :
    pcmWord { s with pcm := putSamples 512 s.pcm base o } (base + n) = i16Word (elem o n) := by
  have hfind : (putSamples 512 s.pcm base o).find (base + n) = some (i16Word (elem o n)) := by
    rw [find_putSamples o base s.pcm (base + n) hfit, if_pos (by omega), Nat.add_sub_cancel_left,
      List.getElem?_eq_getElem hn, Option.map_some, elem_eq_getElem hn]
  rw [pcmWord_eq, if_neg (by omega), hfind, Option.getD_some]

/-- A word outside the run reads as before, listed or free (R62). -/
theorem pcmWord_putSamples_outside {s : State} {o : List Int} {base a : Nat}
    (ha : ¬ (base ≤ a ∧ a < base + o.length)) (hfit : base + o.length ≤ 512) :
    pcmWord { s with pcm := putSamples 512 s.pcm base o } a = pcmWord s a := by
  rw [pcmWord_eq, pcmWord_eq, find_putSamples o base s.pcm a hfit, if_neg ha]

/-! ## The stage -/

theorem exec_out (s : State) : exec .out s = execOut s := by
  rfl

/-- Storing the samples leaves the profile alone, so the head of the loop compares with the same `nsf`. -/
theorem outInto_eq (s : State) (muted : Bool) (x : List Int) :
    outInto s muted x = .next ({ s.setW { s.w with out := some (outSamples (P.sfLen s) muted x) } with
        pcm := putSamples 512 s.pcm (s.sf * P.sfLen s) (outSamples (P.sfLen s) muted x) }.goto
      (if s.sf + 1 < P.nsf s then .lspInterp else .frameCommit) (if s.sf + 1 < P.nsf s then s.sf + 1 else 0)
      false) :=
  congrArg Host.Outcome.next (toSubframe_eq _ (s.sf + 1))

/-- OUT reads the postfilter's output when the profile has one, and the synthesis otherwise (R159). -/
theorem exec_out_of_operand {s : State} {muted : Bool} {x : List Int} (hmuted : s.w.muted = some muted)
    (hx : if P.pfEn s then s.w.out = some x else s.w.syn = some x) : exec .out s = outInto s muted x := by
  rw [exec_out, execOut, hmuted, need_some]
  by_cases hpf : P.pfEn s = true
  · rw [if_pos hpf] at hx ⊢
    rw [hx, need_some]
  · rw [if_neg hpf] at hx ⊢
    rw [hx, need_some]

/-- Settles O53: the next state is `outInto`'s, and its PCM words are those of a run of samples. -/
theorem outStoresSamples : Obligations.OutStoresSamples := by
  intro s muted x hmuted hx hfit
  have hlen : (outSamples (P.sfLen s) muted x).length = P.sfLen s := length_outSamples ..
  refine ⟨outSamples (P.sfLen s) muted x, putSamples 512 s.pcm (s.sf * P.sfLen s) (outSamples (P.sfLen s) muted x),
    ?_, hlen, fun n hn => elem_outSamples hn muted x, fun hwf => wf_putSamples _ _ hwf, ?_⟩
  · rw [exec_out_of_operand hmuted hx, outInto_eq]
  · rintro t rfl
    refine ⟨fun n hn => ?_, fun a ha => ?_⟩
    · exact pcmWord_putSamples_inside (s := s.setW _) (by rwa [hlen]) (by rwa [hlen])
    · exact pcmWord_putSamples_outside (s := s.setW _) (by rwa [hlen]) (by rwa [hlen])

end Sys2Proof.Proofs
end

