-- ==== Sys2Proof/Proofs/LspStages.lean ====
section
/-! The LSP stages that work coefficient by coefficient: LSF_DEC (R171, R172), LSF2LSP (R176) and LSP_INTERP (R179). -/

namespace Sys2Proof.Proofs
open Sys2Proof Sys2Proof.Machine

/-! ## LSF_DEC -/

/-- The stages before `n`, each adding its codebook entry where it covers the coefficient (R171). -/
theorem lsfResidual_eq_sum (s : State) (i n : Nat) :
    lsfResidual s i n = ∑ st ∈ Finset.range n,
      if P.stLo s st ≤ i ∧ i < P.stHi s st then P.lspCb s st (lspIndex s st) (i - P.stLo s st) else 0 := by
  induction n with
  | zero => rfl
  | succ n ih => rw [lsfResidual, Finset.sum_range_succ, ih]

/-- R172 with its one shift after the sum as a floor division. -/
theorem lsfPred_eq (s : State) (sel i : Nat) :
    lsfPred s sel i = if P.lspPredMode s = 0 then P.lspMean s i
      else P.lspMean s i + (∑ j ∈ Finset.range (P.lspMaNp s),
        P.lspMaCoef s sel j i * elem ((s.wrk.lsfMaHist[j]?).getD []) i) / 2 ^ 15 := by
  rw [lsfPred, asr_eq_ediv, sumTo_eq_sum]
  rfl

theorem exec_lsfDec (s : State) : exec .lsfDec s = execLsfDec s := by
  rfl

/-- Settles O21: the three vectors are tables, and the sums of their entries are those of R171 and R172. -/
theorem lsfDecCoefficients : Obligations.LsfDecCoefficients := by
  intro s
  refine ⟨_, _, _, exec_lsfDec s, tab_length _ _, tab_length _ _, tab_length _ _, fun i hi => ⟨?_, ?_, ?_⟩⟩
  · rw [elem_tab hi, lsfResidual_eq_sum]
    rfl
  · rw [elem_tab hi, lsfPred_eq]
  · rw [elem_tab hi]

/-! ## LSF2LSP -/

theorem exec_lsf2lsp (s : State) : exec .lsf2lsp s = execLsf2lsp s := by
  rfl

/-- The stage enters the subframe loop, at LSP_INTERP where there is a subframe (R158). -/
theorem exec_lsf2lsp_of_lsf {s : State} {lsf : List Int} (hlsf : s.w.lsf = some lsf) (hnsf : 0 < P.nsf s) :
    exec .lsf2lsp s = .next ((s.setW { s.w with
      lspq := some (tab (P.order s) fun i => cosQ15 (elem lsf i)) }).goto .lspInterp 0 false) := by
  have hloop (w : Work) : (s.setW w).toSubframe 0 = (s.setW w).goto .lspInterp 0 false := if_pos hnsf
  rw [exec_lsf2lsp, execLsf2lsp, hlsf, need_some]
  exact congrArg Host.Outcome.next (hloop _)

/-! ## LSP_INTERP -/

/-- The interpolated value of two coefficients with weight `w` (R179). -/
def interpolate (w a b : Int) : Int := (w * a + (32768 - w) * b) / 2 ^ 15

/-- A weight in 0..32768 makes a convex combination, and the floor of one between two integers stays between them. -/
theorem interpolate_between {w : Int} (h0 : 0 ≤ w) (h1 : w ≤ 32768) (a b : Int) :
    min a b ≤ interpolate w a b ∧ interpolate w a b ≤ max a b := by
  have hw : 0 ≤ 32768 - w := by omega
  constructor
  · have ha : w * min a b ≤ w * a := mul_le_mul_of_nonneg_left (min_le_left a b) h0
    have hb : (32768 - w) * min a b ≤ (32768 - w) * b := mul_le_mul_of_nonneg_left (min_le_right a b) hw
    exact (Int.le_ediv_iff_mul_le (by norm_num)).mpr (by linarith)
  · have ha : w * a ≤ w * max a b := mul_le_mul_of_nonneg_left (le_max_left a b) h0
    have hb : (32768 - w) * b ≤ (32768 - w) * max a b := mul_le_mul_of_nonneg_left (le_max_right a b) hw
    have hle : interpolate w a b * 32768 ≤ w * a + (32768 - w) * b := Int.ediv_mul_le _ (by norm_num)
    linarith

@[simp] theorem interpolate_one (a b : Int) : interpolate 32768 a b = a := by
  rw [interpolate]; omega

@[simp] theorem interpolate_zero (a b : Int) : interpolate 0 a b = b := by
  rw [interpolate]; omega

theorem exec_lspInterp (s : State) : exec .lspInterp s = execLspInterp s := by
  rfl

theorem exec_lspInterp_of_lspq {s : State} {lspq : List Int} (hlspq : s.w.lspq = some lspq) :
    exec .lspInterp s = .next ((s.setW { s.w with lspi := some (tab (P.order s) fun i =>
      interpolate (P.interpW s s.sf) (elem lspq i) (elem s.wrk.prevLsp i)) }).goto .lsp2lpc s.sf false) := by
  rw [exec_lspInterp, execLspInterp, hlspq, need_some]
  simp only [asr_eq_ediv]
  rfl

/-- Settles O25: each stage writes a table of its rule's values, and the bounds are those of `interpolate`. -/
theorem lspInterpBounds : Obligations.LspInterpBounds := by
  refine fun s => ⟨fun lsf hlsf hnsf => ?_, fun lspq hlspq => ?_⟩
  · exact ⟨_, exec_lsf2lsp_of_lsf hlsf hnsf, tab_length _ _, fun i hi => elem_tab hi _⟩
  · refine ⟨_, exec_lspInterp_of_lspq hlspq, tab_length _ _, fun i hi => ?_⟩
    rw [elem_tab hi]
    refine ⟨rfl, fun hw => interpolate_between (by omega) (by omega) _ _, fun hw => ?_, fun hw => ?_⟩
    · rw [hw]; exact interpolate_one _ _
    · rw [hw]; exact interpolate_zero _ _

end Sys2Proof.Proofs
end

