-- ==== Sys2Proof/Proofs/LsfStab.lean ====
section
/-! LSF_STAB (R173, R174): the passes on lists are the in-place loops, and on a well-formed profile the vector they
leave is inside the bounds with every gap at least the minimum spacing. Pass 3 is pass 2 of the negated vector read from
its end, so what is said of pass 2 serves both. -/

namespace Sys2Proof.Proofs
open Sys2Proof Sys2Proof.Machine

/-! ## Array writes -/

@[simp] theorem put_self (x : Nat → Int) (i : Nat) (v : Int) : Spec.put x i v i = v := if_pos rfl

theorem put_of_ne {i j : Nat} (h : j ≠ i) (x : Nat → Int) (v : Int) : Spec.put x i v j = x j := if_neg h

/-- A write under a condition, element by element. -/
theorem ite_put_apply (c : Prop) [Decidable c] (x : Nat → Int) (i : Nat) (v : Int) (j : Nat) :
    (if c then Spec.put x i v else x) j = if j = i then (if c then v else x i) else x j := by
  by_cases hj : j = i
  · rw [hj, if_pos rfl, ite_apply, put_self]
  · rw [if_neg hj, ite_apply, put_of_ne hj, ite_self]

/-! ## Stretches of an array -/

/-- The elements `k .. k+n-1` of an array held as a function. -/
def stretch (x : Nat → Int) (k n : Nat) : List Int := (List.range' k n).map x

@[simp] theorem stretch_zero (x : Nat → Int) (k : Nat) : stretch x k 0 = [] := rfl

@[simp] theorem stretch_succ (x : Nat → Int) (k n : Nat) :
    stretch x k (n + 1) = x k :: stretch x (k + 1) n := rfl

theorem tab_eq_stretch (p : Nat) (x : Nat → Int) : tab p x = stretch x 0 p := by
  rw [tab, stretch, List.range_eq_range']

/-! ## Pass 1 -/

section
variable (d : Int) (x : Nat → Int)

/-- Turn `n + 1` of pass 1: what it leaves of the pair it looks at and of the other elements. -/
theorem stabScan_succ (n j : Nat) :
    Spec.stabScan d (n + 1) x j =
      let y := Spec.stabScan d n x
      let deficit := y n + d - y (n + 1)
      if 0 < deficit then
        if j = n then y n - deficit / 2 else if j = n + 1 then y (n + 1) + deficit / 2 else y j
      else y j := by
  simp only [Spec.stabScan]
  split
  · rcases (by omega : j = n ∨ j = n + 1 ∨ (j ≠ n ∧ j ≠ n + 1)) with rfl | rfl | ⟨h0, h1⟩
    · rw [put_of_ne (by omega), put_self, if_pos rfl]
    · rw [put_self, if_neg (by omega), if_pos rfl]
    · rw [put_of_ne h1, put_of_ne h0, if_neg h0, if_neg h1]
  · rfl

/-- Pass 1 has not come to an element above its index. -/
theorem stabScan_above {n j : Nat} (h : n < j) : Spec.stabScan d n x j = x j := by
  induction n with
  | zero => rfl
  | succ n ih =>
    rw [stabScan_succ, ← ih (by omega)]
    simp only [if_neg (show j ≠ n by omega), if_neg (show j ≠ n + 1 by omega), ite_self]

/-- Pass 1 does not come back to an element below its index. -/
theorem stabScan_below {n m j : Nat} (hj : j < n) (hm : n ≤ m) :
    Spec.stabScan d m x j = Spec.stabScan d n x j := by
  induction m, hm using Nat.le_induction with
  | base => rfl
  | succ m hm ih =>
    rw [stabScan_succ, ← ih]
    simp only [if_neg (show j ≠ m by omega), if_neg (show j ≠ m + 1 by omega), ite_self]

/-- The scan on a list, with the element before it as turn `k` left it, goes on as the loop does. -/
theorem pushApart_stretch (k n : Nat) :
    pushApart d (Spec.stabScan d k x k) (stretch x (k + 1) n) = stretch (Spec.stabScan d (k + n) x) k (n + 1) := by
  induction n generalizing k with
  | zero => rfl
  | succ n ih =>
    have hnext : x (k + 1) = Spec.stabScan d k x (k + 1) := (stabScan_above d x (by omega)).symm
    have hk : Spec.stabScan d (k + (n + 1)) x k = Spec.stabScan d (k + 1) x k :=
      stabScan_below d x (by omega) (by omega)
    have hrest := ih (k + 1)
    rw [show k + 1 + n = k + (n + 1) by omega] at hrest
    rw [stretch_succ x, stretch_succ _ k, hk, ← hrest, pushApart, hnext]
    simp only [stabScan_succ, asr_eq_ediv, pow_one]
    split
    · simp
    · rfl

/-- Pass 1 on a list is the loop of R173. -/
theorem stabPass1_tab (p : Nat) : stabPass1 d (tab p x) = tab p (Spec.stabScan d (p - 1) x) := by
  cases p with
  | zero => rfl
  | succ n =>
    have h := pushApart_stretch d x 0 n
    simp only [Nat.zero_add] at h
    rw [tab_eq_stretch, tab_eq_stretch, stretch_succ x]
    exact h

end

/-! ## Pass 2 -/

section
variable (d lower : Int) (x : Nat → Int)

/-- Turn `n` of pass 2 raises element `n` to the floor and leaves the others. -/
theorem stabFloor_succ_fst (n j : Nat) :
    (Spec.stabFloor d lower (n + 1) x).1 j =
      if j = n then max (Spec.stabFloor d lower n x).2 ((Spec.stabFloor d lower n x).1 n)
      else (Spec.stabFloor d lower n x).1 j := by
  simp only [Spec.stabFloor, ite_put_apply]
  refine if_congr Iff.rfl ?_ rfl
  omega

/-- The floor after turn `n` lies `d` above element `n`. -/
theorem stabFloor_succ_snd (n : Nat) :
    (Spec.stabFloor d lower (n + 1) x).2 = (Spec.stabFloor d lower (n + 1) x).1 n + d := rfl

/-- Pass 2 has not come to an element at its index or above. -/
theorem stabFloor_above {n j : Nat} (h : n ≤ j) : (Spec.stabFloor d lower n x).1 j = x j := by
  induction n with
  | zero => rfl
  | succ n ih => rw [stabFloor_succ_fst, if_neg (by omega), ih (by omega)]

/-- Pass 2 does not come back to an element below its index. -/
theorem stabFloor_below {n m j : Nat} (hj : j < n) (hm : n ≤ m) :
    (Spec.stabFloor d lower m x).1 j = (Spec.stabFloor d lower n x).1 j := by
  induction m, hm using Nat.le_induction with
  | base => rfl
  | succ m hm ih => rw [stabFloor_succ_fst, if_neg (by omega), ih]

/-- Element `n` after pass 2 is the larger of its old value and the floor that turn `n` finds. -/
theorem stabFloor_apply {n m : Nat} (h : n < m) :
    (Spec.stabFloor d lower m x).1 n = max (Spec.stabFloor d lower n x).2 (x n) := by
  rw [stabFloor_below d lower x (Nat.lt_succ_self n) h, stabFloor_succ_fst, if_pos rfl,
    stabFloor_above d lower x (Nat.le_refl n)]

/-- The floor that turn `n + 1` finds, from the element as the whole pass leaves it. -/
theorem stabFloor_snd {n m : Nat} (h : n < m) :
    (Spec.stabFloor d lower (n + 1) x).2 = (Spec.stabFloor d lower m x).1 n + d := by
  rw [stabFloor_succ_snd, stabFloor_below d lower x (Nat.lt_succ_self n) h]

/-- The pass on a list, with the floor as `k` turns left it, goes on as the loop does. -/
theorem stabPass2_stretch (k n : Nat) :
    stabPass2 d (Spec.stabFloor d lower k x).2 (stretch x k n) = stretch (Spec.stabFloor d lower (k + n) x).1 k n := by
  induction n generalizing k with
  | zero => rfl
  | succ n ih =>
    have hy : (if x k < (Spec.stabFloor d lower k x).2 then (Spec.stabFloor d lower k x).2 else x k)
        = (Spec.stabFloor d lower (k + (n + 1)) x).1 k := by
      rw [stabFloor_apply d lower x (by omega)]
      omega
    have hrest := ih (k + 1)
    rw [show k + 1 + n = k + (n + 1) by omega, stabFloor_snd d lower x (by omega : k < k + (n + 1))] at hrest
    rw [stretch_succ, stretch_succ, ← hrest, ← hy]
    rfl

/-- Pass 2 on a list is the loop of R173. -/
theorem stabPass2_tab (p : Nat) : stabPass2 d lower (tab p x) = tab p (Spec.stabFloor d lower p x).1 := by
  have h := stabPass2_stretch d lower x 0 p
  rw [Nat.zero_add] at h
  rw [tab_eq_stretch, tab_eq_stretch]
  exact h

end

/-! ## Pass 3, mirrored -/

/-- An array of `p` elements negated and read from its end. -/
def mirror (p : Nat) (x : Nat → Int) : Nat → Int := fun k => -x (p - 1 - k)

theorem mirror_apply (p k : Nat) (x : Nat → Int) : mirror p x k = -x (p - 1 - k) := rfl

theorem reverse_tab (p : Nat) (x : Nat → Int) : (tab p x).reverse = tab p fun k => x (p - 1 - k) := by
  rw [tab, ← List.map_reverse, List.range_eq_range', List.reverse_range', List.map_map, Nat.zero_add]
  rfl

theorem map_neg_tab (p : Nat) (x : Nat → Int) : (tab p x).map (fun v => -v) = tab p fun k => -x k := List.map_map

theorem map_neg_reverse_tab (p : Nat) (x : Nat → Int) :
    (tab p x).reverse.map (fun v => -v) = tab p (mirror p x) := by
  rw [reverse_tab, map_neg_tab]
  rfl

/-- On lists the ceiling from above is the floor from below of the negated elements. -/
theorem stabPass3_eq_neg (d upper : Int) (l : List Int) :
    stabPass3 d upper l = (stabPass2 d (-upper) (l.map fun v => -v)).map (fun v => -v) := by
  induction l generalizing upper with
  | nil => rfl
  | cons x l ih =>
    have hy : (if -x < -upper then -upper else -x) = -(if upper < x then upper else x) := by
      split <;> split <;> omega
    simp only [List.map_cons, stabPass2, stabPass3, hy, ih, neg_neg, neg_sub', sub_neg_eq_add]

section
variable (d upper : Int) (p : Nat) (x : Nat → Int)

/-- Turn `n` of pass 3 lowers element `p - 1 - n` to the ceiling and leaves the others. -/
theorem stabCeil_succ_fst (n j : Nat) :
    (Spec.stabCeil d upper p (n + 1) x).1 j =
      if j = p - 1 - n then min (Spec.stabCeil d upper p n x).2 ((Spec.stabCeil d upper p n x).1 (p - 1 - n))
      else (Spec.stabCeil d upper p n x).1 j := by
  simp only [Spec.stabCeil, ite_put_apply]
  refine if_congr Iff.rfl ?_ rfl
  omega

/-- The ceiling after turn `n` lies `d` below element `p - 1 - n`. -/
theorem stabCeil_succ_snd (n : Nat) :
    (Spec.stabCeil d upper p (n + 1) x).2 = (Spec.stabCeil d upper p (n + 1) x).1 (p - 1 - n) - d := rfl

/-- On arrays the loop of pass 3 is the loop of pass 2 on the mirrored array. -/
theorem stabCeil_mirror {n : Nat} (hn : n ≤ p) :
    (∀ j < p, (Spec.stabCeil d upper p n x).1 (p - 1 - j) = -(Spec.stabFloor d (-upper) n (mirror p x)).1 j)
      ∧ (Spec.stabCeil d upper p n x).2 = -(Spec.stabFloor d (-upper) n (mirror p x)).2 := by
  induction n with
  | zero => exact ⟨fun j _ => (neg_neg _).symm, (neg_neg _).symm⟩
  | succ n ih =>
    obtain ⟨helem, hceil⟩ := ih (by omega)
    have helem' : ∀ j < p, (Spec.stabCeil d upper p (n + 1) x).1 (p - 1 - j)
        = -(Spec.stabFloor d (-upper) (n + 1) (mirror p x)).1 j := fun j hj => by
      rw [stabCeil_succ_fst, stabFloor_succ_fst]
      by_cases hjn : j = n
      · rw [hjn, if_pos rfl, if_pos rfl, helem n (by omega), hceil, min_neg_neg]
      · rw [if_neg (by omega), if_neg hjn, helem j hj]
    refine ⟨helem', ?_⟩
    rw [stabCeil_succ_snd, stabFloor_succ_snd, helem' n (by omega)]
    omega

/-- An element after pass 3, from the other end. -/
theorem stabCeil_apply {i : Nat} (hi : i < p) :
    (Spec.stabCeil d upper p p x).1 i = mirror p (Spec.stabFloor d (-upper) p (mirror p x)).1 i := by
  have h := (stabCeil_mirror d upper p x (Nat.le_refl p)).1 (p - 1 - i) (by omega)
  rwa [show p - 1 - (p - 1 - i) = i by omega] at h

/-- Pass 3 on a list read from its end is the loop of R173. -/
theorem stabPass3_tab :
    (stabPass3 d upper (tab p x).reverse).reverse = tab p (Spec.stabCeil d upper p p x).1 := by
  rw [stabPass3_eq_neg, map_neg_reverse_tab, stabPass2_tab, ← List.map_reverse, map_neg_reverse_tab]
  exact tab_congr fun i hi => (stabCeil_apply d upper p x hi).symm

end

/-- The three passes on lists are the three loops of R173. -/
theorem stabilise_tab (d lower upper : Int) (p : Nat) (x : Nat → Int) :
    stabilise d lower upper (tab p x) = tab p (Spec.stab d lower upper p x) := by
  rw [stabilise, stabPass1_tab, stabPass2_tab, stabPass3_tab]
  rfl

/-! ## What the passes leave -/

section
variable {d lower : Int} {p : Nat} {x : Nat → Int}

theorem stabFloor_zero (hp : 0 < p) : (Spec.stabFloor d lower p x).1 0 = max lower (x 0) :=
  stabFloor_apply d lower x hp

theorem stabFloor_step {i : Nat} (hi : i + 1 < p) :
    (Spec.stabFloor d lower p x).1 (i + 1) = max ((Spec.stabFloor d lower p x).1 i + d) (x (i + 1)) := by
  rw [stabFloor_apply d lower x hi, stabFloor_snd d lower x (by omega : i < p)]

/-- After pass 2 element `i` has room for `i` gaps above the lower bound (R174). -/
theorem le_stabFloor {i : Nat} (hi : i < p) : lower + i * d ≤ (Spec.stabFloor d lower p x).1 i := by
  induction i with
  | zero =>
    rw [stabFloor_zero hi]
    simp
  | succ i ih =>
    have hprev := ih (by omega)
    rw [stabFloor_step hi]
    push_cast
    linarith [le_max_left ((Spec.stabFloor d lower p x).1 i + d) (x (i + 1))]

/-- Pass 2 keeps an upper bound that rises by `d` an element and starts above the lower bound. -/
theorem stabFloor_le {c : Int} (hc : lower ≤ c) (hx : ∀ k < p, x k ≤ c + k * d) {i : Nat} (hi : i < p) :
    (Spec.stabFloor d lower p x).1 i ≤ c + i * d := by
  induction i with
  | zero =>
    rw [stabFloor_zero hi]
    exact max_le (by simpa using hc) (hx 0 hi)
  | succ i ih =>
    have hprev := ih (by omega)
    rw [stabFloor_step hi]
    refine max_le ?_ (hx (i + 1) hi)
    push_cast
    linarith

end

section
variable {d lower upper : Int} {p : Nat} (x : Nat → Int)

/-- The last element is at most the upper bound (R174). -/
theorem stab_last_le (hp : 0 < p) : Spec.stab d lower upper p x (p - 1) ≤ upper := by
  have h : ∀ y, -upper ≤ (Spec.stabFloor d (-upper) p y).1 0 := fun y => by
    rw [stabFloor_zero hp]
    exact le_max_left _ _
  rw [Spec.stab, stabCeil_apply _ _ _ _ (by omega), mirror_apply, Nat.sub_self]
  linarith [h (mirror p (Spec.stabFloor d lower p (Spec.stabScan d (p - 1) x)).1)]

/-- Every gap is at least `d` (R174). -/
theorem stab_gap {i : Nat} (hi : i + 1 < p) :
    Spec.stab d lower upper p x i + d ≤ Spec.stab d lower upper p x (i + 1) := by
  have h : ∀ y, (Spec.stabFloor d (-upper) p y).1 (p - 1 - (i + 1)) + d
      ≤ (Spec.stabFloor d (-upper) p y).1 (p - 1 - i) := fun y => by
    rw [show p - 1 - i = p - 1 - (i + 1) + 1 by omega, stabFloor_step (by omega)]
    exact le_max_left _ _
  rw [Spec.stab, stabCeil_apply _ _ _ _ (by omega), stabCeil_apply _ _ _ _ hi, mirror_apply, mirror_apply]
  linarith [h (mirror p (Spec.stabFloor d lower p (Spec.stabScan d (p - 1) x)).1)]

/-- Where `p - 1` gaps have room between the bounds (check 0x61), the ceiling does not push the first element below the
lower bound (R174). -/
theorem le_stab_first (hp : 0 < p) (hroom : lower + (p - 1 : Nat) * d ≤ upper) :
    lower ≤ Spec.stab d lower upper p x 0 := by
  have hbound : ∀ k < p, mirror p (Spec.stabFloor d lower p (Spec.stabScan d (p - 1) x)).1 k
      ≤ -(lower + (p - 1 : Nat) * d) + k * d := fun k hk => by
    have hfloor := le_stabFloor (d := d) (lower := lower) (x := Spec.stabScan d (p - 1) x)
      (show p - 1 - k < p by omega)
    have hsub : ((p - 1 - k : Nat) : Int) = (p - 1 : Nat) - k := by omega
    rw [hsub, sub_mul] at hfloor
    rw [mirror_apply]
    linarith
  have h := stabFloor_le (neg_le_neg hroom) hbound (show p - 1 < p by omega)
  rw [Spec.stab, stabCeil_apply _ _ _ _ hp, mirror_apply, Nat.sub_zero]
  linarith

end

/-! ## The check that ends the stage -/

theorem gapsOk_iff_isChain (d : Int) (x : List Int) : gapsOk d x = true ↔ x.IsChain fun a b => d ≤ b - a := by
  induction x with
  | nil => simp [gapsOk]
  | cons a x ih =>
    cases x with
    | nil => simp [gapsOk]
    | cons b x =>
      rw [gapsOk, Bool.and_eq_true, decide_eq_true_eq, ih, List.isChain_cons_cons]

theorem gapsOk_iff (d : Int) (x : List Int) :
    gapsOk d x = true ↔ ∀ i : Nat, i + 1 < x.length → elem x i + d ≤ elem x (i + 1 : Nat) := by
  rw [gapsOk_iff_isChain, List.isChain_iff_getElem]
  refine forall₂_congr fun i hi => ?_
  rw [elem_eq_getElem hi, elem_eq_getElem (by omega : i < x.length)]
  omega

/-- The check of R173 is the invariant of R174. -/
theorem lsfStable_iff {s : State} {x : List Int} (hlen : x.length = P.order s) (hp : 1 ≤ P.order s) :
    lsfStable (P.minSpacing s) (P.lsfLower s) (P.lsfUpper s) x = true ↔ LsfOk s x := by
  have hlast : (P.order s : Int) - 1 = (P.order s - 1 : Nat) := by omega
  simp only [lsfStable, Bool.and_eq_true, decide_eq_true_eq, gapsOk_iff, hlen, hlast]
  exact ⟨fun ⟨⟨hlower, hupper⟩, hgaps⟩ => ⟨hlen, hlower, hgaps, hupper⟩,
    fun ⟨_, hlower, hgaps, hupper⟩ => ⟨⟨hlower, hupper⟩, hgaps⟩⟩

/-- The elements of a vector with the invariant ascend. -/
theorem elem_le_elem_of_lsfOk {s : State} {x : List Int} (h : LsfOk s x) {i j : Nat} (hij : i ≤ j)
    (hj : j < P.order s) : elem x i ≤ elem x j := by
  induction j, hij using Nat.le_induction with
  | base => exact le_refl _
  | succ j hij ih =>
    have hprev := ih (by omega)
    have hgap := h.gaps j hj
    omega

/-- A vector with the invariant lies inside the bounds. -/
theorem elem_bounds_of_lsfOk {s : State} {x : List Int} (h : LsfOk s x) {i : Nat} (hi : i < P.order s) :
    P.lsfLower s ≤ elem x i ∧ elem x i ≤ P.lsfUpper s :=
  ⟨h.lower.trans (elem_le_elem_of_lsfOk h (Nat.zero_le i) hi),
    (elem_le_elem_of_lsfOk h (by omega : i ≤ P.order s - 1) (by omega)).trans h.upper⟩

/-! ## What a well-formed profile secures -/

theorem checkHolds_of_profileOk {s : State} (h : profileOk s = true) {c : Nat} (hc : c < 0x8A) :
    checkHolds s c = true := by
  rw [profileOk, Option.isNone_iff_eq_none, failedCheck, List.find?_eq_none] at h
  simpa using h c (List.mem_range.mpr hc)

/-- Check 0x00. -/
theorem order_pos_of_profileOk {s : State} (h : profileOk s = true) : 1 ≤ P.order s := by
  have h0 : (inRange (P.order s) 2 s.caps.order && decide (P.order s % 2 = 0)) = true :=
    checkHolds_of_profileOk h (by norm_num : 0x00 < 0x8A)
  simp only [inRange, Bool.and_eq_true, decide_eq_true_eq] at h0
  omega

/-- Check 0x0B. -/
theorem lsfUpper_le_of_profileOk {s : State} (h : profileOk s = true) : P.lsfUpper s ≤ 32767 :=
  of_decide_eq_true (checkHolds_of_profileOk h (by norm_num : 0x0B < 0x8A))

/-- Check 0x61. -/
theorem lsf_room_of_profileOk {s : State} (h : profileOk s = true) :
    P.lsfLower s + (P.order s - 1) * P.minSpacing s ≤ P.lsfUpper s :=
  of_decide_eq_true (checkHolds_of_profileOk h (by norm_num : 0x61 < 0x8A))

/-! ## The stage -/

/-- R174: the three passes give the invariant. -/
theorem lsfOk_stab {s : State} (h : profileOk s = true) (x : Nat → Int) :
    LsfOk s (tab (P.order s) (Spec.stab (P.minSpacing s) (P.lsfLower s) (P.lsfUpper s) (P.order s) x)) := by
  have hp := order_pos_of_profileOk h
  have hroom : (P.lsfLower s : Int) + (P.order s - 1 : Nat) * P.minSpacing s ≤ P.lsfUpper s := by
    exact_mod_cast lsf_room_of_profileOk h
  constructor
  case length => exact tab_length _ _
  case lower =>
    have h0 := elem_tab hp (Spec.stab (P.minSpacing s) (P.lsfLower s) (P.lsfUpper s) (P.order s) x)
    exact (le_stab_first x hp hroom).trans_eq h0.symm
  case gaps =>
    intro i hi
    rw [elem_tab hi, elem_tab (by omega)]
    exact stab_gap x hi
  case upper =>
    rw [elem_tab (by omega)]
    exact stab_last_le x hp

theorem exec_lsfStab (s : State) : exec .lsfStab s = execLsfStab s := by
  rfl

/-- Where the check passes the stage writes the vector and goes on. -/
theorem exec_lsfStab_of_stable {s : State} {x : List Int} (hx : s.w.lsf = some x)
    (hstable : lsfStable (P.minSpacing s) (P.lsfLower s) (P.lsfUpper s)
      (stabilise (P.minSpacing s) (P.lsfLower s) (P.lsfUpper s) x) = true) :
    exec .lsfStab s = .next ((s.setW { s.w with
      lsf := some (stabilise (P.minSpacing s) (P.lsfLower s) (P.lsfUpper s) x) }).goto .lsf2lsp 0 false) := by
  rw [exec_lsfStab, execLsfStab, hx, need_some]
  exact if_pos hstable

/-- Settles O22: the operand's passes are the loops of the rule, what they leave has the invariant, and so the check
passes. -/
theorem lsfStabInvariant : Obligations.LsfStabInvariant := by
  intro s x hprof hx hlen
  have hpasses : stabilise (P.minSpacing s) (P.lsfLower s) (P.lsfUpper s) x = tab (P.order s)
      (Spec.stab (P.minSpacing s) (P.lsfLower s) (P.lsfUpper s) (P.order s) fun i => elem x i) := by
    rw [← stabilise_tab, ← eq_tab_elem hlen]
  have hok := lsfOk_stab hprof fun i => elem x i
  rw [← hpasses] at hok
  have hstable := (lsfStable_iff hok.length (order_pos_of_profileOk hprof)).mpr hok
  refine ⟨_, exec_lsfStab_of_stable hx hstable, hpasses, hok, fun i hi => ?_⟩
  have hupper := lsfUpper_le_of_profileOk hprof
  obtain ⟨hlo, hhi⟩ := elem_bounds_of_lsfOk hok hi
  omega

end Sys2Proof.Proofs
end

