-- ==== Sys2Proof/Proofs/LspPolynomials.lean ====
section
/-! LSP2LPC (R181, R182): the in-place recursion with its descending inner loop gives the coefficients of the recursion
by turns, and the predictor coefficients are their sums and differences. -/

namespace Sys2Proof.Proofs
open Sys2Proof Sys2Proof.Machine

/-! ## The array recursion -/

/-- The loop runs downwards, so after `n` turns the elements above `i - n` are new, each from the old values of the two
below it, and those at `i - n` and below are still the old ones (R182). -/
theorem polyInner_apply (q : Int) {i n : Nat} (hn : n ≤ i) (f : Nat → Int) (j : Nat) :
    Spec.polyInner q i n f j =
      if i - n < j ∧ j ≤ i then f j - (f (j - 1) * q / 2 ^ 14 - f (j - 2)) else f j := by
  induction n generalizing j with
  | zero => rw [if_neg (by omega)]; rfl
  | succ n ih =>
    have hold : ∀ k, k ≤ i - n → Spec.polyInner q i n f k = f k := fun k hk => by
      rw [ih (by omega), if_neg (by omega)]
    simp only [Spec.polyInner]
    by_cases hj : j = i - n
    · rw [hj, put_self, hold _ (by omega), hold _ (by omega), hold _ (by omega), if_pos (by omega)]
    · rw [put_of_ne hj, ih (by omega)]
      exact if_congr (by omega) rfl rfl

/-- One turn of the outer loop of R182, element by element, from the coefficients of the turn before. -/
theorem poly_succ_succ (lsp : Nat → Int) (o h : Nat) {j : Nat} (hj : j ≤ h + 2) :
    Spec.poly lsp o (h + 2) j =
      let q := lsp (o + 2 * (h + 2) - 2)
      let f := Spec.poly lsp o (h + 1)
      if j = 0 then f 0
      else if j = 1 then f 1 - q * 256
      else (if j = h + 2 then f h else f j) - (f (j - 1) * q / 2 ^ 14 - f (j - 2)) := by
  simp only [Spec.poly]
  rcases (by omega : j = 0 ∨ j = 1 ∨ 2 ≤ j) with rfl | rfl | h2
  · rw [put_of_ne (by omega), polyInner_apply _ (by omega), if_neg (by omega), put_of_ne (by omega), if_pos rfl]
  · rw [put_self, polyInner_apply _ (by omega), if_neg (by omega), put_of_ne (by omega), if_neg (by omega), if_pos rfl]
  · have hold : ∀ k < h + 2, Spec.put (Spec.poly lsp o (h + 1)) (h + 2) (Spec.poly lsp o (h + 1) h) k
        = Spec.poly lsp o (h + 1) k := fun k hk => put_of_ne (by omega) _ _
    rw [put_of_ne (by omega), polyInner_apply _ (by omega), if_pos (by omega), hold (j - 1) (by omega),
      hold (j - 2) (by omega), if_neg (by omega), if_neg (by omega)]
    rfl

/-! ## The recursion by turns -/

/-- One turn of the recursion by turns; the indices of the two coefficients below are natural numbers where they are
read. -/
theorem elem_lspPolyStep (q : Int) {h j : Nat} (hj : j ≤ h + 2) (f : List Int) :
    elem (lspPolyStep q (h + 2) f) j =
      if j = 0 then elem f 0
      else if j = 1 then elem f 1 - q * 256
      else (if j = h + 2 then elem f h else elem f j)
        - (elem f (j - 1 : Nat) * q / 2 ^ 14 - elem f (j - 2 : Nat)) := by
  have hh : ((h + 2 : Nat) : Int) - 2 = h := by omega
  rw [lspPolyStep, elem_tab (by omega)]
  simp only [asr_eq_ediv, hh]
  rcases (by omega : j = 0 ∨ j = 1 ∨ 2 ≤ j) with rfl | rfl | h2
  · rfl
  · rfl
  · rw [Int.ofNat_sub (by omega : 1 ≤ j), Int.ofNat_sub h2]
    rfl

/-- The coefficients by turns are those the array holds after the loops of R182. -/
theorem elem_lspPoly (lsp : List Int) (o : Nat) {h j : Nat} (hj : j ≤ h) :
    elem (lspPoly lsp o h) j = Spec.poly (fun n => elem lsp n) o h j := by
  induction h using Nat.twoStepInduction generalizing j with
  | zero =>
    obtain rfl : j = 0 := by omega
    rfl
  | one =>
    rcases (by omega : j = 0 ∨ j = 1) with rfl | rfl <;> rfl
  | more h _ ih =>
    have hq : (o : Int) + 2 * (h + 2) - 2 = (o + 2 * (h + 2) - 2 : Nat) := by omega
    have h0 := ih (j := 0) (by omega)
    have h1 := ih (j := 1) (by omega)
    rw [lspPoly, hq, elem_lspPolyStep _ hj, poly_succ_succ _ _ _ hj]
    rcases (by omega : j = 0 ∨ j = 1 ∨ 2 ≤ j) with rfl | rfl | h2
    · exact h0
    · exact congrArg (· - _) h1
    · simp only [if_neg (show j ≠ 0 by omega), if_neg (show j ≠ 1 by omega)]
      rw [ih (j := j - 1) (by omega), ih (j := j - 2) (by omega)]
      split
      · rw [ih (by omega)]
      · rw [ih (by omega)]

/-! ## The predictor coefficients -/

@[simp] theorem length_lsp2lpc (p : Nat) (lsp : List Int) : (lsp2lpc p lsp).length = p + 1 := tab_length _ _

theorem elem_lsp2lpc_zero (p : Nat) (lsp : List Int) : elem (lsp2lpc p lsp) 0 = 4096 :=
  elem_tab (Nat.succ_pos p) _

section
variable {p i : Nat} (hp : p % 2 = 0) (h1 : 1 ≤ i) (hi : i ≤ p / 2) (lsp : List Int)
include h1 hi

/-- The lower half of the coefficients are the sums (R181). -/
theorem elem_lsp2lpc_low :
    elem (lsp2lpc p lsp) i = sat16 ((elem (lspPoly lsp 0 (p / 2)) i + elem (lspPoly lsp 0 (p / 2)) (i - 1 : Nat) + 1024
      + (elem (lspPoly lsp 1 (p / 2)) i - elem (lspPoly lsp 1 (p / 2)) (i - 1 : Nat))) / 2 ^ 11) := by
  rw [lsp2lpc, elem_tab (by omega), if_neg (by omega), if_pos hi, asr_eq_ediv, Int.ofNat_sub h1]
  rfl

include hp

/-- The upper half of the coefficients, from the end, are the differences (R181). -/
theorem elem_lsp2lpc_high :
    elem (lsp2lpc p lsp) (p + 1 - i : Nat)
      = sat16 ((elem (lspPoly lsp 0 (p / 2)) i + elem (lspPoly lsp 0 (p / 2)) (i - 1 : Nat) + 1024
        - (elem (lspPoly lsp 1 (p / 2)) i - elem (lspPoly lsp 1 (p / 2)) (i - 1 : Nat))) / 2 ^ 11) := by
  have hback : p + 1 - (p + 1 - i) = i := by omega
  rw [lsp2lpc, elem_tab (by omega), if_neg (by omega), if_neg (by omega), asr_eq_ediv, hback, Int.ofNat_sub h1]
  rfl

end

/-! ## The stage -/

theorem exec_lsp2lpc (s : State) : exec .lsp2lpc s = execLsp2lpc s := by
  rfl

theorem exec_lsp2lpc_of_lspi {s : State} {lspi : List Int} {erased : Bool} (hlspi : s.w.lspi = some lspi)
    (herased : s.w.erased = some erased) :
    exec .lsp2lpc s = .next ((s.setW { s.w with lpc := some (lsp2lpc (P.order s) lspi) }).goto
      (pitchStage s erased s.sf) s.sf false) := by
  rw [exec_lsp2lpc, execLsp2lpc, hlspi, need_some, herased, need_some]

/-- Settles O26: the coefficients are the sums and differences of the polynomials by turns, which are those of the
in-place recursion. -/
theorem lsp2lpcPolynomials : Obligations.Lsp2lpcPolynomials := by
  intro s lspi erased hlspi herased _ heven
  refine ⟨_, exec_lsp2lpc_of_lspi hlspi herased, length_lsp2lpc _ _, elem_lsp2lpc_zero _ _, fun i h1 hi => ?_⟩
  have hprev : i - 1 ≤ P.order s / 2 := by omega
  simp only [← elem_lspPoly lspi _ hi, ← elem_lspPoly lspi _ hprev]
  exact ⟨elem_lsp2lpc_low h1 hi lspi, elem_lsp2lpc_high heven h1 hi lspi⟩

end Sys2Proof.Proofs
end

