-- ==== Sys2Proof/Proofs/AdaptiveCodebook.lean ====
section
/-! ACB_INTERP (R205, R207, R208): every tap lies before the sample under way, so what a turn reads of the vector being
built stands in the whole vector. -/

namespace Sys2Proof.Proofs
open Sys2Proof Sys2Proof.Machine

/-! ## The signal the interpolator sees -/

/-- Before sample `n` the signal of turn `n` is the past continued by the whole vector (R205). -/
theorem acbSource_buildUp (hist : List Int) (histLen : Nat) (f : List Int → Nat → Int) {n len : Nat} (hn : n ≤ len)
    {j : Int} (hj : j < n) :
    acbSource hist (buildUp f n) histLen j = Spec.past hist histLen (fun k => elem (buildUp f len) k) j := by
  unfold acbSource Spec.past
  split
  · rfl
  · have hnat : (j.toNat : Int) = j := by omega
    rw [← hnat, Int.toNat_natCast, elem_buildUp_prefix f (by omega) hn]

/-- The phase where R207 defines it. -/
theorem acbPhase_eq {s : State} {tFrac : Int} (h0 : 0 ≤ tFrac) (hres : 0 < P.pitchRes s) :
    acbPhase s tFrac = tFrac.toNat * (P.acbPrec s / P.pitchRes s) := by
  rw [acbPhase, natDiv_of_pos hres, Int.toNat_mul h0 (Int.natCast_nonneg _), Int.toNat_natCast]

/-! ## A sample -/

/-- Sample `n` of the finished vector, its taps read from the finished vector: a delay of at least the half length keeps
both lines of taps before `n` (R207, R208). -/
theorem elem_acbv {s : State} {tInt : Int} (hlag : (P.acbHalfLen s : Int) ≤ tInt) (fp : Nat) {n len : Nat}
    (hn : n < len) :
    let v := buildUp (acbSample s tInt fp) len
    let x := Spec.past s.wrk.excHist (P.histLen s) fun k => elem v k
    elem v n = sat16 ((0x4000 + ∑ i ∈ Finset.range (P.acbHalfLen s),
      (x ((n : Int) - tInt + i) * P.acbFilt s (i * P.acbPrec s + fp)
        + x ((n : Int) - tInt - (i + 1)) * P.acbFilt s ((i + 1) * P.acbPrec s - fp))) / 2 ^ 15) := by
  intro v x
  have hsource : ∀ j : Int, j < n →
      acbSource s.wrk.excHist (buildUp (acbSample s tInt fp) n) (P.histLen s) j = x j :=
    fun _ hj => acbSource_buildUp _ _ _ hn.le hj
  have htaps := sumTo_congr (n := P.acbHalfLen s) fun i hi =>
    congrArg₂ (fun a b => a * P.acbFilt s (i * P.acbPrec s + fp) + b * P.acbFilt s ((i + 1) * P.acbPrec s - fp))
      (hsource ((n : Int) - tInt + i) (by omega)) (hsource ((n : Int) - tInt - (i + 1)) (by omega))
  rw [elem_buildUp _ hn, acbSample, htaps, asr_eq_ediv, sumTo_eq_sum]

/-! ## The stage -/

/-- The fixed-codebook stage of an erased frame, or of a family that a rule gives one. -/
theorem fcbStage_eq_some {s : State} {erased : Bool} (h : erased = true ∨ P.fcbFamily s ≤ 3) :
    fcbStage s erased = some (if erased then .fcbConceal
      else if P.fcbFamily s = 0 then .fcbTrack else if P.fcbFamily s = 1 then .fcbGray
      else if P.fcbFamily s = 2 then .fcbBaseb else .fcbExpl) := by
  cases erased with
  | true => rfl
  | false =>
    have hfam : P.fcbFamily s ≤ 3 := h.resolve_left Bool.false_ne_true
    rcases (by omega : P.fcbFamily s = 0 ∨ P.fcbFamily s = 1 ∨ P.fcbFamily s = 2 ∨ P.fcbFamily s = 3)
      with hf | hf | hf | hf <;> simp [fcbStage, hf]

theorem exec_acbInterp (s : State) : exec .acbInterp s = execAcbInterp s := by
  rfl

theorem exec_acbInterp_of_delay {s : State} {tInt tFrac : Int} {erased : Bool} {nextStage : Instr}
    (hint : s.w.tInt = some tInt) (hfrac : s.w.tFrac = some tFrac) (herased : s.w.erased = some erased)
    (hstage : fcbStage s erased = some nextStage) :
    exec .acbInterp s = .next ((s.setW { s.w with
      acbv := some (buildUp (acbSample s tInt (acbPhase s tFrac)) (P.sfLen s)) }).goto nextStage s.sf false) := by
  rw [exec_acbInterp, execAcbInterp, hint, need_some, hfrac, need_some, herased, need_some, hstage]

/-- Settles O29: the vector is the one built sample by sample, and each of its samples is R207's sum over the vector
itself. -/
theorem acbInterpSamples : Obligations.AcbInterpSamples := by
  intro s tInt tFrac erased hint hfrac herased hlag h0 hfam
  refine ⟨_, exec_acbInterp_of_delay hint hfrac herased (fcbStage_eq_some hfam), buildUp_length _ _, ?_⟩
  intro hres n hn
  have hphase : acbPhase s tFrac = tFrac.toNat * (P.acbPrec s / P.pitchRes s) := acbPhase_eq h0 (by omega)
  rw [hphase]
  exact elem_acbv hlag _ hn

end Sys2Proof.Proofs
end

