-- ==== Sys2Proof/Proofs/FcbGray.lean ====
section
/-! The Gray code (R221): adding shifted copies of a number to it by `xor` is linear over two elements, so doing it twice
by one shift does it once by twice the shift, and the decoder's five shifts after the coder's add up to a shift by 32. -/

namespace Sys2Proof.Proofs
open Sys2Proof.Machine

/-! ## A number with its shifted copy added -/

/-- `x xor (x >>a k)`: the reflected binary Gray code for `k = 1`, and each assignment of `gray_decode` (R221). -/
def xorShift (k x : Nat) : Nat := x ^^^ (x >>> k)

theorem xorShift_xorShift (j k x : Nat) :
    xorShift j (xorShift k x) = x ^^^ (x >>> k) ^^^ (x >>> j) ^^^ (x >>> (k + j)) := by
  simp only [xorShift, Nat.shiftRight_xor_distrib, ← Nat.shiftRight_add, Nat.xor_assoc]

theorem xorShift_comm (j k x : Nat) : xorShift j (xorShift k x) = xorShift k (xorShift j x) := by
  rw [xorShift_xorShift, xorShift_xorShift, Nat.xor_right_comm x, Nat.add_comm]

/-- The two copies shifted by `k` cancel. -/
theorem xorShift_self (k x : Nat) : xorShift k (xorShift k x) = xorShift (k + k) x := by
  rw [xorShift_xorShift, Nat.xor_xor_cancel_right, xorShift]

theorem xorShift_eq_self {k x : Nat} (h : x < 2 ^ k) : xorShift k x = x := by
  rw [xorShift, Nat.shiftRight_eq_zero x k h, Nat.xor_zero]

theorem xorShift_lt {k w x : Nat} (h : x < 2 ^ w) : xorShift k x < 2 ^ w :=
  Nat.xor_lt_two_pow h ((Nat.shiftRight_le x k).trans_lt h)

/-! ## The decoder -/

theorem grayDecode_eq (g : Nat) :
    grayDecode g = xorShift 16 (xorShift 8 (xorShift 4 (xorShift 2 (xorShift 1 g)))) := rfl

/-- The coder's shift by 1 doubles at each of the decoder's shifts 1, 2, 4, 8 and 16, whatever the number's size. -/
theorem grayDecode_xorShift (b : Nat) : grayDecode (xorShift 1 b) = xorShift 32 b := by
  simp only [grayDecode_eq, xorShift_self]

theorem xorShift_grayDecode (g : Nat) : xorShift 1 (grayDecode g) = grayDecode (xorShift 1 g) := by
  simp only [grayDecode_eq, xorShift_comm 1]

theorem grayDecode_lt {g w : Nat} (h : g < 2 ^ w) : grayDecode g < 2 ^ w := by
  rw [grayDecode_eq]
  exact xorShift_lt (xorShift_lt (xorShift_lt (xorShift_lt (xorShift_lt h))))

/-- Settles O33: after the coder or before it, the decoder gives a shift by 32, which moves nothing into a number of 32
bits. -/
theorem grayInverse : Obligations.GrayInverse := by
  refine ⟨fun b hb => ?_, fun g hg => ?_, fun w _ g hg => grayDecode_lt hg⟩
  · exact (grayDecode_xorShift b).trans (xorShift_eq_self hb)
  · calc xorShift 1 (grayDecode g) = grayDecode (xorShift 1 g) := xorShift_grayDecode g
      _ = xorShift 32 g := grayDecode_xorShift g
      _ = g := xorShift_eq_self hg

end Sys2Proof.Proofs
end

