-- ==== Sys2Proof/Proofs/PowerCompare.lean ====
section
/-! The comparison behind `NUM.gainc` (R238): a pair stands for `m·2^e`, repeated squaring with cuts bounds a power from
either side, and so the decision between the bounds is the inequality of the powers. -/

namespace Sys2Proof.Proofs
open Sys2Proof Sys2Proof.Machine

/-! ## The number of a pair -/

/-- The number `m·2^e` that a pair `(m, e)` stands for. -/
def pairVal (x : Nat × Nat) : Nat := x.1 * 2 ^ x.2

/-- The pair of a product: the products of the numbers, the sums of the exponents. -/
theorem pairVal_mul (x y : Nat × Nat) : pairVal (x.1 * y.1, x.2 + y.2) = pairVal x * pairVal y := by
  simp only [pairVal, pow_add]
  ring

theorem pairVal_natMul (x : Nat × Nat) (n : Nat) : pairVal (x.1 * n, x.2) = pairVal x * n :=
  Nat.mul_right_comm ..

theorem pairVal_pos {x : Nat × Nat} : 0 < pairVal x ↔ 0 < x.1 := by
  simp [pairVal]

/-! ## The cuts -/

/-- Dropping the low `k` bits gives at most the number. -/
theorem pairVal_shiftRight_le (x : Nat × Nat) (k : Nat) : pairVal (x.1 >>> k, x.2 + k) ≤ pairVal x := by
  simp only [pairVal, Nat.shiftRight_eq_div_pow, Nat.add_comm x.2, pow_add, ← Nat.mul_assoc]
  exact Nat.mul_le_mul_right _ (Nat.div_mul_le_self ..)

/-- One more than the remaining bits gives at least the number. -/
theorem pairVal_le_shiftRight_succ (x : Nat × Nat) (k : Nat) : pairVal x ≤ pairVal (x.1 >>> k + 1, x.2 + k) := by
  simp only [pairVal, Nat.shiftRight_eq_div_pow, Nat.add_comm x.2, pow_add, ← Nat.mul_assoc]
  refine Nat.mul_le_mul_right _ (Nat.le_of_lt ?_)
  rw [Nat.mul_comm]
  exact Nat.lt_mul_div_succ _ (by positivity)

theorem pairVal_cutDown_le (x : Nat × Nat) : pairVal (cutDown x) ≤ pairVal x :=
  pairVal_shiftRight_le x (x.1.log2 + 1 - 256)

/-- Dropping bits below the leading one leaves a positive number. -/
theorem pairVal_shiftRight_pos {x : Nat × Nat} (h : 0 < pairVal x) {k : Nat} (hk : k ≤ x.1.log2) :
    0 < pairVal (x.1 >>> k, x.2 + k) := by
  have hbit : 2 ^ k ≤ x.1 := (Nat.le_log2 (pairVal_pos.mp h).ne').mp hk
  rw [pairVal_pos, Nat.shiftRight_eq_div_pow]
  exact Nat.div_pos hbit (Nat.two_pow_pos k)

theorem pairVal_cutDown_pos {x : Nat × Nat} (h : 0 < pairVal x) : 0 < pairVal (cutDown x) :=
  pairVal_shiftRight_pos h (by omega)

theorem pairVal_le_cutUp (x : Nat × Nat) : pairVal x ≤ pairVal (cutUp x) := by
  simp only [cutUp]
  split
  · exact le_rfl
  · exact pairVal_le_shiftRight_succ x _

/-! ## The comparison of two pairs -/

/-- A positive number reaches the power of two at its leading bit, and no number the next one. -/
theorem two_pow_le_pairVal {x : Nat × Nat} (h : 0 < pairVal x) : 2 ^ (x.1.log2 + x.2) ≤ pairVal x := by
  rw [pow_add]
  exact Nat.mul_le_mul_right _ (Nat.log2_self_le (pairVal_pos.mp h).ne')

theorem pairVal_lt_two_pow (x : Nat × Nat) : pairVal x < 2 ^ (x.1.log2 + x.2 + 1) := by
  rw [Nat.add_right_comm, pow_add]
  exact Nat.mul_lt_mul_of_pos_right Nat.lt_log2_self (by positivity)

/-- A leading bit at a lower position makes the smaller number. -/
theorem pairVal_lt_of_top_lt {x y : Nat × Nat} (hy : 0 < pairVal y)
    (h : x.1.log2 + x.2 < y.1.log2 + y.2) : pairVal x < pairVal y :=
  calc pairVal x < 2 ^ (x.1.log2 + x.2 + 1) := pairVal_lt_two_pow x
    _ ≤ 2 ^ (y.1.log2 + y.2) := Nat.pow_le_pow_right two_pos h
    _ ≤ pairVal y := two_pow_le_pairVal hy

/-- The bits compare as the numbers do once the common power of two is taken out. -/
theorem pairVal_eq_shiftLeft_mul {x : Nat × Nat} {k : Nat} (h : k ≤ x.2) :
    pairVal x = x.1 <<< (x.2 - k) * 2 ^ k := by
  rw [Nat.shiftLeft_eq, Nat.mul_assoc, ← pow_add, Nat.sub_add_cancel h, pairVal]

theorem pairLe_iff {x y : Nat × Nat} (hx : 0 < pairVal x) (hy : 0 < pairVal y) :
    pairLe x y = true ↔ pairVal x ≤ pairVal y := by
  unfold pairLe
  split
  case isTrue h => exact iff_of_true rfl (pairVal_lt_of_top_lt hy h).le
  case isFalse =>
    split
    case isTrue h => exact iff_of_false Bool.false_ne_true (pairVal_lt_of_top_lt hx h).not_ge
    case isFalse =>
      rw [decide_eq_true_iff, pairVal_eq_shiftLeft_mul (min_le_left x.2 y.2),
        pairVal_eq_shiftLeft_mul (min_le_right x.2 y.2)]
      exact (Nat.mul_le_mul_right_iff (by positivity)).symm

/-! ## Bounds of a power -/

/-- One turn of repeated squaring. -/
theorem pow_eq_sq_half_mul (x n : Nat) :
    x ^ n = if n % 2 = 1 then x ^ (n / 2) * x ^ (n / 2) * x else x ^ (n / 2) * x ^ (n / 2) := by
  split
  · rw [← pow_add, ← pow_succ]
    congr 1
    omega
  · rw [← pow_add]
    congr 1
    omega

/-- The square of the half power, cut from below: where a turn of `powDown` begins. -/
def squareDown (x f n : Nat) : Nat × Nat :=
  cutDown ((powDown x f (n / 2)).1 * (powDown x f (n / 2)).1, (powDown x f (n / 2)).2 + (powDown x f (n / 2)).2)

/-- The square of the half power, cut from above: where a turn of `powUp` begins. -/
def squareUp (x f n : Nat) : Nat × Nat :=
  cutUp ((powUp x f (n / 2)).1 * (powUp x f (n / 2)).1, (powUp x f (n / 2)).2 + (powUp x f (n / 2)).2)

theorem powDown_succ (x f n : Nat) : powDown x (f + 1) n =
    if n % 2 = 1 then cutDown ((squareDown x f n).1 * x, (squareDown x f n).2) else squareDown x f n := rfl

theorem powUp_succ (x f n : Nat) : powUp x (f + 1) n =
    if n % 2 = 1 then cutUp ((squareUp x f n).1 * x, (squareUp x f n).2) else squareUp x f n := rfl

theorem powDown_pos {x : Nat} (hx : 0 < x) (f n : Nat) : 0 < pairVal (powDown x f n) := by
  induction f generalizing n with
  | zero => simp [powDown, pairVal]
  | succ f ih =>
    have hsq : 0 < pairVal (squareDown x f n) :=
      pairVal_cutDown_pos (by rw [pairVal_mul]; exact Nat.mul_pos (ih _) (ih _))
    rw [powDown_succ]
    split
    · exact pairVal_cutDown_pos (by rw [pairVal_natMul]; exact Nat.mul_pos hsq hx)
    · exact hsq

theorem powDown_le (x : Nat) {f n : Nat} (hn : n < 2 ^ f) : pairVal (powDown x f n) ≤ x ^ n := by
  induction f generalizing n with
  | zero =>
    obtain rfl : n = 0 := by omega
    exact le_rfl
  | succ f ih =>
    have hhalf := ih (n := n / 2) (by omega)
    have hsq : pairVal (squareDown x f n) ≤ x ^ (n / 2) * x ^ (n / 2) :=
      (pairVal_cutDown_le _).trans (by rw [pairVal_mul]; exact Nat.mul_le_mul hhalf hhalf)
    rw [pow_eq_sq_half_mul, powDown_succ]
    split
    · exact (pairVal_cutDown_le _).trans (by rw [pairVal_natMul]; exact Nat.mul_le_mul_right x hsq)
    · exact hsq

theorem le_powUp (x : Nat) {f n : Nat} (hn : n < 2 ^ f) : x ^ n ≤ pairVal (powUp x f n) := by
  induction f generalizing n with
  | zero =>
    obtain rfl : n = 0 := by omega
    exact le_rfl
  | succ f ih =>
    have hhalf := ih (n := n / 2) (by omega)
    have hsq : x ^ (n / 2) * x ^ (n / 2) ≤ pairVal (squareUp x f n) :=
      le_trans (by rw [pairVal_mul]; exact Nat.mul_le_mul hhalf hhalf) (pairVal_le_cutUp _)
    rw [pow_eq_sq_half_mul, powUp_succ]
    split
    · exact le_trans (by rw [pairVal_natMul]; exact Nat.mul_le_mul_right x hsq) (pairVal_le_cutUp _)
    · exact hsq

/-! ## The comparison of two products of powers -/

/-- The lower bound of `a^n · 10^k` that `powerLe` compares. -/
def productDown (a f n k : Nat) : Nat × Nat :=
  ((powDown a f n).1 * (powDown 10 (k.log2 + 1) k).1, (powDown a f n).2 + (powDown 10 (k.log2 + 1) k).2)

/-- The upper bound of `a^n · 10^k` that `powerLe` compares. -/
def productUp (a f n k : Nat) : Nat × Nat :=
  ((powUp a f n).1 * (powUp 10 (k.log2 + 1) k).1, (powUp a f n).2 + (powUp 10 (k.log2 + 1) k).2)

theorem productDown_pos {a : Nat} (ha : 0 < a) (f n k : Nat) : 0 < pairVal (productDown a f n k) := by
  rw [productDown, pairVal_mul]
  exact Nat.mul_pos (powDown_pos ha f n) (powDown_pos (by decide) _ k)

section
variable {a f n : Nat} (hn : n < 2 ^ f) (k : Nat)
include hn

theorem productDown_le : pairVal (productDown a f n k) ≤ a ^ n * 10 ^ k := by
  rw [productDown, pairVal_mul]
  exact Nat.mul_le_mul (powDown_le a hn) (powDown_le 10 Nat.lt_log2_self)

theorem le_productUp : a ^ n * 10 ^ k ≤ pairVal (productUp a f n k) := by
  rw [productUp, pairVal_mul]
  exact Nat.mul_le_mul (le_powUp a hn) (le_powUp 10 Nat.lt_log2_self)

theorem productUp_pos (ha : 0 < a) : 0 < pairVal (productUp a f n k) :=
  lt_of_lt_of_le (by positivity) (le_productUp hn k)

end

theorem gainDen_lt : gainDen < 2 ^ 27 := by norm_num [gainDen]

theorem powerLe_eq (a b ka kb : Nat) : powerLe a b ka kb =
    if pairLe (productUp a 27 gainDen ka) (productDown b 27 gainDen kb) then true
    else if pairLe (productDown a 27 gainDen ka) (productUp b 27 gainDen kb) then
      decide (a ^ gainDen * 10 ^ ka ≤ b ^ gainDen * 10 ^ kb)
    else false := rfl

/-- Each bound decides only what it proves, so the answer is that of the powers themselves (R238). -/
theorem powerLe_iff {a b : Nat} (ha : 0 < a) (hb : 0 < b) (ka kb : Nat) :
    powerLe a b ka kb = true ↔ a ^ gainDen * 10 ^ ka ≤ b ^ gainDen * 10 ^ kb := by
  have haUp := le_productUp (a := a) gainDen_lt ka
  have hbUp := le_productUp (a := b) gainDen_lt kb
  have haLo := productDown_le (a := a) gainDen_lt ka
  have hbLo := productDown_le (a := b) gainDen_lt kb
  rw [powerLe_eq]
  simp only [pairLe_iff (productUp_pos gainDen_lt ka ha) (productDown_pos hb _ _ kb),
    pairLe_iff (productDown_pos ha _ _ ka) (productUp_pos gainDen_lt kb hb)]
  split
  case isTrue h => exact iff_of_true rfl (haUp.trans (h.trans hbLo))
  case isFalse =>
    split
    case isTrue => exact decide_eq_true_iff
    case isFalse h => exact iff_of_false Bool.false_ne_true fun hle => h (haLo.trans (hle.trans hbUp))

end Sys2Proof.Proofs
end

