-- ==== Sys2Proof/Proofs/GainStage.lean ====
section
/-! The gain stage (R237) and its two numeric functions (R238, R240): each comparison a search makes is that of a whole
number with the rule's real number, so the search finds the clipped floor. -/

namespace Sys2Proof.Proofs
open Sys2Proof Sys2Proof.Machine

/-! ## The search and the floor -/

/-- The bit-by-bit search for the largest `m - off` not above `v` clips `v` to the searched range. -/
theorem search_eq_clip {p : Nat → Bool} {off v : Int} (hp : ∀ m : Nat, p m = true ↔ (m : Int) - off ≤ v) (k : Nat) :
    (search p k 0 : Int) - off = max (-off) (min (2 ^ k - 1 - off) v) := by
  have hdown : ∀ a b, a ≤ b → p b = true → p a = true := fun a b hab hb => by
    rw [hp] at hb ⊢
    omega
  obtain ⟨_, hlt, hfound, hmax⟩ := search_spec hdown k 0
  have hpow : ((2 ^ k : Nat) : Int) = 2 ^ k := by push_cast; rfl
  have hbest := hmax (min (2 ^ k - 1) (v + off).toNat) (by omega)
  simp only [hp] at hfound hbest
  omega

/-! ## Powers of ten -/

/-- Whichever sign the exponent has, one of the two natural powers is 1. -/
theorem ten_zpow_mul_pow (k : Int) : (10 : ℝ) ^ k * 10 ^ (-k).toNat = 10 ^ k.toNat := by
  rw [← zpow_natCast, ← zpow_natCast, ← zpow_add₀ (by norm_num)]
  congr 1
  omega

/-- An inequality of whole numbers decides one with a power of ten of either sign. -/
theorem mul_pow_le_iff_le_mul_zpow (a b : Nat) (k : Int) :
    a * 10 ^ (-k).toNat ≤ b * 10 ^ k.toNat ↔ (a : ℝ) ≤ b * 10 ^ k := by
  rw [← mul_le_mul_iff_of_pos_right (show (0 : ℝ) < 10 ^ (-k).toNat by positivity), mul_assoc, ten_zpow_mul_pow]
  exact_mod_cast Iff.rfl

theorem ten_rpow_div_pow (e : Int) {n : Nat} (hn : n ≠ 0) : ((10 : ℝ) ^ ((e : ℝ) / n)) ^ n = 10 ^ e := by
  rw [← Real.rpow_natCast, ← Real.rpow_mul (by norm_num), div_mul_cancel₀ _ (by exact_mod_cast hn),
    Real.rpow_intCast]

theorem ten_rpow_div_of_dvd {e : Int} {n : Nat} (hn : n ≠ 0) (h : (n : Int) ∣ e) :
    (10 : ℝ) ^ ((e : ℝ) / n) = 10 ^ (e / n) := by
  rw [← Real.rpow_intCast, Int.cast_div h (by exact_mod_cast hn), Int.cast_natCast]

/-! ## The gain (R238) -/

theorem gainDen_ne_zero : gainDen ≠ 0 := by decide

/-- The comparison of R238, decided in whole numbers by raising both sides to the denominator of the exponent. -/
theorem scaledLe_iff (a b : Nat) (e : Int) :
    scaledLe a b e = true ↔ (a : ℝ) ≤ b * (10 : ℝ) ^ ((e : ℝ) / gainDen) := by
  unfold scaledLe
  split
  case isTrue ha => exact iff_of_true rfl (by rw [ha, Nat.cast_zero]; positivity)
  case isFalse ha =>
    split
    case isTrue hb =>
      refine iff_of_false Bool.false_ne_true ?_
      rw [hb, Nat.cast_zero, zero_mul, not_le]
      exact_mod_cast Nat.pos_of_ne_zero ha
    case isFalse hb =>
      split
      case isTrue he =>
        rw [decide_eq_true_iff, mul_pow_le_iff_le_mul_zpow,
          ten_rpow_div_of_dvd gainDen_ne_zero (Int.dvd_of_emod_eq_zero he)]
      case isFalse =>
        rw [powerLe_iff (Nat.pos_of_ne_zero ha) (Nat.pos_of_ne_zero hb), mul_pow_le_iff_le_mul_zpow,
          Nat.cast_pow, Nat.cast_pow, ← ten_rpow_div_pow e gainDen_ne_zero, ← mul_pow]
        exact pow_le_pow_iff_left₀ (by positivity) (by positivity) gainDen_ne_zero

/-- The exponent of the squared comparison is twice that of the rule. -/
theorem ten_rpow_gain_sq (e : Int) :
    ((10 : ℝ) ^ ((e : ℝ) / (20 * 2 ^ 23))) ^ 2 = 10 ^ ((e : ℝ) / gainDen) := by
  rw [← Real.rpow_natCast, ← Real.rpow_mul (by norm_num)]
  congr 1
  norm_num [gainDen]
  ring

/-- What the search asks of a number: that it is not above `x` of R238. -/
theorem gaincFits_iff (corr ss len g : Nat) (e : Int) :
    gaincFits corr ss len e g = true ↔ (g : ℝ) ≤ if 0 < ss then
        4 * (corr : ℝ) * (10 : ℝ) ^ ((e : ℝ) / (20 * 2 ^ 23)) * Real.sqrt len / Real.sqrt ss
      else (corr : ℝ) * (10 : ℝ) ^ ((e : ℝ) / (20 * 2 ^ 23)) / 2048 := by
  unfold gaincFits
  by_cases hss : ss = 0
  · rw [if_pos hss, if_neg (by omega), scaledLe_iff, ← ten_rpow_gain_sq, le_div_iff₀ (by norm_num)]
    refine Iff.trans ?_ (sq_le_sq₀ (by positivity) (by positivity))
    push_cast
    ring_nf
  · have hpos : (0 : ℝ) < ss := by exact_mod_cast Nat.pos_of_ne_zero hss
    rw [if_neg hss, if_pos (by omega), scaledLe_iff, ← ten_rpow_gain_sq, le_div_iff₀ (Real.sqrt_pos.mpr hpos)]
    refine Iff.trans ?_ (sq_le_sq₀ (by positivity) (by positivity))
    simp only [mul_pow, Real.sq_sqrt (Nat.cast_nonneg _)]
    push_cast
    ring_nf

/-- Settles O39: the search over 15 bits clips the floor of `x` to 0..32767. -/
theorem gaincExact : Obligations.GaincExact := by
  intro corr ss len e _
  have hfits (g : Nat) := (gaincFits_iff corr ss len g e).trans Int.le_floor.symm
  have hclip := search_eq_clip (off := 0) (by simpa using hfits) 15
  simpa [gainc] using hclip

/-! ## The log-energy (R240) -/

/-- A multiple of a quotient's logarithm, compared in whole numbers by raising ten to both sides. -/
theorem le_mul_logb_div_iff {a b : Nat} (ha : 0 < a) (hb : 0 < b) (n : Nat) (z : Int) :
    (z : ℝ) ≤ n * Real.logb 10 ((a : ℝ) / b) ↔ b ^ n * 10 ^ z.toNat ≤ a ^ n * 10 ^ (-z).toNat := by
  have hint := mul_pow_le_iff_le_mul_zpow (b ^ n) (a ^ n) (-z)
  rw [neg_neg, Nat.cast_pow, Nat.cast_pow] at hint
  have hpos : (0 : ℝ) < ((a : ℝ) / b) ^ n := by positivity
  rw [hint, ← Real.logb_pow, Real.le_logb_iff_rpow_le (by norm_num) hpos, Real.rpow_intCast, div_pow,
    le_div_iff₀ (by positivity), zpow_neg, ← div_eq_mul_inv, le_div_iff₀ (by positivity), mul_comm]

/-- What the search asks of a number: that 32768 less is not above the rule's logarithm. -/
theorem loggainFits_iff {corr : Nat} (h : 0 < corr) (m : Nat) :
    loggainFits corr m = true ↔ (((m : Int) - 32768 : Int) : ℝ) ≤ 1024 * 20 * Real.logb 10 ((corr : ℝ) / 4096) := by
  have hup : m - 32768 = ((m : Int) - 32768).toNat := by omega
  have hdown : 32768 - m = (-((m : Int) - 32768)).toNat := by omega
  have hlog := le_mul_logb_div_iff h (show 0 < 4096 by decide) 20480 ((m : Int) - 32768)
  rw [loggainFits, decide_eq_true_iff, hup, hdown, Nat.mul_comm, ← hlog]
  norm_num

theorem loggain_of_nonpos {corr : Int} (h : corr ≤ 0) : loggain corr = -32768 := if_pos h

/-- Settles O40: the search over 16 bits saturates the floor of the logarithm. -/
theorem loggainExact : Obligations.LoggainExact := by
  refine fun corr => ⟨loggain_of_nonpos, fun hpos => ?_⟩
  lift corr to Nat using hpos.le
  have hfits (m : Nat) := (loggainFits_iff (Int.natCast_pos.mp hpos) m).trans Int.le_floor.symm
  rw [loggain, if_neg (by omega), Int.toNat_natCast, search_eq_clip hfits 16]
  rfl

/-! ## The stage (R237) -/

theorem exec_gainDec (s : State) : exec .gainDec s = execGainDec s := by
  rfl

/-- The pitch gain in the two gain modes. -/
theorem decodedGp_eq {s : State} {b : Nat}
    (h : (P.gainMode s = 0 ∧ b = F.gainIdxA s s.sf) ∨ (P.gainMode s = 1 ∧ b = F.gainIdxB s s.sf)) :
    decodedGp s = some (P.gainGp s b) := by
  rcases h with ⟨hmode, rfl⟩ | ⟨hmode, rfl⟩ <;> simp only [decodedGp, hmode]

theorem predictedEnergy_eq (s : State) : predictedEnergy s =
    P.meanEnergy s * 1024 + ∑ i ∈ Finset.range (P.maOrder s), elem s.wrk.energyHist i * P.maCoef s i := by
  rw [predictedEnergy, sumTo_eq_sum]

theorem sumSquares_eq (n : Nat) (x : List Int) :
    sumSquares n x = ∑ i ∈ Finset.range n, elem x i * elem x i := sumTo_eq_sum ..

/-- Settles O38: the index of the gain mode selects the pitch gain, and the two sums are `Finset` sums. -/
theorem gainDecResults : Obligations.GainDecResults := by
  intro s fcv b hfcv hb
  rw [exec_gainDec, execGainDec, hfcv, need_some, decodedGp_eq hb, predictedEnergy_eq, sumSquares_eq]

end Sys2Proof.Proofs
end

