-- ==== Sys2Proof/Proofs/Excitation.lean ====
section
/-! FCB_BUILD (R252) and EXC_MIX (R259). In the dense recursion an element is read one lag back, so it stands in the
whole vector as it stood in the part already written; in the repeat loop every turn that goes on moves the position up
inside the subframe, so the model's turn count never cuts the rule's loop short. -/

namespace Sys2Proof.Proofs
open Sys2Proof Sys2Proof.Machine

/-! ## The pulses added in pulse order (modes 0 and 1) -/

@[simp] theorem length_addAt (v : List Int) (x : Nat) (y : Int) : (addAt v x y).length = v.length := List.length_set

theorem length_addPulses (v : List Int) (pos : List Nat) (amp : List Int) :
    (addPulses v pos amp).length = v.length := by
  fun_induction addPulses v pos amp with
  | case1 v x xs y ys ih => rw [ih, length_addAt]
  | case2 v => rfl

/-- The model's loop over two lists is the rule's over the pulses. -/
theorem addPulses_eq_spec (v : List Int) (pos : List Nat) (amp : List Int) :
    addPulses v pos amp = Spec.addPulses v (pos.zip amp) := by
  induction pos generalizing v amp with
  | nil => cases amp <;> rfl
  | cons x xs ih =>
    cases amp with
    | nil => rfl
    | cons y ys => exact ih (addAt v x y) ys

/-! ## The dense recursion (mode 1) -/

/-- Element `i` of the sharpened vector, its earlier element read from the finished vector: with a lag of at least 1 it
was written before turn `i`. -/
theorem elem_sharpenDense (v : List Int) {lag : Int} (beta : Int) (hlag : 1 ≤ lag) {i n : Nat} (hi : i < n) :
    elem (sharpenDense v lag beta n) i = if (i : Int) < lag then elem v i
      else sat16 (elem v i + beta * elem (sharpenDense v lag beta n) ((i : Int) - lag) / 2 ^ 14) := by
  rw [sharpenDense, elem_buildUp _ hi]
  split
  · rfl
  · obtain ⟨j, hj⟩ : ∃ j : Nat, (i : Int) - lag = j := Int.eq_ofNat_of_zero_le (by omega)
    rw [asr_eq_ediv, hj, elem_buildUp_prefix _ (by omega) hi.le]

/-! ## The repeat loop (mode 2) -/

theorem length_repeatPulse (lag : Nat) (beta : Int) (masked : Bool) (len fuel : Nat) (v : List Int) (x : Nat)
    (y : Int) : (repeatPulse lag beta masked len fuel v x y).length = v.length := by
  induction fuel generalizing v x y with
  | zero => rfl
  | succ fuel ih =>
    rw [repeatPulse]
    split_ifs <;> simp [ih]

theorem length_repeatPulses (sp : SparseVec) (len k : Nat) (v : List Int) (pos : List Nat) (amp : List Int) :
    (repeatPulses sp len k v pos amp).length = v.length := by
  fun_induction repeatPulses sp len k v pos amp with
  | case1 k v x xs y ys ih => rw [ih, length_repeatPulse]
  | case2 k v => rfl

/-- The model's loop is a run of the rule's: a turn that goes on raises the position by at least 1, so as many turns as
there are positions from `x` on are enough. -/
theorem pulseRun_repeatPulse {len : Nat} {lag : Int} (beta : Int) (masked : Bool) (hlag : 1 ≤ lag) {fuel x : Nat}
    (hx : x < len) (hfuel : len ≤ x + fuel) (v : List Int) (y : Int) :
    Spec.PulseRun len lag beta masked v x y (repeatPulse lag.toNat beta masked len fuel v x y) := by
  induction fuel generalizing v x y with
  | zero => omega
  | succ fuel ih =>
    rw [repeatPulse]
    split_ifs with hmask hend
    · exact .masked v x y hmask
    · exact .ended v x y (Bool.eq_false_of_not_eq_true hmask) (by omega)
    · refine .again v x (x + lag.toNat) y _ (Bool.eq_false_of_not_eq_true hmask) (by omega) (by omega) ?_
      rw [← asr_eq_ediv]
      exact ih (by omega) (by omega) (addAt v x y) _

/-- Every pulse inside the subframe, from pulse `k` on. -/
theorem pulsesRun_repeatPulses {sp : SparseVec} {len : Nat} (hlag : 1 ≤ sp.lag) (k : Nat) (v : List Int)
    {xs : List Nat} {ys : List Int} (hlen : xs.length = ys.length) (hxs : ∀ x ∈ xs, x < len) :
    Spec.PulsesRun len sp.lag sp.fac sp.mask k v xs ys (repeatPulses sp len k v xs ys) := by
  induction xs generalizing k v ys with
  | nil =>
    obtain rfl := List.length_eq_zero_iff.mp hlen.symm
    exact .done k v
  | cons x xs ih =>
    obtain ⟨y, ys, rfl⟩ := List.exists_cons_of_length_eq_add_one hlen.symm
    obtain ⟨hx, hxs⟩ := List.forall_mem_cons.mp hxs
    exact .pulse k v _ _ x xs y ys (pulseRun_repeatPulse sp.fac _ hlag hx (by omega) v y)
      (ih (k + 1) _ (Nat.succ.inj hlen) hxs)

/-! ## FCB_BUILD -/

/-- The vector has the subframe's length in every mode. -/
@[simp] theorem length_denseVector (mode : Nat) (sp : SparseVec) (len : Nat) :
    (denseVector mode sp len).length = len := by
  unfold denseVector
  split
  · rw [length_addPulses, zeros, List.length_replicate]
  · exact buildUp_length _ _
  · rw [length_repeatPulses, zeros, List.length_replicate]

theorem sparseVec_ok_iff (sp : SparseVec) (len : Nat) :
    sp.ok len = true ↔ sp.pos.length = sp.n ∧ sp.amp.length = sp.n ∧ ∀ x ∈ sp.pos, x < len := by
  simp [SparseVec.ok, and_assoc]

theorem exec_fcbBuild (s : State) : exec .fcbBuild s = execFcbBuild s := by
  rfl

theorem exec_fcbBuild_of_sp {s : State} {sp : SparseVec} {erased : Bool} (hsp : s.w.sp = some sp)
    (herased : s.w.erased = some erased) (hok : sp.ok (P.sfLen s) = true) (hmode : P.sharpMode s ≤ 2)
    (hlag : P.sharpMode s ≠ 0 → 1 ≤ sp.lag) :
    exec .fcbBuild s = .next ((s.setW { s.w with fcv := some (denseVector (P.sharpMode s) sp (P.sfLen s)) }).goto
      (gainStage erased) s.sf false) := by
  have hlag' : ¬(P.sharpMode s ≠ 0 ∧ sp.lag < 1) := fun ⟨hsharp, hlt⟩ => absurd (hlag hsharp) (by omega)
  rw [exec_fcbBuild, execFcbBuild, hsp, need_some, herased, need_some, hok, if_neg (by decide), if_neg (by omega),
    if_neg hlag']

/-- Settles O34: the vector is the one of the profile's mode, and each mode's vector is what its loop in R252 leaves. -/
theorem fcbBuildModes : Obligations.FcbBuildModes := by
  intro s sp erased hsp herased hpos hamp hinside hmode hlag
  have hok := (sparseVec_ok_iff sp (P.sfLen s)).mpr ⟨hpos, hamp, hinside⟩
  have hpulses : addPulses (zeros (P.sfLen s)) sp.pos sp.amp
      = Spec.addPulses (List.replicate (P.sfLen s) 0) (sp.pos.zip sp.amp) := addPulses_eq_spec _ _ _
  refine ⟨_, _, exec_fcbBuild_of_sp hsp herased hok hmode hlag, length_denseVector _ _ _, rfl, fun h0 => ?_,
    fun h1 i hi => ?_, fun h2 => ?_⟩
  · rw [h0, denseVector, hpulses]
  · rw [h1, denseVector, hpulses]
    exact elem_sharpenDense _ sp.fac (hlag (by omega)) hi
  · rw [h2]
    exact pulsesRun_repeatPulses (hlag (by omega)) 0 _ (hpos.trans hamp.symm) hinside

/-! ## EXC_MIX -/

theorem mixSample_eq (gp gc acb fcb : Int) :
    mixSample gp gc acb fcb = sat16 ((gp * acb + gc * fcb + 0x2000) / 2 ^ 14) := by
  rw [mixSample, asr_eq_ediv]

theorem exec_excMix (s : State) : exec .excMix s = execExcMix s := by
  rfl

theorem exec_excMix_of_operands {s : State} {gp gc : Int} {acbv fcv : List Int} (hgp : s.w.gp = some gp)
    (hgc : s.w.gc = some gc) (hacbv : s.w.acbv = some acbv) (hfcv : s.w.fcv = some fcv) :
    exec .excMix s = .next ((s.setW { s.w with
      excv := some (tab (P.sfLen s) fun n => mixSample gp gc (elem acbv n) (elem fcv n)) }).goto
        .lpSynth s.sf false) := by
  rw [exec_excMix, execExcMix, hgp, need_some, hgc, need_some, hacbv, need_some, hfcv, need_some]

/-- Settles O37: the vector is a table of rounded sums, each saturated and so in the i16 range. -/
theorem excMixSamples : Obligations.ExcMixSamples := by
  intro s gp gc acbv fcv hgp hgc hacbv hfcv
  refine ⟨_, exec_excMix_of_operands hgp hgc hacbv hfcv, tab_length _ _, fun n hn => ?_⟩
  rw [elem_tab hn, mixSample_eq]
  exact ⟨rfl, sat16_range _⟩

end Sys2Proof.Proofs
end

