-- ==== Sys2Proof/Proofs/Synthesis.lean ====
section
/-! LP_SYNTH (R265, R266), LP_RETRY (R268) and SF_COMMIT (R270). A sample reads back only before itself, so the array
under construction may be read as the whole signal; the first pass, while it goes on, builds the unclipped signal. -/

namespace Sys2Proof.Proofs
open Sys2Proof Sys2Proof.Machine

/-! ## A sample of the filter -/

/-- Before sample `n` the filter sees any signal that continues the array under construction (R265). -/
theorem synSource_eq_past (mem : List Int) (p : Nat) {acc : List Int} {y : Nat → Int} {n : Nat}
    (hacc : ∀ j < n, elem acc j = y j) {j : Int} (hj : j < n) :
    synSource mem acc p j = Spec.past mem p y j := by
  unfold synSource Spec.past
  split
  · rfl
  · have hnat : (j.toNat : Int) = j := by omega
    rw [← hacc j.toNat (by omega), hnat]

/-- The rule's sum over a signal that continues the array under construction (R266). -/
theorem synSample_eq (p : Nat) (lpc mem exc : List Int) {acc : List Int} {y : Nat → Int} {n : Nat}
    (hacc : ∀ j < n, elem acc j = y j) :
    synSample p lpc mem exc acc n = (0x800 - ∑ i ∈ Finset.range p,
      elem lpc (i + 1 : Nat) * Spec.past mem p y ((n : Int) - (i + 1))) / 2 ^ 12 + elem exc n := by
  have hfeedback := sumTo_congr (n := p) fun i _ => congrArg (elem lpc (i + 1 : Nat) * ·)
    (synSource_eq_past mem p hacc (j := (n : Int) - (i + 1)) (by omega))
  rw [synSample, hfeedback, sumTo_eq_sum, asr_eq_ediv]

/-! ## The first pass (R266) -/

section
variable (p : Nat) (lpc mem exc : List Int)

/-- The first pass without its bound test, which never stops. -/
def unclipped (n : Nat) : List Int := buildUp (synSample p lpc mem exc) n

/-- Sample `n` of the signal the bound test looks at. -/
def unclippedAt (n : Nat) : Int := synSample p lpc mem exc (unclipped p lpc mem exc n) n

theorem unclipped_eq_tab (n : Nat) : unclipped p lpc mem exc n = tab n (unclippedAt p lpc mem exc) :=
  (eq_tab_elem (buildUp_length _ n)).trans (tab_congr fun _ hi => elem_buildUp _ hi)

theorem unclippedAt_eq (n : Nat) :
    unclippedAt p lpc mem exc n = (0x800 - ∑ i ∈ Finset.range p, elem lpc (i + 1 : Nat)
      * Spec.past mem p (unclippedAt p lpc mem exc) ((n : Int) - (i + 1))) / 2 ^ 12 + elem exc n :=
  synSample_eq p lpc mem exc fun _ hj => elem_buildUp _ hj

/-- The pass goes through where every sample passes the bound test, and leaves nothing otherwise. -/
theorem synthPass_eq (b : Int) (n : Nat) : synthPass p lpc mem exc b n =
    if ∀ i < n, outOfBound b (unclippedAt p lpc mem exc i) = false then some (unclipped p lpc mem exc n)
    else none := by
  induction n with
  | zero => rfl
  | succ n ih =>
    rw [synthPass, ih]
    by_cases hbefore : ∀ i < n, outOfBound b (unclippedAt p lpc mem exc i) = false
    · have hiff : (∀ i < n + 1, outOfBound b (unclippedAt p lpc mem exc i) = false)
          ↔ outOfBound b (unclippedAt p lpc mem exc n) = false :=
        Nat.forall_lt_succ_right.trans (and_iff_right hbefore)
      simp only [if_pos hbefore, hiff]
      change (if outOfBound b (unclippedAt p lpc mem exc n) then _ else _) = _
      cases outOfBound b (unclippedAt p lpc mem exc n) <;> rfl
    · rw [if_neg hbefore, if_neg fun hall => hbefore (Nat.forall_lt_succ_right.mp hall).1]

end

theorem outOfBound_eq_true_iff (b v : Int) : outOfBound b v = true ↔ v < -b - 1 ∨ b < v := by
  simp [outOfBound, or_comm]

theorem outOfBound_eq_false_iff (b v : Int) : outOfBound b v = false ↔ -b - 1 ≤ v ∧ v ≤ b := by
  simp [outOfBound, and_comm]

theorem exec_lpSynth (s : State) : exec .lpSynth s = execLpSynth s := by
  rfl

section
variable {s : State} {lpc excv : List Int} (hlpc : s.w.lpc = some lpc) (hexcv : s.w.excv = some excv)
include hlpc hexcv

theorem exec_lpSynth_of_pass {y : List Int}
    (hpass : synthPass (P.order s) lpc s.wrk.synMem excv (P.synthBound s) (P.sfLen s) = some y) :
    exec .lpSynth s = .next ((s.setW { s.w with syn := some y, ovf := some false }).goto .sfCommit s.sf false) := by
  rw [exec_lpSynth, execLpSynth, hlpc, need_some, hexcv, need_some, hpass]

theorem exec_lpSynth_of_stop
    (hstop : synthPass (P.order s) lpc s.wrk.synMem excv (P.synthBound s) (P.sfLen s) = none) :
    exec .lpSynth s = .next ((s.setW { s.w with syn := none, ovf := some true }).goto .lpRetry s.sf true) := by
  rw [exec_lpSynth, execLpSynth, hlpc, need_some, hexcv, need_some, hstop]

end

/-- Settles O44: the signal is the unclipped pass's, and the bound test on its samples decides how the pass ends. -/
theorem lpSynthRecursion : Obligations.LpSynthRecursion := by
  intro s lpc excv hlpc hexcv
  have hpass := synthPass_eq (P.order s) lpc s.wrk.synMem excv (P.synthBound s) (P.sfLen s)
  refine ⟨_, unclippedAt_eq (P.order s) lpc s.wrk.synMem excv, fun hinside => ?_, fun ⟨n, hn, houtside⟩ => ?_⟩
  · rw [← unclipped_eq_tab]
    rw [if_pos fun n hn => (outOfBound_eq_false_iff _ _).mpr (hinside n hn)] at hpass
    exact exec_lpSynth_of_pass hlpc hexcv hpass
  · have hout := (outOfBound_eq_true_iff _ _).mpr houtside
    rw [if_neg fun hall => ne_false_of_eq_true hout (hall n hn)] at hpass
    exact exec_lpSynth_of_stop hlpc hexcv hpass

/-! ## The retry (R268) -/

theorem elem_retryExcitation {s : State} {n : Nat} (hn : n < P.sfLen s) (gp gc : Int) (acbv fcv : List Int) :
    elem (retryExcitation s gp gc acbv fcv) n
      = sat16 ((gp * (elem acbv n / 2 ^ P.retryShift s) + gc * elem fcv n + 0x2000) / 2 ^ 14) := by
  rw [retryExcitation, elem_tab hn, mixSample_eq, asr_eq_ediv]

/-- Sample `n` of the clipped pass, clipped from the recursion over the clipped samples. -/
theorem elem_retryPass (p : Nat) (lpc mem exc : List Int) (b : Int) {n len : Nat} (hn : n < len) :
    let y := retryPass p lpc mem exc b len
    elem y n = clip ((0x800 - ∑ i ∈ Finset.range p, elem lpc (i + 1 : Nat)
      * Spec.past mem p (fun j => elem y j) ((n : Int) - (i + 1))) / 2 ^ 12 + elem exc n) (-b - 1) b := by
  intro y
  exact (elem_buildUp _ hn).trans
    (congrArg (clip · _ _) (synSample_eq p lpc mem exc fun _ hj => elem_buildUp_prefix _ hj hn.le))

theorem exec_lpRetry (s : State) : exec .lpRetry s = execLpRetry s := by
  rfl

theorem exec_lpRetry_of_operands {s : State} {gp gc : Int} {acbv fcv lpc : List Int} (hgp : s.w.gp = some gp)
    (hgc : s.w.gc = some gc) (hacbv : s.w.acbv = some acbv) (hfcv : s.w.fcv = some fcv)
    (hlpc : s.w.lpc = some lpc) :
    exec .lpRetry s = .next ((s.setW { s.w with
      exc2 := some (retryExcitation s gp gc acbv fcv)
      syn := some (retryPass (P.order s) lpc s.wrk.synMem (retryExcitation s gp gc acbv fcv) (P.synthBound s)
        (P.sfLen s)) }).goto .sfCommit s.sf true) := by
  rw [exec_lpRetry, execLpRetry, hgp, need_some, hgc, need_some, hacbv, need_some, hfcv, need_some, hlpc, need_some]

/-- Settles O45: the excitation is a table, and each sample of the pass is clipped from the recursion over the pass. -/
theorem lpRetryRecursion : Obligations.LpRetryRecursion := by
  intro s gp gc acbv fcv lpc hgp hgc hacbv hfcv hlpc
  refine ⟨_, _, exec_lpRetry_of_operands hgp hgc hacbv hfcv hlpc, tab_length _ _, buildUp_length _ _, fun n hn => ?_⟩
  have hbound : -(P.synthBound s : Int) - 1 ≤ P.synthBound s := by omega
  have hsample := elem_retryPass (P.order s) lpc s.wrk.synMem (retryExcitation s gp gc acbv fcv) (P.synthBound s) hn
  refine ⟨elem_retryExcitation hn .., hsample.trans (clip_of_le hbound _), ?_⟩
  rw [hsample]
  exact clip_range hbound _

/-! ## The histories (R270) -/

/-- A full history that takes in a block holds the end of its signal continued by the block, also where the block is
shorter or longer than the history. -/
theorem elem_lastN_append {m len i : Nat} {mem cur : List Int} (hmem : mem.length = m) (hcur : cur.length = len)
    (hi : i < m) :
    elem (lastN m (mem ++ cur)) i = Spec.past mem m (fun j => elem cur j) ((len : Int) - m + i) := by
  have hat : (lastN m (mem ++ cur))[i]? = (mem ++ cur)[len + i]? := by
    rw [lastN_getElem?, List.length_append, hmem, hcur, Nat.add_sub_cancel_left]
  refine elem_of_getElem? (hat.trans ?_)
  unfold Spec.past
  by_cases hold : len + i < m
  · have hidx : (m : Int) + (len - m + i) = (len + i : Nat) := by omega
    rw [if_pos (by omega), hidx, elem_eq_getElem (by omega), List.getElem?_append_left (by omega)]
    exact List.getElem?_eq_getElem _
  · have hidx : ((len : Int) - m + i).toNat = len + i - m := by omega
    rw [if_neg (by omega), hidx, List.getElem?_append_right (by omega), hmem]
    beta_reduce
    rw [elem_eq_getElem (by omega)]
    exact List.getElem?_eq_getElem _

theorem length_lastN_append {m : Nat} {mem : List Int} (hmem : mem.length = m) (cur : List Int) :
    (lastN m (mem ++ cur)).length = m := by
  rw [lastN_length, List.length_append]
  omega

theorem exec_sfCommit (s : State) : exec .sfCommit s = execSfCommit s := by
  rfl

theorem exec_sfCommit_of_operands {s : State} {syn excv : List Int} {gp tInt : Int} {ovf : Bool}
    (hsyn : s.w.syn = some syn) (hexcv : s.w.excv = some excv) (hgp : s.w.gp = some gp)
    (hint : s.w.tInt = some tInt) (hovf : s.w.ovf = some ovf) :
    exec .sfCommit s = .next { (s.setWrk { s.wrk with
        synMem := lastN (P.order s) (s.wrk.synMem ++ syn)
        excHist := lastN (P.histLen s) (s.wrk.excHist ++ excv)
        sharpBeta := clip gp (P.sharpMin s) (P.sharpMax s)
        prevLagInt := tInt }).goto (postStage s) s.sf false with
      status := { s.status with ovfRetry := s.status.ovfRetry || ovf } } := by
  rw [exec_sfCommit, execSfCommit, hsyn, need_some, hexcv, need_some, hgp, need_some, hint, need_some, hovf, need_some]
  rfl

/-- Settles O46: both histories take in their block, and the pitch gain is clipped where its bounds allow it. -/
theorem sfCommitHistories : Obligations.SfCommitHistories := by
  intro s syn excv gp tInt ovf hsyn hexcv hgp hint hovf hsynLen hexcvLen hmem hhist
  refine ⟨_, _, _, exec_sfCommit_of_operands hsyn hexcv hgp hint hovf, fun hsharp => ?_, length_lastN_append hmem _,
    length_lastN_append hhist _, fun i hi => elem_lastN_append hmem hsynLen hi,
    fun j hj => elem_lastN_append hhist hexcvLen hj⟩
  exact clip_of_le (by exact_mod_cast hsharp) gp

end Sys2Proof.Proofs
end

