-- ==== Sys2Proof/Proofs/PostfilterNumeric.lean ====
section
/-! The postfilter's two numeric helpers (R277): the search for the root starts above every number whose square fits, so
what it finds is the largest of them. -/

namespace Sys2Proof.Proofs
open Sys2Proof Sys2Proof.Machine

/-- The quotient where R277 defines it. -/
theorem divQ15_of_pos {b : Int} (hb : 0 < b) (a : Int) : divQ15 a b = 32768 * a / b := floorDiv_of_pos hb _

/-- The range searched for a root holds every number whose square is at most `x`. -/
theorem lt_two_pow_of_sq_le {g x : Nat} (h : g * g ≤ x) : g < 2 ^ (x.log2 / 2 + 1) := by
  by_contra hge
  have hsq : 2 ^ (x.log2 / 2 + 1) * 2 ^ (x.log2 / 2 + 1) ≤ x :=
    (Nat.mul_self_le_mul_self (Nat.le_of_not_lt hge)).trans h
  rw [← pow_add] at hsq
  have hexp : 2 ^ (x.log2 + 1) ≤ 2 ^ (x.log2 / 2 + 1 + (x.log2 / 2 + 1)) :=
    Nat.pow_le_pow_right (by decide) (by omega)
  have hx : x < 2 ^ (x.log2 + 1) := Nat.lt_log2_self
  omega

/-- A number is at most the root exactly where its square fits (R277). -/
theorem le_sqrtRatioQ12_iff {a b : Int} (ha : 0 ≤ a) (hb : 0 < b) (g : Nat) :
    (g : Int) ≤ sqrtRatioQ12 a b ↔ (g : Int) * g * b ≤ 16777216 * a := by
  lift a to Nat using ha
  lift b to Nat using hb.le
  have hbpos : 0 < b := by omega
  have hdown : ∀ m n : Nat, m ≤ n → decide (n * n * b ≤ 16777216 * a) = true →
      decide (m * m * b ≤ 16777216 * a) = true := fun m n hmn hn =>
    decide_eq_true ((Nat.mul_le_mul_right b (Nat.mul_self_le_mul_self hmn)).trans (of_decide_eq_true hn))
  obtain ⟨-, -, hfound, hmax⟩ := search_spec hdown ((16777216 * a).log2 / 2 + 1) 0
  simp only [sqrtRatioQ12, Int.toNat_natCast]
  norm_cast
  constructor
  · intro hg
    rcases hfound with hzero | hfits
    · have hg0 : g = 0 := by omega
      simp [hg0]
    · exact of_decide_eq_true (hdown _ _ hg hfits)
  · intro hfits
    have hsq : g * g ≤ 16777216 * a := (Nat.le_mul_of_pos_right _ hbpos).trans hfits
    exact hmax g (by simpa using lt_two_pow_of_sq_le hsq) (decide_eq_true hfits)

theorem sqrtRatioQ12_nonneg (a b : Int) : 0 ≤ sqrtRatioQ12 a b := Int.natCast_nonneg _

/-- Settles O41: floor division by a positive number, and the numbers at most the root are those whose square fits. -/
theorem numericHelpers : Obligations.NumericHelpers := by
  intro a b ha hb
  refine ⟨?_, sqrtRatioQ12_nonneg a b, ?_, fun g hg hfits => ?_⟩
  · rw [divQ15_of_pos hb]
    exact ⟨Int.ediv_mul_le _ hb.ne', Int.lt_ediv_add_one_mul_self _ hb⟩
  · obtain ⟨r, hr⟩ := Int.eq_ofNat_of_zero_le (sqrtRatioQ12_nonneg a b)
    have hfits := (le_sqrtRatioQ12_iff ha hb r).mp hr.ge
    rwa [hr]
  · lift g to Nat using hg
    exact (le_sqrtRatioQ12_iff ha hb g).mpr hfits

end Sys2Proof.Proofs
end

