-- ==== Sys2Proof/Proofs/PostfilterStages.lean ====
section
/-! PF_RESID (R276, R279), PF_SYNTILT (R283) and PF_AGC (R286). The signal a filter sees is the rule's; in the two
recursions it reaches back only before the sample under way, so the finished array serves for the one being built. -/

namespace Sys2Proof.Proofs
open Sys2Proof Sys2Proof.Machine

/-! ## The signal a filter sees -/

/-- Before sample `n` a filter sees any signal that continues the array `cur`. -/
theorem continued_eq_past (mem : List Int) (m : Nat) {cur : List Int} {y : Nat → Int} {n : Nat}
    (hcur : ∀ j < n, elem cur j = y j) {j : Int} (hj : j < n) :
    continued mem cur m j = Spec.past mem m y j := synSource_eq_past mem m hcur hj

/-- The filter sum at sample `n`, over the samples before it. -/
theorem sumTo_continued_eq (p : Nat) (coef mem : List Int) {cur : List Int} {y : Nat → Int} {n : Nat}
    (hcur : ∀ j < n, elem cur j = y j) :
    (sumTo p fun i => elem coef i * continued mem cur p ((n : Int) - 1 - i))
      = ∑ i ∈ Finset.range p, elem coef i * Spec.past mem p y ((n : Int) - 1 - i) := by
  rw [sumTo_eq_sum]
  exact Finset.sum_congr rfl fun i _ => congrArg (elem coef i * ·) (continued_eq_past mem p hcur (by omega))

/-! ## PF_RESID -/

/-- A weighted coefficient (R276). -/
theorem elem_weighted (lpc : List Int) (pow : Nat → Nat) {p i : Nat} (hi : i < p) :
    elem (weighted lpc pow p) i = (elem lpc (i + 1 : Nat) * pow i + 0x4000) / 2 ^ 15 := by
  rw [weighted, elem_tab hi, asr_eq_ediv]

/-- A sample of the FIR residual (R279). -/
theorem elem_pfResidual (p : Nat) (num mem syn : List Int) {n len : Nat} (hn : n < len) :
    elem (pfResidual p len num mem syn) n = sat16 ((elem syn n * 4096 + 0x800 + ∑ i ∈ Finset.range p,
      elem num i * Spec.past mem p (fun j => elem syn j) ((n : Int) - 1 - i)) / 2 ^ 12) := by
  rw [pfResidual, elem_tab hn, asr_eq_ediv, sumTo_continued_eq p num mem fun _ _ => rfl]

theorem exec_pfResid (s : State) : exec .pfResid s = execPfResid s := by
  rfl

theorem exec_pfResid_of_operands {s : State} {syn lpc : List Int} (hsyn : s.w.syn = some syn)
    (hlpc : s.w.lpc = some lpc) :
    exec .pfResid s = .next ((s.setW { s.w with
      num := some (weighted lpc (P.pfGnPow s) (P.order s))
      den := some (weighted lpc (P.pfGdPow s) (P.order s))
      resid := some (pfResidual (P.order s) (P.sfLen s) (weighted lpc (P.pfGnPow s) (P.order s)) s.wrk.pfFirMem
        syn) }).goto .pfLongterm s.sf false) := by
  rw [exec_pfResid, execPfResid, hsyn, need_some, hlpc, need_some]

/-- Settles O47: the three vectors are tables of the rule's values. -/
theorem pfResidFilter : Obligations.PfResidFilter := by
  intro s syn lpc hsyn hlpc
  exact ⟨_, _, _, exec_pfResid_of_operands hsyn hlpc, tab_length _ _, tab_length _ _, tab_length _ _,
    fun i hi => ⟨elem_weighted lpc _ hi, elem_weighted lpc _ hi⟩, fun n hn => elem_pfResidual _ _ _ _ hn⟩

/-! ## PF_SYNTILT: the all-pole part (R283 a) -/

/-- A sample of the all-pole part, its feedback read from the finished vector. -/
theorem elem_pfAllPole (p : Nat) (den mem resid : List Int) {n len : Nat} (hn : n < len) :
    let y := pfAllPole p len den mem resid
    elem y n = sat16 ((elem resid n * 4096 + 0x800 - ∑ i ∈ Finset.range p,
      elem den i * Spec.past mem p (fun j => elem y j) ((n : Int) - 1 - i)) / 2 ^ 12) := by
  intro y
  refine (elem_buildUp _ hn).trans ?_
  rw [asr_eq_ediv, sumTo_continued_eq p den mem fun j hj => elem_buildUp_prefix _ hj hn.le]
  rfl

/-! ## PF_SYNTILT: the impulse response (R283 b) -/

/-- A guarded sum stops at the guard. -/
theorem sumTo_guard (f : Nat → Int) (n p : Nat) :
    (sumTo p fun i => if i + 1 ≤ n then f i else 0) = ∑ i ∈ Finset.range (min n p), f i := by
  have hrange : (Finset.range p).filter (fun i => i + 1 ≤ n) = Finset.range (min n p) := by
    ext i
    simp only [Finset.mem_filter, Finset.mem_range]
    omega
  rw [sumTo_eq_sum, ← Finset.sum_filter, hrange]

/-- A sample of the impulse response, its feedback read from the finished array. -/
theorem elem_pfImpulse (p : Nat) (num den : List Int) {n k : Nat} (hn : n < k) :
    let h := fun j : Nat => elem (pfImpulse p k num den) j
    h n = ((if n = 0 then 16777216 else if n ≤ p then elem num (n - 1 : Nat) * 4096 else 0)
      - ∑ i ∈ Finset.range (min n p), elem den i * h (n - 1 - i)) / 2 ^ 12 := by
  intro h
  have hfirst : (if n = 0 then (16777216 : Int) else if n ≤ p then elem num ((n : Int) - 1) * 4096 else 0)
      = if n = 0 then 16777216 else if n ≤ p then elem num (n - 1 : Nat) * 4096 else 0 := by
    split_ifs with h0 hp
    · rfl
    · rw [Nat.cast_pred (by omega)]
    · rfl
  refine (elem_buildUp _ hn).trans ?_
  rw [asr_eq_ediv, sumTo_guard, hfirst]
  congr 2
  refine Finset.sum_congr rfl fun i hi => ?_
  have hi := Finset.mem_range.mp hi
  have hidx : (n : Int) - 1 - i = (n - 1 - i : Nat) := by omega
  rw [hidx, elem_buildUp_prefix _ (by omega) hn.le]
  rfl

/-- The response starts with 1.0 (R283). -/
theorem elem_pfImpulse_zero (p : Nat) (num den : List Int) {k : Nat} (hk : 0 < k) :
    elem (pfImpulse p k num den) (0 : Nat) = 4096 := by
  have h := elem_pfImpulse p num den hk
  simpa using h

/-! ## PF_SYNTILT: the tilt filter (R283 c, d) -/

/-- The reflection coefficient of a response that does not start with 0, whose energy is then positive. -/
theorem reflection_of_ne_zero {k : Nat} {h : List Int} (hk : 0 < k) (h0 : elem h (0 : Nat) ≠ 0) :
    reflection k h = max (-32768) (min 32767
      ((-32768 * ∑ n ∈ Finset.range (k - 1), elem h n * elem h (n + 1 : Nat))
        / ∑ n ∈ Finset.range k, elem h n * elem h n)) := by
  have henergy : 0 < ∑ n ∈ Finset.range k, elem h n * elem h n :=
    Finset.sum_pos' (fun n _ => mul_self_nonneg _) ⟨0, Finset.mem_range.mpr hk, mul_self_pos.mpr h0⟩
  simp only [reflection, sumSquares_eq, sumTo_eq_sum]
  rw [if_neg henergy.ne', floorDiv_of_pos henergy, clip_of_le (by decide)]

theorem tiltCoef_eq (s : State) (num den : List Int) {kq : Int}
    (hkq : kq = reflection (P.pfIrLen s) (pfImpulse (P.order s) (P.pfIrLen s) num den)) :
    tiltCoef s num den = (if kq < 0 then (P.pfTiltNeg s : Int) else P.pfTiltPos s) * kq / 2 ^ 15 := by
  rw [tiltCoef, asr_eq_ediv, hkq]

/-- A sample of the tilt filter. -/
theorem elem_tiltFilter (c mem : Int) (y : List Int) {n len : Nat} (hn : n < len) :
    elem (tiltFilter len c mem y) n = sat16 (elem y n
      + (c * (if n = 0 then mem else elem y (n - 1 : Nat)) + 0x4000) / 2 ^ 15) := by
  have hprev : (if n = 0 then mem else elem y ((n : Int) - 1)) = if n = 0 then mem else elem y (n - 1 : Nat) := by
    split_ifs with h0
    · rfl
    · rw [Nat.cast_pred (by omega)]
  simp only [tiltFilter, elem_tab hn, asr_eq_ediv, hprev]

theorem exec_pfSyntilt (s : State) : exec .pfSyntilt s = execPfSyntilt s := by
  rfl

theorem exec_pfSyntilt_of_operands {s : State} {r num den y : List Int} (hr : s.w.resid = some r)
    (hnum : s.w.num = some num) (hden : s.w.den = some den)
    (hy : y = pfAllPole (P.order s) (P.sfLen s) den s.wrk.pfIirMem r) :
    exec .pfSyntilt s = .next (((s.setW { s.w with
      pfy := some y
      pfz := some (tiltFilter (P.sfLen s) (tiltCoef s num den) s.wrk.pfTiltMem y) }).setWrk { s.wrk with
        pfTiltMem := elem y ((P.sfLen s : Int) - 1) }).goto .pfAgc s.sf false) := by
  rw [exec_pfSyntilt, execPfSyntilt, hr, need_some, hnum, need_some, hden, need_some, hy]

/-- Settles O49: both recursions hold of their finished arrays, and the response's first sample makes its energy
positive. -/
theorem pfSyntiltFilters : Obligations.PfSyntiltFilters := by
  intro s r num den hr hnum hden _ _ _ hk
  have h0 : elem (pfImpulse (P.order s) (P.pfIrLen s) num den) (0 : Nat) = 4096 :=
    elem_pfImpulse_zero _ _ _ (by omega)
  exact ⟨_, _, fun n => elem (pfImpulse (P.order s) (P.pfIrLen s) num den) n, _, _,
    exec_pfSyntilt_of_operands hr hnum hden rfl, buildUp_length _ _, tab_length _ _,
    fun n hn => elem_pfAllPole _ _ _ _ hn, fun n hn => elem_pfImpulse _ _ _ hn, h0,
    reflection_of_ne_zero (by omega) (by rw [h0]; decide), tiltCoef_eq s num den rfl,
    fun n hn => elem_tiltFilter _ _ _ hn⟩

/-! ## PF_AGC (R286) -/

/-- The gain moves to the interpolation of itself and the target. -/
theorem agcGain_succ (alpha target g : Int) (n : Nat) :
    agcGain alpha target g (n + 1) = interpolate alpha (agcGain alpha target g n) target := asr_eq_ediv _ _

/-- With a weight of at most 1.0 the gain stays in a range that holds its start and its target. -/
theorem agcGain_between {alpha target g lo hi : Int} (h0 : 0 ≤ alpha) (h1 : alpha ≤ 32768)
    (htarget : lo ≤ target ∧ target ≤ hi) (hg : lo ≤ g ∧ g ≤ hi) (n : Nat) :
    lo ≤ agcGain alpha target g n ∧ agcGain alpha target g n ≤ hi := by
  induction n with
  | zero => exact hg
  | succ n ih =>
    have hmove := interpolate_between h0 h1 (agcGain alpha target g n) target
    rw [agcGain_succ]
    omega

theorem agcTarget_range (ein eout : Int) : 0 ≤ agcTarget ein eout ∧ agcTarget ein eout ≤ 32767 := by
  have hroot := sqrtRatioQ12_nonneg ein eout
  unfold agcTarget
  split <;> omega

theorem exec_pfAgc (s : State) : exec .pfAgc s = execPfAgc s := by
  rfl

theorem exec_pfAgc_of_operands {s : State} {syn pfy pfz : List Int} {g : Nat → Int} (hsyn : s.w.syn = some syn)
    (hpfz : s.w.pfz = some pfz) (hpfy : s.w.pfy = some pfy)
    (hg : g = agcGain (P.pfAgcAlpha s) (agcTarget (sumSquares (P.sfLen s) syn) (sumSquares (P.sfLen s) pfz))
      s.wrk.pfAgcGain) :
    exec .pfAgc s = .next (((s.setW { s.w with
      out := some (tab (P.sfLen s) fun n => sat16 ((elem pfz n * g (n + 1) + 0x800) / 2 ^ 12)) }).setWrk { s.wrk with
        pfAgcGain := g (P.sfLen s)
        pfFirMem := lastN (P.order s) (s.wrk.pfFirMem ++ syn)
        pfIirMem := lastN (P.order s) (s.wrk.pfIirMem ++ pfy) }).goto .out s.sf false) := by
  rw [exec_pfAgc, execPfAgc, hsyn, need_some, hpfz, need_some, hpfy, need_some, hg]
  simp only [asr_eq_ediv]

/-- Settles O50: the gain interpolates towards the target, and both memories take in their block. -/
theorem pfAgcGain : Obligations.PfAgcGain := by
  intro s syn pfy pfz hsyn hpfz hpfy hsynLen hpfyLen hfir hiir ein eout
  have htarget : agcTarget (sumSquares (P.sfLen s) syn) (sumSquares (P.sfLen s) pfz)
      = if eout = 0 then 4096 else min 32767 (sqrtRatioQ12 ein eout) := by
    rw [agcTarget, sumSquares_eq, sumSquares_eq]
  refine ⟨_, _, _, _, exec_pfAgc_of_operands hsyn hpfz hpfy rfl, tab_length _ _, length_lastN_append hfir _,
    length_lastN_append hiir _, rfl, fun n hn => ⟨?_, elem_tab hn _⟩,
    fun i hi => ⟨elem_lastN_append hfir hsynLen hi, elem_lastN_append hiir hpfyLen hi⟩, fun halpha h0 h1 n _ => ?_⟩
  · rw [agcGain_succ, htarget, interpolate]
  · exact agcGain_between (Int.natCast_nonneg _) (by exact_mod_cast halpha) (agcTarget_range _ _) ⟨h0, h1⟩ n

end Sys2Proof.Proofs
end

