-- ==== Sys2Proof/Proofs/LongTermPostfilter.lean ====
section
/-! PF_LONGTERM (R281). The search keeps the first best of the usable lags it has passed: a lag replaces it exactly when
its squared normalised correlation is greater, and that order is transitive because the energies are positive. -/

namespace Sys2Proof.Proofs
open Sys2Proof Sys2Proof.Machine

/-! ## The first best of a set of lags -/

/-- `t` is the first of the lags whose squared normalised correlation `C² / E` is greatest (R281). -/
def FirstBest (c e : Int → Int) (usable : Int → Prop) (t : Int) : Prop :=
  usable t ∧ (∀ u, usable u → c u * c u * e t ≤ c t * c t * e u)
    ∧ ∀ u, usable u → u < t → c u * c u * e t < c t * c t * e u

/-- The lags `lo .. hi-1` with positive correlation and energy. -/
def UsableBetween (c e : Int → Int) (lo hi t : Int) : Prop := (lo ≤ t ∧ t < hi) ∧ 0 < c t ∧ 0 < e t

theorem FirstBest.eq {c e : Int → Int} {usable : Int → Prop} {t u : Int} (ht : FirstBest c e usable t)
    (hu : FirstBest c e usable u) : t = u := by
  obtain ⟨htUsable, htMax, htFirst⟩ := ht
  obtain ⟨huUsable, huMax, huFirst⟩ := hu
  rcases lt_trichotomy t u with hlt | heq | hgt
  · exact absurd (huFirst t htUsable hlt) (htMax u huUsable).not_gt
  · exact heq
  · exact absurd (htFirst u huUsable hgt) (huMax t htUsable).not_gt

/-- Of three fractions compared crosswise, the first is below the third when it is at most the second and that is below
the third. -/
theorem cross_lt_of_le_of_lt {x y z dx dy dz : Int} (hdx : 0 < dx) (hdy : 0 < dy) (hdz : 0 < dz)
    (hxy : x * dy ≤ y * dx) (hyz : y * dz < z * dy) : x * dz < z * dx := by
  refine lt_of_mul_lt_mul_right ?_ hdy.le
  calc x * dz * dy = x * dy * dz := by ring
    _ ≤ y * dx * dz := mul_le_mul_of_nonneg_right hxy hdz.le
    _ = y * dz * dx := by ring
    _ < z * dy * dx := mul_lt_mul_of_pos_right hyz hdx
    _ = z * dx * dy := by ring

section
variable {c e : Int → Int} {lo t : Int}

theorem usableBetween_succ_iff (hlo : lo ≤ t) (u : Int) :
    UsableBetween c e lo (t + 1) u ↔ UsableBetween c e lo t u ∨ (u = t ∧ 0 < c t ∧ 0 < e t) := by
  unfold UsableBetween
  constructor
  · rintro ⟨hwindow, hpos⟩
    rcases (by omega : u < t ∨ u = t) with hlt | rfl
    · exact .inl ⟨by omega, hpos⟩
    · exact .inr ⟨rfl, hpos⟩
  · rintro (⟨hwindow, hpos⟩ | ⟨rfl, hpos⟩)
    · exact ⟨by omega, hpos⟩
    · exact ⟨by omega, hpos⟩

/-- A lag that is not usable changes nothing. -/
theorem usableBetween_succ_of_not (hlo : lo ≤ t) (ht : ¬ (0 < c t ∧ 0 < e t)) :
    UsableBetween c e lo (t + 1) = UsableBetween c e lo t := by
  funext u
  rw [usableBetween_succ_iff hlo]
  exact propext (or_iff_left fun ⟨_, hpos⟩ => ht hpos)

/-- A usable lag is the best when no lag before it is usable. -/
theorem firstBest_succ_of_none (hlo : lo ≤ t) (ht : 0 < c t ∧ 0 < e t) (hnone : ∀ u, ¬ UsableBetween c e lo t u) :
    FirstBest c e (UsableBetween c e lo (t + 1)) t := by
  have honly : ∀ u, UsableBetween c e lo (t + 1) u → u = t := fun u hu =>
    (((usableBetween_succ_iff hlo u).mp hu).resolve_left (hnone u)).1
  refine ⟨(usableBetween_succ_iff hlo t).mpr (.inr ⟨rfl, ht⟩), fun u hu => ?_, fun u hu hlt => ?_⟩
  · rw [honly u hu]
  · exact absurd (honly u hu) hlt.ne

/-- A usable lag that beats the best before it is the best. -/
theorem FirstBest.succ_of_better {b : Int} (hb : FirstBest c e (UsableBetween c e lo t) b) (hlo : lo ≤ t)
    (ht : 0 < c t ∧ 0 < e t) (hbetter : c b * c b * e t < c t * c t * e b) :
    FirstBest c e (UsableBetween c e lo (t + 1)) t := by
  obtain ⟨⟨-, -, hbEnergy⟩, hbMax, -⟩ := hb
  have hbeats : ∀ u, UsableBetween c e lo t u → c u * c u * e t < c t * c t * e u := fun u hu =>
    let ⟨_, _, huEnergy⟩ := hu
    cross_lt_of_le_of_lt huEnergy hbEnergy ht.2 (hbMax u hu) hbetter
  refine ⟨(usableBetween_succ_iff hlo t).mpr (.inr ⟨rfl, ht⟩), fun u hu => ?_, fun u hu hlt => ?_⟩
  · rcases (usableBetween_succ_iff hlo u).mp hu with hbefore | ⟨rfl, -⟩
    · exact (hbeats u hbefore).le
    · exact le_rfl
  · rcases (usableBetween_succ_iff hlo u).mp hu with hbefore | ⟨rfl, -⟩
    · exact hbeats u hbefore
    · exact absurd hlt (lt_irrefl u)

/-- A lag that does not beat the best before it leaves it the best, also when it is equally good. -/
theorem FirstBest.succ_of_not_better {b : Int} (hb : FirstBest c e (UsableBetween c e lo t) b) (hlo : lo ≤ t)
    (hworse : c t * c t * e b ≤ c b * c b * e t) : FirstBest c e (UsableBetween c e lo (t + 1)) b := by
  obtain ⟨hbUsable, hbMax, hbFirst⟩ := hb
  have hbt : b < t := hbUsable.1.2
  refine ⟨(usableBetween_succ_iff hlo b).mpr (.inl hbUsable), fun u hu => ?_, fun u hu hlt => ?_⟩
  · rcases (usableBetween_succ_iff hlo u).mp hu with hbefore | ⟨rfl, -⟩
    · exact hbMax u hbefore
    · exact hworse
  · rcases (usableBetween_succ_iff hlo u).mp hu with hbefore | ⟨rfl, -⟩
    · exact hbFirst u hbefore hlt
    · exact absurd hlt hbt.not_gt

end

/-! ## The search -/

/-- What the search holds after the lags of a set: their first best with its correlation and energy, or nothing when no
lag is usable. -/
def SearchHolds (c e : Int → Int) (usable : Int → Prop) : Option (Int × Int × Int) → Prop
  | none => ∀ u, ¬ usable u
  | some (b, cb, eb) => FirstBest c e usable b ∧ cb = c b ∧ eb = e b

theorem SearchHolds.eq_none {c e : Int → Int} {usable : Int → Prop} {best : Option (Int × Int × Int)}
    (h : SearchHolds c e usable best) (hnone : ∀ u, ¬ usable u) : best = none := by
  match best with
  | none => rfl
  | some (b, cb, eb) =>
    obtain ⟨⟨hb, -, -⟩, -, -⟩ := h
    exact absurd hb (hnone b)

theorem SearchHolds.eq_some {c e : Int → Int} {usable : Int → Prop} {best : Option (Int × Int × Int)} {t : Int}
    (h : SearchHolds c e usable best) (ht : FirstBest c e usable t) : best = some (t, c t, e t) := by
  match best with
  | none =>
    obtain ⟨htUsable, -, -⟩ := ht
    exact absurd htUsable (h t)
  | some (b, cb, eb) =>
    obtain ⟨hb, rfl, rfl⟩ := h
    rw [ht.eq hb]

section
variable {len : Nat} {r : List Int} {rx : Int → Int}

theorem ltSearch_succ_of_not_usable {t : Int} (ht : ¬ (0 < ltCorr len r rx t ∧ 0 < ltEnergy len rx t)) (k : Nat)
    (best : Option (Int × Int × Int)) :
    ltSearch len r rx (k + 1) t best = ltSearch len r rx k (t + 1) best := by
  simp only [ltSearch, ← Bool.decide_and, decide_eq_false ht, Bool.false_and, Bool.false_eq_true, if_false]

theorem ltSearch_succ_of_none {t : Int} (ht : 0 < ltCorr len r rx t ∧ 0 < ltEnergy len rx t) (k : Nat) :
    ltSearch len r rx (k + 1) t none
      = ltSearch len r rx k (t + 1) (some (t, ltCorr len r rx t, ltEnergy len rx t)) := by
  simp only [ltSearch, ← Bool.decide_and, decide_eq_true ht, Bool.true_and, if_true]

theorem ltSearch_succ_of_some {t : Int} (ht : 0 < ltCorr len r rx t ∧ 0 < ltEnergy len rx t) (k : Nat)
    (b cb eb : Int) :
    ltSearch len r rx (k + 1) t (some (b, cb, eb)) = ltSearch len r rx k (t + 1)
      (if cb * cb * ltEnergy len rx t < ltCorr len r rx t * ltCorr len r rx t * eb
        then some (t, ltCorr len r rx t, ltEnergy len rx t) else some (b, cb, eb)) := by
  simp only [ltSearch, ← Bool.decide_and, decide_eq_true ht, Bool.true_and, decide_eq_true_eq]

/-- The search over `k` lags from `t` on goes on holding the first best from `lo` on. -/
theorem searchHolds_ltSearch {lo t : Int} (hlo : lo ≤ t) {best : Option (Int × Int × Int)}
    (hbest : SearchHolds (ltCorr len r rx) (ltEnergy len rx)
      (UsableBetween (ltCorr len r rx) (ltEnergy len rx) lo t) best) (k : Nat) :
    SearchHolds (ltCorr len r rx) (ltEnergy len rx)
      (UsableBetween (ltCorr len r rx) (ltEnergy len rx) lo (t + k)) (ltSearch len r rx k t best) := by
  induction k generalizing t best with
  | zero => simpa [ltSearch] using hbest
  | succ k ih =>
    have hend : t + (k + 1 : Nat) = t + 1 + k := by omega
    rw [hend]
    by_cases ht : 0 < ltCorr len r rx t ∧ 0 < ltEnergy len rx t
    · match best with
      | none =>
        rw [ltSearch_succ_of_none ht]
        exact ih (by omega) ⟨firstBest_succ_of_none hlo ht hbest, rfl, rfl⟩
      | some (b, cb, eb) =>
        obtain ⟨hb, rfl, rfl⟩ := hbest
        rw [ltSearch_succ_of_some ht]
        split_ifs with hbetter
        · exact ih (by omega) ⟨hb.succ_of_better hlo ht hbetter, rfl, rfl⟩
        · exact ih (by omega) ⟨hb.succ_of_not_better hlo (not_lt.mp hbetter), rfl, rfl⟩
    · rw [ltSearch_succ_of_not_usable ht]
      rw [← usableBetween_succ_of_not hlo ht] at hbest
      exact ih (by omega) hbest

/-- The search from nothing over the whole window `lo .. hi`. -/
theorem searchHolds_window (lo hi : Int) :
    SearchHolds (ltCorr len r rx) (ltEnergy len rx)
      (fun t => (lo ≤ t ∧ t ≤ hi) ∧ 0 < ltCorr len r rx t ∧ 0 < ltEnergy len rx t)
      (ltSearch len r rx (hi + 1 - lo).toNat lo none) := by
  have hempty : ∀ u, ¬ UsableBetween (ltCorr len r rx) (ltEnergy len rx) lo lo u := fun u ⟨hu, _⟩ => by omega
  have hwindow : (fun t => (lo ≤ t ∧ t ≤ hi) ∧ 0 < ltCorr len r rx t ∧ 0 < ltEnergy len rx t)
      = UsableBetween (ltCorr len r rx) (ltEnergy len rx) lo (lo + (hi + 1 - lo).toNat) :=
    funext fun t => propext (and_congr_left' (by omega))
  rw [hwindow]
  exact searchHolds_ltSearch le_rfl (best := none) hempty _

end

/-! ## The best lag -/

/-- The lags of the search window with positive correlation and energy (R281). -/
def LtUsable (s : State) (tInt : Int) (r : List Int) (rx : Int → Int) (t : Int) : Prop :=
  (max (tInt - P.pfLtRange s) (P.pitchMin s) ≤ t ∧ t ≤ min (tInt + P.pfLtRange s) (P.pitchMax s))
    ∧ 0 < ltCorr (P.sfLen s) r rx t ∧ 0 < ltEnergy (P.sfLen s) rx t

section
variable {s : State} {tInt : Int} {r : List Int} {rx : Int → Int}

theorem ltBest_of_disabled (hoff : P.pfLtEn s = false) : ltBest s tInt r rx = none := by
  rw [ltBest, hoff, if_neg Bool.false_ne_true]

theorem ltBest_of_unusable (hnone : ∀ t, ¬ LtUsable s tInt r rx t) : ltBest s tInt r rx = none := by
  have hsearch := (searchHolds_window _ _).eq_none hnone
  simp only [ltBest, hsearch, ite_self]

/-- The first best lag is dropped below 3 dB (R281). -/
theorem ltBest_of_firstBest (hon : P.pfLtEn s = true) {t : Int}
    (ht : FirstBest (ltCorr (P.sfLen s) r rx) (ltEnergy (P.sfLen s) rx) (LtUsable s tInt r rx) t) :
    ltBest s tInt r rx =
      if 2 * ltCorr (P.sfLen s) r rx t * ltCorr (P.sfLen s) r rx t
          < ltEnergy (P.sfLen s) rx t * sumSquares (P.sfLen s) r then none
      else some (t, ltCorr (P.sfLen s) r rx t, ltEnergy (P.sfLen s) rx t) := by
  have hsearch := (searchHolds_window _ _).eq_some ht
  simp only [ltBest, hsearch, if_pos hon]

end

/-! ## The blend -/

/-- A blended sample: a positive energy gives a gain of at least 0, so neither quotient is free (R281). -/
theorem elem_ltBlend (s : State) (r : List Int) (rx : Int → Int) (t c : Int) {e : Int} (he : 0 < e) {n : Nat}
    (hn : n < P.sfLen s) :
    let gl := max 0 (min 32767 (32768 * c / e))
    let b := (P.pfLtGamma s : Int) * gl / 2 ^ 15
    let w0 := 32768 * 32768 / (32768 + b)
    let w1 := w0 * b / 2 ^ 15
    elem (ltBlend s r rx t c e) n = sat16 ((w0 * elem r n + w1 * rx ((n : Int) - t) + 0x4000) / 2 ^ 15) := by
  intro gl b w0 w1
  have hgl : clip (divQ15 c e) 0 32767 = gl := by rw [divQ15_of_pos he, clip_of_le (by decide)]
  have hb : 0 ≤ b :=
    Int.ediv_nonneg (mul_nonneg (Int.natCast_nonneg _) (le_max_left _ _)) (by norm_num)
  have hw0 : divQ15 32768 (32768 + b) = w0 := divQ15_of_pos (by omega) _
  rw [ltBlend, hgl, elem_tab hn]
  simp only [asr_eq_ediv]
  rw [hw0]

/-! ## The stage -/

/-- A whole vector continued into the past is the rule's signal. -/
theorem continued_eq_past_elem (mem cur : List Int) (m : Nat) :
    continued mem cur m = Spec.past mem m fun j => elem cur j :=
  funext fun j => continued_eq_past mem m (n := j.toNat + 1) (fun _ _ => rfl) (by omega)

/-- The residual the stage leaves for the lag it decided on. -/
def ltResidual (s : State) (r : List Int) (rx : Int → Int) : Option (Int × Int × Int) → List Int
  | none => r
  | some (t, c, e) => ltBlend s r rx t c e

theorem length_ltResidual {s : State} {r : List Int} (hr : r.length = P.sfLen s) (rx : Int → Int)
    (best : Option (Int × Int × Int)) : (ltResidual s r rx best).length = P.sfLen s := by
  match best with
  | none => exact hr
  | some (t, c, e) => exact tab_length _ _

theorem exec_pfLongterm (s : State) : exec .pfLongterm s = execPfLongterm s := by
  rfl

theorem exec_pfLongterm_of_operands {s : State} {r : List Int} {tInt : Int} {rx : Int → Int}
    (hr : s.w.resid = some r) (hint : s.w.tInt = some tInt) (hrx : continued s.wrk.pfResHist r (P.resLen s) = rx) :
    exec .pfLongterm s = .next (((s.setW { s.w with
      resid := some (ltResidual s r rx (ltBest s tInt r rx)) }).setWrk { s.wrk with
        pfResHist := lastN (P.resLen s) (s.wrk.pfResHist ++ r) }).goto .pfSyntilt s.sf false) := by
  rw [exec_pfLongterm, execPfLongterm, hr, need_some, hint, need_some, hrx]
  rfl

/-- Settles O48: the search finds the rule's best lag, the lag decides between the residual and its blend, and the
history takes in the residual as it entered. -/
theorem pfLongtermBlend : Obligations.PfLongtermBlend := by
  intro s r tInt hr hint hlen hhist rx c e r0 inWindow usable best
  have hrx : continued s.wrk.pfResHist r (P.resLen s) = rx := continued_eq_past_elem _ _ _
  have hc : ltCorr (P.sfLen s) r rx = c := funext fun t => sumTo_eq_sum _ _
  have he : ltEnergy (P.sfLen s) rx = e := funext fun t => sumTo_eq_sum _ _
  have hr0 : sumSquares (P.sfLen s) r = r0 := sumSquares_eq _ _
  have husable : LtUsable s tInt r rx = usable := by
    funext t
    rw [LtUsable, hc, he]
  refine ⟨_, _, exec_pfLongterm_of_operands hr hint hrx, length_ltResidual hlen _ _, length_lastN_append hhist _,
    fun j hj => elem_lastN_append hhist hlen hj, fun hoff => ?_, fun hnone => ?_, fun t hon hbest => ?_⟩
  · rw [ltBest_of_disabled hoff, ltResidual]
  · rw [ltBest_of_unusable (husable ▸ hnone), ltResidual]
  · have ⟨⟨_, _, hpos⟩, _⟩ := hbest
    have hdecided : ltBest s tInt r rx = if 2 * c t * c t < e t * r0 then none else some (t, c t, e t) := by
      have hfirst : FirstBest (ltCorr (P.sfLen s) r rx) (ltEnergy (P.sfLen s) rx) (LtUsable s tInt r rx) t := by
        rw [hc, he, husable]
        exact hbest
      rw [ltBest_of_firstBest hon hfirst, hc, he, hr0]
    refine ⟨fun hbelow => ?_, fun hreached n hn => ?_⟩
    · rw [hdecided, if_pos hbelow, ltResidual]
    · rw [hdecided, if_neg hreached.not_gt, ltResidual]
      exact elem_ltBlend s r rx t (c t) hpos hn

end Sys2Proof.Proofs
end

