-- ==== Sys2Proof/Proofs/Concealment.lean ====
section
/-! The concealment stages: LSF_CONCEAL (R292), PITCH_CONCEAL (R294), FCB_CONCEAL (R296) and GAIN_CONCEAL (R298). Every
draw is one step of the generator of R291, so the pulses of a subframe are read off one run of it. -/

namespace Sys2Proof.Proofs
open Sys2Proof Sys2Proof.Machine

/-! ## The generator (R291) -/

theorem prngNext_lt (s : State) (seed : Nat) : prngNext s seed < 65536 := Nat.mod_lt _ (by norm_num)

/-- The top bit of a 16-bit number, by its value. -/
theorem testBit_fifteen_iff {x : Nat} (hx : x < 65536) : x.testBit 15 = true ↔ 32768 ≤ x := by
  rw [Nat.testBit_eq_decide_div_mod_eq, decide_eq_true_iff]
  omega

/-! ## LSF_CONCEAL -/

theorem exec_lsfConceal (s : State) : exec .lsfConceal s = execLsfConceal s := by
  rfl

/-- The stage interpolates from the default to the previous vector with the decay as its weight. -/
theorem exec_lsfConceal_eq (s : State) :
    exec .lsfConceal s = .next ((s.setW { s.w with
      lsf := some (tab (P.order s) fun i => interpolate (P.fecLspDecay s) (elem s.wrk.prevLsf i) (P.lspDefault s i))
      pred := some (tab (P.order s) fun i => lsfPred s 0 i) }).goto .lsfStab 0 false) := by
  rw [exec_lsfConceal, execLsfConceal]
  simp only [asr_eq_ediv]
  rfl

/-! ## PITCH_CONCEAL -/

theorem pitchUnvoiced_iff (s : State) : pitchUnvoiced s = true ↔
    (P.flags s).testBit 4 = true ∧ elem s.wrk.gpHist 0 < P.fecVoicedThr s := by
  rw [pitchUnvoiced, Bool.and_eq_true, decide_eq_true_iff, P.fecPitchPrng]

/-- The delay the draw `r` gives (R294). -/
def drawnDelay (s : State) (r : Nat) : Int := P.pitchMin s + (r % (P.pitchMax s - P.pitchMin s + 1) : Nat)

theorem lagOk_drawnDelay {s : State} (hbounds : P.pitchMin s ≤ P.pitchMax s) (r : Nat) :
    LagOk s (drawnDelay s r) := by
  have hlt : r % (P.pitchMax s - P.pitchMin s + 1) < P.pitchMax s - P.pitchMin s + 1 := Nat.mod_lt _ (by omega)
  unfold LagOk drawnDelay
  omega

/-- The model's draw, written on integers, where the bounds are in order. -/
theorem pitchMin_add_floorMod {s : State} (hbounds : P.pitchMin s ≤ P.pitchMax s) (r : Nat) :
    P.pitchMin s + floorMod r ((P.pitchMax s : Int) - P.pitchMin s + 1) = drawnDelay s r := by
  rw [drawnDelay, floorMod_of_pos (by omega), Int.natCast_mod, Int.natCast_succ, Int.ofNat_sub hbounds]

theorem exec_pitchConceal (s : State) : exec .pitchConceal s = execPitchConceal s := by
  rfl

theorem exec_pitchConceal_of_voiced {s : State} (hvoiced : ¬ pitchUnvoiced s = true) :
    exec .pitchConceal s = .next ((s.setW { s.w with
      tInt := some s.wrk.prevLagInt, tFrac := some 0 }).goto .acbInterp s.sf false) := by
  rw [exec_pitchConceal, execPitchConceal, if_neg hvoiced]

theorem exec_pitchConceal_of_unvoiced {s : State} (hunvoiced : pitchUnvoiced s = true)
    (hbounds : P.pitchMin s ≤ P.pitchMax s) :
    exec .pitchConceal s = .next (((s.setW { s.w with
      tInt := some (drawnDelay s (prngNext s s.wrk.prngSeed)), tFrac := some 0 }).setWrk { s.wrk with
        prngSeed := prngNext s s.wrk.prngSeed }).goto .acbInterp s.sf false) := by
  rw [exec_pitchConceal, execPitchConceal, if_pos hunvoiced, ← pitchMin_add_floorMod hbounds]

/-- Settles O51: both vectors of LSF_CONCEAL are tables; PITCH_CONCEAL holds the delay or draws one, and a previous
delay inside the bounds keeps them in order, so that the draw is inside them too. -/
theorem lsfPitchConcealResults : Obligations.LsfPitchConcealResults := by
  intro s
  refine ⟨⟨_, _, exec_lsfConceal_eq s, tab_length _ _, tab_length _ _, fun i hi => ?_⟩, fun hvoiced => ?_,
    fun r hflag hlow hbounds hr => ?_, fun hlag => ?_⟩
  · rw [elem_tab hi, elem_tab hi, lsfPred_eq]
    exact ⟨rfl, rfl⟩
  · refine exec_pitchConceal_of_voiced fun hunvoiced => ?_
    obtain ⟨hflag, hlow⟩ := (pitchUnvoiced_iff s).mp hunvoiced
    rcases hvoiced with hoff | hhigh
    · rw [hoff] at hflag
      exact Bool.false_ne_true hflag
    · exact hhigh.not_gt hlow
  · subst hr
    exact ⟨_, exec_pitchConceal_of_unvoiced ((pitchUnvoiced_iff s).mpr ⟨hflag, hlow⟩) hbounds, rfl,
      lagOk_drawnDelay hbounds _⟩
  · by_cases hunvoiced : pitchUnvoiced s = true
    · have hbounds : P.pitchMin s ≤ P.pitchMax s := by
        obtain ⟨hmin, hmax⟩ := hlag
        omega
      exact ⟨_, _, exec_pitchConceal_of_unvoiced hunvoiced hbounds, rfl, lagOk_drawnDelay hbounds _⟩
    · exact ⟨_, _, exec_pitchConceal_of_voiced hunvoiced, rfl, hlag⟩

/-! ## FCB_CONCEAL -/

/-- The position the first draw of a pulse gives (R296). -/
def drawnPosition (s : State) (r : Nat) : Nat := r * P.sfLen s / 65536

/-- The amplitude the second draw of a pulse gives (R296). -/
def drawnAmp (s : State) (r : Nat) : Int := if 32768 ≤ r then (P.fcbAmp s : Int) else -(P.fcbAmp s : Int)

theorem drawnPosition_lt {s : State} (hlen : 0 < P.sfLen s) {r : Nat} (hr : r < 65536) :
    drawnPosition s r < P.sfLen s :=
  Nat.div_lt_of_lt_mul (Nat.mul_lt_mul_of_pos_right hr hlen)

/-- One pulse takes two draws. -/
theorem drawPulses_succ (s : State) (n seed : Nat) :
    drawPulses s (n + 1) seed =
      let r1 := prngNext s seed
      let r2 := prngNext s r1
      let rest := drawPulses s n r2
      (drawnPosition s r1 :: rest.1, drawnAmp s r2 :: rest.2.1, rest.2.2) := by
  rw [drawPulses, Nat.shiftRight_eq_div_pow]
  simp only [testBit_fifteen_iff (prngNext_lt s _)]
  rfl

/-- Along a run of the generator from draw `m` on, pulse `k` takes the draws `m + 2k + 1` and `m + 2k + 2`. -/
theorem drawPulses_eq_run {s : State} {g : Nat → Nat} (hstep : ∀ k, g (k + 1) = prngNext s (g k)) (n m : Nat) :
    drawPulses s n (g m) = ((List.range n).map fun k => drawnPosition s (g (m + 2 * k + 1)),
      tab n fun k => drawnAmp s (g (m + 2 * k + 2)), g (m + 2 * n)) := by
  induction n generalizing m with
  | zero => rfl
  | succ n ih =>
    have hshift (k : Nat) : m + 2 + 2 * k = m + 2 * (k + 1) := by omega
    rw [drawPulses_succ]
    simp only [← hstep, ih, tab, List.range_succ_eq_map, List.map_cons, List.map_map, Function.comp_def, hshift]

theorem sparseInto_of_lag {s : State} {lag : Int} (hplain : P.sharpMode s = 0 → lag = 0)
    (hsharp : P.sharpMode s ≠ 0 → s.w.tInt = some lag) (pos : List Nat) (amp : List Int) :
    sparseInto s pos amp = .next ((s.setW { s.w with sp := some (sparseOf s pos amp lag) }).goto
      .fcbBuild s.sf false) := by
  by_cases hmode : P.sharpMode s = 0
  · rw [sparseInto, if_pos hmode, hplain hmode]
  · rw [sparseInto, if_neg hmode, hsharp hmode, need_some]

theorem exec_fcbConceal (s : State) : exec .fcbConceal s = execFcbConceal s := by
  rfl

theorem exec_fcbConceal_of_draws {s : State} {lag : Int} {pos : List Nat} {amp : List Int} {seed : Nat}
    (hplain : P.sharpMode s = 0 → lag = 0) (hsharp : P.sharpMode s ≠ 0 → s.w.tInt = some lag)
    (hdraws : drawPulses s (P.fcbNpulses s) s.wrk.prngSeed = (pos, amp, seed)) :
    exec .fcbConceal s = .next (((s.setW { s.w with sp := some (sparseOf s pos amp lag) }).setWrk { s.wrk with
      prngSeed := seed }).goto .fcbBuild s.sf false) := by
  rw [exec_fcbConceal, execFcbConceal, hdraws]
  exact sparseInto_of_lag (s := s.setWrk { s.wrk with prngSeed := seed }) hplain hsharp pos amp

/-- Settles O52: the pulses are those of the run from the working copy's seed, and each draw is a 16-bit number. -/
theorem fcbConcealDraws : Obligations.FcbConcealDraws := by
  intro s lag g hlen hseed hstep hplain hsharp
  have hrun := drawPulses_eq_run (s := s) hstep (P.fcbNpulses s) 0
  rw [hseed] at hrun
  simp only [Nat.zero_add] at hrun
  refine ⟨_, _, _, exec_fcbConceal_of_draws hplain hsharp hrun, rfl, by simp, tab_length _ _, fun k hk => ⟨?_, ?_, ?_⟩⟩
  · rw [List.getElem?_map, List.getElem?_range hk]
    rfl
  · exact drawnPosition_lt hlen (hstep (2 * k) ▸ prngNext_lt s _)
  · rw [elem_tab hk]
    rfl

/-! ## GAIN_CONCEAL -/

/-- The gain of an erased subframe: a weight of the newest gain, or none in a muted frame (R298). -/
def concealedGain (muted : Bool) (decay : Nat) (newest : Int) : Int :=
  if muted then 0 else interpolate decay newest 0

theorem concealedGain_unmuted (decay : Nat) (newest : Int) :
    concealedGain false decay newest = decay * newest / 2 ^ 15 := by
  simp [concealedGain, interpolate]

/-- A decay of at most 1.0 leaves a gain between 0 and the newest one. -/
theorem concealedGain_between (muted : Bool) {decay : Nat} {newest : Int} (hdecay : decay ≤ 32768)
    (hnewest : 0 ≤ newest) : 0 ≤ concealedGain muted decay newest ∧ concealedGain muted decay newest ≤ newest := by
  cases muted with
  | true => exact ⟨le_rfl, hnewest⟩
  | false =>
    have hbetween := interpolate_between (w := decay) (by omega) (by omega) newest 0
    rwa [min_eq_right hnewest, max_eq_left hnewest] at hbetween

theorem exec_gainConceal (s : State) : exec .gainConceal s = execGainConceal s := by
  rfl

theorem exec_gainConceal_of_muted {s : State} {muted : Bool} (hmuted : s.w.muted = some muted) :
    exec .gainConceal s = .next ((s.setW { s.w with
      gp := some (concealedGain muted (P.fecGpDecay s) (elem s.wrk.gpHist 0))
      gc := some (concealedGain muted (P.fecGcDecay s) (elem s.wrk.gcHist 0)) }).goto .gainUpd s.sf false) := by
  rw [exec_gainConceal, execGainConceal, hmuted, need_some]
  cases muted with
  | true => rfl
  | false => rw [concealedGain_unmuted, concealedGain_unmuted, ← asr_eq_ediv, ← asr_eq_ediv]; rfl

/-- Settles O43: both gains are concealed by one law, which leaves a gain that is not negative no larger. -/
theorem gainConcealDecay : Obligations.GainConcealDecay := by
  intro s muted hmuted
  refine ⟨_, _, exec_gainConceal_of_muted hmuted, ?_, ?_, concealedGain_between muted, concealedGain_between muted⟩
  · rintro rfl
    exact ⟨rfl, rfl⟩
  · rintro rfl
    exact ⟨concealedGain_unmuted _ _, concealedGain_unmuted _ _⟩

end Sys2Proof.Proofs
end

