-- ==== Sys2Proof/Proofs/InitialState.lean ====
section
/-! INIT on a well-formed profile (R152, R343): the values of `S`, and why they meet its invariants. The order, spacing
and bounds of the initial LSF vector and the order of the two-sided ranges are checks that INIT has made. -/

namespace Sys2Proof.Proofs
open Sys2Proof Sys2Proof.Machine

/-! ## What a well-formed profile secures -/

theorem allBelow_iff {n : Nat} {p : Nat → Bool} : allBelow n p = true ↔ ∀ i < n, p i = true := by
  simp [allBelow]

/-- Check 0x06. -/
theorem lspPredMode_le_of_profileOk {s : State} (h : profileOk s = true) : P.lspPredMode s ≤ 1 :=
  of_decide_eq_true (checkHolds_of_profileOk h (by norm_num : 0x06 < 0x8A))

/-- Check 0x42. -/
theorem fecPrngSeed_le_of_profileOk {s : State} (h : profileOk s = true) : P.fecPrngSeed s ≤ 65535 :=
  of_decide_eq_true (checkHolds_of_profileOk h (by norm_num : 0x42 < 0x8A))

/-- Check 0x62. -/
theorem pitchMin_le_pitchMax_of_profileOk {s : State} (h : profileOk s = true) : P.pitchMin s ≤ P.pitchMax s := by
  have hwindow : P.pitchMin s + P.winMargin s ≤ P.pitchMax s :=
    of_decide_eq_true (checkHolds_of_profileOk h (by norm_num : 0x62 < 0x8A))
  omega

/-- Check 0x67. -/
theorem sharpMin_le_sharpMax_of_profileOk {s : State} (h : profileOk s = true) : P.sharpMin s ≤ P.sharpMax s :=
  of_decide_eq_true (checkHolds_of_profileOk h (by norm_num : 0x67 < 0x8A))

theorem lspInitOk_iff (s : State) : lspInitOk s = true ↔
    (∀ i < P.order s, P.lspInit s i ≤ 32767) ∧ P.lsfLower s ≤ P.lspInit s 0
      ∧ (∀ i < P.order s - 1, P.lspInit s i + P.minSpacing s ≤ P.lspInit s (i + 1))
      ∧ P.lspInit s (P.order s - 1) ≤ P.lsfUpper s := by
  simp only [lspInitOk, Bool.and_eq_true, allBelow_iff, decide_eq_true_eq, and_assoc]

/-- Check 0x76. -/
theorem lspInitOk_of_profileOk {s : State} (h : profileOk s = true) : lspInitOk s = true :=
  checkHolds_of_profileOk h (by norm_num : 0x76 < 0x8A)

/-! ## The invariants of the initial values -/

theorem elem_prevLsf_initState {s : State} {i : Nat} (hi : i < P.order s) :
    elem (initState s).prevLsf i = P.lspInit s i := elem_tab hi _

theorem elem_prevLsp_initState {s : State} {i : Nat} (hi : i < P.order s) :
    elem (initState s).prevLsp i = cosQ15 (P.lspInit s i) := elem_tab hi _

theorem mem_lsfMaHist_initState {s : State} {v : List Int} (hv : v ∈ (initState s).lsfMaHist) :
    v = List.replicate (P.order s) 0 := by
  by_cases hmode : P.lspPredMode s = 0
  · simp [initState, hmode] at hv
  · simp only [initState, if_neg hmode] at hv
    exact List.eq_of_mem_replicate hv

theorem length_lsfMaHist_initState {s : State} (h : P.lspPredMode s ≤ 1) :
    (initState s).lsfMaHist.length = if P.lspPredMode s = 1 then P.lspMaNp s else 0 := by
  rcases Nat.le_one_iff_eq_zero_or_eq_one.mp h with hmode | hmode <;> simp [initState, hmode]

/-- Check 0x76 is the LSF invariant of R174 on the initial vector. -/
theorem lsfOk_initState {s : State} (h : profileOk s = true) : LsfOk s (initState s).prevLsf := by
  have hp := order_pos_of_profileOk h
  obtain ⟨-, hlower, hgaps, hupper⟩ := (lspInitOk_iff s).mp (lspInitOk_of_profileOk h)
  constructor
  case length => exact tab_length _ _
  case lower =>
    have hfirst : elem (initState s).prevLsf 0 = P.lspInit s 0 := elem_prevLsf_initState hp
    rw [hfirst]
    exact_mod_cast hlower
  case gaps =>
    intro i hi
    rw [elem_prevLsf_initState (by omega), elem_prevLsf_initState hi]
    exact_mod_cast hgaps i (by omega)
  case upper =>
    rw [elem_prevLsf_initState (by omega)]
    exact_mod_cast hupper

theorem decOk_initState {s : State} (h : profileOk s = true) : DecOk s (initState s) where
  lsf := lsfOk_initState h
  lag := ⟨le_rfl, Int.ofNat_le.mpr (pitchMin_le_pitchMax_of_profileOk h)⟩
  sharp := ⟨le_rfl, Int.ofNat_le.mpr (sharpMin_le_sharpMax_of_profileOk h)⟩
  run := Nat.zero_le _
  onset := Nat.zero_le _
  filt := Nat.zero_le _
  agc := by norm_num [initState]
  seed := Nat.lt_succ_of_le (fecPrngSeed_le_of_profileOk h)
  lspLen := tab_length _ _
  maLen := length_lsfMaHist_initState (lspPredMode_le_of_profileOk h)
  maElem v hv := by rw [mem_lsfMaHist_initState hv, List.length_replicate]
  excLen := List.length_replicate
  energyLen := List.length_replicate
  gpLen := List.length_replicate
  gcLen := List.length_replicate
  synLen := List.length_replicate
  firLen := List.length_replicate
  iirLen := List.length_replicate
  resLen := List.length_replicate

/-! ## The command -/

theorem exec_init (s : State) : exec .init s = execInit s := by
  rfl

theorem exec_init_of_profileOk {s : State} (hinited : s.status.inited = false) (h : profileOk s = true) :
    exec .init s = .next s.initialise.endCommand := by
  have hnone : failedCheck s = none := Option.isNone_iff_eq_none.mp h
  simp [exec_init, execInit, hinited, hnone]

theorem dec_initialise_endCommand (s : State) : s.initialise.endCommand.dec = initState s := rfl

/-- Settles O17: INIT passes its checks and writes `initState`, whose histories are constant lists. -/
theorem initValues : Obligations.InitValues := by
  intro s hinited h
  refine ⟨_, exec_init_of_profileOk hinited h, ?_⟩
  rw [dec_initialise_endCommand]
  have hok := decOk_initState h
  have hma : ∀ v ∈ (initState s).lsfMaHist, ∀ x ∈ v, x = 0 := fun v hv x hx =>
    List.eq_of_mem_replicate (mem_lsfMaHist_initState hv ▸ hx)
  exact ⟨hok.lsf.length, hok.lspLen, fun i hi => ⟨elem_prevLsf_initState hi, elem_prevLsp_initState hi⟩, hma,
    fun _ => List.eq_of_mem_replicate, hok.energyLen, fun _ => List.eq_of_mem_replicate,
    fun _ => List.eq_of_mem_replicate, fun _ => List.eq_of_mem_replicate, rfl, rfl, rfl, rfl, rfl,
    fun _ => List.eq_of_mem_replicate, fun _ => List.eq_of_mem_replicate, fun _ => List.eq_of_mem_replicate,
    fun _ => List.eq_of_mem_replicate, rfl, rfl, rfl, rfl, hok⟩

end Sys2Proof.Proofs
end

