-- ==== Sys2Proof/Proofs/Encoding.lean ====
section
/-! Encoding and decoding both ways (R110, R111, R130, R131), and the operation a step runs (R80, R150, R158). -/

namespace Sys2Proof.Proofs
open Sys2Proof Sys2Proof.Machine

/-! ## Command words -/

/-- A word below 4 is one of the four literals. -/
theorem eq_command_literal {w : Word} (h : ¬ 4 ≤ w.toNat) : w = 0#32 ∨ w = 1#32 ∨ w = 2#32 ∨ w = 3#32 := by
  have hcases : w.toNat = 0 ∨ w.toNat = 1 ∨ w.toNat = 2 ∨ w.toNat = 3 := by omega
  rcases hcases with h0 | h1 | h2 | h3
  · exact .inl (eq_ofNat_of_toNat h0)
  · exact .inr (.inl (eq_ofNat_of_toNat h1))
  · exact .inr (.inr (.inl (eq_ofNat_of_toNat h2)))
  · exact .inr (.inr (.inr (eq_ofNat_of_toNat h3)))

theorem encode_decodeCommand (w : Word) : encode (decodeCommand w) = .command w := by
  by_cases h : 4 ≤ w.toNat
  · rw [decodeCommand_of_four_le h, encode, cmdZero_append_cmdOp]
  · rcases eq_command_literal h with rfl | rfl | rfl | rfl <;> rfl

theorem wellFormed_decodeCommand (w : Word) : (decodeCommand w).wellFormed = true := by
  by_cases h : 4 ≤ w.toNat
  · rw [decodeCommand_of_four_le h, Instr.wellFormed, Bool.or_eq_true, decide_eq_true_eq, decide_eq_true_eq]
    by_cases hz : cmdZero w = 0#28
    · have hdiv : w.toNat / 16 = 0 := by rw [← toNat_cmdZero, hz]; rfl
      exact .inr (by rw [toNat_cmdOp]; omega)
    · exact .inl hz
  · rcases eq_command_literal h with rfl | rfl | rfl | rfl <;> rfl

/-! ## Stages -/

/-- Every id is the id of the stage it decodes to (R130). -/
theorem stageId_decodeStage (b : BitVec 5) : stageId (decodeStage b) = b := by
  revert b; decide

theorem encode_decodeStage (b : BitVec 5) : encode (decodeStage b) = .stage (seqOf b 0 false) := by
  revert b; decide

theorem wellFormed_decodeStage (b : BitVec 5) : (decodeStage b).wellFormed = true := by
  revert b; decide

/-- An operation that has a stage byte is the stage of its own id. -/
theorem decodeStage_stageId {i : Instr} {q : BitVec 8} (h : encode i = .stage q) : decodeStage (stageId i) = i := by
  cases i with
  | nop | init | decode | reset | illegal => cases h
  | _ => rfl

/-! ## Both ways -/

theorem decode_encode {i : Instr} (h : i.wellFormed = true) : decode (encode i) = i := by
  cases i with
  | illegal op zero => exact Laws.RoundTrip.illegal op zero h
  | _ => rfl

/-- Settles O1: commands go through the two fields of their word, stages through their id. -/
theorem decodeEncodeAgree : Obligations.DecodeEncodeAgree := by
  refine ⟨fun i hi => decode_encode hi, encode_decodeCommand, fun q => ⟨encode_decodeStage _, ?_⟩,
    fun i sf retry hsf ⟨q, hq⟩ => ⟨?_, ?_, seqRetry_seqOf _ _ _⟩⟩
  · rw [stageId_decodeStage]
    exact seqOf_fields q
  · rw [decode, seqStage_seqOf]
    exact decodeStage_stageId hq
  · rw [seqSf_seqOf]
    exact Nat.mod_eq_of_lt hsf

/-- Settles O3: the words and bytes are closed terms, which the decoder evaluates. -/
theorem decodedWords : Obligations.DecodedWords := by
  unfold Obligations.DecodedWords
  decide

/-! ## The operation a step runs -/

theorem wellFormed_decode (c : Code) : (decode c).wellFormed = true := by
  cases c with
  | command w => exact wellFormed_decodeCommand w
  | stage q => exact wellFormed_decodeStage _

/-- Settles O4: `step` looks at the first line of the script alone, and the block runs what is fetched. -/
theorem stepRunsDecoded : Obligations.StepRunsDecoded := by
  refine ⟨wellFormed_decode, fun s i _ hi => ?_⟩
  have hfetch : fetch s = i := by
    cases hcmd : s.cmd with
    | none => rw [hcmd] at hi; exact (fetch_stage hcmd).trans hi
    | some w => rw [hcmd] at hi; exact (fetch_command hcmd).trans hi
  have hblock : blockStep s = exec i s := by rw [blockStep, hfetch]
  refine ⟨fun h => ?_, fun r h => ?_, fun r h hdone => ?_, fun r h hdone => ?_⟩
  · rw [step, h]
    exact hblock
  · rw [step, h]
    show exec (fetch s) _ = _
    rw [hfetch]
  · rw [step, h]
    simp only [hdone]
    exact hblock
  · rw [step, h]
    simp only [hdone, if_true]

end Sys2Proof.Proofs
end

