-- ==== Sys2Proof/Proofs/ErrorsAndCsrs.lean ====
section
/-! What a raise changes (R312, R44), the CSR words as numbers (R40 to R46), and the illegal command word (R112). -/

namespace Sys2Proof.Proofs
open Sys2Proof Sys2Proof.Machine

/-! ## Words put together from fields -/

/-- Two bit fields side by side, as a number. -/
theorem toNat_append_add {m n : Nat} (x : BitVec m) (y : BitVec n) :
    (x ++ y).toNat = x.toNat * 2 ^ n + y.toNat := by
  rw [BitVec.toNat_append, ← Nat.shiftLeft_add_eq_or_of_lt y.isLt, Nat.shiftLeft_eq]

/-! ## Raising an error -/

/-- `ERRINFO` by its fields (R44). -/
theorem toNat_raise_info (r : Raise) (hfield : r.field < 256) (hsf : r.sf < 4) :
    r.info.toNat = r.value % 65536 * 65536 + r.field * 256 + r.sf * 32 + (stageId r.stage).toNat := by
  simp only [Raise.info, toNat_append_add, BitVec.toNat_ofNat]
  omega

/-- The code of an error class by number (R306). -/
theorem toNat_errCode (c : ErrCode) : c.code.toNat = match c with
    | .invalidParameter => 1
    | .unsupportedMode => 2
    | .internalInvariant => 3
    | .notInitialized => 4
    | .badProfile => 5
    | .illegalCommand => 6
    | .alreadyInitialized => 7 := by
  cases c <;> rfl

/-- Settles O12: the fields of `ERRINFO` and the code are numbers, and the update is `State.raise` itself. -/
theorem raiseEffect : Obligations.RaiseEffect := by
  intro s r hfield hsf
  exact ⟨toNat_raise_info r hfield hsf, rfl, Bool.true_and _, toNat_errCode r.code⟩

/-- Settles O18: the raise of an illegal word, with its `ERRINFO` as a number. -/
theorem illegalCommand : Obligations.IllegalCommand := by
  intro w s h
  have hinfo : (Raise.mk .illegalCommand .idle 0 0 (w.toNat % 65536)).info
      = BitVec.ofNat 32 (w.toNat % 65536 * 65536) := by
    apply eq_ofNat_of_toNat
    rw [toNat_raise_info _ (by norm_num) (by norm_num)]
    simp [stageId]
  rw [decodeCommand_of_four_le h, exec_illegal_fields, State.raise, hinfo]
  rfl

/-! ## The CSR file -/

/-- `STATUS` by its fields (R42). -/
theorem toNat_status_word (st : Status) : st.word.toNat =
    st.busy.toNat + 2 * st.done.toNat + 4 * st.inited.toNat + 8 * st.erased.toNat + 16 * st.muted.toNat
      + 32 * st.ovfRetry.toNat + 64 * st.busyViol.toNat + 256 * st.err.toNat + 65536 * st.erun.toNat := by
  simp only [Status.word, toNat_append_add, BitVec.toNat_ofBool, BitVec.toNat_ofNat]
  omega

/-- A read of `STATUS` masks the retry flag while a command runs and shows every other field (R42, R90). -/
theorem status_shown_eq (st : Status) : st.shown = { st with ovfRetry := st.ovfRetry && !st.busy } := by
  obtain ⟨busy, done, inited, erased, muted, ovfRetry, busyViol, err, erun⟩ := st
  cases busy <;> simp [Status.shown]

theorem readWord_seq_idle {s : State} (h : s.status.busy = false) : readWord s .csr 3 = s.seq.setWidth 32 := by
  simp [readWord, csrWord, h]

/-- Settles O9: each CSR is a field of the state, `STATUS` and the two narrow ones as numbers. -/
theorem csrFile : Obligations.CsrFile := by
  refine fun s => ⟨rfl, rfl, ?_, fun hidle => ?_, rfl, ?_, rfl, rfl, fun r v hhost => ?_⟩
  · show s.status.shown.word.toNat = _
    rw [toNat_status_word, status_shown_eq]
  · have hlt : s.seq.toNat < 2 ^ 32 := lt_trans s.seq.isLt (by norm_num)
    rw [readWord_seq_idle hidle, BitVec.toNat_setWidth, Nat.mod_eq_of_lt hlt]
  · show ((BitVec.ofBool s.ie).setWidth 32).toNat = s.ie.toNat
    cases s.ie <;> rfl
  · rw [step, hhost]
    rfl

end Sys2Proof.Proofs
end

