-- ==== Sys2Proof/Proofs/HostInterface.lean ====
section
/-! The host's transactions (R82 to R90), the reset input (R340), and the commands that run no stage (R150, R151, R154,
R155, R161). -/

namespace Sys2Proof.Proofs
open Sys2Proof Sys2Proof.Machine

/-! ## Serving a line of the script -/

theorem step_wr {s : State} {r : List HostOp} {sp : Space} {a : Nat} {v : Word} (h : s.host = .wr sp a v :: r) :
    step s = serveWrite { s with host := r } sp a v := by rw [step, h]

theorem step_rd {s : State} {r : List HostOp} {sp : Space} {a : Nat} (h : s.host = .rd sp a :: r) :
    step s = .next (serveRead { s with host := r } sp a) := by rw [step, h]

theorem step_rst {s : State} {r : List HostOp} (h : s.host = .rst :: r) :
    step s = .next { s with host := r }.hardReset := by rw [step, h]

/-! ## Writes -/

theorem writeCmd_of_idle {s : State} (h : s.status.busy = false) {v : Word} (hv : decodeCommand v ≠ .reset) :
    writeCmd s v = .next (s.accept v) := by
  simp only [writeCmd, h, Bool.false_eq_true, if_false]

theorem writeCmd_of_busy {s : State} (h : s.status.busy = true) (v : Word) :
    writeCmd s v = .next s.busyViolation := by
  simp only [writeCmd, h, if_true]

theorem writeProfile_of_out {s : State} {a : Nat} (h : s.caps.profileWords ≤ a) (v : Word) :
    writeProfile s a v = s := if_pos h

theorem writeProfile_of_busy {s : State} {a : Nat} (ha : a < s.caps.profileWords) (h : s.status.busy = true)
    (v : Word) : writeProfile s a v = s.busyViolation := by
  rw [writeProfile, if_neg (Nat.not_le.mpr ha : ¬ spaceSize s .profile ≤ a), if_pos h]

/-- An initialised idle block ignores the write, inside the space and beyond it (R86 b). -/
theorem writeProfile_of_inited {s : State} (h : s.status.busy = false) (hinited : s.status.inited = true) (a : Nat)
    (v : Word) : writeProfile s a v = s := by
  simp only [writeProfile, h, hinited, if_true, Bool.false_eq_true, if_false, ite_self]

theorem writeProfile_of_idle {s : State} {a : Nat} (ha : a < spaceSize s .profile) (h : s.status.busy = false)
    (hinited : s.status.inited = false) (v : Word) :
    writeProfile s a v = { s with profile := s.profile.put a v } := by
  rw [writeProfile, if_neg (Nat.not_le.mpr ha), if_neg (by simp [h]), if_neg (by simp [hinited]), putIn, if_pos ha]

theorem writeParam_of_out {s : State} {a : Nat} (h : 64 ≤ a) (v : Word) : writeParam s a v = s := if_pos h

theorem writeParam_of_busy {s : State} {a : Nat} (ha : a < 64) (h : s.status.busy = true) (v : Word) :
    writeParam s a v = s.busyViolation := by
  rw [writeParam, if_neg (Nat.not_le.mpr ha : ¬ spaceSize s .param ≤ a), if_pos h]

theorem writeParam_of_idle {s : State} {a : Nat} (ha : a < spaceSize s .param) (h : s.status.busy = false)
    (v : Word) : writeParam s a v = { s with param := s.param.put a v } := by
  rw [writeParam, if_neg (Nat.not_le.mpr ha), if_neg (by simp [h]), putIn, if_pos ha]

/-- A CSR other than `CMD` and `CTRL` ignores writes (R86 c). -/
theorem writeCsr_of_readOnly {s : State} {a : Nat} (h1 : a ≠ 1) (h5 : a ≠ 5) (v : Word) :
    writeCsr s a v = .next s := by
  unfold writeCsr
  split
  · exact absurd rfl h1
  · exact absurd rfl h5
  · rfl

/-- Settles O5: the write is served by `accept`, which leaves `DONE` at 0. -/
theorem commandAcceptance : Obligations.CommandAcceptance := by
  intro s r v hhost hidle hv
  refine ⟨_, ?_, rfl, rfl⟩
  rw [step_wr hhost]
  exact writeCmd_of_idle (s := { s with host := r }) hidle hv

/-- Settles O6: each ignored write is one branch of its space's write. -/
theorem ignoredWrites : Obligations.IgnoredWrites := by
  intro s r sp a v hhost
  rw [step_wr hhost]
  refine ⟨fun hbusy hwhere => ?_, fun hidle hinited hsp => ?_, fun hwhere => ?_⟩
  · rcases hwhere with ⟨rfl, rfl⟩ | ⟨rfl, ha⟩ | ⟨rfl, ha⟩
    · exact writeCmd_of_busy (s := { s with host := r }) hbusy v
    · exact congrArg Host.Outcome.next (writeProfile_of_busy (s := { s with host := r }) ha hbusy v)
    · exact congrArg Host.Outcome.next (writeParam_of_busy (s := { s with host := r }) ha hbusy v)
  · subst hsp
    exact congrArg Host.Outcome.next (writeProfile_of_inited (s := { s with host := r }) hidle hinited a v)
  · rcases hwhere with rfl | rfl | ⟨rfl, h1, h5⟩
    · rfl
    · rfl
    · exact writeCsr_of_readOnly h1 h5 v

/-! ## Addresses beyond a space -/

theorem csrWord_of_out {a : Nat} (h : 8 ≤ a) (s : State) : csrWord s a = 0#32 := by
  unfold csrWord
  split
  case h_7 => rfl
  all_goals omega

theorem readIsFree_of_out {s : State} {sp : Space} {a : Nat} (h : spaceSize s sp ≤ a) :
    readIsFree s sp a = false := by
  cases sp with
  | csr =>
    have h8 : 8 ≤ a := h
    simp [readIsFree, show a ≠ 3 by omega]
  | profile | param => simp [readIsFree]
  | pcm | state => simp [readIsFree, Nat.not_lt.mpr h]

theorem readWord_of_out {s : State} {sp : Space} {a : Nat} (h : spaceSize s sp ≤ a) : readWord s sp a = 0#32 := by
  have hfree := readIsFree_of_out h
  cases sp with
  | csr => exact csrWord_of_out h s
  | profile | param => exact if_pos h
  | pcm | state =>
    simp only [readWord, hfree, Bool.false_eq_true, if_false]
    exact if_pos h

/-- Settles O8: beyond the space every read takes the first branch of its space's word, and every write that of its
space's write. -/
theorem outOfRangeAccess : Obligations.OutOfRangeAccess := by
  intro s r sp a v hout
  refine ⟨readWord_of_out hout, fun hhost => ?_, fun hhost => ?_⟩
  · rw [step_wr hhost]
    cases sp with
    | csr =>
      have h8 : 8 ≤ a := hout
      exact writeCsr_of_readOnly (by omega) (by omega) v
    | profile => exact congrArg Host.Outcome.next (writeProfile_of_out (s := { s with host := r }) hout v)
    | param => exact congrArg Host.Outcome.next (writeParam_of_out (s := { s with host := r }) hout v)
    | pcm | state => rfl
  · have hfree : readIsFree { s with host := r } sp a = false := readIsFree_of_out (s := { s with host := r }) hout
    have hword : readWord { s with host := r } sp a = 0#32 := readWord_of_out (s := { s with host := r }) hout
    rw [step_rd hhost, serveRead, hfree, hword]
    rfl

/-! ## Reads -/

/-- A canonical list finds the words it lists. -/
theorem find_of_mem {size lo a : Nat} {v : Word} {m : Mem} (hwf : Mem.risingFrom size lo m = true)
    (h : (a, v) ∈ m) : m.find a = some v := by
  induction m generalizing lo with
  | nil => cases h
  | cons c m ih =>
    obtain ⟨b, u⟩ := c
    simp only [Mem.risingFrom, Bool.and_eq_true, decide_eq_true_eq] at hwf
    obtain ⟨-, hrest⟩ := hwf
    rcases List.mem_cons.mp h with heq | hmem
    · cases heq
      simp [Mem.find]
    · have hfind := ih hrest hmem
      have hne : a ≠ b := fun hab => by
        rw [Mem.find_below (by omega) hrest] at hfind
        cases hfind
      rw [Mem.find, if_neg hne, hfind]

/-- Which reads use up a free draw (R32, R87). -/
theorem readIsFree_iff (s : State) (sp : Space) (a : Nat) : readIsFree s sp a = true ↔
    s.status.busy = true ∧ ((sp = .csr ∧ a = 3) ∨ (sp = .pcm ∧ a < 512) ∨ (sp = .state ∧ a < 4096)) := by
  cases sp with
  | csr | profile | param => simp [readIsFree]
  | pcm | state =>
    rw [readIsFree, Bool.and_eq_true, decide_eq_true_eq]
    simp [spaceSize]

/-- A served read, with its free draw as a sum. -/
theorem serveRead_eq_log (s : State) (sp : Space) (a : Nat) : serveRead s sp a = { s with
    readLog := readWord s sp a :: s.readLog
    freeCtr := s.freeCtr + if s.status.busy = true
      ∧ ((sp = .csr ∧ a = 3) ∨ (sp = .pcm ∧ a < 512) ∨ (sp = .state ∧ a < 4096)) then 1 else 0 } := by
  simp only [serveRead, readIsFree_iff]
  split <;> rfl

/-- Two idle blocks that hold the same registers, spaces and `S` read alike at every word but those of PROFILE and PARAM
space. -/
theorem readWord_of_idle_eq {s t : State} (h : s.status.busy = false) (hst : t.status = s.status)
    (hcsr : t.seq = s.seq ∧ t.errinfo = s.errinfo ∧ t.ie = s.ie ∧ t.pcmlen = s.pcmlen)
    (hmem : t.dec = s.dec ∧ t.pcm = s.pcm ∧ t.unspecEpoch = s.unspecEpoch) {sp : Space} (hprof : sp ≠ .profile)
    (hparam : sp ≠ .param) (a : Nat) : readWord t sp a = readWord s sp a := by
  obtain ⟨hseq, herr, hie, hlen⟩ := hcsr
  obtain ⟨hdec, hpcm, hep⟩ := hmem
  have ht : t.status.busy = false := hst ▸ h
  cases sp with
  | csr => simp only [readWord, csrWord, hst, h, hseq, herr, hie, hlen, Bool.false_eq_true, if_false]
  | profile => exact absurd rfl hprof
  | param => exact absurd rfl hparam
  | pcm => rw [(readWord_idle ht a).1, (readWord_idle h a).1, pcmWord_eq, pcmWord_eq, hpcm, hep]
  | state =>
    rw [(readWord_idle ht a).2, (readWord_idle h a).2, stateWord, stateWord, hst, hdec, hep]
    rfl

/-- A read that leaves an idle block's words as they were. -/
theorem readWord_serveRead_of_idle {s : State} (h : s.status.busy = false) (sp sp' : Space) (a a' : Nat) :
    readWord (serveRead s sp a) sp' a' = readWord s sp' a' := by
  by_cases hprof : sp' = .profile
  · subst hprof; rfl
  by_cases hparam : sp' = .param
  · subst hparam; rfl
  exact readWord_of_idle_eq (t := serveRead s sp a) h rfl ⟨rfl, rfl, rfl, rfl⟩ ⟨rfl, rfl, rfl⟩ hprof hparam a'

/-- The words of an idle block do not depend on the rest of the script. -/
theorem readWord_withHost_of_idle {s : State} (h : s.status.busy = false) (r : List HostOp) (sp : Space) (a : Nat) :
    readWord { s with host := r } sp a = readWord s sp a := by
  by_cases hprof : sp = .profile
  · subst hprof; rfl
  by_cases hparam : sp = .param
  · subst hparam; rfl
  exact readWord_of_idle_eq (t := { s with host := r }) h rfl ⟨rfl, rfl, rfl, rfl⟩ ⟨rfl, rfl, rfl⟩ hprof hparam a

/-! ## Reading after a write -/

/-- What a write to PARAM space leaves of the words of every space. -/
theorem readWord_put_param {s : State} (h : s.status.busy = false) {a : Nat} (ha : a < 64) (v : Word) (sp' : Space)
    (a' : Nat) : readWord { s with param := s.param.put a v } sp' a' =
      if sp' = .param ∧ a' = a then v else readWord s sp' a' := by
  by_cases hparam : sp' = .param
  · subst hparam
    show paramWord _ _ = if _ then v else paramWord s a'
    rw [paramWord_eq, paramWord_eq, Mem.find_put]
    by_cases haa : a' = a
    · subst haa
      simp [ha]
    · simp [haa]
  · rw [if_neg fun h => hparam h.1]
    by_cases hprof : sp' = .profile
    · subst hprof; rfl
    · exact readWord_of_idle_eq (t := { s with param := s.param.put a v }) h rfl
         ⟨rfl, rfl, rfl, rfl⟩ ⟨rfl, rfl, rfl⟩ hprof hparam a'

/-- The same of a write to PROFILE space. -/
theorem readWord_put_profile {s : State} (h : s.status.busy = false) {a : Nat} (ha : a < s.caps.profileWords)
    (v : Word) (sp' : Space) (a' : Nat) : readWord { s with profile := s.profile.put a v } sp' a' =
      if sp' = .profile ∧ a' = a then v else readWord s sp' a' := by
  by_cases hprof : sp' = .profile
  · subst hprof
    show profWord _ _ = if _ then v else profWord s a'
    rw [profWord_eq, profWord_eq, Mem.find_put]
    by_cases haa : a' = a
    · subst haa
      simp [ha]
    · simp [haa]
  · rw [if_neg fun h => hprof h.1]
    by_cases hparam : sp' = .param
    · subst hparam; rfl
    · exact readWord_of_idle_eq (t := { s with profile := s.profile.put a v }) h rfl
         ⟨rfl, rfl, rfl, rfl⟩ ⟨rfl, rfl, rfl⟩ hprof hparam a'

theorem memOk_put_param {s : State} {a : Nat} (ha : a < 64) (v : Word) (h : MemOk s) :
    MemOk { s with param := s.param.put a v } := ⟨h.profile, Mem.wf_put v ha h.param, h.pcm⟩

theorem memOk_put_profile {s : State} {a : Nat} (ha : a < s.caps.profileWords) (v : Word) (h : MemOk s) :
    MemOk { s with profile := s.profile.put a v } := ⟨Mem.wf_put v ha h.profile, h.param, h.pcm⟩

/-- A second read of a word of PROFILE or PARAM space, whatever has been logged. -/
theorem readWord_serveRead_stored {s : State} {sp : Space} (h : sp = .profile ∨ sp = .param) (l : List Word)
    (a : Nat) : readWord (serveRead { s with readLog := l } sp a) sp a = readWord s sp a := by
  rcases h with rfl | rfl <;> rfl

/-- A listed word of a canonical PROFILE space is the word read. -/
theorem readWord_profile_of_mem {s : State} {a : Nat} {v : Word} (ha : a < s.caps.profileWords)
    (hmem : (a, v) ∈ s.profile) (hwf : s.profile.wf s.caps.profileWords = true) : readWord s .profile a = v := by
  show profWord s a = v
  rw [profWord_eq, if_neg (by omega), find_of_mem hwf hmem, Option.getD_some]

theorem readWord_param_of_mem {s : State} {a : Nat} {v : Word} (ha : a < 64) (hmem : (a, v) ∈ s.param)
    (hwf : s.param.wf 64 = true) : readWord s .param a = v := by
  show paramWord s a = v
  rw [paramWord_eq, if_neg (by omega), find_of_mem hwf hmem, Option.getD_some]

theorem pcmWord_of_mem {s : State} {a : Nat} {v : Word} (ha : a < 512) (hmem : (a, v) ∈ s.pcm)
    (hwf : s.pcm.wf 512 = true) : pcmWord s a = v := by
  rw [pcmWord_eq, if_neg (by omega), find_of_mem hwf hmem, Option.getD_some]

/-- While a command runs a word of PCM or STATE space is a free word (R87). -/
theorem readWord_of_busy {s : State} (h : s.status.busy = true) {sp : Space} {a : Nat}
    (hwhere : (sp = .pcm ∧ a < 512) ∨ (sp = .state ∧ a < 4096)) : readWord s sp a = Config.freeWord s.freeCtr := by
  have hfree : readIsFree s sp a = true := (readIsFree_iff s sp a).mpr ⟨h, .inr hwhere⟩
  rcases hwhere with ⟨rfl, -⟩ | ⟨rfl, -⟩ <;> simp only [readWord, hfree, if_true]

/-- Settles O7: a write that is not ignored is `Mem.put`, and a served read touches the log and the draw counter alone.
-/
theorem readAfterWrite : Obligations.ReadAfterWrite := by
  intro s r sp a
  refine ⟨fun v hhost hidle ha hwhere => ?_, fun hhost => ?_, fun hbusy hwhere => readWord_of_busy hbusy hwhere,
    fun v ha hmem hwf st => readWord_profile_of_mem (s := { s with status := st }) ha hmem hwf,
    fun v ha hmem hwf st => readWord_param_of_mem (s := { s with status := st }) ha hmem hwf, fun hidle => ?_⟩
  · rw [step_wr hhost]
    rcases hwhere with ⟨rfl, hinited⟩ | rfl
    · have hwrite := writeProfile_of_idle (s := { s with host := r }) ha hidle hinited v
      have hread := readWord_put_profile (s := { s with host := r }) hidle ha v
      refine ⟨_, congrArg Host.Outcome.next hwrite, rfl, ?_, fun sp' a' hne => ?_,
        fun hok => memOk_put_profile (s := { s with host := r }) ha v ⟨hok.profile, hok.param, hok.pcm⟩, fun l => ?_⟩
      · rw [hread, if_pos ⟨rfl, rfl⟩]
      · rw [hread, if_neg (by tauto)]
        exact readWord_withHost_of_idle hidle r sp' a'
      · rw [readWord_serveRead_stored (.inl rfl), hread, if_pos ⟨rfl, rfl⟩]
    · have hwrite := writeParam_of_idle (s := { s with host := r }) ha hidle v
      have hread := readWord_put_param (s := { s with host := r }) hidle ha v
      refine ⟨_, congrArg Host.Outcome.next hwrite, rfl, ?_, fun sp' a' hne => ?_,
        fun hok => memOk_put_param (s := { s with host := r }) ha v ⟨hok.profile, hok.param, hok.pcm⟩, fun l => ?_⟩
      · rw [hread, if_pos ⟨rfl, rfl⟩]
      · rw [hread, if_neg (by tauto)]
        exact readWord_withHost_of_idle hidle r sp' a'
      · rw [readWord_serveRead_stored (.inr rfl), hread, if_pos ⟨rfl, rfl⟩]
  · refine ⟨_, step_rd hhost, serveRead_eq_log _ sp a, fun hidle sp' a' => ?_, fun a' => ⟨rfl, rfl⟩⟩
    rw [readWord_serveRead_of_idle (s := { s with host := r }) hidle]
    exact readWord_withHost_of_idle hidle r sp' a'
  · rw [(readWord_idle hidle a).1]
    exact ⟨rfl, fun v ha hmem hwf => pcmWord_of_mem ha hmem hwf⟩

/-! ## Reset -/

theorem stateWord_of_not_inited {s : State} (h : s.status.inited = false) {a : Nat} (ha : a < 4096) :
    stateWord s a = Config.unspecWord .state a s.unspecEpoch := by
  rw [stateWord, if_neg (by simpa [spaceSize] using ha), if_neg (by simp [h])]

theorem pcmWord_of_nil {s : State} (h : s.pcm = []) {a : Nat} (ha : a < 512) :
    pcmWord s a = Config.unspecWord .pcm a s.unspecEpoch := by
  rw [pcmWord_eq, if_neg (by omega), h]
  rfl

/-- Settles O13: the spaces are empty lists, so every word inside them is the free word of the new epoch. -/
theorem hardwareReset : Obligations.HardwareReset := by
  intro s r hhost
  refine ⟨_, step_rst hhost, rfl, rfl, rfl, rfl, rfl, rfl, rfl, rfl, rfl, rfl, rfl, rfl, rfl, rfl,
    fun a ha => ?_, fun a ha => ?_, fun a ha => ?_, fun a ha => ?_⟩
  · exact (profWord_eq _ a).trans (if_neg (Nat.not_le.mpr ha))
  · exact (paramWord_eq _ a).trans (if_neg (Nat.not_le.mpr ha))
  · exact pcmWord_of_nil rfl ha
  · exact stateWord_of_not_inited rfl ha

/-- Settles O14: RESET lists no PCM word and clears `INITED`, and a `CMD` write of 3 is RESET in the step that accepts
it. -/
theorem resetCommand : Obligations.ResetCommand := by
  refine fun s => ⟨⟨_, rfl, rfl, rfl, rfl, rfl, rfl, rfl, rfl, rfl, rfl, rfl, rfl, rfl, rfl, fun a => ⟨rfl, rfl⟩,
    fun a ha => pcmWord_of_nil rfl ha, fun a ha => stateWord_of_not_inited rfl ha⟩, fun r v hhost hidle hv => ?_⟩
  obtain rfl : v = 3#32 := eq_ofNat_of_toNat hv
  rw [step_wr hhost]
  show (if s.status.busy then _ else _) = _
  rw [if_neg (by simp [hidle])]
  rfl

/-! ## Commands that run no stage -/

theorem exec_decode_of_inited {s : State} (h : s.status.inited = true) :
    exec .decode s = .next s.startDecode := if_pos h

theorem exec_decode_of_not_inited {s : State} (h : s.status.inited = false) :
    exec .decode s = .next (s.dropPcm.raise
      { code := .notInitialized, stage := .idle, sf := 0, field := 0, value := 0 }) := if_neg (by simp [h])

/-- Settles O15: the two ends of DECODE are a start and a raise; `ERRINFO` of that raise is 0. -/
theorem nopIdleDecode : Obligations.NopIdleDecode := by
  refine fun s => ⟨rfl, rfl, fun hinited => ?_, fun hinited => ?_⟩
  · rw [exec_decode_of_inited hinited]
    rfl
  · rw [exec_decode_of_not_inited hinited]
    rfl

end Sys2Proof.Proofs
end

