-- ==== Sys2Proof/Proofs/StateWindow.lean ====
section
/-! The STATE window (R127): its rows rise and do not overlap, so the row that
covers an address is the one shown there. -/

namespace Sys2Proof.Proofs
open Sys2Proof Sys2Proof.Machine

/-! ## Rows -/

theorem covers_iff (r : WindowRow) (a : Nat) : r.covers a = true ↔ r.off ≤ a ∧ a < r.off + r.words := by
  simp [WindowRow.covers]

/-- Every row begins at or after the end of the rows before it. -/
theorem windowRows_rise (d : DecState) : (windowRows d).Pairwise fun r r' => r.off + r.words ≤ r'.off := by
  simp [windowRows, rowA, rowI, rowU]

/-- In rows that rise, the first one found at an address is the only one that covers it. -/
theorem find?_covers_of_mem {rows : List WindowRow} (hrise : rows.Pairwise fun r r' => r.off + r.words ≤ r'.off)
    {r : WindowRow} (hr : r ∈ rows) {a : Nat} (ha : r.off ≤ a ∧ a < r.off + r.words) :
    rows.find? (fun r => r.covers a) = some r := by
  induction rows with
  | nil => cases hr
  | cons r' rows ih =>
    obtain ⟨hfirst, hrest⟩ := List.pairwise_cons.mp hrise
    rcases List.mem_cons.mp hr with rfl | hmem
    · exact List.find?_cons_of_pos ((covers_iff r a).mpr ha)
    · have hend := hfirst r hmem
      rw [List.find?_cons_of_neg (by rw [covers_iff]; omega)]
      exact ih hrest hmem

/-- The word of the row that covers an address. -/
theorem windowWord_of_mem {d : DecState} {r : WindowRow} (hr : r ∈ windowRows d) {i : Nat} (hi : i < r.words) :
    windowWord d (r.off + i) = (r.vals[i]?).getD 0#32 := by
  rw [windowWord, find?_covers_of_mem (windowRows_rise d) hr (by omega)]
  simp

/-- A row of an array shows its elements and 0 beyond them. -/
theorem windowWord_rowA {d : DecState} {off words : Nat} {l : List Int} (hr : rowA off words l ∈ windowRows d)
    {i : Nat} (hi : i < words) :
    windowWord d (off + i) = if i < l.length then i16Word (elem l i) else 0#32 := by
  have hword : windowWord d (off + i) = ((l.map i16Word)[i]?).getD 0#32 := windowWord_of_mem hr hi
  rw [hword, List.getElem?_map]
  split
  case isTrue hlt => rw [List.getElem?_eq_getElem hlt, elem_eq_getElem hlt]; rfl
  case isFalse hge => rw [List.getElem?_eq_none (by omega)]; rfl

/-- A row of one word shows it. -/
theorem windowWord_rowI {d : DecState} {off : Nat} {v : Int} (hr : rowI off v ∈ windowRows d) :
    windowWord d off = i16Word v := windowWord_of_mem hr (Nat.zero_lt_one : 0 < (rowI off v).words)

theorem windowWord_rowU {d : DecState} {off v : Nat} (hr : rowU off v ∈ windowRows d) :
    windowWord d off = BitVec.ofNat 32 v := windowWord_of_mem hr (Nat.zero_lt_one : 0 < (rowU off v).words)

theorem windowWord_of_uncovered {d : DecState} {a : Nat}
    (h : ∀ r ∈ windowRows d, ¬ (r.off ≤ a ∧ a < r.off + r.words)) : windowWord d a = 0#32 := by
  have hnone : (windowRows d).find? (fun r => r.covers a) = none :=
    List.find?_eq_none.mpr fun r hr hcov => h r hr ((covers_iff r a).mp hcov)
  rw [windowWord, hnone]

/-- The gaps of the layout. -/
theorem windowWord_of_gap (d : DecState) {a : Nat}
    (h : (0x081 ≤ a ∧ a < 0x090) ∨ (0x0C0 ≤ a ∧ a < 0x100) ∨ 0x900 ≤ a) : windowWord d a = 0#32 := by
  apply windowWord_of_uncovered
  simp only [windowRows, rowA, rowI, rowU, List.forall_mem_cons]
  refine ⟨?_, ?_, ?_, ?_, ?_, ?_, ?_, ?_, ?_, ?_, ?_, ?_, ?_, ?_, ?_, ?_, ?_, ?_, ?_, ?_, ?_, ?_, ?_,
    fun _ h => by cases h⟩ <;> omega

/-! ## The window of an initialised block -/

theorem readWord_state_of_inited {s : State} (hidle : s.status.busy = false) (hinited : s.status.inited = true)
    {a : Nat} (ha : a < 4096) : readWord s .state a = windowWord s.dec a := by
  rw [(readWord_idle hidle a).2, stateWord, if_neg (Nat.not_le.mpr ha : ¬ spaceSize s .state ≤ a), if_pos hinited]

/-- Settles O11: each array and each single word is one row of the window, named here by its place, and the remaining
addresses lie in no row. -/
theorem stateWindow : Obligations.StateWindow := by
  intro s hidle hinited
  have hword {a : Nat} (ha : a < 4096) : readWord s .state a = windowWord s.dec a :=
    readWord_state_of_inited hidle hinited ha
  have harray (k : Nat) {off words : Nat} {l : List Int} (hrow : (windowRows s.dec)[k]? = some (rowA off words l))
      (hroom : off + words ≤ 4096) : ∀ i < words, readWord s .state (off + i)
        = if i < l.length then i16Word (elem l i) else 0#32 := fun i hi => by
    rw [hword (by omega), windowWord_rowA (List.mem_of_getElem? hrow) hi]
  have hsingle (k : Nat) {off : Nat} {v : Int} (hrow : (windowRows s.dec)[k]? = some (rowI off v))
      (hroom : off < 4096) : readWord s .state off = i16Word v :=
    (hword hroom).trans (windowWord_rowI (List.mem_of_getElem? hrow))
  have hcount (k : Nat) {off v : Nat} (hrow : (windowRows s.dec)[k]? = some (rowU off v)) (hroom : off < 4096) :
      readWord s .state off = BitVec.ofNat 32 v :=
    (hword hroom).trans (windowWord_rowU (List.mem_of_getElem? hrow))
  have hma : ∀ j < 4, ∀ i < 16, readWord s .state (0x020 + 16 * j + i) =
      if i < (maRow s.dec j).length then i16Word (elem (maRow s.dec j) i) else 0#32 := fun j hj => by
    interval_cases j
    · exact harray 2 rfl (by norm_num)
    · exact harray 3 rfl (by norm_num)
    · exact harray 4 rfl (by norm_num)
    · exact harray 5 rfl (by norm_num)
  refine ⟨fun i hi => ?_, harray 1 rfl (by norm_num), hma, harray 6 rfl (by norm_num), harray 7 rfl (by norm_num),
    harray 8 rfl (by norm_num), hsingle 9 rfl (by norm_num), hcount 10 rfl (by norm_num),
    hcount 11 rfl (by norm_num), hcount 12 rfl (by norm_num), hsingle 13 rfl (by norm_num),
    hcount 14 rfl (by norm_num), hcount 15 rfl (by norm_num), hsingle 16 rfl (by norm_num),
    hsingle 17 rfl (by norm_num), harray 18 rfl (by norm_num), harray 19 rfl (by norm_num),
    harray 20 rfl (by norm_num), harray 21 rfl (by norm_num), harray 22 rfl (by norm_num), fun a ha => ?_⟩
  · have hfirst := harray 0 rfl (by norm_num) i hi
    rwa [Nat.zero_add] at hfirst
  · by_cases hroom : a < 4096
    · rw [hword hroom, windowWord_of_gap _ ha]
    · exact readWord_of_out (Nat.not_lt.mp hroom : spaceSize s .state ≤ a)

end Sys2Proof.Proofs
end

