-- ==== Sys2Proof/Proofs/CosineTable.lean ====
section
/-! LSF_STAB on arrays (R173) and the cosine table (R177). The table falls, so a value between two of its entries lies
between them, and falls with its offset. -/

namespace Sys2Proof.Proofs
open Sys2Proof Sys2Proof.Machine

/-- Settles O23: the three passes on the listed array, one by one. -/
theorem lsfStabLoops : Obligations.LsfStabLoops := stabilise_tab

/-! ## The table -/

/-- Entry `k` of the table. -/
def cosEntry (k : Nat) : Int := elem cosTab k

theorem cosTable_getElem? {k : Nat} (h : k ≤ 64) : Spec.cosTable[k]? = some (cosEntry k) := by
  have hlen : cosTab.length = 65 := rfl
  rw [cosEntry, elem_eq_getElem (by omega)]
  exact List.getElem?_eq_getElem (l := cosTab) (by omega)

theorem cosEntry_succ_le : ∀ k < 64, cosEntry (k + 1) ≤ cosEntry k := by decide

theorem cosEntry_antitone {i j : Nat} (hij : i ≤ j) (hj : j ≤ 64) : cosEntry j ≤ cosEntry i := by
  induction j, hij using Nat.le_induction with
  | base => exact le_rfl
  | succ j hij ih => exact (cosEntry_succ_le j (by omega)).trans (ih (by omega))

/-! ## Between two entries -/

theorem cosQ15_eq (k : Nat) {off : Nat} (hoff : off < 512) :
    cosQ15 (512 * k + off) = cosEntry k + (cosEntry (k + 1) - cosEntry k) * off / 2 ^ 9 := by
  have hk : asr (512 * k + off) 9 = (k : Int) := by rw [asr_eq_ediv]; omega
  have hmod : (512 * k + off : Int) % 512 = off := by omega
  simp only [cosQ15, hk, hmod, asr_eq_ediv, cosEntry]
  push_cast
  rfl

/-- Every argument of the table is an entry and an offset. -/
theorem exists_entry_offset {x : Int} (h0 : 0 ≤ x) (h1 : x ≤ 32767) :
    ∃ k off : Nat, k < 64 ∧ off < 512 ∧ x = 512 * k + off :=
  ⟨(x / 512).toNat, (x % 512).toNat, by omega, by omega, by omega⟩

/-- An interpolated value lies between its two entries. -/
theorem cosQ15_between {k off : Nat} (hk : k < 64) (hoff : off < 512) :
    cosEntry (k + 1) ≤ cosQ15 (512 * k + off) ∧ cosQ15 (512 * k + off) ≤ cosEntry k := by
  have hfall := cosEntry_succ_le k hk
  rw [cosQ15_eq k hoff]
  constructor
  · have hlow : cosEntry (k + 1) - cosEntry k ≤ (cosEntry (k + 1) - cosEntry k) * off / 2 ^ 9 := by
      rw [Int.le_ediv_iff_mul_le (by norm_num)]
      exact mul_le_mul_of_nonpos_left (by omega) (by omega)
    omega
  · have hhigh : (cosEntry (k + 1) - cosEntry k) * off / 2 ^ 9 ≤ 0 :=
      Int.ediv_nonpos_of_nonpos_of_neg (mul_nonpos_of_nonpos_of_nonneg (by omega) (by omega)) (by norm_num)
    omega

/-- Between the same two entries the value falls with the offset; otherwise an entry stands between. -/
theorem cosQ15_antitone {x y : Int} (h0 : 0 ≤ x) (hxy : x ≤ y) (h1 : y ≤ 32767) : cosQ15 y ≤ cosQ15 x := by
  obtain ⟨k, off, hk, hoff, rfl⟩ := exists_entry_offset h0 (hxy.trans h1)
  obtain ⟨k', off', hk', hoff', rfl⟩ := exists_entry_offset (h0.trans hxy) h1
  rcases (by omega : k = k' ∨ k + 1 ≤ k') with rfl | hlt
  · have hfall := cosEntry_succ_le k hk
    have hle : (cosEntry (k + 1) - cosEntry k) * off' ≤ (cosEntry (k + 1) - cosEntry k) * off :=
      mul_le_mul_of_nonpos_left (by omega) (by omega)
    rw [cosQ15_eq k hoff, cosQ15_eq k hoff']
    exact Int.add_le_add_left (Int.ediv_le_ediv (by norm_num) hle) _
  · exact ((cosQ15_between hk' hoff').2.trans (cosEntry_antitone hlt hk'.le)).trans (cosQ15_between hk hoff).1

/-- The value at offset 0 is the entry. -/
theorem cosQ15_entry (k : Nat) : cosQ15 (512 * k) = cosEntry k := by
  have h := cosQ15_eq k (off := 0) (by norm_num)
  simpa using h

/-- Settles O24: the interpolation is `cosQ15_eq`, and the ends of the table bound every value. -/
theorem cosineTable : Obligations.CosineTable := by
  refine ⟨fun k hk => ⟨_, _, cosTable_getElem? hk.le, cosTable_getElem? (by omega), fun off hoff => cosQ15_eq k hoff⟩,
    fun k hk => ⟨_, cosTable_getElem? hk.le, cosQ15_entry k⟩, fun x y h0 hxy h1 => cosQ15_antitone h0 hxy h1,
    fun x h0 h1 => ?_⟩
  obtain ⟨k, off, hk, hoff, rfl⟩ := exists_entry_offset h0 h1
  obtain ⟨hlow, hhigh⟩ := cosQ15_between hk hoff
  have hlast : cosEntry 64 = -32767 := by decide
  have hfirst : cosEntry 0 = 32767 := by decide
  have hlow' := cosEntry_antitone (show k + 1 ≤ 64 by omega) le_rfl
  have hhigh' := cosEntry_antitone (Nat.zero_le k) hk.le
  omega

end Sys2Proof.Proofs
end

