-- ==== Sys2Proof/Proofs/PitchDecoder.lean ====
section
/-! The pitch-delay decoder (R191 to R197): both laws as the rules write them, when the decoder fails, and the two stages.
-/

namespace Sys2Proof.Proofs
open Sys2Proof Sys2Proof.Machine

/-! ## The two laws -/

theorem pitchAbsT_eq (s : State) (idx : Nat) : pitchAbsT s idx = Spec.absT s idx := by
  rw [pitchAbsT, Spec.absT]
  exact if_congr (by norm_cast) (by push_cast; rfl) (by push_cast; rfl)

/-- The differential law from a window that is not empty. -/
theorem pitchRelT_eq {s : State} (h : P.pitchMin s + P.winMargin s ≤ P.pitchMax s) (idx : Nat) (prev : Int) :
    pitchRelT s idx prev = Spec.relT s idx prev := by
  have hbase : pitchTmin s prev =
      max (P.pitchMin s : Int) (min ((P.pitchMax s : Int) - P.winMargin s) (prev - P.winBack s)) :=
    clip_of_le (by omega) _
  rw [pitchRelT, Spec.relT, hbase]

/-! ## The decoder -/

/-- Bits of the field and the delay before the range check, by the law in use. -/
def pitchBits (s : State) (abs : Bool) : Nat := if abs then P.absBits s else P.relBits s

def pitchT (s : State) (abs : Bool) (idx : Nat) (prev : Int) : Int :=
  if abs then pitchAbsT s idx else pitchRelT s idx prev

/-- The decoder answers exactly where the index fits its field and the delay its range (R191). -/
theorem pitchDecodeBy_eq (s : State) (abs : Bool) (idx : Nat) (prev : Int) :
    pitchDecodeBy s abs idx prev = if idx < 2 ^ pitchBits s abs ∧ Spec.inRange s (pitchT s abs idx prev) then
      some (floorDiv (pitchT s abs idx prev) (P.pitchRes s), floorMod (pitchT s abs idx prev) (P.pitchRes s))
      else none := by
  simp only [pitchDecodeBy, pitchBits, pitchT, Spec.inRange]
  split_ifs <;> first | rfl | omega

/-- Where it answers, the delay is the quotient and the remainder by the resolution. -/
theorem pitchDecodeBy_of_inRange {s : State} {abs : Bool} {idx : Nat} {prev t : Int} (hres : 0 < P.pitchRes s)
    (hidx : idx < 2 ^ pitchBits s abs) (ht : t = pitchT s abs idx prev) (hrange : Spec.inRange s t) :
    pitchDecodeBy s abs idx prev = some (t / P.pitchRes s, t % P.pitchRes s) := by
  subst ht
  rw [pitchDecodeBy_eq, if_pos ⟨hidx, hrange⟩, floorDiv_of_pos (by omega), floorMod_of_pos (by omega)]

/-- The quotient of a delay in range lies between the bounds of the profile (R196). -/
theorem lagOk_of_inRange {s : State} {t : Int} (hres : 0 < P.pitchRes s) (h : Spec.inRange s t) :
    LagOk s (t / P.pitchRes s) := by
  obtain ⟨hlow, hhigh⟩ := h
  have hpos : (0 : Int) < P.pitchRes s := by omega
  constructor
  · rw [Int.le_ediv_iff_mul_le hpos, mul_comm]
    exact hlow
  · refine Int.le_of_lt_add_one ?_
    rw [Int.ediv_lt_iff_lt_mul hpos, add_mul, one_mul, mul_comm]
    omega

/-- What any decoded delay is like (R196, R197). -/
theorem pitchDecodeBy_bounds {s : State} {abs : Bool} {idx : Nat} {prev ti tf : Int} (hres : 0 < P.pitchRes s)
    (h : pitchDecodeBy s abs idx prev = some (ti, tf)) : LagOk s ti ∧ 0 ≤ tf ∧ tf < P.pitchRes s := by
  have hpos : (0 : Int) < P.pitchRes s := by omega
  rw [pitchDecodeBy_eq] at h
  split at h
  case isFalse => cases h
  case isTrue hok =>
    rw [floorDiv_of_pos hpos, floorMod_of_pos hpos] at h
    cases h
    exact ⟨lagOk_of_inRange hres hok.2, Int.emod_nonneg _ hpos.ne', Int.emod_lt_of_pos _ hpos⟩

/-- Settles O28: the mask picks the law, and the decoder's one condition is that the index fits and the delay is in
range. -/
theorem pitchRange : Obligations.PitchRange := by
  refine fun s sf idx prev hres => ⟨fun ti tf h => ?_, fun bits t hlaw => ?_⟩
  · obtain ⟨hlag, hfrac⟩ := pitchDecodeBy_bounds hres h
    refine ⟨hlag, hfrac.1, hfrac.2, fun hmin hzero => ?_⟩
    have hlow := hlag.1
    omega
  · have hlaw' : bits = pitchBits s ((P.pitchAbsMask s).testBit sf)
        ∧ t = pitchT s ((P.pitchAbsMask s).testBit sf) idx prev := by
      rcases hlaw with ⟨hbit, hbits, ht⟩ | ⟨hbit, hbits, hwindow, ht⟩
      · rw [hbit]
        exact ⟨hbits, ht.trans (pitchAbsT_eq s idx).symm⟩
      · rw [hbit]
        exact ⟨hbits, ht.trans (pitchRelT_eq hwindow idx prev).symm⟩
    obtain ⟨rfl, rfl⟩ := hlaw'
    refine ⟨?_, fun hidx hrange => pitchDecodeBy_of_inRange hres hidx rfl hrange⟩
    rw [pitchDecode, pitchDecodeBy_eq, ite_eq_right_iff, ← not_lt]
    exact ⟨fun h => by by_contra hnot; exact absurd (h (by tauto)) (by simp), fun h hok => by tauto⟩

/-! ## The two stages -/

theorem exec_pitchAbs (s : State) :
    exec .pitchAbs s = pitchInto s (pitchDecodeBy s true (F.pitchIdx s s.sf) s.wrk.prevLagInt) := by
  rfl

theorem exec_pitchRel (s : State) :
    exec .pitchRel s = pitchInto s (pitchDecodeBy s false (F.pitchIdx s s.sf) s.wrk.prevLagInt) := by
  rfl

/-- A range of delays is not empty with a resolution of 0 only where it ends below its start. -/
theorem pitchRes_pos_of_inRange {s : State} {t : Int} (h : Spec.inRange s t) : 0 < P.pitchRes s := by
  by_contra hzero
  obtain ⟨hlow, hhigh⟩ := h
  rw [show P.pitchRes s = 0 by omega] at hlow hhigh
  omega

/-- Settles O27: the delay of each law is in range, so the decoder answers with its quotient and remainder. -/
theorem pitchStages : Obligations.PitchStages := by
  intro s t hrange
  have hres := pitchRes_pos_of_inRange hrange
  refine ⟨fun hidx ht => ?_, fun hidx hwindow ht => ?_⟩
  · rw [exec_pitchAbs, pitchDecodeBy_of_inRange hres hidx (ht.trans (pitchAbsT_eq s _).symm) hrange]
    rfl
  · rw [exec_pitchRel, pitchDecodeBy_of_inRange hres hidx (ht.trans (pitchRelT_eq hwindow _ _).symm) hrange]
    rfl

end Sys2Proof.Proofs
end

