-- ==== Sys2Proof/Proofs/FixedCodebook.lean ====
section
/-! The fixed codebook (R216 to R224): the positions of every family are one field a pulse and a test of what is left of
the code, so one lemma about such lists serves the three decoders. -/

namespace Sys2Proof.Proofs
open Sys2Proof Sys2Proof.Machine

/-! ## One position a pulse -/

/-- The positions `f k, f (k+1), …` of `n` pulses, none of which may fail, where the code's rest is legal. -/
def collect (f : Nat → Option Nat) (rest : Prop) [Decidable rest] : Nat → Nat → Option (List Nat)
  | 0, _ => if rest then some [] else none
  | n + 1, k => (f k).bind fun x => (collect f rest n (k + 1)).map (x :: ·)

theorem collect_eq_some_iff (f : Nat → Option Nat) (rest : Prop) [Decidable rest] (n k : Nat) (pos : List Nat) :
    collect f rest n k = some pos ↔ pos.length = n ∧ rest ∧ ∀ i < n, ∃ x, f (k + i) = some x ∧ pos[i]? = some x := by
  induction n generalizing k pos with
  | zero =>
    simp only [collect, Option.ite_none_right_eq_some, Option.some.injEq, List.length_eq_zero_iff, eq_comm (a := pos)]
    exact ⟨fun ⟨hrest, hpos⟩ => ⟨hpos, hrest, fun i hi => absurd hi (Nat.not_lt_zero i)⟩,
      fun ⟨hpos, hrest, _⟩ => ⟨hrest, hpos⟩⟩
  | succ n ih =>
    simp only [collect, Option.bind_eq_some_iff, Option.map_eq_some_iff, ih, Nat.forall_lt_succ_left, Nat.add_zero]
    constructor
    · rintro ⟨x, hx, xs, ⟨hlen, hrest, hxs⟩, rfl⟩
      refine ⟨by simp [hlen], hrest, ⟨x, hx, rfl⟩, fun i hi => ?_⟩
      rw [← Nat.add_assoc, Nat.add_right_comm]
      exact hxs i hi
    · rintro ⟨hlen, hrest, ⟨x, hx, hfirst⟩, hxs⟩
      cases pos with
      | nil => cases hfirst
      | cons x' xs =>
        cases hfirst
        refine ⟨x, hx, xs, ⟨by simpa using hlen, hrest, fun i hi => ?_⟩, rfl⟩
        rw [Nat.add_right_comm, Nat.add_assoc]
        exact hxs i hi

/-! ## The track families (R217, R218) -/

/-- Where the field of pulse `k` begins in the code. -/
def fieldOffset (s : State) (k : Nat) : Nat := ∑ j ∈ Finset.range k, P.fcbBits s j

theorem fieldOffset_succ (s : State) (k : Nat) : fieldOffset s (k + 1) = fieldOffset s k + P.fcbBits s k :=
  Finset.sum_range_succ _ k

/-- The field of pulse `k`. -/
def trackField (s : State) (gray : Bool) (code k : Nat) : Nat :=
  let raw := code / 2 ^ fieldOffset s k % 2 ^ P.fcbBits s k
  if gray then grayDecode raw else raw

/-- The position of pulse `k`, where its field is in its table. -/
def trackPosition (s : State) (gray : Bool) (code k : Nat) : Option Nat :=
  if P.fcbTabSize s k ≤ trackField s gray code k then none else some (P.fcbTab s k (trackField s gray code k))

/-- One pulse of the decoder: its field is looked up, and the next pulse's begins where it ends. -/
theorem trackFrom_succ (s : State) (gray : Bool) (code n k : Nat) :
    trackFrom s gray code (n + 1) k (fieldOffset s k) =
      if P.fcbTabSize s k ≤ trackField s gray code k then none
      else (trackFrom s gray code n (k + 1) (fieldOffset s (k + 1))).map
        (P.fcbTab s k (trackField s gray code k) :: ·) := by
  rw [trackField, fieldOffset_succ, ← Nat.shiftRight_eq_div_pow]
  rfl

theorem trackFrom_eq_collect (s : State) (gray : Bool) (code n k : Nat) :
    trackFrom s gray code n k (fieldOffset s k)
      = collect (trackPosition s gray code) (code / 2 ^ fieldOffset s (k + n) = 0) n k := by
  induction n generalizing k with
  | zero => rw [trackFrom, collect, Nat.shiftRight_eq_div_pow, Nat.add_zero]
  | succ n ih =>
    rw [trackFrom_succ, collect, ih, trackPosition, show k + 1 + n = k + (n + 1) by omega]
    split <;> rfl

theorem trackPositions_iff (s : State) (gray : Bool) (code : Nat) (pos : List Nat) :
    trackPositions s gray code = some pos ↔
      pos.length = P.fcbNpulses s ∧ code / 2 ^ fieldOffset s (P.fcbNpulses s) = 0
        ∧ ∀ k < P.fcbNpulses s, trackField s gray code k < P.fcbTabSize s k
          ∧ pos[k]? = some (P.fcbTab s k (trackField s gray code k)) := by
  have hcollect : trackPositions s gray code = collect (trackPosition s gray code)
      (code / 2 ^ fieldOffset s (0 + P.fcbNpulses s) = 0) (P.fcbNpulses s) 0 := trackFrom_eq_collect s gray code _ 0
  rw [hcollect, collect_eq_some_iff, Nat.zero_add]
  simp only [trackPosition, Nat.zero_add, Option.ite_none_left_eq_some, Option.some.injEq, Nat.not_le]
  refine and_congr_right fun _ => and_congr_right fun _ => forall₂_congr fun k _ => ?_
  exact ⟨fun ⟨_, ⟨hlt, hx⟩, hpos⟩ => ⟨hlt, hx ▸ hpos⟩, fun ⟨hlt, hpos⟩ => ⟨_, ⟨hlt, rfl⟩, hpos⟩⟩

/-! ## The base-B family (R219) -/

/-- The position of pulse `k`: digit `k` of the code. -/
def basePosition (s : State) (code k : Nat) : Nat :=
  P.fcbStride s * (code / P.fcbBase s ^ k % P.fcbBase s) + P.fcbCOfs s k

theorem baseBFrom_eq_collect {s : State} (hbase : 0 < P.fcbBase s) (code n k : Nat) :
    baseBFrom s n k (code / P.fcbBase s ^ k)
      = collect (fun k => some (basePosition s code k)) (code / P.fcbBase s ^ (k + n) = 0) n k := by
  induction n generalizing k with
  | zero => rfl
  | succ n ih =>
    have hnext := ih (k + 1)
    rw [show k + 1 + n = k + (n + 1) by omega] at hnext
    rw [baseBFrom, collect, natDiv_of_pos hbase, natMod_of_pos hbase, Nat.div_div_eq_div_mul, ← pow_succ, hnext]
    rfl

theorem baseBPositions_iff {s : State} (hbase : 0 < P.fcbBase s) (code : Nat) (pos : List Nat) :
    baseBPositions s code = some pos ↔
      pos.length = P.fcbNpulses s ∧ code < P.fcbBase s ^ P.fcbNpulses s
        ∧ ∀ k < P.fcbNpulses s, pos[k]? = some (basePosition s code k) := by
  have hcollect := baseBFrom_eq_collect hbase code (P.fcbNpulses s) 0
  rw [pow_zero, Nat.div_one, Nat.zero_add] at hcollect
  rw [baseBPositions, hcollect, collect_eq_some_iff, Nat.div_eq_zero_iff_lt (pow_pos hbase _)]
  simp only [Nat.zero_add, Option.some.injEq, exists_eq_left']

/-! ## The explicit family (R220) -/

/-- The field of pulse `k`, which is its position. -/
def explicitField (s : State) (code k : Nat) : Nat :=
  code / 2 ^ (k * P.fcbPosbits s) % 2 ^ P.fcbPosbits s

/-- The position of pulse `k`, where it is inside the subframe. -/
def explicitPosition (s : State) (code k : Nat) : Option Nat :=
  if P.sfLen s ≤ explicitField s code k then none else some (explicitField s code k)

theorem explicitFrom_eq_collect (s : State) (code n k : Nat) :
    explicitFrom s code n k
      = collect (explicitPosition s code) (code / 2 ^ ((k + n) * P.fcbPosbits s) = 0) n k := by
  induction n generalizing k with
  | zero => rw [explicitFrom, collect, Nat.shiftRight_eq_div_pow, Nat.add_zero]
  | succ n ih =>
    rw [explicitFrom, collect, ih, explicitPosition, explicitField, Nat.shiftRight_eq_div_pow,
      show k + 1 + n = k + (n + 1) by omega]
    split <;> rfl

theorem explicitPositions_iff (s : State) (code : Nat) (pos : List Nat) :
    explicitPositions s code = some pos ↔
      pos.length = P.fcbNpulses s ∧ code < 2 ^ (P.fcbNpulses s * P.fcbPosbits s)
        ∧ ∀ k < P.fcbNpulses s, explicitField s code k < P.sfLen s ∧ pos[k]? = some (explicitField s code k) := by
  rw [explicitPositions, explicitFrom_eq_collect, collect_eq_some_iff, Nat.zero_add,
    Nat.div_eq_zero_iff_lt (by positivity)]
  simp only [explicitPosition, Nat.zero_add, Option.ite_none_left_eq_some, Option.some.injEq, Nat.not_le]
  refine and_congr_right fun _ => and_congr_right fun _ => forall₂_congr fun k _ => ?_
  exact ⟨fun ⟨_, ⟨hlt, hx⟩, hpos⟩ => ⟨hlt, hx ▸ hpos⟩, fun ⟨hlt, hpos⟩ => ⟨_, ⟨hlt, rfl⟩, hpos⟩⟩

/-- Settles O31: each family by its own lemma. -/
theorem fcbPositions : Obligations.FcbPositions := fun s code pos =>
  ⟨fun gray => trackPositions_iff s gray code pos, fun hbase => baseBPositions_iff hbase code pos,
    explicitPositions_iff s code pos⟩

/-! ## Positions inside the subframe (R24, R216) -/

/-- Check 0x01. -/
theorem sfLen_pos_of_profileOk {s : State} (h : profileOk s = true) : 1 ≤ P.sfLen s := by
  have h1 : inRange (P.sfLen s) 1 s.caps.sfLen = true := checkHolds_of_profileOk h (by norm_num : 0x01 < 0x8A)
  simp only [inRange, Bool.and_eq_true, decide_eq_true_eq] at h1
  omega

/-- Check 0x1F. -/
theorem fcbFamily_le_of_profileOk {s : State} (h : profileOk s = true) : P.fcbFamily s ≤ 3 :=
  of_decide_eq_true (checkHolds_of_profileOk h (by norm_num : 0x1F < 0x8A))

/-- Check 0x22. -/
theorem fcbBase_ge_of_profileOk {s : State} (h : profileOk s = true) (hfam : P.fcbFamily s = 2) :
    2 ≤ P.fcbBase s := by
  have h22 : (decide (P.fcbFamily s ≠ 2) || inRange (P.fcbBase s) 2 s.caps.sfLen) = true :=
    checkHolds_of_profileOk h (by norm_num : 0x22 < 0x8A)
  simp [hfam, inRange] at h22
  exact h22.1

/-- Check 0x7D in the base-B family. -/
theorem basePosition_room_of_profileOk {s : State} (h : profileOk s = true) (hfam : P.fcbFamily s = 2) {k : Nat}
    (hk : k < P.fcbNpulses s) : P.fcbCOfs s k + P.fcbStride s * (P.fcbBase s - 1) ≤ P.sfLen s - 1 := by
  have h7D : fcbDescOk s = true := checkHolds_of_profileOk h (by norm_num : 0x7D < 0x8A)
  simp only [fcbDescOk, hfam, allBelow_iff, decide_eq_true_eq] at h7D
  exact h7D k hk

/-- Check 0x7F. -/
theorem fcbTab_elem_of_profileOk {s : State} (h : profileOk s = true) (hfam : P.fcbFamily s ≤ 1) {m : Nat}
    (hm : m < P.fcbTabBase s (P.fcbNpulses s)) : P.tabU s 0x59 m ≤ P.sfLen s - 1 := by
  have h7F : (decide (1 < P.fcbFamily s) || allBelow (P.fcbTabBase s (P.fcbNpulses s)) fun m =>
      decide (P.tabU s 0x59 m ≤ P.sfLen s - 1)) = true := checkHolds_of_profileOk h (by norm_num : 0x7F < 0x8A)
  rw [Bool.or_eq_true, decide_eq_true_eq, allBelow_iff] at h7F
  exact of_decide_eq_true (h7F.resolve_left (by omega) m hm)

/-- The tables of the pulses stand one after another. -/
theorem fcbTabBase_add_le (s : State) {k n : Nat} (h : k < n) :
    P.fcbTabBase s k + P.fcbTabSize s k ≤ P.fcbTabBase s n := by
  induction n, (show k + 1 ≤ n from h) using Nat.le_induction with
  | base => exact le_rfl
  | succ n hn ih => exact (ih (by omega)).trans (Nat.le_add_right _ _)

/-- An entry of a pulse's table is a position of the subframe. -/
theorem fcbTab_lt_of_profileOk {s : State} (h : profileOk s = true) (hfam : P.fcbFamily s ≤ 1) {k m : Nat}
    (hk : k < P.fcbNpulses s) (hm : m < P.fcbTabSize s k) : P.fcbTab s k m < P.sfLen s := by
  have hlen := sfLen_pos_of_profileOk h
  have hroom := fcbTabBase_add_le s hk
  have hle : P.fcbTab s k m ≤ P.sfLen s - 1 := fcbTab_elem_of_profileOk h hfam (by omega)
  omega

theorem basePosition_lt_of_profileOk {s : State} (h : profileOk s = true) (hfam : P.fcbFamily s = 2) (code : Nat)
    {k : Nat} (hk : k < P.fcbNpulses s) : basePosition s code k < P.sfLen s := by
  have hlen := sfLen_pos_of_profileOk h
  have hbase := fcbBase_ge_of_profileOk h hfam
  have hroom := basePosition_room_of_profileOk h hfam hk
  have hdigit : code / P.fcbBase s ^ k % P.fcbBase s ≤ P.fcbBase s - 1 :=
    Nat.le_sub_one_of_lt (Nat.mod_lt _ (by omega))
  have hstride := Nat.mul_le_mul_left (P.fcbStride s) hdigit
  unfold basePosition
  omega

/-- A list whose every element is below a bound, by its places. -/
theorem forall_mem_lt_of_getElem? {pos : List Nat} {n len : Nat} (hlen : pos.length = n)
    (h : ∀ k < n, ∃ x < len, pos[k]? = some x) : ∀ x ∈ pos, x < len := by
  intro x hx
  obtain ⟨k, hk⟩ := List.mem_iff_getElem?.mp hx
  obtain ⟨hkn, -⟩ := List.getElem?_eq_some_iff.mp hk
  obtain ⟨y, hy, hky⟩ := h k (by omega)
  rw [hk] at hky
  cases hky
  exact hy

/-- The positions of a well-formed profile's own family. -/
theorem fcbPositions_of_profileOk {s : State} (h : profileOk s = true) {code : Nat} {pos : List Nat}
    (hpos : Machine.fcbPositions s (P.fcbFamily s) code = some pos) :
    pos.length = P.fcbNpulses s ∧ ∀ x ∈ pos, x < P.sfLen s := by
  have htrack {gray : Bool} (hfam : P.fcbFamily s ≤ 1) (hpos : trackPositions s gray code = some pos) :
      pos.length = P.fcbNpulses s ∧ ∀ x ∈ pos, x < P.sfLen s := by
    obtain ⟨hlen, -, hfields⟩ := (trackPositions_iff s gray code pos).mp hpos
    exact ⟨hlen, forall_mem_lt_of_getElem? hlen fun k hk =>
      ⟨_, fcbTab_lt_of_profileOk h hfam hk (hfields k hk).1, (hfields k hk).2⟩⟩
  have hfamily := fcbFamily_le_of_profileOk h
  rcases (by omega : P.fcbFamily s = 0 ∨ P.fcbFamily s = 1 ∨ P.fcbFamily s = 2 ∨ P.fcbFamily s = 3)
    with hfam | hfam | hfam | hfam <;> rw [hfam] at hpos
  · exact htrack (by omega) hpos
  · exact htrack (by omega) hpos
  · have hbase := fcbBase_ge_of_profileOk h hfam
    obtain ⟨hlen, -, hdigits⟩ := (baseBPositions_iff (by omega) code pos).mp hpos
    exact ⟨hlen, forall_mem_lt_of_getElem? hlen fun k hk =>
      ⟨_, basePosition_lt_of_profileOk h hfam code hk, hdigits k hk⟩⟩
  · obtain ⟨hlen, -, hfields⟩ := (explicitPositions_iff s code pos).mp hpos
    exact ⟨hlen, forall_mem_lt_of_getElem? hlen fun k hk => ⟨_, hfields k hk⟩⟩

/-- The amplitudes a sign word gives (R223). -/
def signedAmps (s : State) (sign : Nat) : List Int := tab (P.fcbNpulses s) fun k => fcbAmpOf s sign k

@[simp] theorem length_signedAmps (s : State) (sign : Nat) : (signedAmps s sign).length = P.fcbNpulses s :=
  tab_length _ _

/-- The decoder by its two failures (R222). -/
theorem fcbDecode_ok_iff (s : State) (family code sign : Nat) (pos : List Nat) (amp : List Int) :
    fcbDecode s family code sign = .ok (pos, amp) ↔ Machine.fcbPositions s family code = some pos
      ∧ sign < 2 ^ P.fcbNpulses s ∧ amp = signedAmps s sign := by
  have hsign : sign >>> P.fcbNpulses s = 0 ↔ sign < 2 ^ P.fcbNpulses s := by
    rw [Nat.shiftRight_eq_div_pow, Nat.div_eq_zero_iff_lt (by positivity)]
  rw [fcbDecode, signedAmps, ← hsign]
  cases Machine.fcbPositions s family code with
  | none => simp
  | some pos' => by_cases hs : sign >>> P.fcbNpulses s = 0 <;> simp [hs, eq_comm]

/-- Settles O32: every family's fields are inside its tables, and the checks bound what the tables hold. -/
theorem fcbPositionsInRange : Obligations.FcbPositionsInRange := by
  intro s code sign pos amp h hdecode
  obtain ⟨hpos, -, rfl⟩ := (fcbDecode_ok_iff s _ code sign pos amp).mp hdecode
  obtain ⟨hlen, hinside⟩ := fcbPositions_of_profileOk h hpos
  exact ⟨hlen, length_signedAmps s sign, hinside⟩

/-! ## The four stages (R222) -/

theorem exec_fcbTrack (s : State) : exec .fcbTrack s = fcbInto s 0 := by
  rfl

theorem exec_fcbGray (s : State) : exec .fcbGray s = fcbInto s 1 := by
  rfl

theorem exec_fcbBaseb (s : State) : exec .fcbBaseb s = fcbInto s 2 := by
  rfl

theorem exec_fcbExpl (s : State) : exec .fcbExpl s = fcbInto s 3 := by
  rfl

/-- The shared body where the family's rule decodes the code. -/
theorem fcbInto_of_positions {s : State} {family : Nat} {pos : List Nat} {lag : Int}
    (hpos : Machine.fcbPositions s family (F.fcbCode s s.sf) = some pos)
    (hsign : F.fcbSign s s.sf < 2 ^ P.fcbNpulses s) (hplain : P.sharpMode s = 0 → lag = 0)
    (hsharp : P.sharpMode s ≠ 0 → s.w.tInt = some lag) :
    fcbInto s family = .next ((s.setW { s.w with
      sp := some (sparseOf s pos (signedAmps s (F.fcbSign s s.sf)) lag) }).goto .fcbBuild s.sf false) := by
  rw [fcbInto, (fcbDecode_ok_iff s family _ _ _ _).mpr ⟨hpos, hsign, rfl⟩]
  exact sparseInto_of_lag hplain hsharp pos _

/-- Settles O30: the four stages share one body, each with the positions of its own family. -/
theorem fcbStages : Obligations.FcbStages := by
  intro s lag pos hsign hplain hsharp
  refine ⟨signedAmps s (F.fcbSign s s.sf), length_signedAmps s _, fun k hk => elem_tab hk _, fun hpos => ?_,
    fun hpos => ?_, fun hpos => ?_, fun hpos => ?_⟩
  · rw [exec_fcbTrack, fcbInto_of_positions (family := 0) hpos hsign hplain hsharp]
    rfl
  · rw [exec_fcbGray, fcbInto_of_positions (family := 1) hpos hsign hplain hsharp]
    rfl
  · rw [exec_fcbBaseb, fcbInto_of_positions (family := 2) hpos hsign hplain hsharp]
    rfl
  · rw [exec_fcbExpl, fcbInto_of_positions (family := 3) hpos hsign hplain hsharp]
    rfl

/-! ## Pulses at one position (R224) -/

theorem elem_addAt {v : List Int} {x n : Nat} (hx : x < v.length) (hn : n < v.length) (y : Int) :
    elem (addAt v x y) n = if x = n then sat16 (elem v n + y) else elem v n := by
  rw [elem_eq_getElem (by simpa using hn), elem_eq_getElem hn]
  simp only [addAt, List.getElem_set, elem_eq_getElem hx]
  split
  · subst x; rfl
  · rfl

/-- While every magnitude stays inside the i16 range, adding a pulse is exact at its position and leaves the others. -/
theorem elem_addPulses {len bound : Nat} (pulses : List (Nat × Int))
    (hpulses : ∀ q ∈ pulses, q.1 < len ∧ |q.2| ≤ bound) (v : List Int) (hlen : v.length = len) {room : Nat}
    (hv : ∀ n < len, |elem v n| ≤ room) (hroom : room + pulses.length * bound ≤ 32767) {n : Nat} (hn : n < len) :
    elem (addPulses v (pulses.map Prod.fst) (pulses.map Prod.snd)) n =
      elem v n + (pulses.map fun q => if q.1 = n then q.2 else 0).sum := by
  induction pulses generalizing v room with
  | nil => simp [addPulses]
  | cons q pulses ih =>
    obtain ⟨⟨hx, hy⟩, hrest⟩ := List.forall_mem_cons.mp hpulses
    rw [List.length_cons, Nat.succ_mul] at hroom
    have hadd : ∀ n < len, elem (addAt v q.1 q.2) n = elem v n + if q.1 = n then q.2 else 0 := fun n hn => by
      have hvn := hv n hn
      rw [elem_addAt (by omega) (by omega)]
      split
      · rw [sat16_of_range (by rw [abs_le] at hvn hy; omega)]
      · rw [add_zero]
    have hbound : ∀ n < len, |elem (addAt v q.1 q.2) n| ≤ (room + bound : Nat) := fun n hn => by
      have hvn := hv n hn
      rw [hadd n hn]
      rw [abs_le] at hvn hy ⊢
      split <;> omega
    rw [List.map_cons, List.map_cons, List.map_cons, List.sum_cons, addPulses,
      ih hrest _ (by simpa using hlen) hbound (by omega), hadd n hn, add_assoc]

/-- Settles O35: the loop starts from zeros, with the whole i16 range as its room. -/
theorem pulsesAdd : Obligations.PulsesAdd := by
  intro len pulses bound hpulses hroom n hn
  have hzero : ∀ n < len, elem (zeros len) n = 0 := fun n hn => by
    rw [elem_eq_getElem (by simpa [zeros] using hn)]
    exact List.getElem_replicate _
  have hsum := elem_addPulses pulses hpulses (zeros len) List.length_replicate (room := 0)
    (fun n hn => by simp [hzero n hn]) (by omega) hn
  rw [hsum, hzero n hn, zero_add]

end Sys2Proof.Proofs
end

