-- ==== Sys2Proof/Proofs/HistoryStages.lean ====
section
/-! PHASE_DISP (R256), GAIN_UPD (R243, R244) and FRAME_COMMIT (R160): the three stages that shift a history or choose by
one. -/

namespace Sys2Proof.Proofs
open Sys2Proof Sys2Proof.Machine

/-! ## PHASE_DISP -/

theorem lowGains_eq_card (s : State) : lowGains s =
    ((Finset.range s.caps.gainHistLen).filter fun i => elem s.wrk.gpHist (i : Nat) < P.dispTLow s).card := rfl

/-- The index of the convolution, counted round the subframe. -/
theorem toNat_sub_emod {n k len : Nat} (hk : k ≤ len) :
    (((n : Int) - k) % (len : Int)).toNat = (n + (len - k)) % len := by
  have hround : ((n : Int) - k) % (len : Int) = ((n + (len - k) : Nat) : Int) % (len : Int) := by
    rw [show ((n + (len - k) : Nat) : Int) = (n : Int) - k + len by omega, Int.add_emod_right]
  rw [hround, ← Int.natCast_mod, Int.toNat_natCast]

theorem elem_disperse {s : State} {n : Nat} (hn : n < P.sfLen s) (f : Nat) (fcv : List Int) :
    elem (disperse s f fcv) n = sat16 ((0x4000 + ∑ k ∈ Finset.range (P.sfLen s),
      elem fcv k * P.dispFilt s f ((n + (P.sfLen s - k)) % P.sfLen s)) / 2 ^ 15) := by
  have hturn := sumTo_congr (n := P.sfLen s) fun k hk =>
    congrArg (fun i => elem fcv k * P.dispFilt s f i) (toNat_sub_emod (n := n) hk.le)
  rw [disperse, elem_tab hn, hturn, asr_eq_ediv, sumTo_eq_sum]

/-- The vector the stage leaves for the strength it chose. -/
def dispersed (s : State) (nr : Nat) (fcv : List Int) : List Int := if nr < 2 then disperse s nr fcv else fcv

theorem length_dispersed {s : State} {fcv : List Int} (h : fcv.length = P.sfLen s) (nr : Nat) :
    (dispersed s nr fcv).length = P.sfLen s := by
  unfold dispersed
  split
  · exact tab_length _ _
  · exact h

theorem exec_phaseDisp (s : State) : exec .phaseDisp s = execPhaseDisp s := by
  rfl

theorem exec_phaseDisp_of_operands {s : State} {fcv : List Int} {gp gc : Int} (hfcv : s.w.fcv = some fcv)
    (hgp : s.w.gp = some gp) (hgc : s.w.gc = some gc) :
    exec .phaseDisp s = .next (((s.setW { s.w with
      fcv := some (dispersed s (dispChoice s gp gc) fcv) }).setWrk { s.wrk with
        dispOnset := dispOnset s.wrk gc, dispPrevFilt := dispChoice s gp gc, dispPrevGc := gc }).goto
      .excMix s.sf false) := by
  rw [exec_phaseDisp, execPhaseDisp, hfcv, need_some, hgp, need_some, hgc, need_some]
  rfl

/-- Settles O36: the equations of the statement are the steps of `dispChoice` and `dispOnset`. -/
theorem phaseDispSelection : Obligations.PhaseDispSelection := by
  rintro s fcv gp gc nr0 nr1 nr2 nr3 nr onset cnt hfcv hgp hgc hlen hnr0 honset hcnt hnr1 hnr2 hnr3 hnr
  have honset' : dispOnset s.wrk gc = onset := honset.symm
  have hstrength : dispStrength s gp = nr0 := hnr0.symm
  have hchoice : dispChoice s gp gc = nr := by
    rw [dispChoice, dispAdjust, honset', hstrength, lowGains_eq_card, ← hcnt, ← hnr1]
    simp only [hnr, hnr3, hnr2]
  refine ⟨dispersed s nr fcv, ?_, length_dispersed hlen nr, fun h2 => if_neg (by omega), fun hlt n hn => ?_⟩
  · rw [exec_phaseDisp_of_operands hfcv hgp hgc, honset', hchoice]
  · rw [dispersed, if_pos hlt, elem_disperse hn]

/-! ## GAIN_UPD -/

/-- The energy of an erased subframe where the mean is over at least one entry (R244). -/
theorem erasedEnergy_eq {s : State} (h : 0 < P.maOrder s) : erasedEnergy s =
    max ((∑ i ∈ Finset.range (P.maOrder s), elem s.wrk.energyHist i) / P.maOrder s - P.eraseAtt s)
      (P.eraseFloor s) := by
  simp only [erasedEnergy]
  rw [floorDiv_of_pos (by omega), sumTo_eq_sum]

/-- A history that takes in an entry has it first and every older one a place further (R243). -/
theorem elem_pushNewest_zero (x : Int) {l : List Int} (h : 0 < l.length) : elem (pushNewest x l) 0 = x :=
  elem_of_getElem? (i := 0) (pushNewest_zero x h)

theorem elem_pushNewest_succ (x : Int) {l : List Int} {i : Nat} (h : i + 1 < l.length) :
    elem (pushNewest x l) (i + 1 : Nat) = elem l i := by
  refine elem_of_getElem? ?_
  rw [pushNewest_succ x h, elem_eq_getElem (by omega), List.getElem?_eq_getElem (by omega)]

theorem exec_gainUpd (s : State) : exec .gainUpd s = execGainUpd s := by
  rfl

/-- The new entry of the energy history: of the correction factor, or of the history itself in an erased frame. -/
theorem exec_gainUpd_of_operands {s : State} {erased : Bool} {gp gc new : Int} (herased : s.w.erased = some erased)
    (hgp : s.w.gp = some gp) (hgc : s.w.gc = some gc)
    (hgood : erased = false → ∃ corr, s.w.corr = some corr ∧ new = loggain corr)
    (hbad : erased = true → new = erasedEnergy s) :
    exec .gainUpd s = .next ((s.setWrk { s.wrk with
      energyHist := pushNewest new s.wrk.energyHist, gpHist := pushNewest gp s.wrk.gpHist
      gcHist := pushNewest gc s.wrk.gcHist }).goto (dispStage s) s.sf false) := by
  rw [exec_gainUpd, execGainUpd, herased, need_some, hgp, need_some, hgc, need_some]
  cases erased with
  | true => rw [hbad rfl]; rfl
  | false =>
    obtain ⟨corr, hcorr, rfl⟩ := hgood rfl
    rw [hcorr]
    rfl

/-- Settles O42: each history is `pushNewest` of its new entry. -/
theorem gainUpdHistories : Obligations.GainUpdHistories := by
  intro s erased gp gc new herased hgp hgc hen hgpl hgcl hma hdepth hgood hbad
  refine ⟨_, _, _, exec_gainUpd_of_operands herased hgp hgc hgood
    fun h => (hbad h).trans (erasedEnergy_eq hma).symm, ?_, ?_, ?_, elem_pushNewest_zero _ (by omega),
    elem_pushNewest_zero _ (by omega), elem_pushNewest_zero _ (by omega),
    fun i hi => elem_pushNewest_succ _ (by omega),
    fun i hi => ⟨elem_pushNewest_succ _ (by omega), elem_pushNewest_succ _ (by omega)⟩⟩
  · rw [pushNewest_length, hen]
  · rw [pushNewest_length, hgpl]
  · rw [pushNewest_length, hgcl]

/-! ## FRAME_COMMIT -/

theorem exec_frameCommit (s : State) : exec .frameCommit s = execFrameCommit s := by
  rfl

/-- The residual history after the frame: without prediction as it was (R160). -/
def committedHist (s : State) (new : List Int) : List (List Int) :=
  if P.lspPredMode s = 1 then pushNewest new s.wrk.lsfMaHist else s.wrk.lsfMaHist

@[simp] theorem length_committedHist (s : State) (new : List Int) :
    (committedHist s new).length = s.wrk.lsfMaHist.length := by
  unfold committedHist
  split
  · exact pushNewest_length _ _
  · rfl

/-- The entry the history takes in, in a good and in an erased frame. -/
theorem commitResidual_of_operands {s : State} {erased : Bool} {lsf new : List Int}
    (hgood : erased = false → s.w.res = some new)
    (hbad : erased = true → ∃ pred, s.w.pred = some pred
      ∧ new = tab (P.order s) fun i => sat16 (elem lsf i - elem pred i)) (k : List Int → Out) :
    commitResidual s erased lsf k = k new := by
  cases erased with
  | true =>
    obtain ⟨pred, hpred, rfl⟩ := hbad rfl
    rw [commitResidual, if_pos rfl, hpred, need_some]
  | false => rw [commitResidual, if_neg (by decide), hgood rfl, need_some]

theorem exec_frameCommit_of_operands {s : State} {lspq lsf new : List Int} {run : Nat} {erased muted : Bool}
    (hlspq : s.w.lspq = some lspq) (hlsf : s.w.lsf = some lsf) (hrun : s.w.run = some run)
    (herased : s.w.erased = some erased) (hmuted : s.w.muted = some muted)
    (hgood : erased = false → s.w.res = some new)
    (hbad : erased = true → ∃ pred, s.w.pred = some pred
      ∧ new = tab (P.order s) fun i => sat16 (elem lsf i - elem pred i)) :
    exec .frameCommit s = finishFrame s (committed s lspq lsf (committedHist s new) run) erased muted := by
  rw [exec_frameCommit, execFrameCommit, hlspq, need_some, hlsf, need_some, hrun, need_some, herased, need_some,
    hmuted, need_some, commitResidual_of_operands hgood hbad, committedHist]
  split <;> rfl

/-- Settles O54: the committed state is `finishFrame`'s, and its history is that of `committedHist`. -/
theorem frameCommitState : Obligations.FrameCommitState := by
  intro s lspq lsf run erased muted new hlspq hlsf hrun herased hmuted hgood hbad hlen
  have hbad' : erased = true → ∃ pred, s.w.pred = some pred
      ∧ new = tab (P.order s) fun i => sat16 (elem lsf i - elem pred i) := fun h => by
    obtain ⟨pred, hpred, hnew, hentries⟩ := hbad h
    exact ⟨pred, hpred, (eq_tab_elem hnew).trans (tab_congr hentries)⟩
  refine ⟨committedHist s new, ?_, length_committedHist s new, fun hmode => if_neg hmode, fun hmode hnp => ?_⟩
  · rw [exec_frameCommit_of_operands hlspq hlsf hrun herased hmuted hgood hbad']
    rfl
  · rw [if_pos hmode] at hlen
    rw [committedHist, if_pos hmode]
    exact ⟨pushNewest_zero new (by omega), fun j hj => pushNewest_succ new (by omega)⟩

end Sys2Proof.Proofs
end

