-- ==== Sys2Proof/Proofs/StageAnswers.lean ====
section
/-! What a stage answers, said once for all 32 stages. An `Answer` names the stage's results alone: the working registers,
the working copy of `S`, the samples for PCM space, the retry flag and where the sequencer goes. A stage finds it from the
profile, the parameters, the capacities, the position, the working registers and `S` (R20, R342); carried out on the
machine it changes nothing it does not name. The answer fits its stage: it keeps the invariants of `S`, and where the
earlier stages have left what the stage reads, it goes on along the order of R158. -/

namespace Sys2Proof.Proofs
open Sys2Proof Sys2Proof.Machine

/-! ## What a stage reads -/

/-- The state `h` with everything a stage reads taken from `s`: what is left of `h` is hidden from the stage. -/
def State.reads (s h : State) : State :=
  { h with
    profile := s.profile, param := s.param, caps := s.caps, rstEpoch := s.rstEpoch
    seq := s.seq, w := s.w, wrk := s.wrk, dec := s.dec }

theorem reads_self (s : State) : State.reads s s = s := rfl

/-- Two states that agree on what a stage reads differ in the hidden fields only. -/
theorem reads_eq {s t : State} (hprofile : s.profile = t.profile) (hparam : s.param = t.param)
    (hcaps : s.caps = t.caps) (hrst : s.rstEpoch = t.rstEpoch) (hseq : s.seq = t.seq) (hw : s.w = t.w)
    (hwrk : s.wrk = t.wrk) (hdec : s.dec = t.dec) : State.reads s t = t := by
  unfold State.reads
  rw [hprofile, hparam, hcaps, hrst, hseq, hw, hwrk, hdec]

theorem lsfResidual_reads (s h : State) (i n : Nat) : lsfResidual (State.reads s h) i n = lsfResidual s i n := by
  have hbase : P.cbBase (State.reads s h) = P.cbBase s := by
    funext st
    exact of_profileInputs (fun u => P.cbBase u st) (fun u => cbBase_profileInputs u st) rfl
  induction n with
  | zero => rfl
  | succ n ih =>
    simp only [lsfResidual, P.lspCb, hbase, ih]
    rfl

theorem fcbDecode_reads (s h : State) (family code sign : Nat) :
    fcbDecode (State.reads s h) family code sign = fcbDecode s family code sign :=
  of_profileInputs (fun u => fcbDecode u family code sign) (fun u => fcbDecode_profileInputs u family code sign) rfl

theorem drawPulses_reads (s h : State) (n seed : Nat) : drawPulses (State.reads s h) n seed = drawPulses s n seed := by
  induction n generalizing seed with
  | zero => rfl
  | succ n ih =>
    simp only [drawPulses, ih]
    rfl

theorem checkFrame_reads (s h : State) : checkFrame (State.reads s h) = checkFrame s := by
  have hlsp : ∀ n st, checkLsp (State.reads s h) n st = checkLsp s n st := fun n st =>
    of_inputs (fun u => checkLsp u n st) (fun u => checkLsp_inputs u n st) rfl
  have hsubframes : ∀ n sf prev, checkSubframes (State.reads s h) n sf prev = checkSubframes s n sf prev :=
    fun n sf prev =>
      of_inputs (fun u => checkSubframes u n sf prev) (fun u => checkSubframes_inputs u n sf prev) rfl
  unfold checkFrame
  rw [hlsp, hsubframes]
  rfl

/-! ## What the stages have left -/

/-- The clauses of `FrameOk` on the data they speak of: the stage number, the subframe, the retry bit, the working
registers and the working copy of `S`. -/
structure FrameAt (s : State) (k sf : Nat) (r : Bool) (w : Work) (d : DecState) : Prop where
  subframe : 0x06 ≤ k → k ≤ 0x1E → sf < P.nsf s
  frameLevel : k < 0x06 ∨ k = 0x1F → sf = 0
  retry : r = true → k = 0x18 ∨ k = 0x19
  retryBit : k = 0x18 → r = true
  start : k = 0x01 → w = Work.none
  flags : 0x02 ≤ k → w.erased.isSome ∧ w.muted.isSome ∧ w.run.isSome
  isGood : k = 0x02 ∨ k = 0x08 ∨ k = 0x09
    ∨ (0x0C ≤ k ∧ k ≤ 0x0F) ∨ k = 0x12 → w.erased = some false
  isBad : k = 0x04 ∨ k = 0x0A ∨ k = 0x10 ∨ k = 0x13 → w.erased = some true
  law : (k = 0x08 → (P.pitchAbsMask s).testBit sf = true)
    ∧ (k = 0x09 → (P.pitchAbsMask s).testBit sf = false)
  family : 0x0C ≤ k → k ≤ 0x0F → P.fcbFamily s = k - 0x0C
  disp : k = 0x15 → P.dispEn s = true
  post : 0x1A ≤ k → k ≤ 0x1D → P.pfEn s = true
  lsf : k = 0x03 ∨ 0x05 ≤ k → w.lsf.isSome ∧ w.pred.isSome ∧ (w.erased = some false → w.res.isSome)
  lspq : 0x06 ≤ k → w.lspq.isSome
  lspi : 0x07 ≤ k → w.lspi.isSome
  lpc : 0x08 ≤ k → w.lpc.isSome
  delay : 0x0B ≤ k → w.tInt.isSome ∧ w.tFrac.isSome
  acbv : 0x0C ≤ k → w.acbv.isSome
  sp : 0x11 ≤ k → ∃ v, w.sp = some v ∧ v.ok (P.sfLen s) = true ∧ (P.sharpMode s ≠ 0 → 1 ≤ v.lag)
  fcv : 0x12 ≤ k → w.fcv.isSome
  gains : 0x14 ≤ k → w.gp.isSome ∧ w.gc.isSome ∧ (w.erased = some false → w.corr.isSome)
  excv : 0x17 ≤ k → w.excv.isSome
  ovf : 0x18 ≤ k → w.ovf.isSome
  syn : 0x19 ≤ k → w.syn.isSome
  resid : 0x1B ≤ k → k ≤ 0x1D → w.resid.isSome ∧ w.num.isSome ∧ w.den.isSome
  pfyz : k = 0x1D → w.pfy.isSome ∧ w.pfz.isSome
  out : k = 0x1E → P.pfEn s = true → w.out.isSome
  passed : w.erased = some false → (k < 0x06 → SubframesPass s 0 d.prevLagInt)
    ∧ (0x06 ≤ k → k ≤ 0x19 → SubframesPass s sf d.prevLagInt)
    ∧ (0x1A ≤ k → k ≤ 0x1E → SubframesPass s (sf + 1) d.prevLagInt)
  checked : w.erased = some false → 0x0B ≤ k → k ≤ 0x19 →
    ∃ ti tf, w.tInt = some ti ∧ pitchDecode s sf (F.pitchIdx s sf) d.prevLagInt = some (ti, tf)

theorem frameOk_iff (s : State) : FrameOk s ↔ FrameAt s s.stage s.sf (seqRetry s.seq) s.w s.wrk := by
  constructor <;> (intro h; cases h; constructor <;> assumption)

theorem subframesPass_of_inputs {s t : State} (h : t.inputs = s.inputs) (sf : Nat) (prev : Int) :
    SubframesPass t sf prev ↔ SubframesPass s sf prev := by
  have hnsf : P.nsf t = P.nsf s := of_inputs P.nsf (fun _ => rfl) h
  have hcheck : checkSubframes t (P.nsf s - sf) sf prev = checkSubframes s (P.nsf s - sf) sf prev :=
    of_inputs (fun u => checkSubframes u (P.nsf s - sf) sf prev) (fun u => checkSubframes_inputs u _ sf prev) h
  rw [SubframesPass, SubframesPass, hnsf, hcheck]

/-- The clauses are a matter of the words and of the data they speak of. -/
theorem FrameAt.of_inputs_eq {s t : State} (h : t.inputs = s.inputs) {k sf : Nat} {r : Bool} {w : Work} {d : DecState}
    (hf : FrameAt s k sf r w d) : FrameAt t k sf r w d := by
  have hnsf : P.nsf t = P.nsf s := of_inputs P.nsf (fun _ => rfl) h
  have hmask : P.pitchAbsMask t = P.pitchAbsMask s := of_inputs P.pitchAbsMask (fun _ => rfl) h
  have hfamily : P.fcbFamily t = P.fcbFamily s := of_inputs P.fcbFamily (fun _ => rfl) h
  have hdisp : P.dispEn t = P.dispEn s := of_inputs P.dispEn (fun _ => rfl) h
  have hpost : P.pfEn t = P.pfEn s := of_inputs P.pfEn (fun _ => rfl) h
  have hlen : P.sfLen t = P.sfLen s := of_inputs P.sfLen (fun _ => rfl) h
  have hsharp : P.sharpMode t = P.sharpMode s := of_inputs P.sharpMode (fun _ => rfl) h
  have hpitch : pitchDecode t = pitchDecode s := of_inputs pitchDecode (fun _ => rfl) h
  have hidx : F.pitchIdx t = F.pitchIdx s := of_inputs F.pitchIdx (fun _ => rfl) h
  cases hf
  constructor <;> simpa only [subframesPass_of_inputs h, hnsf, hmask, hfamily, hdisp, hpost, hlen, hsharp, hpitch, hidx]

/-! ## How many stages are left -/

/-- The place of a stage in its subframe: PITCH and FCB count once, and so does each gain stage (R352). -/
def placeInSubframe (k : Nat) : Nat :=
  if k ≤ 0x07 then k - 0x06
  else if k ≤ 0x0A then 2
  else if k = 0x0B then 3
  else if k ≤ 0x10 then 4
  else if k = 0x11 then 5
  else if k ≤ 0x13 then 6
  else k - 0x0D

/-- The stages a DECODE has still to run, the one it is at among them, counting every subframe in full (R352). -/
def stagesLeft (nsf k sf : Nat) : Nat :=
  if k ≤ 0x01 then 4 + 18 * nsf + 1
  else if k = 0x02 ∨ k = 0x04 then 3 + 18 * nsf + 1
  else if k = 0x03 then 2 + 18 * nsf + 1
  else if k = 0x05 then 1 + 18 * nsf + 1
  else if k ≤ 0x1E then 18 * (nsf - sf) - placeInSubframe k + 1
  else 1

theorem stagesLeft_advance {nsf k k' sf : Nat} (hsf : sf < nsf)
    (h : 0x06 ≤ k ∧ k ≤ 0x1E ∧ 0x06 ≤ k' ∧ k' ≤ 0x1E ∧ placeInSubframe k < placeInSubframe k') :
    stagesLeft nsf k' sf < stagesLeft nsf k sf := by
  obtain ⟨hk, hk', hl, hl', hplace⟩ := h
  have hmax : placeInSubframe k' ≤ 17 := by
    unfold placeInSubframe
    repeat' split
    all_goals omega
  have hleft : ∀ m, 0x06 ≤ m → m ≤ 0x1E → stagesLeft nsf m sf = 18 * (nsf - sf) - placeInSubframe m + 1 := by
    intro m hm hm'
    unfold stagesLeft
    repeat rw [if_neg (by omega)]
    exact if_pos hm'
  rw [hleft k hk hk', hleft k' hl hl']
  omega

/-! ## What the working registers that go into `S` hold -/

/-- The clauses of `WorkOk` on the registers, but for the ordered LSF vector. -/
structure RegsOk (s : State) (run : Option Nat) (tInt : Option Int) (res lspq lsf : Option (List Int)) : Prop where
  run : ∀ n, run = some n → n ≤ 255
  lag : ∀ t, tInt = some t → LagOk s t
  res : ∀ r, res = some r → r.length = P.order s
  lspq : ∀ q, lspq = some q → q.length = P.order s
  lsfLen : ∀ x, lsf = some x → x.length = P.order s

/-- `RegsOk` of a set of working registers. -/
abbrev WorkFits (s : State) (w : Work) : Prop := RegsOk s w.run w.tInt w.res w.lspq w.lsf

/-- From LSF2LSP on the LSF vector meets its invariant. -/
def LsfFits (s : State) (k : Nat) (lsf : Option (List Int)) : Prop := 5 ≤ k → ∀ x, lsf = some x → LsfOk s x

/-- What the invariant of the machine says to a stage. -/
structure SoundAt (s : State) (k : Nat) : Prop where
  profile : profileOk s = true
  caps : s.caps.nsf ≤ 4
  dec : DecOk s s.wrk
  work : WorkFits s s.w
  lsf : LsfFits s k s.w.lsf

/-! ## Answers -/

/-- What a stage answers. -/
inductive Answer
  /-- The stage is done: its registers and working copy, the samples it stores, whether the subframe took the overflow
  retry, and where the sequencer goes. -/
  | go (w : Work) (d : DecState) (samples : Option (List Int)) (retried : Bool) (next : Instr) (sf : Nat) (retry : Bool)
  /-- An error. -/
  | raised (r : Raise)
  /-- The end of a DECODE without error. -/
  | finished (d : DecState) (erased muted : Bool)
  /-- IDLE. -/
  | stayed
  /-- The model stops. -/
  | stopped (f : Fault)

/-- The machine after a stage that is done. -/
def State.moved (s : State) (w : Work) (d : DecState) (samples : Option (List Int)) (retried : Bool) (next : Instr)
    (sf : Nat) (retry : Bool) : State :=
  { s with
    w := w, wrk := d, seq := seqOf (stageId next) sf retry
    pcm := match samples with | none => s.pcm | some o => putSamples 512 s.pcm (s.sf * P.sfLen s) o
    status := { s.status with ovfRetry := retried || s.status.ovfRetry } }

/-- The answer carried out. -/
def Answer.apply (s : State) : Answer → Out
  | .go w d samples retried next sf retry => .next (State.moved s w d samples retried next sf retry)
  | .raised r => .next (s.raise r)
  | .finished d erased muted => finishFrame s d erased muted
  | .stayed => .next s
  | .stopped f => .fault f

/-- Which stage may answer what. -/
def Answer.Proper (i : Instr) : Answer → Prop
  | .go _ _ samples _ next _ _ => (samples = none ∨ i = .out) ∧ stageId next ≠ 0x00#5
  | .finished _ _ _ => i = .frameCommit
  | .stayed => i = .idle
  | _ => True

/-- The answer keeps the invariants of `S`. -/
def Answer.Keeps (s : State) : Answer → Prop
  | .go w d _ _ next _ _ => DecOk s d ∧ WorkFits s w ∧ LsfFits s (stageId next).toNat w.lsf
  | .finished d _ _ => DecOk s d
  | _ => True

/-- The answer goes on along the order of R158, or ends the command; it does not stop. -/
def Answer.Advances (s : State) (k : Nat) : Answer → Prop
  | .go w d _ _ next sf retry => FrameAt s (stageId next).toNat sf retry w d ∧ sf < 4
      ∧ stagesLeft (P.nsf s) (stageId next).toNat sf < stagesLeft (P.nsf s) k s.sf
  | .stopped _ => False
  | _ => True

/-- What the earlier stages have left at `s` for stage `k`. -/
abbrev FrameHere (s : State) (k : Nat) : Prop := FrameAt s k s.sf (seqRetry s.seq) s.w s.wrk

/-- The answer fits stage `i` at `s`. -/
structure Answer.Fits (i : Instr) (s : State) (a : Answer) : Prop where
  proper : a.Proper i
  keeps : SoundAt s (stageId i).toNat → a.Keeps s
  advances : SoundAt s (stageId i).toNat → FrameHere s (stageId i).toNat → a.Advances s (stageId i).toNat

/-- Stage `i` with the meaning `f` has at `s` a fitting answer that hangs on what the stage reads alone. -/
def Answers (i : Instr) (s : State) (f : State → Out) : Prop :=
  ∃ a : Answer, a.Fits i s ∧ ∀ h, f (State.reads s h) = a.apply (State.reads s h)

section
variable {i : Instr} {s : State}

/-- A stage that reads a register which the stages before it have written. -/
theorem answers_need {α : Type} {r : WReg} (reg : Work → Option α) {k : α → State → Out}
    (hsome : SoundAt s (stageId i).toNat → FrameHere s (stageId i).toNat → (reg s.w).isSome)
    (hk : ∀ v, reg s.w = some v → Answers i s (k v)) :
    Answers i s fun u => need r (reg u.w) fun v => k v u := by
  cases hreg : reg s.w with
  | none =>
    refine ⟨.stopped (.unwritten r), ⟨trivial, fun _ => trivial, fun hsound hframe => ?_⟩, fun h => ?_⟩
    · have h := hsome hsound hframe
      rw [hreg] at h
      cases h
    · show need r (reg s.w) _ = _
      rw [hreg]
      rfl
  | some v =>
    obtain ⟨a, hfits, happly⟩ := hk v hreg
    refine ⟨a, hfits, fun h => ?_⟩
    show need r (reg s.w) _ = _
    rw [hreg]
    exact happly h

/-- A stage that branches on something it reads. -/
theorem answers_ite {c : State → Prop} [∀ u, Decidable (c u)] {f g : State → Out}
    (hc : ∀ h, c (State.reads s h) ↔ c s) (hf : c s → Answers i s f) (hg : ¬ c s → Answers i s g) :
    Answers i s fun u => if c u then f u else g u := by
  by_cases hcs : c s
  · obtain ⟨a, hfits, happly⟩ := hf hcs
    exact ⟨a, hfits, fun h => (if_pos ((hc h).mpr hcs)).trans (happly h)⟩
  · obtain ⟨a, hfits, happly⟩ := hg hcs
    exact ⟨a, hfits, fun h => (if_neg fun k => hcs ((hc h).mp k)).trans (happly h)⟩

theorem answers_go {f : State → Out} {w : Work} {d : DecState} {samples : Option (List Int)} {retried : Bool}
    {next : Instr} {sf : Nat} {retry : Bool} (hsamples : samples = none ∨ i = .out) (hnext : stageId next ≠ 0x00#5)
    (hf : ∀ h, f (State.reads s h) = .next (State.moved (State.reads s h) w d samples retried next sf retry))
    (hkeeps : SoundAt s (stageId i).toNat → DecOk s d ∧ WorkFits s w ∧ LsfFits s (stageId next).toNat w.lsf)
    (hadvances : SoundAt s (stageId i).toNat → FrameHere s (stageId i).toNat →
      FrameAt s (stageId next).toNat sf retry w d ∧ sf < 4
        ∧ stagesLeft (P.nsf s) (stageId next).toNat sf < stagesLeft (P.nsf s) (stageId i).toNat s.sf) :
    Answers i s f :=
  ⟨.go w d samples retried next sf retry, ⟨⟨hsamples, hnext⟩, hkeeps, hadvances⟩, hf⟩

/-- A stage that writes registers and the working copy and goes on. -/
theorem answers_goto {f : State → Out} {w : State → Work} {d : State → DecState} {next : State → Instr}
    {sf : State → Nat} {retry : Bool}
    (hf : ∀ u, f u = .next { u with w := w u, wrk := d u, seq := seqOf (stageId (next u)) (sf u) retry })
    (hkeeps : SoundAt s (stageId i).toNat →
      DecOk s (d s) ∧ WorkFits s (w s) ∧ LsfFits s (stageId (next s)).toNat (w s).lsf)
    (hadvances : SoundAt s (stageId i).toNat → FrameHere s (stageId i).toNat →
      FrameAt s (stageId (next s)).toNat (sf s) retry (w s) (d s) ∧ sf s < 4
        ∧ stagesLeft (P.nsf s) (stageId (next s)).toNat (sf s) < stagesLeft (P.nsf s) (stageId i).toNat s.sf)
    (hreads : ∀ h, w (State.reads s h) = w s ∧ d (State.reads s h) = d s ∧ next (State.reads s h) = next s
      ∧ sf (State.reads s h) = sf s := by exact fun _ => ⟨rfl, rfl, rfl, rfl⟩)
    (hnext : stageId (next s) ≠ 0x00#5 := by decide) :
    Answers i s f := by
  refine answers_go (samples := none) (retried := false) (.inl rfl) hnext (fun h => ?_) hkeeps hadvances
  obtain ⟨hw, hd, hn, hsf⟩ := hreads h
  rw [hf, hw, hd, hn, hsf]
  rfl

theorem answers_of_eq {f g : State → Out} (hfg : ∀ u, f u = g u) (hg : Answers i s g) : Answers i s f := by
  rwa [funext hfg]

theorem answers_of_eq_reads {f g : State → Out} (hfg : ∀ h, f (State.reads s h) = g (State.reads s h))
    (hg : Answers i s g) : Answers i s f := by
  obtain ⟨a, hfits, happly⟩ := hg
  exact ⟨a, hfits, fun h => (hfg h).trans (happly h)⟩

theorem answers_raised {f : State → Out} {r : Raise}
    (hf : ∀ h, f (State.reads s h) = .next ((State.reads s h).raise r)) : Answers i s f :=
  ⟨.raised r, ⟨trivial, fun _ => trivial, fun _ _ => trivial⟩, hf⟩

theorem answers_finished {f : State → Out} {d : DecState} {erased muted : Bool} (hi : i = .frameCommit)
    (hf : ∀ h, f (State.reads s h) = finishFrame (State.reads s h) d erased muted)
    (hkeeps : SoundAt s (stageId i).toNat → DecOk s d) : Answers i s f :=
  ⟨.finished d erased muted, ⟨hi, hkeeps, fun _ _ => trivial⟩, hf⟩

theorem answers_stopped {f : State → Out} {e : Fault}
    (hf : ∀ h, f (State.reads s h) = .fault e)
    (hnot : SoundAt s (stageId i).toNat → ¬ FrameHere s (stageId i).toNat) : Answers i s f :=
  ⟨.stopped e, ⟨trivial, fun _ => trivial, fun hsound hframe => hnot hsound hframe⟩, hf⟩

end

end Sys2Proof.Proofs
end

