-- ==== Sys2Proof/Proofs/StageOrder.lean ====
section
/-! Along the order of R158, what a stage writes is what the clauses of the next stage add: one lemma for each arrow of
the order. -/

namespace Sys2Proof.Proofs
open Sys2Proof Sys2Proof.Machine

namespace FrameAt

variable {s : State} {sf : Nat} {r : Bool} {w : Work} {d d' : DecState}

/-! ## Frame level -/

theorem check_good (h : FrameAt s 0x01 sf r w d) (run : Nat) (hpass : SubframesPass s 0 d.prevLagInt) :
    FrameAt s 0x02 0 false { w with erased := some false, run := some run, muted := some false } d := by
  cases h
  constructor <;> grind

theorem check_bad (h : FrameAt s 0x01 sf r w d) (run : Nat) (muted : Bool) :
    FrameAt s 0x04 0 false { w with erased := some true, run := some run, muted := some muted } d := by
  cases h
  constructor <;> grind

theorem lsfDec (h : FrameAt s 0x02 sf r w d) (res pred lsf : List Int) :
    FrameAt s 0x03 0 false { w with res := some res, pred := some pred, lsf := some lsf } d := by
  cases h
  constructor <;> grind

theorem lsfConceal (h : FrameAt s 0x04 sf r w d) (lsf pred : List Int) :
    FrameAt s 0x03 0 false { w with lsf := some lsf, pred := some pred } d := by
  cases h
  constructor <;> grind

theorem lsfStab (h : FrameAt s 0x03 sf r w d) (x : List Int) :
    FrameAt s 0x05 0 false { w with lsf := some x } d := by
  cases h
  constructor <;> grind

theorem lsf2lsp (h : FrameAt s 0x05 sf r w d) (hnsf : 0 < P.nsf s) (q : List Int) :
    FrameAt s 0x06 0 false { w with lspq := some q } d := by
  cases h
  constructor <;> grind

/-! ## The spectrum and the delay of a subframe -/

theorem lspInterp (h : FrameAt s 0x06 sf r w d) (q : List Int) :
    FrameAt s 0x07 sf false { w with lspi := some q } d := by
  cases h
  constructor <;> grind

theorem lsp2lpc_conceal (h : FrameAt s 0x07 sf r w d) (hbad : w.erased = some true) (a : List Int) :
    FrameAt s 0x0A sf false { w with lpc := some a } d := by
  cases h
  constructor <;> grind

theorem lsp2lpc_abs (h : FrameAt s 0x07 sf r w d) (hgood : w.erased = some false)
    (hmask : (P.pitchAbsMask s).testBit sf = true) (a : List Int) :
    FrameAt s 0x08 sf false { w with lpc := some a } d := by
  cases h
  constructor <;> grind

theorem lsp2lpc_rel (h : FrameAt s 0x07 sf r w d) (hgood : w.erased = some false)
    (hmask : (P.pitchAbsMask s).testBit sf = false) (a : List Int) :
    FrameAt s 0x09 sf false { w with lpc := some a } d := by
  cases h
  constructor <;> grind

theorem pitchAbs (h : FrameAt s 0x08 sf r w d) {ti tf : Int}
    (hdelay : pitchDecode s sf (F.pitchIdx s sf) d.prevLagInt = some (ti, tf)) :
    FrameAt s 0x0B sf false { w with tInt := some ti, tFrac := some tf } d := by
  cases h
  constructor <;> grind

theorem pitchRel (h : FrameAt s 0x09 sf r w d) {ti tf : Int}
    (hdelay : pitchDecode s sf (F.pitchIdx s sf) d.prevLagInt = some (ti, tf)) :
    FrameAt s 0x0B sf false { w with tInt := some ti, tFrac := some tf } d := by
  cases h
  constructor <;> grind

theorem pitchConceal (h : FrameAt s 0x0A sf r w d) (ti tf : Int) :
    FrameAt s 0x0B sf false { w with tInt := some ti, tFrac := some tf } d' := by
  cases h
  constructor <;> grind

/-! ## The excitation -/

theorem acbInterp_good (h : FrameAt s 0x0B sf r w d) (hgood : w.erased = some false) {k : Nat}
    (hk : 0x0C ≤ k ∧ k ≤ 0x0F) (hfamily : P.fcbFamily s = k - 0x0C) (x : List Int) :
    FrameAt s k sf false { w with acbv := some x } d := by
  cases h
  constructor <;> grind

theorem acbInterp_bad (h : FrameAt s 0x0B sf r w d) (hbad : w.erased = some true) (x : List Int) :
    FrameAt s 0x10 sf false { w with acbv := some x } d := by
  cases h
  constructor <;> grind

theorem fcb {k : Nat} (h : FrameAt s k sf r w d) (hk : 0x0C ≤ k ∧ k ≤ 0x10) {v : SparseVec}
    (hv : v.ok (P.sfLen s) = true) (hlag : P.sharpMode s ≠ 0 → 1 ≤ v.lag) (hprev : d'.prevLagInt = d.prevLagInt) :
    FrameAt s 0x11 sf false { w with sp := some v } d' := by
  cases h
  constructor <;> grind

theorem fcbBuild_good (h : FrameAt s 0x11 sf r w d) (hgood : w.erased = some false) (x : List Int) :
    FrameAt s 0x12 sf false { w with fcv := some x } d := by
  cases h
  constructor <;> grind

theorem fcbBuild_bad (h : FrameAt s 0x11 sf r w d) (hbad : w.erased = some true) (x : List Int) :
    FrameAt s 0x13 sf false { w with fcv := some x } d := by
  cases h
  constructor <;> grind

theorem gainDec (h : FrameAt s 0x12 sf r w d) (corr gp gc : Int) :
    FrameAt s 0x14 sf false { w with corr := some corr, gp := some gp, gc := some gc } d := by
  cases h
  constructor <;> grind

theorem gainConceal (h : FrameAt s 0x13 sf r w d) (gp gc : Int) :
    FrameAt s 0x14 sf false { w with gp := some gp, gc := some gc } d := by
  cases h
  constructor <;> grind

theorem gainUpd_disp (h : FrameAt s 0x14 sf r w d) (hdisp : P.dispEn s = true)
    (hprev : d'.prevLagInt = d.prevLagInt) : FrameAt s 0x15 sf false w d' := by
  cases h
  constructor <;> grind

theorem gainUpd_plain (h : FrameAt s 0x14 sf r w d) (hprev : d'.prevLagInt = d.prevLagInt) :
    FrameAt s 0x16 sf false w d' := by
  cases h
  constructor <;> grind

theorem phaseDisp (h : FrameAt s 0x15 sf r w d) (hprev : d'.prevLagInt = d.prevLagInt) (x : List Int) :
    FrameAt s 0x16 sf false { w with fcv := some x } d' := by
  cases h
  constructor <;> grind

theorem excMix (h : FrameAt s 0x16 sf r w d) (e : List Int) :
    FrameAt s 0x17 sf false { w with excv := some e } d := by
  cases h
  constructor <;> grind

/-! ## Synthesis -/

theorem lpSynth (h : FrameAt s 0x17 sf r w d) (y : List Int) :
    FrameAt s 0x19 sf false { w with syn := some y, ovf := some false } d := by
  cases h
  constructor <;> grind

theorem lpSynth_retry (h : FrameAt s 0x17 sf r w d) :
    FrameAt s 0x18 sf true { w with syn := none, ovf := some true } d := by
  cases h
  constructor <;> grind

theorem lpRetry (h : FrameAt s 0x18 sf r w d) (e y : List Int) :
    FrameAt s 0x19 sf true { w with exc2 := some e, syn := some y } d := by
  cases h
  constructor <;> grind

theorem sfCommit_post (h : FrameAt s 0x19 sf r w d) (hpost : P.pfEn s = true)
    (hpass : w.erased = some false → SubframesPass s (sf + 1) d'.prevLagInt) : FrameAt s 0x1A sf false w d' := by
  cases h
  constructor <;> grind

theorem sfCommit_plain (h : FrameAt s 0x19 sf r w d) (hpost : P.pfEn s = false)
    (hpass : w.erased = some false → SubframesPass s (sf + 1) d'.prevLagInt) : FrameAt s 0x1E sf false w d' := by
  cases h
  constructor <;> grind

/-! ## The postfilter and the end of a subframe -/

theorem pfResid (h : FrameAt s 0x1A sf r w d) (num den x : List Int) :
    FrameAt s 0x1B sf false { w with num := some num, den := some den, resid := some x } d := by
  cases h
  constructor <;> grind

theorem pfLongterm (h : FrameAt s 0x1B sf r w d) (hprev : d'.prevLagInt = d.prevLagInt) (x : List Int) :
    FrameAt s 0x1C sf false { w with resid := some x } d' := by
  cases h
  constructor <;> grind

theorem pfSyntilt (h : FrameAt s 0x1C sf r w d) (hprev : d'.prevLagInt = d.prevLagInt) (y z : List Int) :
    FrameAt s 0x1D sf false { w with pfy := some y, pfz := some z } d' := by
  cases h
  constructor <;> grind

theorem pfAgc (h : FrameAt s 0x1D sf r w d) (hprev : d'.prevLagInt = d.prevLagInt) (o : List Int) :
    FrameAt s 0x1E sf false { w with out := some o } d' := by
  cases h
  constructor <;> grind

theorem out_next (h : FrameAt s 0x1E sf r w d) (hsf : sf + 1 < P.nsf s) (o : List Int) :
    FrameAt s 0x06 (sf + 1) false { w with out := some o } d := by
  cases h
  constructor <;> grind

theorem out_last (h : FrameAt s 0x1E sf r w d) (o : List Int) :
    FrameAt s 0x1F 0 false { w with out := some o } d := by
  cases h
  constructor <;> grind

end FrameAt

end Sys2Proof.Proofs
end

