-- ==== Sys2Proof/Proofs/FrontStages.lean ====
section
/-! The answer of each stage, in the order of R158: the reads it is given, the registers it writes and the next stage are
those of its meaning; the invariants of `S` survive because of the profile's checks (R153, R163). -/

namespace Sys2Proof.Proofs
open Sys2Proof Sys2Proof.Machine

/-! ## What the proofs below share -/

theorem State.sf_lt_four (s : State) : s.sf < 4 := (s.seq.extractLsb' 5 2).isLt

/-- The place of a stage inside the subframe loop. -/
theorem FrameAt.advance {s : State} {i j : Instr} (h : FrameHere s (stageId i).toNat)
    (hij : 0x06 ≤ (stageId i).toNat ∧ (stageId i).toNat ≤ 0x1E ∧ 0x06 ≤ (stageId j).toNat ∧ (stageId j).toNat ≤ 0x1E
      ∧ placeInSubframe (stageId i).toNat < placeInSubframe (stageId j).toNat) :
    stagesLeft (P.nsf s) (stageId j).toNat s.sf < stagesLeft (P.nsf s) (stageId i).toNat s.sf :=
  stagesLeft_advance (h.subframe hij.1 hij.2.1) hij

theorem LsfFits.later {s : State} {k k' : Nat} {x : Option (List Int)} (h : LsfFits s k x) (hk : 5 ≤ k) :
    LsfFits s k' x := fun _ => h hk

theorem LsfFits.early {s : State} {k : Nat} {x : Option (List Int)} (hk : k < 5) : LsfFits s k x :=
  fun h => absurd h (by omega)

/-- Check 0x02. -/
theorem nsf_of_profileOk {s : State} (h : profileOk s = true) : 1 ≤ P.nsf s ∧ P.nsf s ≤ s.caps.nsf := by
  have h2 : Machine.inRange (P.nsf s) 1 s.caps.nsf = true := checkHolds_of_profileOk h (by norm_num : 0x02 < 0x8A)
  simpa only [Machine.inRange, Bool.and_eq_true, decide_eq_true_eq] using h2

/-- Check 0x0C. -/
theorem pitchMin_pos_of_profileOk {s : State} (h : profileOk s = true) : 1 ≤ P.pitchMin s := by
  have h0C : Machine.inRange (P.pitchMin s) 1 1023 = true := checkHolds_of_profileOk h (by norm_num : 0x0C < 0x8A)
  simp only [Machine.inRange, Bool.and_eq_true, decide_eq_true_eq] at h0C
  exact h0C.1

/-- Check 0x0E. -/
theorem pitchRes_pos_of_profileOk {s : State} (h : profileOk s = true) : 0 < P.pitchRes s := by
  have h0E : (decide (P.pitchRes s = 3) || decide (P.pitchRes s = 6)) = true :=
    checkHolds_of_profileOk h (by norm_num : 0x0E < 0x8A)
  simp only [Bool.or_eq_true, decide_eq_true_eq] at h0E
  omega

/-- Check 0x26. -/
theorem sharpMode_le_of_profileOk {s : State} (h : profileOk s = true) : P.sharpMode s ≤ 2 :=
  of_decide_eq_true (checkHolds_of_profileOk h (by norm_num : 0x26 < 0x8A))

/-- Check 0x29. -/
theorem gainMode_le_of_profileOk {s : State} (h : profileOk s = true) : P.gainMode s ≤ 1 :=
  of_decide_eq_true (checkHolds_of_profileOk h (by norm_num : 0x29 < 0x8A))

/-- Check 0x3A. -/
theorem pfAgcAlpha_le_of_profileOk {s : State} (h : profileOk s = true) : P.pfAgcAlpha s ≤ 32767 :=
  of_decide_eq_true (checkHolds_of_profileOk h (by norm_num : 0x3A < 0x8A))

/-! ## What CHECK has found of a good frame (R156, step 6) -/

theorem checkSubframes_succ_iff (s : State) (n sf : Nat) (prev : Int) :
    checkSubframes s (n + 1) sf prev = none ↔ ∃ ti tf, pitchDecode s sf (F.pitchIdx s sf) prev = some (ti, tf)
      ∧ checkIndices s sf = none ∧ checkSubframes s n (sf + 1) ti = none := by
  rw [checkSubframes]
  rcases pitchDecode s sf (F.pitchIdx s sf) prev with _ | ⟨ti, tf⟩
  · simp
  · cases checkIndices s sf <;> simp

/-- The first of the subframes that pass. -/
theorem subframesPass_iff {s : State} {sf : Nat} (hsf : sf < P.nsf s) (prev : Int) :
    SubframesPass s sf prev ↔ ∃ ti tf, pitchDecode s sf (F.pitchIdx s sf) prev = some (ti, tf)
      ∧ checkIndices s sf = none ∧ SubframesPass s (sf + 1) ti := by
  have hleft : P.nsf s - sf = P.nsf s - (sf + 1) + 1 := by omega
  rw [SubframesPass, hleft, checkSubframes_succ_iff]
  rfl

theorem fcbDecode_of_checkIndices {s : State} {sf : Nat} (h : checkIndices s sf = none) :
    ∃ pos amp, fcbDecode s (P.fcbFamily s) (F.fcbCode s sf) (F.fcbSign s sf) = .ok (pos, amp) := by
  rw [checkIndices] at h
  split at h
  · cases h
  · split at h
    · cases h
    · split at h
      · cases h
      · cases h
      · exact ⟨_, _, ‹_›⟩

/-! ## Frame level -/

theorem frameRun_le (s : State) : frameRun s ≤ 255 := by
  unfold frameRun
  split
  · exact Nat.min_le_left _ _
  · exact Nat.zero_le _

theorem answers_idle (s : State) : Answers .idle s execIdle :=
  ⟨.stayed, ⟨rfl, fun _ => trivial, fun _ _ => trivial⟩, fun _ => rfl⟩

theorem subframesPass_of_checkFrame {s : State} (h : checkFrame s = none) : SubframesPass s 0 s.wrk.prevLagInt := by
  rw [checkFrame] at h
  cases hlsp : checkLsp s (P.lspStages s) 0 with
  | some r => rw [hlsp] at h; cases h
  | none =>
    cases hsel : checkMaSel s with
    | some r => rw [hlsp, hsel] at h; cases h
    | none => rw [hlsp, hsel] at h; exact h

theorem frameRun_of_good {s : State} (h : frameErased s = false) : frameRun s = 0 ∧ frameMuted s = false := by
  simp [frameRun, frameMuted, h]

theorem answers_check (s : State) : Answers .check s execCheck := by
  cases hhead : checkHead s with
  | some r =>
    refine answers_raised (r := r) fun h => ?_
    have hhead' : checkHead (State.reads s h) = some r := hhead
    rw [execCheck, hhead']
  | none =>
    refine answers_of_eq_reads (g := fun u => if frameErased u = true then
        .next ((u.setW { u.w with
          erased := some true, run := some (frameRun u), muted := some (frameMuted u) }).goto .lsfConceal 0 false)
      else match checkFrame s with
        | some r => .next (u.raise r)
        | none => .next ((u.setW { u.w with
          erased := some false, run := some 0, muted := some false }).goto .lsfDec 0 false)) (fun h => ?_) ?_
    · have hhead' : checkHead (State.reads s h) = none := hhead
      rw [execCheck, hhead', checkFrame_reads]
      by_cases herased : frameErased (State.reads s h) = true
      · simp only [herased, if_true]
      · rw [Bool.not_eq_true] at herased
        obtain ⟨hrun, hmuted⟩ := frameRun_of_good herased
        simp only [herased, hrun, hmuted]
        rfl
    · refine answers_ite (fun _ => Iff.rfl) (fun _ => ?_) fun _ => ?_
      · refine answers_goto (next := fun _ => .lsfConceal) (fun _ => rfl) (fun hs => ?_) fun _ hf => ?_
        · exact ⟨hs.dec, { hs.work with run := by rintro _ ⟨⟩; exact frameRun_le s }, .early (by decide)⟩
        · exact ⟨hf.check_bad _ _, by decide, by simp [stagesLeft, stageId]⟩
      · cases hframe : checkFrame s with
        | some r => exact answers_raised fun _ => rfl
        | none =>
          refine answers_goto (next := fun _ => .lsfDec) (fun _ => rfl) (fun hs => ?_) fun _ hf => ?_
          · exact ⟨hs.dec, { hs.work with run := by rintro _ ⟨⟩; exact Nat.zero_le _ }, .early (by decide)⟩
          · exact ⟨hf.check_good _ (subframesPass_of_checkFrame hframe), by decide, by simp [stagesLeft, stageId]⟩

theorem answers_lsfDec (s : State) : Answers .lsfDec s execLsfDec := by
  refine answers_goto (next := fun _ => .lsfStab) (fun _ => rfl) (fun hs => ?_) (fun _ hf => ?_)
    (hreads := fun h => ⟨?_, rfl, rfl, rfl⟩)
  · exact ⟨hs.dec, { hs.work with
      res := by rintro _ ⟨⟩; exact tab_length _ _
      lsfLen := by rintro _ ⟨⟩; exact tab_length _ _ }, .early (by decide)⟩
  · exact ⟨hf.lsfDec _ _ _, by decide, by simp [stagesLeft, stageId]⟩
  · simp only [lsfResidual_reads]
    rfl

theorem answers_lsfConceal (s : State) : Answers .lsfConceal s execLsfConceal := by
  refine answers_goto (next := fun _ => .lsfStab) (fun _ => rfl) (fun hs => ?_) fun _ hf => ?_
  · exact ⟨hs.dec, { hs.work with lsfLen := by rintro _ ⟨⟩; exact tab_length _ _ }, .early (by decide)⟩
  · exact ⟨hf.lsfConceal _ _, by decide, by simp [stagesLeft, stageId]⟩

theorem length_stabilise {d lower upper : Int} {p : Nat} {x : List Int} (h : x.length = p) :
    (stabilise d lower upper x).length = p := by
  rw [eq_tab_elem h, stabilise_tab, tab_length]

theorem answers_lsfStab (s : State) : Answers .lsfStab s execLsfStab := by
  refine answers_need Work.lsf (fun _ hf => (hf.lsf (by decide)).1) fun lsf hlsf => ?_
  refine answers_ite (fun _ => Iff.rfl) (fun hstable => ?_) fun _ => answers_raised fun _ => rfl
  refine answers_goto (next := fun _ => .lsf2lsp) (fun _ => rfl) (fun hs => ?_) fun _ hf => ?_
  · have hlen := length_stabilise (d := P.minSpacing s) (lower := P.lsfLower s) (upper := P.lsfUpper s)
      (hs.work.lsfLen lsf hlsf)
    have hok := (lsfStable_iff hlen (order_pos_of_profileOk hs.profile)).mp hstable
    exact ⟨hs.dec, { hs.work with lsfLen := by rintro _ ⟨⟩; exact hlen }, fun _ => by rintro _ ⟨⟩; exact hok⟩
  · exact ⟨hf.lsfStab _, by decide, by simp [stagesLeft, stageId]⟩

/-- The head of the subframe loop, as a branch of the stage. -/
theorem next_toSubframe (u : State) (sf : Nat) : (.next (u.toSubframe sf) : Out) =
    if sf < P.nsf u then .next (u.goto .lspInterp sf false) else .next (u.goto .frameCommit 0 false) := by
  unfold State.toSubframe
  split <;> rfl

theorem answers_lsf2lsp (s : State) : Answers .lsf2lsp s execLsf2lsp := by
  refine answers_need Work.lsf (fun _ hf => (hf.lsf (by decide)).1) fun lsf hlsf => ?_
  refine answers_of_eq (fun u => next_toSubframe _ _) ?_
  have hkeeps (hs : SoundAt s (stageId .lsf2lsp).toNat) (k : Nat) : DecOk s s.wrk
      ∧ WorkFits s { s.w with lspq := some (tab (P.order s) fun i => cosQ15 (elem lsf i)) } ∧ LsfFits s k s.w.lsf :=
    ⟨hs.dec, { hs.work with lspq := by rintro _ ⟨⟩; exact tab_length _ _ }, hs.lsf.later (by decide)⟩
  refine answers_ite (fun _ => Iff.rfl) (fun hnsf => ?_) fun hnsf => ?_
  · refine answers_goto (next := fun _ => .lspInterp) (fun _ => rfl) (fun hs => hkeeps hs _) fun _ hf => ?_
    exact ⟨hf.lsf2lsp hnsf _, by decide, by simp [stagesLeft, stageId, placeInSubframe]⟩
  · refine answers_goto (next := fun _ => .frameCommit) (fun _ => rfl) (fun hs => hkeeps hs _) fun hs _ => ?_
    exact absurd (nsf_of_profileOk hs.profile).1 hnsf

/-! ## The spectrum and the delay of a subframe -/

theorem answers_lspInterp (s : State) : Answers .lspInterp s execLspInterp := by
  refine answers_need Work.lspq (fun _ hf => hf.lspq (by decide)) fun lspq _ => ?_
  refine answers_goto (next := fun _ => .lsp2lpc) (fun _ => rfl) (fun hs => ?_) fun _ hf => ?_
  · exact ⟨hs.dec, hs.work, hs.lsf.later (by decide)⟩
  · exact ⟨hf.lspInterp _, State.sf_lt_four s, hf.advance (by decide)⟩

theorem answers_lsp2lpc (s : State) : Answers .lsp2lpc s execLsp2lpc := by
  refine answers_need Work.lspi (fun _ hf => hf.lspi (by decide)) fun lspi _ => ?_
  refine answers_need Work.erased (fun _ hf => (hf.flags (by decide)).1) fun erased herased => ?_
  have hkeeps (hs : SoundAt s (stageId .lsp2lpc).toNat) (k : Nat) :
      DecOk s s.wrk ∧ WorkFits s s.w ∧ LsfFits s k s.w.lsf :=
    ⟨hs.dec, hs.work, hs.lsf.later (by decide)⟩
  cases erased with
  | true =>
    refine answers_goto (next := fun _ => .pitchConceal) (fun _ => rfl) (fun hs => hkeeps hs _) fun _ hf => ?_
    exact ⟨hf.lsp2lpc_conceal herased _, State.sf_lt_four s, hf.advance (by decide)⟩
  | false =>
    cases hmask : (P.pitchAbsMask s).testBit s.sf with
    | true =>
      refine answers_goto (next := fun u => pitchStage u false u.sf) (fun _ => rfl) ?_ ?_ (hnext := ?_)
      all_goals simp only [pitchStage, hmask]
      · exact fun hs => hkeeps hs _
      · exact fun _ hf => ⟨hf.lsp2lpc_abs herased hmask _, State.sf_lt_four s, hf.advance (by decide)⟩
      · decide
    | false =>
      refine answers_goto (next := fun u => pitchStage u false u.sf) (fun _ => rfl) ?_ ?_ (hnext := ?_)
      all_goals simp only [pitchStage, hmask]
      · exact fun hs => hkeeps hs _
      · exact fun _ hf => ⟨hf.lsp2lpc_rel herased hmask _, State.sf_lt_four s, hf.advance (by decide)⟩
      · decide

/-- The delay of a good frame decodes: CHECK has decoded it from the same delay before it. -/
theorem FrameAt.pitchDecode_isSome {s : State} {k : Nat} (h : FrameHere s k) (hk : k = 0x08 ∨ k = 0x09) :
    ∃ ti tf, pitchDecode s s.sf (F.pitchIdx s s.sf) s.wrk.prevLagInt = some (ti, tf) := by
  have hpass := (h.passed (h.isGood (by omega))).2.1 (by omega) (by omega)
  obtain ⟨ti, tf, hdelay, -, -⟩ := (subframesPass_iff (h.subframe (by omega) (by omega)) _).mp hpass
  exact ⟨ti, tf, hdelay⟩

/-- The two pitch stages, by their law. -/
theorem answers_pitchInto {i : Instr} {s : State} (abs : Bool)
    (hi : (stageId i).toNat = 0x08 ∨ (stageId i).toNat = 0x09)
    (hlaw : FrameHere s (stageId i).toNat → (P.pitchAbsMask s).testBit s.sf = abs) :
    Answers i s fun u => pitchInto u (pitchDecodeBy u abs (F.pitchIdx u u.sf) u.wrk.prevLagInt) := by
  have hdecode (hf : FrameHere s (stageId i).toNat) :
      pitchDecode s s.sf (F.pitchIdx s s.sf) s.wrk.prevLagInt
        = pitchDecodeBy s abs (F.pitchIdx s s.sf) s.wrk.prevLagInt := by
    rw [pitchDecode, hlaw hf]
  cases hdelay : pitchDecodeBy s abs (F.pitchIdx s s.sf) s.wrk.prevLagInt with
  | none =>
    refine answers_stopped (e := .notValidated) (fun h => ?_) fun _ hf => ?_
    · show pitchInto _ (pitchDecodeBy s abs (F.pitchIdx s s.sf) s.wrk.prevLagInt) = _
      rw [hdelay]
      rfl
    · obtain ⟨ti, tf, hsome⟩ := hf.pitchDecode_isSome hi
      rw [hdecode hf, hdelay] at hsome
      cases hsome
  | some v =>
    obtain ⟨ti, tf⟩ := v
    refine answers_of_eq_reads (g := fun u => pitchInto u (some (ti, tf))) (fun h => ?_) ?_
    · show pitchInto _ (pitchDecodeBy s abs (F.pitchIdx s s.sf) s.wrk.prevLagInt) = _
      rw [hdelay]
    · refine answers_goto (next := fun _ => .acbInterp) (fun _ => rfl) (fun hs => ?_) fun _ hf => ?_
      · have hlag := (pitchDecodeBy_bounds (pitchRes_pos_of_profileOk hs.profile) hdelay).1
        exact ⟨hs.dec, { hs.work with lag := by rintro _ ⟨⟩; exact hlag }, hs.lsf.later (by omega)⟩
      · have hplace : FrameHere s (stageId i).toNat → stagesLeft (P.nsf s) (stageId .acbInterp).toNat s.sf
            < stagesLeft (P.nsf s) (stageId i).toNat s.sf := fun hf => by
          refine hf.advance ?_
          rcases hi with hi | hi <;> rw [hi] <;> decide
        have hdelay' := (hdecode hf).trans hdelay
        refine ⟨?_, State.sf_lt_four s, hplace hf⟩
        rcases hi with hi | hi <;> rw [hi] at hf
        · exact hf.pitchAbs hdelay'
        · exact hf.pitchRel hdelay'

theorem answers_pitchAbs (s : State) : Answers .pitchAbs s execPitchAbs :=
  answers_pitchInto true (.inl rfl) fun hf => hf.law.1 rfl

theorem answers_pitchRel (s : State) : Answers .pitchRel s execPitchRel :=
  answers_pitchInto false (.inr rfl) fun hf => hf.law.2 rfl

theorem answers_pitchConceal (s : State) : Answers .pitchConceal s execPitchConceal := by
  refine answers_ite (fun _ => Iff.rfl) (fun _ => ?_) fun _ => ?_
  · refine answers_goto (next := fun _ => .acbInterp) (fun _ => rfl) (fun hs => ?_) fun _ hf => ?_
    · have hbounds := pitchMin_le_pitchMax_of_profileOk hs.profile
      refine ⟨{ hs.dec with seed := prngNext_lt _ _ }, { hs.work with lag := ?_ }, hs.lsf.later (by decide)⟩
      rintro _ ⟨⟩
      rw [pitchMin_add_floorMod hbounds]
      exact lagOk_drawnDelay hbounds _
    · exact ⟨hf.pitchConceal _ _, State.sf_lt_four s, hf.advance (by decide)⟩
  · refine answers_goto (next := fun _ => .acbInterp) (fun _ => rfl) (fun hs => ?_) fun _ hf => ?_
    · exact ⟨hs.dec, { hs.work with lag := by rintro _ ⟨⟩; exact hs.dec.lag }, hs.lsf.later (by decide)⟩
    · exact ⟨hf.pitchConceal _ _, State.sf_lt_four s, hf.advance (by decide)⟩

end Sys2Proof.Proofs
end

