-- ==== Sys2Proof/Proofs/ExcitationStages.lean ====
section
/-! The answers of the stages from ACB_INTERP to FRAME_COMMIT (R158). -/

namespace Sys2Proof.Proofs
open Sys2Proof Sys2Proof.Machine

/-! ## The excitation -/

theorem answers_acbInterp (s : State) : Answers .acbInterp s execAcbInterp := by
  refine answers_need Work.tInt (fun _ hf => (hf.delay (by decide)).1) fun tInt _ => ?_
  refine answers_need Work.tFrac (fun _ hf => (hf.delay (by decide)).2) fun tFrac _ => ?_
  refine answers_need Work.erased (fun _ hf => (hf.flags (by decide)).1) fun erased herased => ?_
  cases hstage : fcbStage s erased with
  | none =>
    refine answers_stopped (e := .profileCase 0x1F) (fun h => ?_) fun hs _ => ?_
    · have hstage' : fcbStage (State.reads s h) erased = none := hstage
      rw [hstage']
    · rw [fcbStage_eq_some (.inr (fcbFamily_le_of_profileOk hs.profile))] at hstage
      cases hstage
  | some next =>
    refine answers_of_eq_reads (g := fun u => .next ((u.setW { u.w with
      acbv := some (buildUp (acbSample u tInt (acbPhase u tFrac)) (P.sfLen u)) }).goto next u.sf false))
        (fun h => ?_) ?_
    · have hstage' : fcbStage (State.reads s h) erased = some next := hstage
      rw [hstage']
    · have hkeeps (hs : SoundAt s (stageId .acbInterp).toNat) (k : Nat) :
          DecOk s s.wrk ∧ WorkFits s s.w ∧ LsfFits s k s.w.lsf := ⟨hs.dec, hs.work, hs.lsf.later (by decide)⟩
      cases erased with
      | true =>
        cases hstage
        refine answers_goto (next := fun _ => .fcbConceal) (fun _ => rfl) (fun hs => hkeeps hs _) fun _ hf => ?_
        exact ⟨hf.acbInterp_bad herased _, State.sf_lt_four s, hf.advance (by decide)⟩
      | false =>
        have hcases : P.fcbFamily s = 0 ∧ next = .fcbTrack ∨ P.fcbFamily s = 1 ∧ next = .fcbGray
            ∨ P.fcbFamily s = 2 ∧ next = .fcbBaseb ∨ P.fcbFamily s = 3 ∧ next = .fcbExpl := by
          rw [fcbStage, if_neg Bool.false_ne_true] at hstage
          split at hstage <;> cases hstage <;> simp [*]
        rcases hcases with ⟨hfam, rfl⟩ | ⟨hfam, rfl⟩ | ⟨hfam, rfl⟩ | ⟨hfam, rfl⟩
        all_goals
          refine answers_goto (next := fun _ => _) (fun _ => rfl) (fun hs => hkeeps hs _) fun _ hf => ?_
          exact ⟨hf.acbInterp_good herased (by decide) hfam _, State.sf_lt_four s, hf.advance (by decide)⟩

/-- The stages that write `W.SP`: pulses inside the subframe, and the generator's state after them. -/
theorem answers_sparseInto {i : Instr} {s : State} {pos : List Nat} {amp : List Int} {seed : Nat}
    (hi : 0x0C ≤ (stageId i).toNat ∧ (stageId i).toNat ≤ 0x10)
    (hseed : SoundAt s (stageId i).toNat → seed < 65536)
    (hpulses : SoundAt s (stageId i).toNat → FrameHere s (stageId i).toNat →
      pos.length = P.fcbNpulses s ∧ amp.length = P.fcbNpulses s ∧ ∀ x ∈ pos, x < P.sfLen s) :
    Answers i s fun u => sparseInto (u.setWrk { u.wrk with prngSeed := seed }) pos amp := by
  have hkeeps (hs : SoundAt s (stageId i).toNat) (k : Nat) : DecOk s { s.wrk with prngSeed := seed }
      ∧ WorkFits s s.w ∧ LsfFits s k s.w.lsf :=
    ⟨{ hs.dec with seed := hseed hs }, hs.work, hs.lsf.later (by omega)⟩
  have hplace (hf : FrameHere s (stageId i).toNat) : stagesLeft (P.nsf s) (stageId .fcbBuild).toNat s.sf
      < stagesLeft (P.nsf s) (stageId i).toNat s.sf := by
    refine hf.advance ⟨by omega, by omega, by decide, by decide, ?_⟩
    have hbuild : placeInSubframe (stageId .fcbBuild).toNat = 5 := rfl
    rw [hbuild, placeInSubframe]
    repeat rw [if_neg (by omega)]
    rw [if_pos hi.2]
    omega
  have hok (hs : SoundAt s (stageId i).toNat) (hf : FrameHere s (stageId i).toNat) (lag : Int) :
      (sparseOf (s.setWrk { s.wrk with prngSeed := seed }) pos amp lag).ok (P.sfLen s) = true :=
    (sparseVec_ok_iff _ _).mpr (hpulses hs hf)
  refine answers_ite (c := fun u => P.sharpMode u = 0) (fun _ => Iff.rfl) (fun hplain => ?_) fun hsharp => ?_
  · refine answers_goto (next := fun _ => .fcbBuild) (fun _ => rfl) (fun hs => hkeeps hs _) fun hs hf => ?_
    exact ⟨hf.fcb hi (hok hs hf 0) (fun h => absurd hplain h) rfl, State.sf_lt_four s, hplace hf⟩
  · refine answers_need Work.tInt (fun _ hf => (hf.delay (by omega)).1) fun lag hlag => ?_
    refine answers_goto (next := fun _ => .fcbBuild) (fun _ => rfl) (fun hs => hkeeps hs _) fun hs hf => ?_
    have hmin := pitchMin_pos_of_profileOk hs.profile
    have hpos : 1 ≤ lag := by
      obtain ⟨hlow, -⟩ := hs.work.lag lag hlag
      omega
    exact ⟨hf.fcb hi (hok hs hf lag) (fun _ => hpos) rfl, State.sf_lt_four s, hplace hf⟩

/-- The four decoders, by their family. -/
theorem answers_fcbInto {i : Instr} {s : State} {k : Nat} (hi : (stageId i).toNat = 0x0C + k) (hk : k ≤ 3) :
    Answers i s fun u => fcbInto u k := by
  have hdecode (hf : FrameHere s (stageId i).toNat) :
      P.fcbFamily s = k ∧ ∃ pos amp, fcbDecode s k (F.fcbCode s s.sf) (F.fcbSign s s.sf) = .ok (pos, amp) := by
    have hpass := (hf.passed (hf.isGood (by omega))).2.1 (by omega) (by omega)
    obtain ⟨-, -, -, hindices, -⟩ := (subframesPass_iff (hf.subframe (by omega) (by omega)) _).mp hpass
    have hfamily : P.fcbFamily s = k := by
      rw [hf.family (by omega) (by omega), hi]
      omega
    exact ⟨hfamily, hfamily ▸ fcbDecode_of_checkIndices hindices⟩
  have hinto (h : State) : fcbInto (State.reads s h) k
      = match fcbDecode s k (F.fcbCode s s.sf) (F.fcbSign s s.sf) with
        | .error _ => .fault .notValidated
        | .ok (pos, amp) => sparseInto (State.reads s h) pos amp := by
    rw [← fcbDecode_reads s h]
    rfl
  cases hv : fcbDecode s k (F.fcbCode s s.sf) (F.fcbSign s s.sf) with
  | error e =>
    refine answers_stopped (e := .notValidated) (fun h => ?_) fun _ hf => ?_
    · rw [hinto, hv]
    · obtain ⟨-, pos, amp, hok⟩ := hdecode hf
      rw [hv] at hok
      cases hok
  | ok v =>
    obtain ⟨pos, amp⟩ := v
    refine answers_of_eq_reads (g := fun u => sparseInto (u.setWrk { u.wrk with prngSeed := s.wrk.prngSeed }) pos amp)
      (fun h => ?_) (answers_sparseInto (by omega) (fun hs => hs.dec.seed) fun hs hf => ?_)
    · rw [hinto, hv]
      rfl
    · have hok := hv
      rw [← (hdecode hf).1] at hok
      exact fcbPositionsInRange s _ _ pos amp hs.profile hok

theorem answers_fcbTrack (s : State) : Answers .fcbTrack s execFcbTrack := answers_fcbInto rfl (by decide)

theorem answers_fcbGray (s : State) : Answers .fcbGray s execFcbGray := answers_fcbInto rfl (by decide)

theorem answers_fcbBaseb (s : State) : Answers .fcbBaseb s execFcbBaseb := answers_fcbInto rfl (by decide)

theorem answers_fcbExpl (s : State) : Answers .fcbExpl s execFcbExpl := answers_fcbInto rfl (by decide)

/-- The pulses of an erased subframe, and the generator's state after them. -/
theorem drawPulses_inside {s : State} (hlen : 0 < P.sfLen s) (n : Nat) {seed : Nat} (hseed : seed < 65536) :
    (drawPulses s n seed).1.length = n ∧ (drawPulses s n seed).2.1.length = n
      ∧ (∀ x ∈ (drawPulses s n seed).1, x < P.sfLen s) ∧ (drawPulses s n seed).2.2 < 65536 := by
  induction n generalizing seed with
  | zero => exact ⟨rfl, rfl, fun x hx => absurd hx List.not_mem_nil, hseed⟩
  | succ n ih =>
    obtain ⟨hpos, hamp, hinside, hlast⟩ := ih (prngNext_lt s (prngNext s seed))
    rw [drawPulses_succ]
    refine ⟨congrArg (· + 1) hpos, congrArg (· + 1) hamp, fun x hx => ?_, hlast⟩
    rcases List.mem_cons.mp hx with rfl | hx
    · exact drawnPosition_lt hlen (prngNext_lt s _)
    · exact hinside x hx

theorem answers_fcbConceal (s : State) : Answers .fcbConceal s execFcbConceal := by
  have hdraw (hs : SoundAt s (stageId .fcbConceal).toNat) :=
    drawPulses_inside (sfLen_pos_of_profileOk hs.profile) (P.fcbNpulses s) hs.dec.seed
  refine answers_of_eq_reads (fun h => ?_) (answers_sparseInto (by decide) (fun hs => (hdraw hs).2.2.2) fun hs _ =>
    ⟨(hdraw hs).1, (hdraw hs).2.1, (hdraw hs).2.2.1⟩)
  simp only [execFcbConceal, drawPulses_reads]
  rfl

theorem answers_fcbBuild (s : State) : Answers .fcbBuild s execFcbBuild := by
  refine answers_need Work.sp (fun _ hf => ?_) fun sp hsp => ?_
  · obtain ⟨v, hv, -⟩ := hf.sp (by decide)
    rw [hv]
    rfl
  refine answers_need Work.erased (fun _ hf => (hf.flags (by decide)).1) fun erased herased => ?_
  have hvec (hf : FrameHere s (stageId .fcbBuild).toNat) :
      sp.ok (P.sfLen s) = true ∧ (P.sharpMode s ≠ 0 → 1 ≤ sp.lag) := by
    obtain ⟨v, hv, hok⟩ := hf.sp (by decide)
    rw [hsp] at hv
    cases hv
    exact hok
  refine answers_ite (fun _ => Iff.rfl) (fun hbad => answers_stopped (fun _ => rfl) fun _ hf => ?_) fun _ => ?_
  · rw [(hvec hf).1] at hbad
    cases hbad
  refine answers_ite (fun _ => Iff.rfl) (fun hmode => answers_stopped (fun _ => rfl) fun hs _ => ?_) fun _ => ?_
  · have hle := sharpMode_le_of_profileOk hs.profile
    omega
  refine answers_ite (fun _ => Iff.rfl) (fun hlag => answers_stopped (fun _ => rfl) fun _ hf => ?_) fun _ => ?_
  · have hpos := (hvec hf).2 hlag.1
    omega
  · cases erased with
    | true =>
      refine answers_goto (next := fun _ => .gainConceal) (fun _ => rfl) (fun hs => ?_) fun _ hf => ?_
      · exact ⟨hs.dec, hs.work, hs.lsf.later (by decide)⟩
      · exact ⟨hf.fcbBuild_bad herased _, State.sf_lt_four s, hf.advance (by decide)⟩
    | false =>
      refine answers_goto (next := fun _ => .gainDec) (fun _ => rfl) (fun hs => ?_) fun _ hf => ?_
      · exact ⟨hs.dec, hs.work, hs.lsf.later (by decide)⟩
      · exact ⟨hf.fcbBuild_good herased _, State.sf_lt_four s, hf.advance (by decide)⟩

/-! ## The gains -/

theorem answers_gainDec (s : State) : Answers .gainDec s execGainDec := by
  refine answers_need Work.fcv (fun _ hf => hf.fcv (by decide)) fun fcv _ => ?_
  cases hgp : decodedGp s with
  | none =>
    refine answers_stopped (e := .profileCase 0x29) (fun h => ?_) fun hs _ => ?_
    · have hgp' : decodedGp (State.reads s h) = none := hgp
      rw [hgp']
    · rcases Nat.le_one_iff_eq_zero_or_eq_one.mp (gainMode_le_of_profileOk hs.profile) with hmode | hmode
        <;> simp [decodedGp, hmode] at hgp
  | some gp =>
    refine answers_of_eq_reads (g := fun u => .next ((u.setW { u.w with
      corr := some (P.gainCf u (F.gainIdxA u u.sf) : Int), gp := some (gp : Int)
      gc := some (gainc (P.gainCf u (F.gainIdxA u u.sf)) (predictedEnergy u) (sumSquares (P.sfLen u) fcv) (P.sfLen u))
      }).goto .gainUpd u.sf false)) (fun h => ?_) ?_
    · have hgp' : decodedGp (State.reads s h) = some gp := hgp
      rw [hgp']
    · refine answers_goto (next := fun _ => .gainUpd) (fun _ => rfl) (fun hs => ?_) fun _ hf => ?_
      · exact ⟨hs.dec, hs.work, hs.lsf.later (by decide)⟩
      · exact ⟨hf.gainDec _ _ _, State.sf_lt_four s, hf.advance (by decide)⟩

theorem answers_gainConceal (s : State) : Answers .gainConceal s execGainConceal := by
  refine answers_need Work.muted (fun _ hf => (hf.flags (by decide)).2.1) fun muted _ => ?_
  refine answers_goto (next := fun _ => .gainUpd) (fun _ => rfl) (fun hs => ?_) fun _ hf => ?_
  · exact ⟨hs.dec, hs.work, hs.lsf.later (by decide)⟩
  · exact ⟨hf.gainConceal _ _, State.sf_lt_four s, hf.advance (by decide)⟩

/-- Either branch of GAIN_UPD. -/
theorem answers_gainUpdInto {s : State} {new : State → Int} (hnew : ∀ h, new (State.reads s h) = new s) (gp gc : Int) :
    Answers .gainUpd s fun u => gainUpdInto u (new u) gp gc := by
  have hkeeps (hs : SoundAt s (stageId .gainUpd).toNat) (k : Nat) : DecOk s { s.wrk with
      energyHist := pushNewest (new s) s.wrk.energyHist
      gpHist := pushNewest gp s.wrk.gpHist
      gcHist := pushNewest gc s.wrk.gcHist } ∧ WorkFits s s.w ∧ LsfFits s k s.w.lsf :=
    ⟨{ hs.dec with
        energyLen := (pushNewest_length _ _).trans hs.dec.energyLen
        gpLen := (pushNewest_length _ _).trans hs.dec.gpLen
        gcLen := (pushNewest_length _ _).trans hs.dec.gcLen }, hs.work, hs.lsf.later (by decide)⟩
  cases hdisp : P.dispEn s with
  | true =>
    refine answers_goto (next := dispStage) (fun _ => rfl) ?_ ?_ (hnext := ?_)
      (hreads := fun h => ⟨rfl, by rw [hnew]; rfl, rfl, rfl⟩)
    all_goals simp only [dispStage, hdisp]
    · exact fun hs => hkeeps hs _
    · exact fun _ hf => ⟨hf.gainUpd_disp hdisp rfl, State.sf_lt_four s, hf.advance (by decide)⟩
    · decide
  | false =>
    refine answers_goto (next := dispStage) (fun _ => rfl) ?_ ?_ (hnext := ?_)
      (hreads := fun h => ⟨rfl, by rw [hnew]; rfl, rfl, rfl⟩)
    all_goals simp only [dispStage, hdisp]
    · exact fun hs => hkeeps hs _
    · exact fun _ hf => ⟨hf.gainUpd_plain rfl, State.sf_lt_four s, hf.advance (by decide)⟩
    · decide

theorem answers_gainUpd (s : State) : Answers .gainUpd s execGainUpd := by
  refine answers_need Work.erased (fun _ hf => (hf.flags (by decide)).1) fun erased herased => ?_
  refine answers_need Work.gp (fun _ hf => (hf.gains (by decide)).1) fun gp _ => ?_
  refine answers_need Work.gc (fun _ hf => (hf.gains (by decide)).2.1) fun gc _ => ?_
  cases erased with
  | true => exact answers_gainUpdInto (new := erasedEnergy) (fun _ => rfl) gp gc
  | false =>
    refine answers_need Work.corr (fun _ hf => (hf.gains (by decide)).2.2 herased) fun corr _ => ?_
    exact answers_gainUpdInto (fun _ => rfl) gp gc

theorem dispOnset_le {d : DecState} (h : d.dispOnset ≤ 2) (gc : Int) : dispOnset d gc ≤ 2 := by
  unfold dispOnset
  split
  · exact le_rfl
  · split <;> omega

theorem dispChoice_le (s : State) (gp gc : Int) : dispChoice s gp gc ≤ 2 := by
  have hstrength : dispStrength s gp ≤ 2 := by
    unfold dispStrength
    split
    · omega
    · split <;> omega
  unfold dispChoice
  split
  · exact le_rfl
  · unfold dispAdjust
    dsimp only
    split
    · split <;> split <;> omega
    · split <;> omega

theorem answers_phaseDisp (s : State) : Answers .phaseDisp s execPhaseDisp := by
  refine answers_need Work.fcv (fun _ hf => hf.fcv (by decide)) fun fcv _ => ?_
  refine answers_need Work.gp (fun _ hf => (hf.gains (by decide)).1) fun gp _ => ?_
  refine answers_need Work.gc (fun _ hf => (hf.gains (by decide)).2.1) fun gc _ => ?_
  refine answers_goto (next := fun _ => .excMix) (fun _ => rfl) (fun hs => ?_) fun _ hf => ?_
  · exact ⟨{ hs.dec with onset := dispOnset_le hs.dec.onset gc, filt := dispChoice_le s gp gc }, hs.work,
      hs.lsf.later (by decide)⟩
  · exact ⟨hf.phaseDisp (by rfl) _, State.sf_lt_four s, hf.advance (by decide)⟩

theorem answers_excMix (s : State) : Answers .excMix s execExcMix := by
  refine answers_need Work.gp (fun _ hf => (hf.gains (by decide)).1) fun gp _ => ?_
  refine answers_need Work.gc (fun _ hf => (hf.gains (by decide)).2.1) fun gc _ => ?_
  refine answers_need Work.acbv (fun _ hf => hf.acbv (by decide)) fun acbv _ => ?_
  refine answers_need Work.fcv (fun _ hf => hf.fcv (by decide)) fun fcv _ => ?_
  refine answers_goto (next := fun _ => .lpSynth) (fun _ => rfl) (fun hs => ?_) fun _ hf => ?_
  · exact ⟨hs.dec, hs.work, hs.lsf.later (by decide)⟩
  · exact ⟨hf.excMix _, State.sf_lt_four s, hf.advance (by decide)⟩

end Sys2Proof.Proofs
end

