-- ==== Sys2Proof/Proofs/SynthesisStages.lean ====
section
/-! The answers of the stages from LP_SYNTH to FRAME_COMMIT, and with them of all 32 (R158). -/

namespace Sys2Proof.Proofs
open Sys2Proof Sys2Proof.Machine

/-! ## Synthesis -/

theorem answers_lpSynth (s : State) : Answers .lpSynth s execLpSynth := by
  refine answers_need Work.lpc (fun _ hf => hf.lpc (by decide)) fun lpc _ => ?_
  refine answers_need Work.excv (fun _ hf => hf.excv (by decide)) fun excv _ => ?_
  have hkeeps (hs : SoundAt s (stageId .lpSynth).toNat) (k : Nat) :
      DecOk s s.wrk ∧ WorkFits s s.w ∧ LsfFits s k s.w.lsf :=
    ⟨hs.dec, hs.work, hs.lsf.later (by decide)⟩
  cases hpass : synthPass (P.order s) lpc s.wrk.synMem excv (P.synthBound s) (P.sfLen s) with
  | some y =>
    refine answers_of_eq_reads (g := fun u => .next ((u.setW { u.w with
      syn := some y, ovf := some false }).goto .sfCommit u.sf false)) (fun h => ?_) ?_
    · show (match synthPass (P.order s) lpc s.wrk.synMem excv (P.synthBound s) (P.sfLen s) with
        | some y => _ | none => _) = _
      rw [hpass]
    · refine answers_goto (next := fun _ => .sfCommit) (fun _ => rfl) (fun hs => hkeeps hs _) fun _ hf => ?_
      exact ⟨hf.lpSynth _, State.sf_lt_four s, hf.advance (by decide)⟩
  | none =>
    refine answers_of_eq_reads (g := fun u => .next ((u.setW { u.w with
      syn := none, ovf := some true }).goto .lpRetry u.sf true)) (fun h => ?_) ?_
    · show (match synthPass (P.order s) lpc s.wrk.synMem excv (P.synthBound s) (P.sfLen s) with
        | some y => _ | none => _) = _
      rw [hpass]
    · refine answers_goto (next := fun _ => .lpRetry) (fun _ => rfl) (fun hs => hkeeps hs _) fun _ hf => ?_
      exact ⟨hf.lpSynth_retry, State.sf_lt_four s, hf.advance (by decide)⟩

theorem answers_lpRetry (s : State) : Answers .lpRetry s execLpRetry := by
  refine answers_need Work.gp (fun _ hf => (hf.gains (by decide)).1) fun gp _ => ?_
  refine answers_need Work.gc (fun _ hf => (hf.gains (by decide)).2.1) fun gc _ => ?_
  refine answers_need Work.acbv (fun _ hf => hf.acbv (by decide)) fun acbv _ => ?_
  refine answers_need Work.fcv (fun _ hf => hf.fcv (by decide)) fun fcv _ => ?_
  refine answers_need Work.lpc (fun _ hf => hf.lpc (by decide)) fun lpc _ => ?_
  refine answers_goto (next := fun _ => .sfCommit) (fun _ => rfl) (fun hs => ?_) fun _ hf => ?_
  · exact ⟨hs.dec, hs.work, hs.lsf.later (by decide)⟩
  · exact ⟨hf.lpRetry _ _, State.sf_lt_four s, hf.advance (by decide)⟩

/-- After the commit the delay of a good frame is the one CHECK chained on. -/
theorem FrameAt.passes_next {s : State} (h : FrameHere s (stageId .sfCommit).toNat) {tInt : Int}
    (htInt : s.w.tInt = some tInt) (hgood : s.w.erased = some false) : SubframesPass s (s.sf + 1) tInt := by
  obtain ⟨ti, tf, hti, hdelay⟩ := h.checked hgood (by decide) (by decide)
  rw [htInt] at hti
  cases hti
  have hpass := (h.passed hgood).2.1 (by decide) (by decide)
  obtain ⟨ti', tf', hdelay', -, hrest⟩ := (subframesPass_iff (h.subframe (by decide) (by decide)) _).mp hpass
  rw [hdelay] at hdelay'
  cases hdelay'
  exact hrest

/-- `S` after SF_COMMIT (R270). -/
def sfCommitted (s : State) (syn excv : List Int) (gp tInt : Int) : DecState :=
  { s.wrk with
    synMem := lastN (P.order s) (s.wrk.synMem ++ syn)
    excHist := lastN (P.histLen s) (s.wrk.excHist ++ excv)
    sharpBeta := clip gp (P.sharpMin s) (P.sharpMax s)
    prevLagInt := tInt }

theorem decOk_sfCommitted {s : State} (hprof : profileOk s = true) (h : DecOk s s.wrk) {tInt : Int}
    (hlag : LagOk s tInt) (syn excv : List Int) (gp : Int) : DecOk s (sfCommitted s syn excv gp tInt) :=
  { h with
    lag := hlag
    sharp := clip_range (Int.ofNat_le.mpr (sharpMin_le_sharpMax_of_profileOk hprof)) gp
    excLen := length_lastN_append h.excLen _
    synLen := length_lastN_append h.synLen _ }

theorem answers_sfCommit (s : State) : Answers .sfCommit s execSfCommit := by
  refine answers_need Work.syn (fun _ hf => hf.syn (by decide)) fun syn _ => ?_
  refine answers_need Work.excv (fun _ hf => hf.excv (by decide)) fun excv _ => ?_
  refine answers_need Work.gp (fun _ hf => (hf.gains (by decide)).1) fun gp _ => ?_
  refine answers_need Work.tInt (fun _ hf => (hf.delay (by decide)).1) fun tInt htInt => ?_
  refine answers_need Work.ovf (fun _ hf => hf.ovf (by decide)) fun ovf _ => ?_
  refine answers_go (w := s.w) (d := sfCommitted s syn excv gp tInt) (retried := ovf) (next := postStage s) (sf := s.sf)
    (retry := false) (.inl rfl) ?_ (fun h => ?_) (fun hs => ?_) fun hs hf => ?_
  · unfold postStage
    split <;> decide
  · rw [State.moved, Bool.or_comm ovf]
    rfl
  · exact ⟨decOk_sfCommitted hs.profile hs.dec (hs.work.lag tInt htInt) _ _ _, hs.work, hs.lsf.later (by decide)⟩
  · have hpasses : s.w.erased = some false → SubframesPass s (s.sf + 1) (sfCommitted s syn excv gp tInt).prevLagInt :=
      hf.passes_next htInt
    cases hpost : P.pfEn s with
    | true =>
      simp only [postStage, hpost, if_true]
      exact ⟨hf.sfCommit_post hpost hpasses, State.sf_lt_four s, hf.advance (by decide)⟩
    | false =>
      simp only [postStage, hpost]
      exact ⟨hf.sfCommit_plain hpost hpasses, State.sf_lt_four s, hf.advance (by decide)⟩

/-! ## The postfilter -/

theorem answers_pfResid (s : State) : Answers .pfResid s execPfResid := by
  refine answers_need Work.syn (fun _ hf => hf.syn (by decide)) fun syn _ => ?_
  refine answers_need Work.lpc (fun _ hf => hf.lpc (by decide)) fun lpc _ => ?_
  refine answers_goto (next := fun _ => .pfLongterm) (fun _ => rfl) (fun hs => ?_) fun _ hf => ?_
  · exact ⟨hs.dec, hs.work, hs.lsf.later (by decide)⟩
  · exact ⟨hf.pfResid _ _ _, State.sf_lt_four s, hf.advance (by decide)⟩

theorem answers_pfLongterm (s : State) : Answers .pfLongterm s execPfLongterm := by
  refine answers_need Work.resid (fun _ hf => (hf.resid (by decide) (by decide)).1) fun r _ => ?_
  refine answers_need Work.tInt (fun _ hf => (hf.delay (by decide)).1) fun tInt _ => ?_
  refine answers_goto (next := fun _ => .pfSyntilt) (fun _ => rfl) (fun hs => ?_) fun _ hf => ?_
  · exact ⟨{ hs.dec with resLen := length_lastN_append hs.dec.resLen _ }, hs.work, hs.lsf.later (by decide)⟩
  · exact ⟨hf.pfLongterm (by rfl) _, State.sf_lt_four s, hf.advance (by decide)⟩

theorem answers_pfSyntilt (s : State) : Answers .pfSyntilt s execPfSyntilt := by
  refine answers_need Work.resid (fun _ hf => (hf.resid (by decide) (by decide)).1) fun resid _ => ?_
  refine answers_need Work.num (fun _ hf => (hf.resid (by decide) (by decide)).2.1) fun num _ => ?_
  refine answers_need Work.den (fun _ hf => (hf.resid (by decide) (by decide)).2.2) fun den _ => ?_
  refine answers_goto (next := fun _ => .pfAgc) (fun _ => rfl) (fun hs => ?_) fun _ hf => ?_
  · exact ⟨{ hs.dec with }, hs.work, hs.lsf.later (by decide)⟩
  · exact ⟨hf.pfSyntilt (by rfl) _ _, State.sf_lt_four s, hf.advance (by decide)⟩

theorem answers_pfAgc (s : State) : Answers .pfAgc s execPfAgc := by
  refine answers_need Work.syn (fun _ hf => hf.syn (by decide)) fun syn _ => ?_
  refine answers_need Work.pfz (fun _ hf => (hf.pfyz rfl).2) fun pfz _ => ?_
  refine answers_need Work.pfy (fun _ hf => (hf.pfyz rfl).1) fun pfy _ => ?_
  refine answers_goto (next := fun _ => .out) (fun _ => rfl) (fun hs => ?_) fun _ hf => ?_
  · have halpha := pfAgcAlpha_le_of_profileOk hs.profile
    exact ⟨{ hs.dec with
      agc := agcGain_between (by omega) (by omega) (agcTarget_range _ _) hs.dec.agc _
      firLen := length_lastN_append hs.dec.firLen _
      iirLen := length_lastN_append hs.dec.iirLen _ }, hs.work, hs.lsf.later (by decide)⟩
  · exact ⟨hf.pfAgc (by rfl) _, State.sf_lt_four s, hf.advance (by decide)⟩

/-! ## The end of a subframe and of the frame -/

theorem answers_outInto (s : State) (muted : Bool) (x : List Int) : Answers .out s fun u => outInto u muted x := by
  have hkeeps (hs : SoundAt s (stageId .out).toNat) (k : Nat) : DecOk s s.wrk
      ∧ WorkFits s s.w ∧ LsfFits s k s.w.lsf := ⟨hs.dec, hs.work, hs.lsf.later (by decide)⟩
  refine answers_of_eq (fun u => next_toSubframe _ _) ?_
  refine answers_ite (fun _ => Iff.rfl) (fun hsf => ?_) fun hsf => ?_
  · refine answers_go (w := { s.w with out := some (outSamples (P.sfLen s) muted x) }) (d := s.wrk)
      (samples := some (outSamples (P.sfLen s) muted x)) (retried := false) (next := .lspInterp) (sf := s.sf + 1)
      (retry := false) (.inr rfl) (by decide) (fun h => rfl) (fun hs => hkeeps hs _) fun hs hf => ?_
    have hsf' : s.sf + 1 < P.nsf s := hsf
    have hnsf := (nsf_of_profileOk hs.profile).2
    have hcaps := hs.caps
    refine ⟨hf.out_next hsf' _, by omega, ?_⟩
    simp only [stagesLeft, stageId, placeInSubframe]
    simp
    omega
  · refine answers_go (w := { s.w with out := some (outSamples (P.sfLen s) muted x) }) (d := s.wrk)
      (samples := some (outSamples (P.sfLen s) muted x)) (retried := false) (next := .frameCommit) (sf := 0)
      (retry := false) (.inr rfl) (by decide) (fun h => rfl) (fun hs => hkeeps hs _) fun hs hf => ?_
    have hlt := hf.subframe (by decide) (by decide)
    refine ⟨hf.out_last _, by omega, ?_⟩
    simp only [stagesLeft, stageId, placeInSubframe]
    simp
    omega

theorem answers_out (s : State) : Answers .out s execOut := by
  refine answers_need Work.muted (fun _ hf => (hf.flags (by decide)).2.1) fun muted _ => ?_
  refine answers_ite (fun _ => Iff.rfl) (fun hpost => ?_) fun _ => ?_
  · exact answers_need Work.out (fun _ hf => hf.out rfl hpost) fun x _ => answers_outInto s muted x
  · exact answers_need Work.syn (fun _ hf => hf.syn (by decide)) fun x _ => answers_outInto s muted x

theorem decOk_committed {s : State} (h : DecOk s s.wrk) {lspq lsf : List Int} {hist : List (List Int)} {run : Nat}
    (hlspq : lspq.length = P.order s) (hlsf : LsfOk s lsf) (hrun : run ≤ 255)
    (hlen : hist.length = s.wrk.lsfMaHist.length) (helem : ∀ v ∈ hist, v.length = P.order s) :
    DecOk s (committed s lspq lsf hist run) :=
  { h with lsf := hlsf, run := hrun, lspLen := hlspq, maLen := hlen.trans h.maLen, maElem := helem }

theorem length_of_mem_pushNewest {n : Nat} {new : List Int} {hist : List (List Int)} (hnew : new.length = n)
    (h : ∀ v ∈ hist, v.length = n) : ∀ v ∈ pushNewest new hist, v.length = n := by
  intro v hv
  rcases List.mem_cons.mp (List.mem_of_mem_take hv) with rfl | hv
  · exact hnew
  · exact h v hv

theorem answers_frameCommit (s : State) : Answers .frameCommit s execFrameCommit := by
  refine answers_need Work.lspq (fun _ hf => hf.lspq (by decide)) fun lspq hlspq => ?_
  refine answers_need Work.lsf (fun _ hf => (hf.lsf (by decide)).1) fun lsf hlsf => ?_
  refine answers_need Work.run (fun _ hf => (hf.flags (by decide)).2.2) fun run hrun => ?_
  refine answers_need Work.erased (fun _ hf => (hf.flags (by decide)).1) fun erased herased => ?_
  refine answers_need Work.muted (fun _ hf => (hf.flags (by decide)).2.1) fun muted _ => ?_
  have hkeeps (hs : SoundAt s (stageId .frameCommit).toNat) {hist : List (List Int)}
      (hlen : hist.length = s.wrk.lsfMaHist.length) (helem : ∀ v ∈ hist, v.length = P.order s) :
      DecOk s (committed s lspq lsf hist run) :=
    decOk_committed hs.dec (hs.work.lspq lspq hlspq) (hs.lsf (by decide) lsf hlsf) (hs.work.run run hrun) hlen helem
  have hpush (hs : SoundAt s (stageId .frameCommit).toNat) {new : List Int} (hnew : new.length = P.order s) :
      DecOk s (committed s lspq lsf (pushNewest new s.wrk.lsfMaHist) run) :=
    hkeeps hs (pushNewest_length _ _) (length_of_mem_pushNewest hnew hs.dec.maElem)
  refine answers_ite (fun _ => Iff.rfl) (fun _ => ?_) fun _ => ?_
  · cases erased with
    | true =>
      refine answers_need Work.pred (fun _ hf => (hf.lsf (by decide)).2.1) fun pred _ => ?_
      exact answers_finished rfl (fun _ => rfl) fun hs => hpush hs (tab_length _ _)
    | false =>
      refine answers_need Work.res (fun _ hf => (hf.lsf (by decide)).2.2 herased) fun res hres => ?_
      exact answers_finished rfl (fun _ => rfl) fun hs => hpush hs (hs.work.res res hres)
  · exact answers_finished rfl (fun _ => rfl) fun hs => hkeeps hs rfl hs.dec.maElem

/-! ## Every stage -/

/-- The operations that are stages. -/
def Instr.isStage : Instr → Bool
  | .nop | .init | .decode | .reset | .illegal _ _ => false
  | _ => true

theorem isStage_decodeStage (b : BitVec 5) : Instr.isStage (decodeStage b) = true := by
  revert b
  decide

theorem answers_stage {i : Instr} (hi : Instr.isStage i = true) (s : State) : Answers i s (exec i) := by
  cases i with
  | nop => cases hi
  | init => cases hi
  | decode => cases hi
  | reset => cases hi
  | illegal op zero => cases hi
  | idle => exact answers_idle s
  | check => exact answers_check s
  | lsfDec => exact answers_lsfDec s
  | lsfStab => exact answers_lsfStab s
  | lsfConceal => exact answers_lsfConceal s
  | lsf2lsp => exact answers_lsf2lsp s
  | lspInterp => exact answers_lspInterp s
  | lsp2lpc => exact answers_lsp2lpc s
  | pitchAbs => exact answers_pitchAbs s
  | pitchRel => exact answers_pitchRel s
  | pitchConceal => exact answers_pitchConceal s
  | acbInterp => exact answers_acbInterp s
  | fcbTrack => exact answers_fcbTrack s
  | fcbGray => exact answers_fcbGray s
  | fcbBaseb => exact answers_fcbBaseb s
  | fcbExpl => exact answers_fcbExpl s
  | fcbConceal => exact answers_fcbConceal s
  | fcbBuild => exact answers_fcbBuild s
  | gainDec => exact answers_gainDec s
  | gainConceal => exact answers_gainConceal s
  | gainUpd => exact answers_gainUpd s
  | phaseDisp => exact answers_phaseDisp s
  | excMix => exact answers_excMix s
  | lpSynth => exact answers_lpSynth s
  | lpRetry => exact answers_lpRetry s
  | sfCommit => exact answers_sfCommit s
  | pfResid => exact answers_pfResid s
  | pfLongterm => exact answers_pfLongterm s
  | pfSyntilt => exact answers_pfSyntilt s
  | pfAgc => exact answers_pfAgc s
  | out => exact answers_out s
  | frameCommit => exact answers_frameCommit s

end Sys2Proof.Proofs
end

