-- ==== Sys2Proof/Proofs/OperationFrame.lean ====
section
/-! What an answer changes: a stage's results hang on what it reads alone, and every operation leaves alone what its rule
does not give it (R162, R342). -/

namespace Sys2Proof.Proofs
open Sys2Proof Sys2Proof.Machine

/-! ## No hidden state -/

/-- The same answer on two states that agree on what a stage reads. -/
theorem apply_reads {a : Answer} {s s' : State} (h : State) (ha : a.apply s = .next s') :
    ∃ t', a.apply (State.reads s h) = .next t'
      ∧ s'.seq = t'.seq ∧ s'.w = t'.w ∧ s'.wrk = t'.wrk ∧ s'.dec = t'.dec
      ∧ (s.status = h.status → s'.status = t'.status)
      ∧ (s.errinfo = h.errinfo → s'.errinfo = t'.errinfo)
      ∧ (s.pcm = h.pcm → s'.pcm = t'.pcm) := by
  cases a with
  | go w d samples retried next sf retry =>
    cases ha
    refine ⟨_, rfl, rfl, rfl, rfl, rfl, fun hstatus => ?_, id, fun hpcm => ?_⟩
    · exact congrArg (fun st : Status => { st with ovfRetry := retried || st.ovfRetry }) hstatus
    · cases samples with
      | none => exact hpcm
      | some o => exact congrArg (fun m => putSamples 512 m (s.sf * P.sfLen s) o) hpcm
  | raised r =>
    cases ha
    exact ⟨_, rfl, rfl, rfl, rfl, rfl, congrArg (Status.failed · r.code.code), fun _ => rfl, id⟩
  | finished d erased muted =>
    cases ha
    exact ⟨_, rfl, rfl, rfl, rfl, rfl, congrArg fun st : Status => Status.ended
      { st with erased := erased, muted := muted, erun := BitVec.ofNat 8 d.erasureRun }, id, id⟩
  | stayed =>
    cases ha
    exact ⟨_, rfl, rfl, rfl, rfl, rfl, id, id, id⟩
  | stopped f => cases ha

/-- The answer of a stage, at the state itself. -/
theorem exec_stage_eq {i : Instr} (hi : Instr.isStage i = true) (s : State) :
    ∃ a : Answer, a.Fits i s ∧ exec i s = a.apply s := by
  obtain ⟨a, hfits, happly⟩ := answers_stage hi s
  exact ⟨a, hfits, happly s⟩

/-- Settles O60: the two states have the same answer, and it is carried out alike on both. -/
theorem noHiddenState : Obligations.NoHiddenState := by
  intro q s t s' hprofile hparam hcaps hrst hseq hw hwrk hdec hexec
  obtain ⟨a, -, happly⟩ := answers_stage (isStage_decodeStage (seqStage q)) s
  have hs := happly s
  have ht := happly t
  rw [reads_self, hexec] at hs
  obtain ⟨t', ht', hagree⟩ := apply_reads t hs.symm
  rw [ht'] at ht
  rw [reads_eq hprofile hparam hcaps hrst hseq hw hwrk hdec] at ht
  exact ⟨t', ht, hagree⟩

/-! ## The frame of every operation -/

/-- What no operation touches (R162). -/
def Untouched (s t : State) : Prop :=
  t.profile = s.profile ∧ t.param = s.param ∧ t.caps = s.caps ∧ t.rstEpoch = s.rstEpoch
    ∧ t.host = s.host ∧ t.readLog = s.readLog ∧ t.freeCtr = s.freeCtr

theorem readWord_of_untouched {s t : State} (h : Untouched s t) (a : Nat) :
    readWord t .profile a = readWord s .profile a ∧ readWord t .param a = readWord s .param a := by
  obtain ⟨hprofile, hparam, hcaps, hrst, -, -, -⟩ := h
  exact ⟨profWord_congr hprofile hcaps hrst a, paramWord_congr hparam hrst a⟩

/-- What each kind of operation leaves alone beyond that. -/
structure LeavesAlone (i : Instr) (s t : State) : Prop where
  untouched : Untouched s t
  ctrl : i ≠ .reset → t.ie = s.ie
  inited : i ≠ .reset → i ≠ .init → t.status.inited = s.status.inited ∧ t.pcmlen = s.pcmlen
  decoder : i ≠ .reset → i ≠ .init → i ≠ .frameCommit → t.dec = s.dec ∧ t.status.erun = s.status.erun
  pcm : i ≠ .reset → i ≠ .init → i ≠ .decode → i ≠ .out → t.pcm = s.pcm ∧ t.unspecEpoch = s.unspecEpoch

theorem untouched_self (s : State) : Untouched s s := ⟨rfl, rfl, rfl, rfl, rfl, rfl, rfl⟩

theorem leavesAlone_raise (i : Instr) (s : State) (r : Raise) : LeavesAlone i s (s.raise r) :=
  ⟨untouched_self s, fun _ => rfl, fun _ _ => ⟨rfl, rfl⟩, fun _ _ _ => ⟨rfl, rfl⟩, fun _ _ _ _ => ⟨rfl, rfl⟩⟩

theorem leavesAlone_of_answer {i : Instr} {a : Answer} {s t : State} (hproper : a.Proper i)
    (ha : a.apply s = .next t) : LeavesAlone i s t := by
  cases a with
  | go w d samples retried next sf retry =>
    cases ha
    refine ⟨untouched_self s, fun _ => rfl, fun _ _ => ⟨rfl, rfl⟩, fun _ _ _ => ⟨rfl, rfl⟩, fun _ _ _ hout => ?_⟩
    obtain ⟨hnone | hi, -⟩ := hproper
    · subst hnone
      exact ⟨rfl, rfl⟩
    · exact absurd hi hout
  | raised r =>
    cases ha
    exact leavesAlone_raise i s r
  | finished d erased muted =>
    cases ha
    exact ⟨untouched_self s, fun _ => rfl, fun _ _ => ⟨rfl, rfl⟩, fun _ _ hcommit => absurd hproper hcommit,
      fun _ _ _ _ => ⟨rfl, rfl⟩⟩
  | stayed =>
    cases ha
    exact ⟨untouched_self s, fun _ => rfl, fun _ _ => ⟨rfl, rfl⟩, fun _ _ _ => ⟨rfl, rfl⟩, fun _ _ _ _ => ⟨rfl, rfl⟩⟩
  | stopped f => cases ha

/-- The three ends of INIT (R152). -/
theorem exec_init_cases (s : State) :
    (∃ r : Raise, exec .init s = .next (s.raise r))
      ∨ s.status.inited = false ∧ profileOk s = true ∧ exec .init s = .next s.initialise.endCommand := by
  cases hinited : s.status.inited with
  | true => exact .inl ⟨_, by rw [exec_init, execInit, if_pos hinited]⟩
  | false =>
    cases hcheck : failedCheck s with
    | some c => exact .inl ⟨_, by rw [exec_init, execInit, if_neg (by simp [hinited]), hcheck]⟩
    | none =>
      have hprof : profileOk s = true := by rw [profileOk, hcheck]; rfl
      exact .inr ⟨rfl, hprof, exec_init_of_profileOk hinited hprof⟩

theorem exec_leavesAlone {i : Instr} {s t : State} (h : exec i s = .next t) : LeavesAlone i s t := by
  by_cases hi : Instr.isStage i = true
  · obtain ⟨a, hfits, happly⟩ := exec_stage_eq hi s
    exact leavesAlone_of_answer hfits.proper (happly ▸ h)
  · cases i with
    | nop =>
      cases h
      exact ⟨untouched_self s, fun _ => rfl, fun _ _ => ⟨rfl, rfl⟩, fun _ _ _ => ⟨rfl, rfl⟩, fun _ _ _ _ => ⟨rfl, rfl⟩⟩
    | init =>
      rcases exec_init_cases s with ⟨r, hr⟩ | ⟨-, -, hnext⟩
      · rw [hr] at h
        cases h
        exact leavesAlone_raise _ s r
      · rw [hnext] at h
        cases h
        exact ⟨untouched_self s, fun _ => rfl, fun _ hinit => absurd rfl hinit, fun _ hinit => absurd rfl hinit,
          fun _ hinit => absurd rfl hinit⟩
    | decode =>
      have hdecode : ∃ t', exec .decode s = .next t' ∧ Untouched s t' ∧ t'.ie = s.ie
          ∧ (t'.status.inited = s.status.inited ∧ t'.pcmlen = s.pcmlen)
          ∧ t'.dec = s.dec ∧ t'.status.erun = s.status.erun := by
        cases hinited : s.status.inited with
        | true => exact ⟨_, exec_decode_of_inited hinited, untouched_self s, rfl, ⟨hinited, rfl⟩, rfl, rfl⟩
        | false => exact ⟨_, exec_decode_of_not_inited hinited, untouched_self s, rfl, ⟨hinited, rfl⟩, rfl, rfl⟩
      obtain ⟨t', ht', huntouched, hie, hlen, hdec⟩ := hdecode
      rw [ht'] at h
      cases h
      exact ⟨huntouched, fun _ => hie, fun _ _ => hlen, fun _ _ _ => hdec, fun _ _ hdecode => absurd rfl hdecode⟩
    | reset =>
      cases h
      exact ⟨untouched_self s, fun hreset => absurd rfl hreset, fun hreset => absurd rfl hreset,
        fun hreset => absurd rfl hreset, fun hreset => absurd rfl hreset⟩
    | illegal op zero =>
      cases h
      exact leavesAlone_raise _ s _
    | _ => exact absurd rfl hi

/-- Settles O55: a stage changes what its answer names, a command what its rule gives. -/
theorem commandFrame : Obligations.CommandFrame := by
  intro i s t h
  obtain ⟨huntouched, hctrl, hinited, hdecoder, hpcm⟩ := exec_leavesAlone h
  have hwords := readWord_of_untouched huntouched
  obtain ⟨hprofile, hparam, hcaps, hrst, hhost, hlog, hfree⟩ := huntouched
  refine ⟨hprofile, hparam, hcaps, hrst, hhost, hlog, hfree, hwords, hctrl, hinited, hdecoder,
    fun hreset hinit hdecode hout a => ?_⟩
  obtain ⟨hlist, hepoch⟩ := hpcm hreset hinit hdecode hout
  rw [pcmWord_eq, pcmWord_eq, hlist, hepoch]

end Sys2Proof.Proofs
end

