-- ==== Sys2Proof/Proofs/MachineInvariant.lean ====
section
/-! The invariant of the machine (R30, R42, R44, R46, R163) is kept by every step: a step is one host transaction, or one
operation of the block, and a stage keeps what its answer keeps. -/

namespace Sys2Proof.Proofs
open Sys2Proof Sys2Proof.Machine

/-! ## The invariants of the registers, between states of the same profile -/

theorem workOk_iff (s : State) : WorkOk s ↔ WorkFits s s.w ∧ LsfFits s s.stage s.w.lsf :=
  ⟨fun ⟨hrun, hlag, hres, hlspq, hlen, hlsf⟩ => ⟨⟨hrun, hlag, hres, hlspq, hlen⟩, hlsf⟩,
    fun ⟨⟨hrun, hlag, hres, hlspq, hlen⟩, hlsf⟩ => ⟨hrun, hlag, hres, hlspq, hlen, hlsf⟩⟩

theorem RegsOk.of_profileInputs {s t : State} (h : t.profileInputs = s.profileInputs) {run : Option Nat}
    {tInt : Option Int} {res lspq lsf : Option (List Int)} (hr : RegsOk s run tInt res lspq lsf) :
    RegsOk t run tInt res lspq lsf := by
  have horder : P.order t = P.order s := Machine.of_profileInputs P.order (fun _ => rfl) h
  obtain ⟨hrun, hlag, hres, hlspq, hlen⟩ := hr
  exact ⟨hrun, fun x hx => LagOk_profileInputs h (hlag x hx), by rwa [horder], by rwa [horder], by rwa [horder]⟩

theorem LsfFits.of_profileInputs {s t : State} (h : t.profileInputs = s.profileInputs) {k : Nat}
    {lsf : Option (List Int)} (hl : LsfFits s k lsf) : LsfFits t k lsf :=
  fun hk x hx => LsfOk_profileInputs h (hl hk x hx)

theorem profileOk_of_profileInputs {s t : State} (h : t.profileInputs = s.profileInputs) : profileOk t = profileOk s :=
  of_profileInputs profileOk profileOk_profileInputs h

/-- What the invariant says to the stage the block stands at. -/
theorem soundAt_of_inv {s : State} (h : Inv s) (hbusy : s.status.busy = true) (hcmd : s.cmd = none) :
    SoundAt s s.stage := by
  obtain ⟨hdec, hwork⟩ := h.decoder.working hbusy hcmd
  obtain ⟨hregs, hlsf⟩ := (workOk_iff s).mp hwork
  exact ⟨h.control.profile (h.control.running hbusy hcmd).1, h.control.caps, hdec, hregs, hlsf⟩

/-! ## States in which no command runs -/

theorem inv_of_idle {t : State} (mem : MemOk t) (caps : t.caps.nsf ≤ 4) (hbusy : t.status.busy = false)
    (hidle : t.seq = 0x00#8 ∧ t.cmd = none ∧ t.w = Work.none) (herrinfo : t.status.err = 0#4 → t.errinfo = 0#32)
    (herr : t.status.err.toNat ≤ 7)
    (hpcmlen : t.pcmlen = if t.status.inited then BitVec.ofNat 32 (P.nsf t * P.sfLen t) else 0#32)
    (herun : t.status.erun = if t.status.inited then BitVec.ofNat 8 t.dec.erasureRun else 0#8)
    (hprofile : t.status.inited = true → profileOk t = true) (hvalid : t.status.inited = true → DecOk t t.dec) :
    Inv t := by
  have hnot {p : Prop} (h : t.status.busy = true) : p := by rw [hbusy] at h; cases h
  exact ⟨mem,
    { caps := caps, exclusive := hnot, idle := fun _ => hidle, pending := fun h => absurd hidle.2.1 h
      running := hnot, cleared := hnot, errinfo := herrinfo, err := herr, pcmlen := hpcmlen, erun := herun
      profile := hprofile },
    ⟨hvalid, hnot⟩⟩

theorem inv_dropPcm {s : State} (h : Inv s) : Inv s.dropPcm := by
  obtain ⟨⟨hprofile, hparam, -⟩, hcontrol, hdecoder⟩ := h
  have hinputs : s.dropPcm.profileInputs = s.profileInputs := rfl
  refine ⟨⟨hprofile, hparam, Mem.wf_nil _⟩, { hcontrol with profile := fun hi => ?_ }, ⟨fun hi => ?_, fun hb hc => ?_⟩⟩
  · exact (profileOk_of_profileInputs hinputs).trans (hcontrol.profile hi)
  · exact DecOk_profileInputs hinputs (hdecoder.valid hi)
  · obtain ⟨hdec, hwork⟩ := hdecoder.working hb hc
    obtain ⟨hregs, hlsf⟩ := (workOk_iff s).mp hwork
    exact ⟨DecOk_profileInputs hinputs hdec,
      (workOk_iff _).mpr ⟨hregs.of_profileInputs hinputs, hlsf.of_profileInputs hinputs⟩⟩

theorem errCode_range (c : ErrCode) : c.code ≠ 0#4 ∧ c.code.toNat ≤ 7 := by
  cases c <;> decide

theorem inv_raise {s : State} (h : Inv s) (r : Raise) : Inv (s.raise r) := by
  have hinputs : (s.raise r).profileInputs = s.profileInputs := rfl
  exact inv_of_idle ⟨h.mem.profile, h.mem.param, h.mem.pcm⟩ h.control.caps rfl ⟨rfl, rfl, rfl⟩
    (fun hzero => absurd hzero (errCode_range r.code).1) (errCode_range r.code).2 h.control.pcmlen h.control.erun
    (fun hi => (profileOk_of_profileInputs hinputs).trans (h.control.profile hi))
    fun hi => DecOk_profileInputs hinputs (h.decoder.valid hi)

theorem inv_endCommand {s : State} (h : Inv s) : Inv s.endCommand := by
  have hinputs : s.endCommand.profileInputs = s.profileInputs := rfl
  exact inv_of_idle ⟨h.mem.profile, h.mem.param, h.mem.pcm⟩ h.control.caps rfl ⟨rfl, rfl, rfl⟩ h.control.errinfo
    h.control.err h.control.pcmlen h.control.erun
    (fun hi => (profileOk_of_profileInputs hinputs).trans (h.control.profile hi))
    fun hi => DecOk_profileInputs hinputs (h.decoder.valid hi)

theorem inv_initialised {s : State} (h : Inv s) (hprof : profileOk s = true) : Inv s.initialise.endCommand := by
  have hinputs : s.initialise.endCommand.profileInputs = s.profileInputs := rfl
  exact inv_of_idle ⟨h.mem.profile, h.mem.param, Mem.wf_nil _⟩ h.control.caps rfl ⟨rfl, rfl, rfl⟩ h.control.errinfo
    h.control.err (if_pos rfl).symm (if_pos rfl).symm (fun _ => (profileOk_of_profileInputs hinputs).trans hprof)
    fun _ => DecOk_profileInputs hinputs (decOk_initState hprof)

/-- The end of a DECODE: the working copy becomes `S`. -/
theorem inv_finished {s t : State} (h : Inv s) (hinited : s.status.inited = true) {d : DecState} (hd : DecOk s d)
    {erased muted : Bool} (ht : finishFrame s d erased muted = .next t) : Inv t := by
  cases ht
  refine inv_of_idle ⟨h.mem.profile, h.mem.param, h.mem.pcm⟩ h.control.caps rfl ⟨rfl, rfl, rfl⟩ h.control.errinfo
    h.control.err h.control.pcmlen (if_pos hinited).symm (fun hi => ?_) fun _ => ?_
  · exact (profileOk_of_profileInputs (s := s) (by rfl)).trans (h.control.profile hi)
  · exact DecOk_profileInputs (s := s) (by rfl) hd

/-- What the reset events leave: an idle block that is not initialised, with canonical spaces. -/
theorem inv_of_reset {t : State} (mem : MemOk t) (caps : t.caps.nsf ≤ 4) (hstatus : t.status = Status.zero)
    (hidle : t.seq = 0x00#8 ∧ t.cmd = none ∧ t.w = Work.none) (hinfo : t.errinfo = 0#32) (hpcmlen : t.pcmlen = 0#32) :
    Inv t := by
  have hinited : t.status.inited = false := by rw [hstatus]; rfl
  have hnot {p : Prop} (h : t.status.inited = true) : p := by rw [hinited] at h; cases h
  refine inv_of_idle mem caps (by rw [hstatus]; rfl) hidle (fun _ => hinfo) (by rw [hstatus]; decide) ?_ ?_ hnot hnot
  · rw [hinited]
    exact hpcmlen
  · rw [hinited, hstatus]
    rfl

theorem inv_reset {s t : State} (h : Inv s) (ht : execReset s = .next t) : Inv t := by
  cases ht
  exact inv_of_reset ⟨h.mem.profile, h.mem.param, Mem.wf_nil _⟩ h.control.caps rfl ⟨rfl, rfl, rfl⟩ rfl rfl

theorem inv_hardReset {s : State} (h : Inv s) : Inv s.hardReset :=
  inv_of_reset ⟨Mem.wf_nil _, Mem.wf_nil _, Mem.wf_nil _⟩ h.control.caps rfl ⟨rfl, rfl, rfl⟩ rfl rfl

/-! ## What the host does itself -/

/-- What the host's transactions may change at any time, and the parameters. -/
def State.quiet (s : State) (host : List HostOp) (log : List Word) (draws : Nat) (ie : Bool) (param : Mem)
    (viol : Bool) : State :=
  { s with
    host := host, readLog := log, freeCtr := draws, ie := ie, param := param
    status := { s.status with busyViol := viol } }

/-- What a transaction of the host does by itself, without an operation of the block but RESET. -/
inductive Served (s : State) : State → Prop
  | quiet (host : List HostOp) (log : List Word) (draws : Nat) (ie : Bool) (param : Mem) (viol : Bool)
      (hparam : s.param.wf 64 = true → param.wf 64 = true) (hbusy : s.status.busy = true → param = s.param) :
      Served s (State.quiet s host log draws ie param viol)
  | profile (host : List HostOp) (a : Nat) (v : Word) (ha : a < s.caps.profileWords) (hbusy : s.status.busy = false)
      (hinited : s.status.inited = false) : Served s { s with host := host, profile := s.profile.put a v }
  | accepted (host : List HostOp) (v : Word) (hbusy : s.status.busy = false) :
      Served s ({ s with host := host }.accept v)
  | reset (host : List HostOp) (v : Word) (t : State) (hbusy : s.status.busy = false)
      (ht : execReset ({ s with host := host }.accept v) = .next t) : Served s t
  | rst (host : List HostOp) : Served s { s with host := host }.hardReset

theorem served_host (s : State) (host : List HostOp) : Served s { s with host := host } :=
  .quiet host s.readLog s.freeCtr s.ie s.param s.status.busyViol id fun _ => rfl

theorem served_busyViolation (s : State) (host : List HostOp) : Served s { s with host := host }.busyViolation :=
  .quiet host s.readLog s.freeCtr s.ie s.param true id fun _ => rfl

theorem served_writeCmd (s : State) (host : List HostOp) (v : Word) :
    ∃ t, writeCmd { s with host := host } v = .next t ∧ Served s t := by
  cases hbusy : s.status.busy with
  | true => exact ⟨_, writeCmd_of_busy (s := { s with host := host }) hbusy v, served_busyViolation s host⟩
  | false =>
    by_cases hv : decodeCommand v = .reset
    · refine ⟨_, ?_, .reset host v _ hbusy rfl⟩
      rw [writeCmd, hv, if_neg (by simp [hbusy])]
      rfl
    · exact ⟨_, writeCmd_of_idle (s := { s with host := host }) hbusy hv, .accepted host v hbusy⟩

theorem served_writeCsr (s : State) (host : List HostOp) (a : Nat) (v : Word) :
    ∃ t, writeCsr { s with host := host } a v = .next t ∧ Served s t := by
  by_cases h1 : a = 1
  · subst h1
    exact served_writeCmd s host v
  · by_cases h5 : a = 5
    · subst h5
      exact ⟨_, rfl, .quiet host s.readLog s.freeCtr (v.getLsbD 0) s.param s.status.busyViol id fun _ => rfl⟩
    · exact ⟨_, writeCsr_of_readOnly h1 h5 v, served_host s host⟩

theorem served_writeProfile (s : State) (host : List HostOp) (a : Nat) (v : Word) :
    Served s (writeProfile { s with host := host } a v) := by
  rcases Nat.lt_or_ge a s.caps.profileWords with ha | ha
  · cases hbusy : s.status.busy with
    | true =>
      rw [writeProfile_of_busy (s := { s with host := host }) ha hbusy]
      exact served_busyViolation s host
    | false =>
      cases hinited : s.status.inited with
      | true =>
        rw [writeProfile_of_inited (s := { s with host := host }) hbusy hinited]
        exact served_host s host
      | false =>
        rw [writeProfile_of_idle (s := { s with host := host }) ha hbusy hinited]
        exact .profile host a v ha hbusy hinited
  · rw [writeProfile_of_out (s := { s with host := host }) ha]
    exact served_host s host

theorem served_writeParam (s : State) (host : List HostOp) (a : Nat) (v : Word) :
    Served s (writeParam { s with host := host } a v) := by
  rcases Nat.lt_or_ge a 64 with ha | ha
  · cases hbusy : s.status.busy with
    | true =>
      rw [writeParam_of_busy (s := { s with host := host }) ha hbusy]
      exact served_busyViolation s host
    | false =>
      rw [writeParam_of_idle (s := { s with host := host }) ha hbusy]
      exact .quiet host s.readLog s.freeCtr s.ie _ s.status.busyViol (Mem.wf_put v ha)
        fun h => absurd h (by rw [hbusy]; decide)
  · rw [writeParam_of_out (s := { s with host := host }) ha]
    exact served_host s host

theorem served_write (s : State) (host : List HostOp) (sp : Space) (a : Nat) (v : Word) :
    ∃ t, serveWrite { s with host := host } sp a v = .next t ∧ Served s t := by
  cases sp with
  | csr => exact served_writeCsr s host a v
  | profile => exact ⟨_, rfl, served_writeProfile s host a v⟩
  | param => exact ⟨_, rfl, served_writeParam s host a v⟩
  | pcm => exact ⟨_, rfl, served_host s host⟩
  | state => exact ⟨_, rfl, served_host s host⟩

theorem served_read (s : State) (host : List HostOp) (sp : Space) (a : Nat) :
    Served s (serveRead { s with host := host } sp a) := by
  obtain ⟨log, draws, h⟩ := serveRead_eq { s with host := host } sp a
  rw [h]
  exact .quiet host log draws s.ie s.param s.status.busyViol id fun _ => rfl

/-- A step is one operation of the block, or one transaction of the host. -/
theorem step_cases (s : State) :
    (∃ host, step s = exec (fetch s) { s with host := host }) ∨ ∃ t, step s = .next t ∧ Served s t := by
  cases hhost : s.host with
  | nil =>
    refine .inl ⟨s.host, ?_⟩
    show step s = blockStep s
    rw [step, hhost]
  | cons op r =>
    cases op with
    | run => exact .inl ⟨r, by rw [step, hhost]; rfl⟩
    | wait =>
      by_cases hdone : s.status.done = true
      · exact .inr ⟨_, by rw [step, hhost]; exact if_pos hdone, served_host s r⟩
      · refine .inl ⟨s.host, ?_⟩
        show step s = blockStep s
        rw [step, hhost]
        exact if_neg hdone
    | wr sp a v =>
      rw [step_wr hhost]
      exact .inr (served_write s r sp a v)
    | rd sp a => exact .inr ⟨_, step_rd hhost, served_read s r sp a⟩
    | rst => exact .inr ⟨_, step_rst hhost, .rst r⟩

theorem inv_quiet {s : State} (h : Inv s) (host : List HostOp) (log : List Word) (draws : Nat) (ie : Bool) {param : Mem}
    (viol : Bool) (hparam : s.param.wf 64 = true → param.wf 64 = true) :
    Inv (State.quiet s host log draws ie param viol) := by
  obtain ⟨⟨hprofile, hparam', hpcm⟩, hcontrol, hdecoder⟩ := h
  have hinputs : (State.quiet s host log draws ie param viol).profileInputs = s.profileInputs := rfl
  refine ⟨⟨hprofile, hparam hparam', hpcm⟩, ?_, ⟨fun hi => ?_, fun hb hc => ?_⟩⟩
  · obtain ⟨h1, h2, h3, h4, h5, h6, h7, h8, h9, h10, h11⟩ := hcontrol
    exact ⟨h1, h2, h3, h4, h5, h6, h7, h8, h9, h10, fun hi => (profileOk_of_profileInputs hinputs).trans (h11 hi)⟩
  · exact DecOk_profileInputs hinputs (hdecoder.valid hi)
  · obtain ⟨hdec, hwork⟩ := hdecoder.working hb hc
    obtain ⟨hregs, hlsf⟩ := (workOk_iff s).mp hwork
    exact ⟨DecOk_profileInputs hinputs hdec,
      (workOk_iff _).mpr ⟨hregs.of_profileInputs hinputs, hlsf.of_profileInputs hinputs⟩⟩

theorem inv_host {s : State} (h : Inv s) (host : List HostOp) : Inv { s with host := host } :=
  inv_quiet h host s.readLog s.freeCtr s.ie s.status.busyViol id

/-- Acceptance on an idle block. -/
theorem inv_accept {s : State} (h : Inv s) (hbusy : s.status.busy = false) (v : Word) : Inv (s.accept v) := by
  obtain ⟨⟨hprofile, hparam, hpcm⟩, hcontrol, hdecoder⟩ := h
  obtain ⟨hseq, -, hw⟩ := hcontrol.idle hbusy
  refine ⟨⟨hprofile, hparam, hpcm⟩, ?_, ⟨fun hi => DecOk_profileInputs (s := s) (by rfl) (hdecoder.valid hi),
      fun _ hc => by cases hc⟩⟩
  exact
    { caps := hcontrol.caps
      exclusive := fun _ => rfl
      idle := fun hb => by cases hb
      pending := fun _ => ⟨hseq, hw⟩
      running := fun _ hc => by cases hc
      cleared := fun _ => ⟨rfl, rfl, rfl⟩
      errinfo := fun _ => rfl
      err := Nat.zero_le 7
      pcmlen := hcontrol.pcmlen
      erun := hcontrol.erun
      profile := fun hi => (profileOk_of_profileInputs (s := s) (by rfl)).trans (hcontrol.profile hi) }

theorem inv_served {s t : State} (h : Inv s) (ht : Served s t) : Inv t := by
  cases ht with
  | quiet host log draws ie param viol hparam => exact inv_quiet h host log draws ie viol hparam
  | profile host a v ha hbusy hinited =>
    have hnot {p : Prop} (hi : s.status.inited = true) : p := by rw [hinited] at hi; cases hi
    have hpcmlen := h.control.pcmlen
    simp only [hinited] at hpcmlen
    refine inv_of_idle ⟨Mem.wf_put v ha h.mem.profile, h.mem.param, h.mem.pcm⟩ h.control.caps hbusy
      (h.control.idle hbusy) h.control.errinfo h.control.err ?_ h.control.erun hnot hnot
    simp only [hinited]
    exact hpcmlen
  | accepted host v hbusy => exact inv_accept (inv_host h host) hbusy v
  | reset host v t hbusy ht => exact inv_reset (inv_accept (inv_host h host) hbusy v) ht
  | rst host => exact inv_hardReset (inv_host h host)

/-! ## What the block does -/

/-- A running stage that is done. -/
theorem inv_moved {s : State} (h : Inv s) (hbusy : s.status.busy = true) (hcmd : s.cmd = none) {w : Work} {d : DecState}
    {samples : Option (List Int)} {retried : Bool} {next : Instr} {sf : Nat} {retry : Bool}
    (hnext : stageId next ≠ 0x00#5) (hd : DecOk s d) (hw : WorkFits s w) (hlsf : LsfFits s (stageId next).toNat w.lsf) :
    Inv (State.moved s w d samples retried next sf retry) := by
  obtain ⟨⟨hprofile, hparam, hpcm⟩, hcontrol, hdecoder⟩ := h
  have hinputs : (State.moved s w d samples retried next sf retry).profileInputs = s.profileInputs := rfl
  have hstage : seqStage (State.moved s w d samples retried next sf retry).seq = stageId next := seqStage_seqOf _ _ _
  refine ⟨⟨hprofile, hparam, ?_⟩, ?_, ⟨fun hi => DecOk_profileInputs hinputs (hdecoder.valid hi), fun _ _ => ?_⟩⟩
  · cases samples with
    | none => exact hpcm
    | some o => exact wf_putSamples o _ hpcm
  · exact
      { caps := hcontrol.caps
        exclusive := hcontrol.exclusive
        idle := fun hb => absurd (hb.symm.trans hbusy) Bool.false_ne_true
        pending := fun hc => absurd hcmd hc
        running := fun _ _ => ⟨(hcontrol.running hbusy hcmd).1, hstage ▸ hnext⟩
        cleared := hcontrol.cleared
        errinfo := hcontrol.errinfo
        err := hcontrol.err
        pcmlen := hcontrol.pcmlen
        erun := hcontrol.erun
        profile := fun hi => (profileOk_of_profileInputs hinputs).trans (hcontrol.profile hi) }
  · refine ⟨DecOk_profileInputs hinputs hd, (workOk_iff _).mpr ⟨hw.of_profileInputs hinputs, ?_⟩⟩
    rw [State.stage, hstage]
    exact hlsf.of_profileInputs hinputs

/-- The command words by what they select (R111, R112). -/
theorem decodeCommand_cases (w : Word) : decodeCommand w = .nop ∨ decodeCommand w = .init ∨ decodeCommand w = .decode
    ∨ decodeCommand w = .reset ∨ ∃ op zero, decodeCommand w = .illegal op zero := by
  unfold decodeCommand
  split
  · split <;> simp
  · simp

/-- The start of a DECODE: at CHECK, with no register written. -/
theorem inv_startDecode {s : State} (h : Inv s) (hbusy : s.status.busy = true) (hinited : s.status.inited = true) :
    Inv s.startDecode := by
  obtain ⟨⟨hprofile, hparam, -⟩, hcontrol, hdecoder⟩ := h
  have hinputs : s.startDecode.profileInputs = s.profileInputs := rfl
  have hstage : seqStage s.startDecode.seq = stageId .check := seqStage_seqOf _ _ _
  refine ⟨⟨hprofile, hparam, Mem.wf_nil _⟩, ?_,
    ⟨fun hi => DecOk_profileInputs hinputs (hdecoder.valid hi), fun _ _ =>
      ⟨DecOk_profileInputs hinputs (hdecoder.valid hinited), ?_⟩⟩⟩
  · exact
      { caps := hcontrol.caps
        exclusive := hcontrol.exclusive
        idle := fun hb => absurd (hb.symm.trans hbusy) Bool.false_ne_true
        pending := fun hc => absurd rfl hc
        running := fun _ _ => ⟨hinited, hstage ▸ by decide⟩
        cleared := hcontrol.cleared
        errinfo := hcontrol.errinfo
        err := hcontrol.err
        pcmlen := hcontrol.pcmlen
        erun := hcontrol.erun
        profile := fun hi => (profileOk_of_profileInputs hinputs).trans (hcontrol.profile hi) }
  · constructor <;> (intros; contradiction)

theorem busy_of_cmd {s : State} (h : ControlOk s) {w : Word} (hcmd : s.cmd = some w) : s.status.busy = true := by
  cases hbusy : s.status.busy with
  | true => rfl
  | false =>
    rw [(h.idle hbusy).2.1] at hcmd
    cases hcmd

/-- Between commands the block stands in IDLE, which does nothing. -/
theorem exec_fetch_of_idle {s : State} (h : ControlOk s) (hbusy : s.status.busy = false) :
    exec (fetch s) s = .next s := by
  obtain ⟨hseq, hcmd, -⟩ := h.idle hbusy
  have hstage : decodeStage (seqStage 0x00#8) = .idle := by decide
  rw [fetch_stage hcmd, hseq, hstage]
  rfl

theorem inv_exec {s t : State} (h : Inv s) (ht : exec (fetch s) s = .next t) : Inv t := by
  cases hcmd : s.cmd with
  | some w =>
    rw [fetch_command hcmd] at ht
    rcases decodeCommand_cases w with hw | hw | hw | hw | ⟨op, zero, hw⟩ <;> rw [hw] at ht
    · cases ht
      exact inv_endCommand h
    · rcases exec_init_cases s with ⟨r, hr⟩ | ⟨-, hprof, hnext⟩
      · rw [hr] at ht
        cases ht
        exact inv_raise h r
      · rw [hnext] at ht
        cases ht
        exact inv_initialised h hprof
    · cases hinited : s.status.inited with
      | true =>
        rw [exec_decode_of_inited hinited] at ht
        cases ht
        exact inv_startDecode h (busy_of_cmd h.control hcmd) hinited
      | false =>
        rw [exec_decode_of_not_inited hinited] at ht
        cases ht
        exact inv_raise (inv_dropPcm h) _
    · exact inv_reset h ht
    · cases ht
      exact inv_raise h _
  | none =>
    cases hbusy : s.status.busy with
    | false =>
      rw [exec_fetch_of_idle h.control hbusy] at ht
      cases ht
      exact h
    | true =>
      have hsound := soundAt_of_inv h hbusy hcmd
      rw [fetch_stage hcmd] at ht
      obtain ⟨a, hfits, happly⟩ := exec_stage_eq (isStage_decodeStage (seqStage s.seq)) s
      rw [happly] at ht
      have hkeeps := hfits.keeps (by rw [stageId_decodeStage]; exact hsound)
      cases a with
      | go w d samples retried next sf retry =>
        cases ht
        exact inv_moved h hbusy hcmd hfits.proper.2 hkeeps.1 hkeeps.2.1 hkeeps.2.2
      | raised r =>
        cases ht
        exact inv_raise h r
      | finished d erased muted => exact inv_finished h (h.control.running hbusy hcmd).1 hkeeps ht
      | stayed =>
        cases ht
        exact h
      | stopped f => cases ht

/-- Settles O56: a step is a transaction, which keeps the invariant by its kind, or an operation of the block, which keeps
it by its answer. -/
theorem stepKeepsInvariant : Obligations.StepKeepsInvariant := by
  intro s t h ht
  rcases step_cases s with ⟨host, hstep⟩ | ⟨t', hstep, hserved⟩
  · rw [hstep] at ht
    exact inv_exec (inv_host h host) ht
  · rw [hstep] at ht
    cases ht
    exact inv_served h hserved

end Sys2Proof.Proofs
end

