-- ==== Sys2Proof/Proofs/ReadyStates.lean ====
section
/-! Ready states (R23, R191, R352): a stage that the earlier ones have prepared goes on, the next one is prepared then,
and the stages left to run grow fewer, so a DECODE that the host lets run ends. -/

namespace Sys2Proof.Proofs
open Sys2Proof Sys2Proof.Machine

/-! ## Ready states in which no command runs -/

theorem ready_of_idle {s : State} (h : Inv s) (hbusy : s.status.busy = false) : Ready s :=
  ⟨h, fun hb => absurd (hbusy.symm.trans hb) Bool.false_ne_true⟩

/-- Settles O57: both are reset states, with empty spaces. -/
theorem resetReady : Obligations.ResetReady := by
  have hcaps : Config.defaultCaps.nsf ≤ 4 := by decide
  have hready (host : List HostOp) : Ready { State.reset with host := host } :=
    ready_of_idle (inv_of_reset ⟨Mem.wf_nil _, Mem.wf_nil _, Mem.wf_nil _⟩ hcaps rfl ⟨rfl, rfl, rfl⟩ rfl rfl) rfl
  exact ⟨hready [], hready⟩

/-! ## The host's transactions -/

theorem frameOk_of_same {s t : State} (hinputs : t.inputs = s.inputs) (hseq : t.seq = s.seq) (hw : t.w = s.w)
    (hwrk : t.wrk = s.wrk) (h : FrameOk s) : FrameOk t := by
  rw [frameOk_iff] at h ⊢
  rw [State.stage, State.sf, hseq, hw, hwrk]
  exact h.of_inputs_eq hinputs

theorem ready_served {s t : State} (h : Ready s) (ht : Served s t) : Ready t := by
  refine ⟨inv_served h.inv ht, fun hbusy hcmd => ?_⟩
  cases ht with
  | quiet host log draws ie param viol hparam hsame =>
    have hsame' : param = s.param := hsame hbusy
    subst hsame'
    exact frameOk_of_same (s := s) (by rfl) rfl rfl rfl (h.frame hbusy hcmd)
  | profile host a v ha hidle => exact absurd (hidle.symm.trans hbusy) Bool.false_ne_true
  | accepted host v => cases hcmd
  | reset host v t hidle ht =>
    cases ht
    cases hbusy
  | rst host => cases hbusy

/-! ## The block's operations -/

/-- How many stages are left at a state inside a DECODE. -/
def leftAt (s : State) : Nat := stagesLeft (P.nsf s) s.stage s.sf

theorem leftAt_pos (s : State) : 0 < leftAt s := by
  unfold leftAt stagesLeft
  repeat' split
  all_goals omega

/-- One more operation inside a DECODE: it ends, or it goes on with fewer stages left. -/
def Progress (s t : State) : Prop :=
  t.status.busy = false ∧ t.status.done = true
    ∨ t.status.busy = true ∧ t.cmd = none ∧ t.host = s.host ∧ P.nsf t = P.nsf s ∧ FrameOk t ∧ leftAt t < leftAt s

theorem progress_moved {s : State} (hbusy : s.status.busy = true) (hcmd : s.cmd = none) {w : Work} {d : DecState}
    {samples : Option (List Int)} {retried : Bool} {next : Instr} {sf : Nat} {retry : Bool}
    (h : (Answer.go w d samples retried next sf retry).Advances s s.stage) :
    Progress s (State.moved s w d samples retried next sf retry) := by
  obtain ⟨hframe, hsf, hleft⟩ := h
  have hstage : (State.moved s w d samples retried next sf retry).stage = (stageId next).toNat :=
    congrArg BitVec.toNat (seqStage_seqOf _ _ _)
  have hsf' : (State.moved s w d samples retried next sf retry).sf = sf :=
    (seqSf_seqOf _ _ _).trans (Nat.mod_eq_of_lt hsf)
  have hretry : seqRetry (State.moved s w d samples retried next sf retry).seq = retry := seqRetry_seqOf _ _ _
  refine .inr ⟨hbusy, hcmd, rfl, rfl, (frameOk_iff _).mpr ?_, ?_⟩
  · rw [hstage, hsf', hretry]
    exact hframe.of_inputs_eq (s := s) (by rfl)
  · rw [leftAt, hstage, hsf']
    exact hleft

/-- A stage inside a DECODE of a ready state. -/
theorem exec_running {s : State} (h : Ready s) (hbusy : s.status.busy = true) (hcmd : s.cmd = none) :
    ∃ t, exec (fetch s) s = .next t ∧ Progress s t := by
  have hsound := soundAt_of_inv h.inv hbusy hcmd
  have hframe := (frameOk_iff s).mp (h.frame hbusy hcmd)
  have hstage := (h.inv.control.running hbusy hcmd).2
  obtain ⟨a, hfits, happly⟩ := exec_stage_eq (isStage_decodeStage (seqStage s.seq)) s
  have hid := stageId_decodeStage (seqStage s.seq)
  have hadvances := hfits.advances (by rw [hid]; exact hsound) (by rw [hid]; exact hframe)
  rw [hid] at hadvances
  rw [fetch_stage hcmd, happly]
  cases a with
  | go w d samples retried next sf retry => exact ⟨_, rfl, progress_moved hbusy hcmd hadvances⟩
  | raised r => exact ⟨_, rfl, .inl ⟨rfl, rfl⟩⟩
  | finished d erased muted => exact ⟨_, rfl, .inl ⟨rfl, rfl⟩⟩
  | stayed =>
    have hidle : decodeStage (seqStage s.seq) = .idle := hfits.proper
    exact absurd (by rw [← hid, hidle]; rfl) hstage
  | stopped f => exact hadvances.elim

/-- CHECK finds what it asks for: no register has been written. -/
theorem frameOk_startDecode (s : State) : FrameOk s.startDecode := by
  have hstage : s.startDecode.stage = 0x01 := congrArg BitVec.toNat (seqStage_seqOf (stageId .check) 0 false)
  have hsf : s.startDecode.sf = 0 := seqSf_seqOf _ _ _
  have hretry : seqRetry s.startDecode.seq = false := seqRetry_seqOf _ _ _
  have hw : s.startDecode.w = Work.none := rfl
  rw [frameOk_iff, hstage, hsf, hretry, hw]
  constructor <;> simp [Work.none]

theorem exec_ready {s : State} (h : Ready s) :
    ∃ t, exec (fetch s) s = .next t ∧ (t.status.busy = true → t.cmd = none → FrameOk t) := by
  cases hcmd : s.cmd with
  | some w =>
    rw [fetch_command hcmd]
    rcases decodeCommand_cases w with hw | hw | hw | hw | ⟨op, zero, hw⟩ <;> rw [hw]
    · exact ⟨_, rfl, fun hb => by cases hb⟩
    · rcases exec_init_cases s with ⟨r, hr⟩ | ⟨-, -, hnext⟩
      · exact ⟨_, hr, fun hb => by cases hb⟩
      · exact ⟨_, hnext, fun hb => by cases hb⟩
    · cases hinited : s.status.inited with
      | true => exact ⟨_, exec_decode_of_inited hinited, fun _ _ => frameOk_startDecode s⟩
      | false => exact ⟨_, exec_decode_of_not_inited hinited, fun hb => by cases hb⟩
    · exact ⟨_, rfl, fun hb => by cases hb⟩
    · exact ⟨_, rfl, fun hb => by cases hb⟩
  | none =>
    cases hbusy : s.status.busy with
    | false =>
      exact ⟨s, exec_fetch_of_idle h.inv.control hbusy, fun hb => absurd (hbusy.symm.trans hb) Bool.false_ne_true⟩
    | true =>
      obtain ⟨t, ht, hprogress⟩ := exec_running h hbusy hcmd
      refine ⟨t, ht, fun hb _ => ?_⟩
      rcases hprogress with ⟨hidle, -⟩ | ⟨-, -, -, -, hframe, -⟩
      · exact absurd (hidle.symm.trans hb) Bool.false_ne_true
      · exact hframe

/-- Settles O58: the host's transactions keep a state ready, and the block's operation goes on because the earlier stages
have left what it reads. -/
theorem readyNeverStops : Obligations.ReadyNeverStops := by
  intro s h
  rcases step_cases s with ⟨host, hstep⟩ | ⟨t, hstep, hserved⟩
  · have hhost : Ready { s with host := host } := ready_served h (served_host s host)
    obtain ⟨t, ht, hframe⟩ := exec_ready hhost
    exact ⟨t, hstep.trans ht, inv_exec hhost.inv ht, hframe⟩
  · exact ⟨t, hstep, ready_served h hserved⟩

/-! ## The end of a DECODE -/

theorem step_of_no_host {s : State} (h : s.host = []) : step s = exec (fetch s) s := by
  rw [step, h]
  rfl

theorem run_succ_of_step {k : Nat} {s t : State} (h : step s = .next t) :
    Host.Core.run Sys2Proof.core (k + 1) s = Host.Core.run Sys2Proof.core k t := by
  have h' : Host.Core.step Sys2Proof.core s = .next t := h
  simp only [Host.Core.run, h']

/-- The block has come to the end of its command. -/
def Ended (t : State) : Prop := t.status.busy = false ∧ t.status.done = true ∧ t.seq = 0x00#8 ∧ t.cmd = none

/-- The stages left bound the steps to the end. -/
theorem run_to_end {n : Nat} {s : State} (h : Ready s) (hhost : s.host = []) (hbusy : s.status.busy = true)
    (hcmd : s.cmd = none) (hleft : leftAt s ≤ n) :
    ∃ k t, k ≤ n ∧ Host.Core.run Sys2Proof.core k s = .next t ∧ Ended t := by
  induction n generalizing s with
  | zero => exact absurd (leftAt_pos s) (by omega)
  | succ n ih =>
    obtain ⟨t, ht, hprogress⟩ := exec_running h hbusy hcmd
    have hstep : step s = .next t := (step_of_no_host hhost).trans ht
    have hinv := inv_exec h.inv ht
    rcases hprogress with ⟨hidle, hdone⟩ | ⟨hb, hc, hh, -, hframe, hlt⟩
    · obtain ⟨hseq, hc, -⟩ := hinv.control.idle hidle
      refine ⟨1, t, by omega, ?_, hidle, hdone, hseq, hc⟩
      rw [run_succ_of_step hstep]
      rfl
    · obtain ⟨k, u, hk, hrun, hend⟩ := ih ⟨hinv, fun _ _ => hframe⟩ (hh.trans hhost) hb hc (by omega)
      exact ⟨k + 1, u, by omega, (run_succ_of_step hstep).trans hrun, hend⟩

/-- An accepted DECODE of an initialised block starts at CHECK. -/
theorem step_accepted_decode {s : State} (hhost : s.host = []) (hcmd : s.cmd = some 2#32)
    (hinited : s.status.inited = true) : step s = .next s.startDecode := by
  have hdecode : decodeCommand 2#32 = .decode := by decide
  rw [step_of_no_host hhost, fetch_command hcmd, hdecode, exec_decode_of_inited hinited]

theorem ready_startDecode {s : State} (h : Ready s) (hbusy : s.status.busy = true) (hinited : s.status.inited = true) :
    Ready s.startDecode := ⟨inv_startDecode h.inv hbusy hinited, fun _ _ => frameOk_startDecode s⟩

theorem leftAt_startDecode (s : State) : leftAt s.startDecode = stageBound s := by
  have hstage : s.startDecode.stage = 0x01 := congrArg BitVec.toNat (seqStage_seqOf (stageId .check) 0 false)
  rw [leftAt, hstage]
  rfl

/-- Settles O59: one step starts the DECODE with the rule's number of stages left. -/
theorem decodeTerminates : Obligations.DecodeTerminates := by
  intro s h hhost hcmd hbusy hinited
  obtain ⟨k, t, hk, hrun, hend⟩ := run_to_end (n := stageBound s) (ready_startDecode h hbusy hinited) hhost hbusy rfl
    (leftAt_startDecode s).le
  exact ⟨k + 1, t, by unfold stageBound at hk; omega,
    (run_succ_of_step (step_accepted_decode hhost hcmd hinited)).trans hrun, hend⟩

end Sys2Proof.Proofs
end

