-- ==== Sys2Proof/Proofs/CommandPath.lean ====
section
/-! Reading `SEQ` (R32): while a command runs, the block shows some position of the command's path. The path is found by
running the stages from the start of the DECODE, so it is the same at every step of the command, and it holds the
positions the block passes through. -/

namespace Sys2Proof.Proofs
open Sys2Proof Sys2Proof.Machine

/-! ## One draw -/

theorem readWord_seq_of_busy {s : State} (h : s.status.busy = true) :
    ∃ q ∈ commandPath s, readWord s .csr 3 = q.setWidth 32 := by
  have hread : readWord s .csr 3 = (seqDraw s).setWidth 32 := by
    show (if s.status.busy then seqDraw s else s.seq).setWidth 32 = _
    rw [if_pos h]
  have hindex : Config.freeIndex s.freeCtr % (commandPath s).length < (commandPath s).length :=
    Nat.mod_lt _ (Nat.succ_pos _)
  refine ⟨(commandPath s)[_]'hindex, List.getElem_mem hindex, ?_⟩
  rw [hread, seqDraw, List.getElem?_eq_getElem hindex, Option.getD_some]

/-! ## A command that runs no stages -/

theorem eq_two_of_decode {w : Word} (h : decodeCommand w = .decode) : w = 2#32 := by
  have hw := encode_decodeCommand w
  rw [h] at hw
  cases hw
  rfl

theorem runsStages_of_command {s : State} {w : Word} (hcmd : s.cmd = some w)
    (h : w ≠ 2#32 ∨ s.status.inited = false) : runsStages s = false := by
  rw [runsStages, hcmd]
  rcases h with hw | hinited
  · have hnot : decodeCommand w ≠ .decode := fun hd => hw (eq_two_of_decode hd)
    simp [hnot]
  · simp [hinited]

theorem runsStages_of_decode {s : State} {w : Word} (hcmd : s.cmd = some w) (hdecode : decodeCommand w = .decode)
    (hinited : s.status.inited = true) : runsStages s = true := by
  simp [runsStages, hcmd, hdecode, hinited]

theorem runsStages_of_stage {s : State} (hcmd : s.cmd = none) : runsStages s = true := by
  simp [runsStages, hcmd]

/-! ## The path is found from what the stages read -/

/-- Two states inside a DECODE that agree on what the stages read. -/
structure Alike (s t : State) : Prop where
  reads : State.reads s t = t
  busy : s.status.busy = t.status.busy
  idleS : s.cmd = none
  idleT : t.cmd = none

theorem Alike.seq {s t : State} (h : Alike s t) : s.seq = t.seq := by
  have hseq : (State.reads s t).seq = t.seq := by rw [h.reads]
  exact hseq

/-- One answer keeps two such states alike, or stops both. -/
theorem apply_alike {s t : State} (h : Alike s t) (a : Answer) :
    (∃ s' t', a.apply s = .next s' ∧ a.apply t = .next t' ∧ Alike s' t')
      ∨ ∃ f, a.apply s = .fault f ∧ a.apply t = .fault f := by
  obtain ⟨hreads, hbusy, hs, ht⟩ := h
  rw [← hreads]
  cases a with
  | go w d samples retried next sf retry => exact .inl ⟨_, _, rfl, rfl, rfl, hbusy, hs, ht⟩
  | raised r => exact .inl ⟨_, _, rfl, rfl, rfl, rfl, rfl, rfl⟩
  | finished d erased muted => exact .inl ⟨_, _, rfl, rfl, rfl, rfl, rfl, rfl⟩
  | stayed => exact .inl ⟨_, _, rfl, rfl, rfl, hbusy, hs, ht⟩
  | stopped f => exact .inr ⟨f, rfl, rfl⟩

theorem positionsFrom_alike (n : Nat) {s t : State} (h : Alike s t) : positionsFrom n s = positionsFrom n t := by
  induction n generalizing s t with
  | zero => rfl
  | succ n ih =>
    obtain ⟨a, -, happly⟩ := answers_stage (isStage_decodeStage (seqStage s.seq)) s
    have hs : exec (fetch s) s = a.apply s := by
      rw [fetch_stage h.idleS]
      exact happly s
    have ht : exec (fetch t) t = a.apply t := by
      have htapply := happly t
      rw [h.reads] at htapply
      rw [fetch_stage h.idleT, ← h.seq]
      exact htapply
    cases hbusy : t.status.busy with
    | false => rw [positionsFrom_ended hbusy, positionsFrom_ended (h.busy.trans hbusy)]
    | true =>
      rcases apply_alike h a with ⟨s', t', hs', ht', halike⟩ | ⟨f, hs', ht'⟩
      · rw [positionsFrom_next hbusy (ht.trans ht'), positionsFrom_next (h.busy.trans hbusy) (hs.trans hs'), h.seq,
          ih halike]
      · simp only [positionsFrom, h.busy, hbusy, hs.trans hs', ht.trans ht', h.seq]

/-- The path of a running command hangs on the profile, the parameters and `S` as the host sees it. -/
theorem commandPath_congr {s t : State} (hprofile : s.profile = t.profile) (hparam : s.param = t.param)
    (hcaps : s.caps = t.caps) (hrst : s.rstEpoch = t.rstEpoch) (hdec : s.dec = t.dec)
    (hbusy : s.status.busy = t.status.busy) (hruns : runsStages s = runsStages t) : commandPath t = commandPath s := by
  have halike : Alike s.startDecode t.startDecode :=
    ⟨reads_eq hprofile hparam hcaps hrst rfl rfl hdec hdec, hbusy, rfl, rfl⟩
  have hnsf : P.nsf t = P.nsf s :=
    of_profileInputs P.nsf (fun _ => rfl) (profileInputs_eq hprofile.symm hcaps.symm hrst.symm)
  have hbound : stageBound t = stageBound s := by rw [stageBound, stageBound, hnsf]
  rw [commandPath, commandPath, ← hruns, hbound, positionsFrom_alike _ halike]

/-! ## The path stays the same -/

theorem commandPath_served {s t : State} (hs : s.status.busy = true) (ht : t.status.busy = true) (h : Served s t) :
    commandPath t = commandPath s := by
  cases h with
  | quiet host log draws ie param viol hparam hsame =>
    exact commandPath_congr (t := State.quiet s host log draws ie param viol) rfl (hsame hs).symm rfl rfl rfl rfl rfl
  | profile host a v ha hidle => exact absurd (hidle.symm.trans hs) Bool.false_ne_true
  | accepted host v hidle => exact absurd (hidle.symm.trans hs) Bool.false_ne_true
  | reset host v t hidle => exact absurd (hidle.symm.trans hs) Bool.false_ne_true
  | rst host => cases ht

theorem commandPath_exec {s t : State} (ht : t.status.busy = true)
    (h : exec (fetch s) s = .next t) : commandPath t = commandPath s := by
  cases hcmd : s.cmd with
  | some w =>
    rw [fetch_command hcmd] at h
    rcases decodeCommand_cases w with hw | hw | hw | hw | ⟨op, zero, hw⟩ <;> rw [hw] at h
    · cases h
      cases ht
    · rcases exec_init_cases s with ⟨r, hr⟩ | ⟨-, -, hnext⟩
      · rw [hr] at h
        cases h
        cases ht
      · rw [hnext] at h
        cases h
        cases ht
    · cases hinited : s.status.inited with
      | true =>
        rw [exec_decode_of_inited hinited] at h
        cases h
        exact commandPath_congr (t := s.startDecode) rfl rfl rfl rfl rfl rfl
          ((runsStages_of_decode hcmd hw hinited).trans (runsStages_of_stage rfl).symm)
      | false =>
        rw [exec_decode_of_not_inited hinited] at h
        cases h
        cases ht
    · cases h
      cases ht
    · cases h
      cases ht
  | none =>
    rw [fetch_stage hcmd] at h
    obtain ⟨a, -, happly⟩ := exec_stage_eq (isStage_decodeStage (seqStage s.seq)) s
    rw [happly] at h
    cases a with
    | go w d samples retried next sf retry =>
      cases h
      exact commandPath_congr (t := State.moved s w d samples retried next sf retry) rfl rfl rfl rfl rfl rfl rfl
    | raised r =>
      cases h
      cases ht
    | finished d erased muted =>
      cases h
      cases ht
    | stayed =>
      cases h
      rfl
    | stopped f => cases h

theorem commandPath_step {s t : State} (h : step s = .next t) (hs : s.status.busy = true) (ht : t.status.busy = true) :
    commandPath t = commandPath s := by
  rcases step_cases s with ⟨host, hstep⟩ | ⟨t', hstep, hserved⟩ <;> rw [hstep] at h
  · exact (commandPath_exec (s := { s with host := host }) ht h).trans
      (commandPath_served hs hs (served_host s host))
  · cases h
    exact commandPath_served hs ht hserved

/-! ## The path holds the positions of the run -/

theorem run_of_idle {s : State} (h : ControlOk s) (hbusy : s.status.busy = false) (hhost : s.host = []) (k : Nat) :
    Host.Core.run Sys2Proof.core k s = .next s := by
  induction k with
  | zero => rfl
  | succ k ih => rw [run_succ_of_step ((step_of_no_host hhost).trans (exec_fetch_of_idle h hbusy)), ih]

/-- `q` is a position of the run from `s`. -/
def Visits (s : State) (q : BitVec 8) : Prop :=
  ∃ k t, Host.Core.run Sys2Proof.core k s = .next t ∧ t.status.busy = true ∧ t.seq = q

theorem not_visits_of_idle {s : State} (h : ControlOk s) (hbusy : s.status.busy = false) (hhost : s.host = [])
    (q : BitVec 8) : ¬ Visits s q := by
  rintro ⟨k, t, hrun, hb, -⟩
  rw [run_of_idle h hbusy hhost] at hrun
  cases hrun
  exact absurd (hbusy.symm.trans hb) Bool.false_ne_true

theorem visits_iff_of_step {s t : State} (hbusy : s.status.busy = true) (hstep : step s = .next t) (q : BitVec 8) :
    Visits s q ↔ q = s.seq ∨ Visits t q := by
  constructor
  · rintro ⟨k, u, hrun, hb, hq⟩
    cases k with
    | zero =>
      cases hrun
      exact .inl hq.symm
    | succ k => exact .inr ⟨k, u, (run_succ_of_step hstep).symm.trans hrun, hb, hq⟩
  · rintro (rfl | ⟨k, u, hrun, hb, hq⟩)
    · exact ⟨0, s, rfl, hbusy, rfl⟩
    · exact ⟨k + 1, u, (run_succ_of_step hstep).trans hrun, hb, hq⟩

theorem mem_positionsFrom_iff {n : Nat} {s : State} (h : Ready s) (hhost : s.host = []) (hbusy : s.status.busy = true)
    (hcmd : s.cmd = none) (hleft : leftAt s ≤ n) (q : BitVec 8) : q ∈ positionsFrom n s ↔ Visits s q := by
  induction n generalizing s with
  | zero => exact absurd (leftAt_pos s) (by omega)
  | succ n ih =>
    obtain ⟨t, ht, hprogress⟩ := exec_running h hbusy hcmd
    have hinv := inv_exec h.inv ht
    rw [positionsFrom_next hbusy ht, List.mem_cons, visits_iff_of_step hbusy ((step_of_no_host hhost).trans ht)]
    refine or_congr_right ?_
    rcases hprogress with ⟨hidle, -⟩ | ⟨hb, hc, hh, -, hframe, hlt⟩
    · have hhost' : t.host = [] := by
        obtain ⟨-, -, -, -, hsame, -⟩ := (exec_leavesAlone ht).untouched
        exact hsame.trans hhost
      rw [positionsFrom_ended hidle]
      exact ⟨fun hq => absurd hq List.not_mem_nil, fun hq => absurd hq (not_visits_of_idle hinv.control hidle hhost' q)⟩
    · exact ih ⟨hinv, fun _ _ => hframe⟩ (hh.trans hhost) hb hc (by omega)

/-- Settles O10: the draw is an element of the path, and the path from the start of the DECODE is the run's. -/
theorem seqRead : Obligations.SeqRead := by
  refine fun s => ⟨readWord_seq_of_busy, fun h hbusy => ?_, fun h hhost hcmd hbusy hinited q => ?_, fun w hcmd hw => ?_,
    fun t => commandPath_step⟩
  · rw [readWord_seq_idle hbusy, (h.inv.control.idle hbusy).1]
    rfl
  · have hseq := (h.inv.control.pending (by simp [hcmd])).1
    have hruns := runsStages_of_decode hcmd (by decide) hinited
    rw [commandPath_of_runsStages hruns, List.mem_cons, mem_positionsFrom_iff (ready_startDecode h hbusy hinited) hhost
      hbusy rfl (leftAt_startDecode s).le, ← hseq]
    exact (visits_iff_of_step hbusy (step_accepted_decode hhost hcmd hinited) q).symm
  · exact commandPath_of_not_runsStages (runsStages_of_command hcmd hw)

end Sys2Proof.Proofs
end

