-- ==== Sys2Proof/Proofs/FrameCheck.lean ====
section
/-! CHECK (R156, R157): the head of the frame, whether the frame is erased, and for a good frame the search for the first
index that is not legal. Each step of the search finds nothing exactly when its indices are legal; along a chain of legal
subframes it comes to the next one. -/

namespace Sys2Proof.Proofs
open Sys2Proof Sys2Proof.Machine

theorem exec_check (s : State) : exec .check s = execCheck s := by
  rfl

/-! ## The head and the erased frame -/

theorem checkHead_of_reserved {s : State} (h : F.ctrl s / 2 % 8 ≠ 0 ∨ 256 ≤ F.ctrl s) :
    checkHead s = some (badParam 0 0 (F.ctrl s)) := if_pos h

theorem checkHead_of_undefined {s : State} (hlow : F.ctrl s / 2 % 8 = 0) (hhigh : F.ctrl s < 256)
    (htype : (P.frameTypes s).testBit (F.ctrl s / 16 % 16) = false) : checkHead s = some
      { code := .unsupportedMode, stage := .check, sf := 0, field := 0, value := F.ctrl s / 16 % 16 } := by
  rw [checkHead, if_neg (by omega), F.frameType, htype]
  rfl

theorem checkHead_of_headOk {s : State} (h : Spec.headOk s) : checkHead s = none := by
  obtain ⟨hlow, hhigh, htype⟩ := h
  rw [checkHead, if_neg (by omega), F.frameType, htype]
  rfl

theorem exec_check_of_head {s : State} {r : Raise} (h : checkHead s = some r) : exec .check s = .next (s.raise r) := by
  rw [exec_check, execCheck, h]

theorem unless_iff (p : Prop) [Decidable p] (b : Bool) : (decide (¬ p) || b) = true ↔ (p → b = true) := by
  by_cases hp : p <;> simp [hp]

theorem frameIsZero_iff (s : State) : frameIsZero s = true ↔ Spec.frameZero s := by
  simp only [frameIsZero, Bool.and_eq_true, allBelow_iff, unless_iff, decide_eq_true_eq, and_assoc]

theorem frameErased_iff (s : State) : frameErased s = true ↔ Spec.erased s := by
  rw [frameErased, Bool.or_eq_true, Bool.and_eq_true, frameIsZero_iff, F.badFrame, P.zeroIsErasure, Nat.testBit_zero,
    Nat.testBit_zero, decide_eq_true_eq, decide_eq_true_eq]

/-- An erased frame is concealed. -/
theorem exec_check_of_erased {s : State} (hhead : checkHead s = none) (herased : frameErased s = true) :
    exec .check s = .next ((s.setW { s.w with
      erased := some true, run := some (min 255 (s.wrk.erasureRun + 1))
      muted := some (decide (0 < P.muteThreshold s ∧ P.muteThreshold s ≤ min 255 (s.wrk.erasureRun + 1)))
      }).goto .lsfConceal 0 false) := by
  have hrun : frameRun s = min 255 (s.wrk.erasureRun + 1) := if_pos herased
  have hmuted : frameMuted s
      = decide (0 < P.muteThreshold s ∧ P.muteThreshold s ≤ min 255 (s.wrk.erasureRun + 1)) := by
    rw [frameMuted, herased, hrun, Bool.true_and, Bool.decide_and]
  rw [exec_check, execCheck, hhead]
  simp only [herased, hrun, hmuted, if_true]

/-- Settles O19: the two errors of the head, and the erased frame. -/
theorem checkHeadAndErasure : Obligations.CheckHeadAndErasure := fun _ =>
  ⟨fun h => exec_check_of_head (checkHead_of_reserved h),
    fun hlow hhigh htype => exec_check_of_head (checkHead_of_undefined hlow hhigh htype),
    fun hhead herased => exec_check_of_erased (checkHead_of_headOk hhead) ((frameErased_iff _).mpr herased)⟩

/-! ## A good frame -/

theorem exec_check_of_checkFrame_none {s : State} (hhead : checkHead s = none) (hgood : frameErased s = false)
    (h : checkFrame s = none) : exec .check s = .next ((s.setW { s.w with
      erased := some false, run := some 0, muted := some false }).goto .lsfDec 0 false) := by
  obtain ⟨hrun, hmuted⟩ := frameRun_of_good hgood
  rw [exec_check, execCheck, hhead, h]
  simp only [hgood, hrun, hmuted]
  rfl

theorem exec_check_of_checkFrame_some {s : State} (hhead : checkHead s = none) (hgood : frameErased s = false)
    {r : Raise} (h : checkFrame s = some r) : exec .check s = .next (s.raise r) := by
  rw [exec_check, execCheck, hhead, h]
  simp only [hgood]
  rfl

/-! ### LSP indices and the predictor selector (steps 4 and 5) -/

theorem checkLsp_succ (s : State) (n st : Nat) : checkLsp s (n + 1) st =
    if P.stSize s st ≤ lspIndex s st then some (badParam 0 (8 + st) (F.lspIdx s st)) else checkLsp s n (st + 1) := rfl

theorem lspOk_iff (s : State) (st : Nat) : Spec.lspOk s st ↔ ¬ P.stSize s st ≤ lspIndex s st := by
  rw [Nat.not_le]
  rfl

/-- Legal indices are passed over. -/
theorem checkLsp_of_ok {s : State} {st : Nat} (m n : Nat) (h : ∀ i < m, Spec.lspOk s (st + i)) :
    checkLsp s (m + n) st = checkLsp s n (st + m) := by
  induction m generalizing st with
  | zero => rw [Nat.zero_add, Nat.add_zero]
  | succ m ih =>
    have hfirst := (lspOk_iff s st).mp (h 0 (Nat.succ_pos m))
    have hrest : ∀ i < m, Spec.lspOk s (st + 1 + i) := fun i hi => by
      rw [Nat.add_right_comm]
      exact h (i + 1) (by omega)
    rw [Nat.add_right_comm, checkLsp_succ, if_neg hfirst, ih hrest, Nat.add_right_comm, Nat.add_assoc]

/-- The first illegal index is reported. -/
theorem checkLsp_first {s : State} {n st : Nat} (hst : st < n) (hbefore : ∀ i < st, Spec.lspOk s i)
    (hbad : ¬ Spec.lspOk s st) : checkLsp s n 0 = some (badParam 0 (8 + st) (F.lspIdx s st)) := by
  obtain ⟨m, rfl⟩ : ∃ m, n = st + (m + 1) := ⟨n - st - 1, by omega⟩
  have hpassed : ∀ i < st, Spec.lspOk s (0 + i) := fun i hi => by
    rw [Nat.zero_add]
    exact hbefore i hi
  rw [checkLsp_of_ok _ _ hpassed, Nat.zero_add, checkLsp_succ,
    if_pos (not_not.mp fun k => hbad ((lspOk_iff s _).mpr k))]

/-- Where a property fails somewhere below `n` there is a first place. -/
theorem exists_first_not {p : Nat → Prop} {n : Nat} (h : ¬ ∀ i < n, p i) : ∃ i < n, (∀ j < i, p j) ∧ ¬ p i := by
  classical
  push Not at h
  obtain ⟨hlt, hnot⟩ := Nat.find_spec h
  exact ⟨_, hlt, fun j hj => not_not.mp fun hj' => Nat.find_min h hj ⟨hj.trans hlt, hj'⟩, hnot⟩

theorem checkLsp_none_iff (s : State) (n : Nat) : checkLsp s n 0 = none ↔ ∀ st < n, Spec.lspOk s st := by
  constructor
  · intro h
    by_contra hbad
    obtain ⟨st, hst, hbefore, hnot⟩ := exists_first_not hbad
    rw [checkLsp_first hst hbefore hnot] at h
    cases h
  · intro h
    have hall := checkLsp_of_ok (s := s) (st := 0) n 0 fun i hi => by
      rw [Nat.zero_add]
      exact h i hi
    exact hall

theorem checkMaSel_of_ok {s : State} (h : Spec.maSelOk s) : checkMaSel s = none :=
  if_neg fun ⟨hmode, hsel⟩ => absurd (h hmode) (Nat.not_lt.mpr hsel)

theorem checkMaSel_of_not_ok {s : State} (h : ¬ Spec.maSelOk s) :
    checkMaSel s = some (badParam 0 13 (F.lspMaSel s)) := by
  rw [Spec.maSelOk, Classical.not_imp, Nat.not_lt] at h
  exact if_pos h

/-! ### The indices of one subframe (step 6) -/

/-- Subframe `sf` passes step 6 with the delay `prev` before it and `next` after it. -/
def SubframeOk (s : State) (sf : Nat) (prev next : Int) : Prop :=
  (∃ tf, pitchDecode s sf (F.pitchIdx s sf) prev = some (next, tf))
    ∧ Spec.gainAOk s sf ∧ Spec.gainBOk s sf
    ∧ (∃ pos, Machine.fcbPositions s (P.fcbFamily s) (F.fcbCode s sf) = some pos)
    ∧ F.fcbSign s sf < 2 ^ P.fcbNpulses s

theorem gainAOk_iff (s : State) (sf : Nat) : Spec.gainAOk s sf ↔ ¬ (P.gainCfSize s ≤ F.gainIdxA s sf
    ∨ (P.gainMode s = 0 ∧ P.gainGpSize s ≤ F.gainIdxA s sf)) := by
  rw [not_or, not_and, Nat.not_le, Nat.not_le]
  rfl

theorem gainBOk_iff (s : State) (sf : Nat) : Spec.gainBOk s sf ↔ ¬ (P.gainMode s = 1
    ∧ P.gainGpSize s ≤ F.gainIdxB s sf) := by
  rw [not_and, Nat.not_le]
  rfl

section
variable {s : State} {sf : Nat}

theorem checkIndices_of_not_gainA (h : ¬ Spec.gainAOk s sf) :
    checkIndices s sf = some (badParam sf 2 (F.gainIdxA s sf)) := by
  rw [gainAOk_iff, not_not] at h
  exact if_pos h

theorem checkIndices_of_gainA (h : Spec.gainAOk s sf) (hb : ¬ Spec.gainBOk s sf) :
    checkIndices s sf = some (badParam sf 3 (F.gainIdxB s sf)) := by
  rw [gainBOk_iff, not_not] at hb
  exact (if_neg ((gainAOk_iff s sf).mp h)).trans (if_pos hb)

/-- With both gain indices legal the code and the sign word decide. -/
theorem checkIndices_of_gains (ha : Spec.gainAOk s sf) (hb : Spec.gainBOk s sf) : checkIndices s sf =
    match fcbDecode s (P.fcbFamily s) (F.fcbCode s sf) (F.fcbSign s sf) with
    | .error .code => some (badParam sf 4 (F.fcbCode s sf))
    | .error .sign => some (badParam sf 5 (F.fcbSign s sf))
    | .ok _ => none := by
  rw [checkIndices]
  exact (if_neg ((gainAOk_iff s sf).mp ha)).trans (if_neg ((gainBOk_iff s sf).mp hb))

theorem fcbDecode_of_no_positions {family code sign : Nat} (h : Machine.fcbPositions s family code = none) :
    fcbDecode s family code sign = .error .code := by
  rw [fcbDecode, h]

theorem fcbDecode_of_sign {family code sign : Nat} {pos : List Nat}
    (h : Machine.fcbPositions s family code = some pos) (hsign : 2 ^ P.fcbNpulses s ≤ sign) :
    fcbDecode s family code sign = .error .sign := by
  have hbits : sign >>> P.fcbNpulses s ≠ 0 := by
    rw [Nat.shiftRight_eq_div_pow, Ne, Nat.div_eq_zero_iff_lt (by positivity)]
    omega
  simp only [fcbDecode, h, if_pos hbits]

theorem checkIndices_none_iff : checkIndices s sf = none ↔ Spec.gainAOk s sf ∧ Spec.gainBOk s sf
    ∧ (∃ pos, Machine.fcbPositions s (P.fcbFamily s) (F.fcbCode s sf) = some pos)
    ∧ F.fcbSign s sf < 2 ^ P.fcbNpulses s := by
  constructor
  · intro h
    have ha : Spec.gainAOk s sf := by
      by_contra ha
      rw [checkIndices_of_not_gainA ha] at h
      cases h
    have hb : Spec.gainBOk s sf := by
      by_contra hb
      rw [checkIndices_of_gainA ha hb] at h
      cases h
    obtain ⟨pos, amp, hok⟩ := fcbDecode_of_checkIndices h
    obtain ⟨hpos, hsign, -⟩ := (fcbDecode_ok_iff s _ _ _ pos amp).mp hok
    exact ⟨ha, hb, ⟨pos, hpos⟩, hsign⟩
  · rintro ⟨ha, hb, ⟨pos, hpos⟩, hsign⟩
    rw [checkIndices_of_gains ha hb, (fcbDecode_ok_iff s _ _ _ pos _).mpr ⟨hpos, hsign, rfl⟩]

/-- What CHECK reports of a subframe has a field of its own. -/
theorem checkIndices_some {r : Raise} (h : checkIndices s sf = some r) :
    ∃ field value, 1 ≤ field ∧ r = badParam sf field value := by
  by_cases ha : Spec.gainAOk s sf
  · by_cases hb : Spec.gainBOk s sf
    · rw [checkIndices_of_gains ha hb] at h
      split at h <;> cases h
      · exact ⟨4, _, by decide, rfl⟩
      · exact ⟨5, _, by decide, rfl⟩
    · rw [checkIndices_of_gainA ha hb] at h
      cases h
      exact ⟨3, _, by decide, rfl⟩
  · rw [checkIndices_of_not_gainA ha] at h
    cases h
    exact ⟨2, _, by decide, rfl⟩

theorem checkSubframes_of_no_delay {prev : Int} (h : pitchDecode s sf (F.pitchIdx s sf) prev = none) (n : Nat) :
    checkSubframes s (n + 1) sf prev = some (badParam sf 1 (F.pitchIdx s sf)) := by
  rw [checkSubframes, h]

theorem checkSubframes_of_indices {prev : Int} (h : pitchDecode s sf (F.pitchIdx s sf) prev ≠ none) {r : Raise}
    (hr : checkIndices s sf = some r) (n : Nat) : checkSubframes s (n + 1) sf prev = some r := by
  obtain ⟨⟨ti, tf⟩, hdelay⟩ := Option.ne_none_iff_exists'.mp h
  rw [checkSubframes, hdelay]
  simp only [hr]

theorem checkSubframes_of_ok {prev next : Int} (h : SubframeOk s sf prev next) (n : Nat) :
    checkSubframes s (n + 1) sf prev = checkSubframes s n (sf + 1) next := by
  obtain ⟨⟨tf, hdelay⟩, hindices⟩ := h
  rw [checkSubframes, hdelay]
  simp only [checkIndices_none_iff.mpr hindices]

end

/-! ### The chain of subframes -/

/-- Legal subframes are passed over, with their chain of delays. -/
theorem checkSubframes_of_chain {s : State} {prev : Nat → Int} (m n : Nat) (h : Spec.subframesOk s m prev) :
    checkSubframes s (m + n) 0 s.wrk.prevLagInt = checkSubframes s n m (prev m) := by
  induction m generalizing n with
  | zero => rw [Nat.zero_add, h.1]
  | succ m ih =>
    obtain ⟨hstart, hall⟩ := h
    have hlast : SubframeOk s m (prev m) (prev (m + 1)) := hall m (Nat.lt_succ_self m)
    rw [Nat.add_right_comm, Nat.add_assoc, ih (n + 1) ⟨hstart, fun sf hsf => hall sf (by omega)⟩,
      checkSubframes_of_ok hlast]

/-- The chain of delays of the subframes from `sf` on that pass. -/
theorem exists_chain {s : State} {n sf : Nat} {p : Int} (h : checkSubframes s n sf p = none) :
    ∃ prev : Nat → Int, prev 0 = p ∧ ∀ i < n, SubframeOk s (sf + i) (prev i) (prev (i + 1)) := by
  induction n generalizing sf p with
  | zero => exact ⟨fun _ => p, rfl, fun i hi => absurd hi (Nat.not_lt_zero i)⟩
  | succ n ih =>
    obtain ⟨ti, tf, hdelay, hindices, hrest⟩ := (checkSubframes_succ_iff s n sf p).mp h
    obtain ⟨prev, rfl, hchain⟩ := ih hrest
    refine ⟨fun i => Nat.casesOn i p prev, rfl, fun i hi => ?_⟩
    cases i with
    | zero => exact ⟨⟨tf, hdelay⟩, checkIndices_none_iff.mp hindices⟩
    | succ i =>
      have hi' := hchain i (by omega)
      rw [Nat.add_right_comm] at hi'
      exact hi'

theorem checkSubframes_some {s : State} {n sf : Nat} {prev : Int} {r : Raise}
    (h : checkSubframes s n sf prev = some r) :
    ∃ sf' field value, 1 ≤ field ∧ r = badParam sf' field value := by
  induction n generalizing sf prev with
  | zero => cases h
  | succ n ih =>
    cases hdelay : pitchDecode s sf (F.pitchIdx s sf) prev with
    | none =>
      rw [checkSubframes_of_no_delay hdelay] at h
      cases h
      exact ⟨sf, 1, _, le_rfl, rfl⟩
    | some v =>
      cases hindices : checkIndices s sf with
      | some r' =>
        rw [checkSubframes_of_indices (by simp [hdelay]) hindices] at h
        cases h
        exact ⟨sf, checkIndices_some hindices⟩
      | none =>
        rw [checkSubframes_of_ok ⟨⟨v.2, hdelay⟩, checkIndices_none_iff.mp hindices⟩] at h
        exact ih h

/-! ### The whole frame -/

section
variable {s : State}

theorem checkFrame_of_lsp {r : Raise} (h : checkLsp s (P.lspStages s) 0 = some r) : checkFrame s = some r := by
  rw [checkFrame, h]
  rfl

theorem checkFrame_of_maSel {r : Raise} (hlsp : ∀ st < P.lspStages s, Spec.lspOk s st) (h : checkMaSel s = some r) :
    checkFrame s = some r := by
  rw [checkFrame, (checkLsp_none_iff s _).mpr hlsp, h]
  rfl

theorem checkFrame_of_subframes (hlsp : ∀ st < P.lspStages s, Spec.lspOk s st) (hsel : Spec.maSelOk s) :
    checkFrame s = checkSubframes s (P.nsf s) 0 s.wrk.prevLagInt := by
  rw [checkFrame, (checkLsp_none_iff s _).mpr hlsp, checkMaSel_of_ok hsel]
  rfl

/-- With the subframes before `sf` legal the search comes to `sf`. -/
theorem checkFrame_at {sf : Nat} {prev : Nat → Int} (hsf : sf < P.nsf s)
    (hlsp : ∀ st < P.lspStages s, Spec.lspOk s st) (hsel : Spec.maSelOk s) (h : Spec.subframesOk s sf prev) :
    ∃ n, checkFrame s = checkSubframes s (n + 1) sf (prev sf) := by
  refine ⟨P.nsf s - sf - 1, ?_⟩
  rw [checkFrame_of_subframes hlsp hsel, ← checkSubframes_of_chain sf _ h]
  congr 1
  omega

theorem checkFrame_some {r : Raise} (h : checkFrame s = some r) :
    ∃ sf field value, 1 ≤ field ∧ r = badParam sf field value := by
  by_cases hlsp : ∀ st < P.lspStages s, Spec.lspOk s st
  · by_cases hsel : Spec.maSelOk s
    · rw [checkFrame_of_subframes hlsp hsel] at h
      exact checkSubframes_some h
    · rw [checkFrame_of_maSel hlsp (checkMaSel_of_not_ok hsel)] at h
      cases h
      exact ⟨0, 13, _, by decide, rfl⟩
  · obtain ⟨st, hst, hbefore, hnot⟩ := exists_first_not hlsp
    rw [checkFrame_of_lsp (checkLsp_first hst hbefore hnot)] at h
    cases h
    exact ⟨0, _, _, by omega, rfl⟩

/-- CHECK lets exactly the legal frames pass. -/
theorem checkFrame_none_iff : checkFrame s = none ↔ (∀ st < P.lspStages s, Spec.lspOk s st) ∧ Spec.maSelOk s
    ∧ ∃ prev, Spec.subframesOk s (P.nsf s) prev := by
  constructor
  · intro h
    have hlsp : ∀ st < P.lspStages s, Spec.lspOk s st := by
      rw [← checkLsp_none_iff]
      cases hr : checkLsp s (P.lspStages s) 0 with
      | none => rfl
      | some r =>
        rw [checkFrame_of_lsp hr] at h
        cases h
    have hsel : Spec.maSelOk s := by
      by_contra hsel
      rw [checkFrame_of_maSel hlsp (checkMaSel_of_not_ok hsel)] at h
      cases h
    rw [checkFrame_of_subframes hlsp hsel] at h
    obtain ⟨prev, hstart, hchain⟩ := exists_chain h
    refine ⟨hlsp, hsel, prev, hstart, fun sf hsf => ?_⟩
    have hok := hchain sf hsf
    rw [Nat.zero_add] at hok
    exact hok
  · rintro ⟨hlsp, hsel, prev, hchain⟩
    rw [checkFrame_of_subframes hlsp hsel]
    exact checkSubframes_of_chain (P.nsf s) 0 hchain

end

/-- Settles O20: the search for an illegal index finds nothing exactly in a legal frame, else the first one. -/
theorem checkGoodFrame : Obligations.CheckGoodFrame := by
  intro s hhead hgood
  have hhead' := checkHead_of_headOk hhead
  have hgood' : frameErased s = false := by
    rw [← Bool.not_eq_true, frameErased_iff]
    exact hgood
  have hraises {sf field value : Nat} (h : checkFrame s = some (badParam sf field value)) :
      Spec.checkRaises s sf field value := exec_check_of_checkFrame_some hhead' hgood' h
  refine ⟨fun hlsp hsel hchain =>
      exec_check_of_checkFrame_none hhead' hgood' (checkFrame_none_iff.mpr ⟨hlsp, hsel, hchain⟩),
    fun hbad => ?_, fun st hst hbefore hbad => hraises (checkFrame_of_lsp (checkLsp_first hst hbefore hbad)),
    fun hlsp hsel => hraises (checkFrame_of_maSel hlsp (checkMaSel_of_not_ok hsel)),
    fun sf hsf prev hlsp hsel hchain => ?_⟩
  · cases hframe : checkFrame s with
    | none => exact absurd (checkFrame_none_iff.mp hframe) hbad
    | some r =>
      obtain ⟨sf, field, value, hfield, rfl⟩ := checkFrame_some hframe
      exact ⟨sf, field, value, hfield, hraises hframe⟩
  · obtain ⟨n, hframe⟩ := checkFrame_at hsf hlsp hsel hchain
    refine ⟨fun hdelay => hraises (hframe.trans (checkSubframes_of_no_delay hdelay n)), fun hdelay => ?_⟩
    have hindices {field value : Nat} (h : checkIndices s sf = some (badParam sf field value)) :
        Spec.checkRaises s sf field value := hraises (hframe.trans (checkSubframes_of_indices hdelay h n))
    refine ⟨fun ha => hindices (checkIndices_of_not_gainA ha), fun ha hb => hindices (checkIndices_of_gainA ha hb),
      fun ha hb => ⟨fun hcode => hindices ?_, fun pos hpos hsign => hindices ?_⟩⟩
    · rw [checkIndices_of_gains ha hb, fcbDecode_of_no_positions hcode]
    · rw [checkIndices_of_gains ha hb, fcbDecode_of_sign hpos hsign]

end Sys2Proof.Proofs
end

