-- ==== Sys2Proof/Proofs/ProfileChecks.lean ====
section
/-! INIT (R152, R153): the numbered checks on the words of PROFILE space are the model's tests, so the first that fails is
the one reported, and a profile is well-formed exactly when all of them hold. -/

namespace Sys2Proof.Proofs
open Sys2Proof Sys2Proof.Machine

/-! ## Words of the profile -/

theorem spec_u_eq (s : State) (a : Nat) : Spec.u s a = P.u s a := rfl

theorem inRange_iff (v lo hi : Nat) : Machine.inRange v lo hi = true ↔ lo ≤ v ∧ v ≤ hi := by
  simp [Machine.inRange]

/-- A flag of the profile by its place in the word. -/
theorem testBit_iff (n i : Nat) : n.testBit i = true ↔ n / 2 ^ i % 2 = 1 := by
  rw [Nat.testBit_eq_decide_div_mod_eq, decide_eq_true_eq]

theorem pfEn_iff (s : State) : P.pfEn s = true ↔ P.u s 0x04 / 2 % 2 = 1 := testBit_iff _ 1

theorem dispEn_iff (s : State) : P.dispEn s = true ↔ P.u s 0x04 / 8 % 2 = 1 := testBit_iff _ 3

theorem spec_table_iff (s : State) (ptr len : Nat) : Spec.table s ptr len ↔ tableOk s ptr len = true := by
  simp only [Spec.table, tableOk, Bool.and_eq_true, decide_eq_true_eq, spec_u_eq]

/-- A flag that is 0 or 1. -/
theorem zeroOne_iff (n : Nat) : n = 0 ∨ n = 1 ↔ decide (n ≤ 1) = true := by
  rw [decide_eq_true_eq, Nat.le_one_iff_eq_zero_or_eq_one]

/-- A mask with no bit from bit `k` on. -/
theorem mask_iff (n k : Nat) : n / 2 ^ k = 0 ↔ decide (n < 2 ^ k) = true := by
  rw [decide_eq_true_eq, Nat.div_eq_zero_iff_lt (by positivity)]

/-- A range that is checked where the field is in use. -/
theorem usedRange_iff (p : Prop) [Decidable p] (v lo hi : Nat) :
    (p → lo ≤ v ∧ v ≤ hi) ↔ (decide (¬ p) || Machine.inRange v lo hi) = true := by
  rw [unless_iff, inRange_iff]

theorem or_iff (p q : Prop) [Decidable p] [Decidable q] : p ∨ q ↔ (decide p || decide q) = true := by
  rw [Bool.or_eq_true, decide_eq_true_eq, decide_eq_true_eq]

theorem and_iff (p q : Prop) [Decidable p] [Decidable q] : p ∧ q ↔ (decide p && decide q) = true := by
  rw [Bool.and_eq_true, decide_eq_true_eq, decide_eq_true_eq]

/-- A check where the postfilter or the dispersion is in use. -/
theorem used_iff {p q : Prop} {a b : Bool} (hp : a = true ↔ p) (hq : q ↔ b = true) : (p → q) ↔ (!a || b) = true := by
  rw [← hp, hq]
  cases a <;> simp

/-- A check of a table in use. -/
theorem unless_iff_of_iff {p q : Prop} [Decidable p] {b : Bool} (hq : q ↔ b = true) :
    (p → q) ↔ (decide (¬ p) || b) = true := by
  rw [unless_iff, hq]

/-- The range of an i32 field, on the word (R123). -/
theorem toInt_range_iff (w : Word) : w.toNat ≤ 2097151 ∨ 2 ^ 32 - 2097152 ≤ w.toNat ↔
    -2097152 ≤ w.toInt ∧ w.toInt ≤ 2097151 := by
  have hlt := w.isLt
  rw [BitVec.toInt_eq_toNat_cond]
  split <;> omega

/-- A check of the two families with tables of positions. -/
theorem tableFamily_iff {f : Nat} {q : Prop} {b : Bool} (hq : q ↔ b = true) :
    (f ≤ 1 → q) ↔ (decide (1 < f) || b) = true := by
  rw [hq, Bool.or_eq_true, decide_eq_true_eq, ← Nat.not_le, or_iff_not_imp_left, not_not]

/-- Check 0x69, by family. -/
theorem codeRoom_iff (f : Nat) (p q : Prop) [Decidable p] [Decidable q] :
    (f = 2 → p) ∧ (f = 3 → q) ↔ (match f with | 2 => decide p | 3 => decide q | _ => true) = true := by
  split
  · simp
  · simp
  · exact ⟨fun _ => rfl, fun _ => ⟨fun h => absurd h ‹_›, fun h => absurd h ‹_›⟩⟩

theorem cbBase_eq_sum (s : State) (n : Nat) : P.cbBase s n = ∑ st ∈ Finset.range n,
    Spec.el s 0x50 (4 * st) * (Spec.el s 0x50 (4 * st + 2) - Spec.el s 0x50 (4 * st + 1)) := by
  induction n with
  | zero => rfl
  | succ n ih =>
    rw [Finset.sum_range_succ, ← ih]
    rfl

theorem fcbTabBase_eq_sum (s : State) (n : Nat) :
    P.fcbTabBase s n = ∑ k ∈ Finset.range n, Spec.el s 0x58 (3 * k + 1) := by
  induction n with
  | zero => rfl
  | succ n ih =>
    rw [Finset.sum_range_succ, ← ih]
    rfl

theorem fcbBitsSum_eq_sum (s : State) (n : Nat) : fcbBitsSum s n = ∑ k ∈ Finset.range n, Spec.el s 0x58 (3 * k) := by
  induction n with
  | zero => rfl
  | succ n ih =>
    rw [Finset.sum_range_succ, ← ih]
    rfl

/-- A bound on every element of a table. -/
theorem below_iff (s : State) (ptr n hi : Nat) :
    (∀ i < n, Spec.el s ptr i ≤ hi) ↔ (allBelow n fun i => decide (P.tabU s ptr i ≤ hi)) = true := by
  simp only [allBelow_iff, decide_eq_true_eq]
  rfl

/-! ## The checks of the header -/

theorem headerChecks_iff (s : State) : ∀ q ∈ Spec.headerChecks s, (q.2 ↔ checkHolds s q.1 = true) := by
  simp only [Spec.headerChecks, List.forall_mem_append, List.forall_mem_cons]
  and_intros
  any_goals exact fun _ h => absurd h List.not_mem_nil
  any_goals exact (inRange_iff _ _ _).symm
  any_goals exact decide_eq_true_iff.symm
  any_goals exact zeroOne_iff _
  any_goals exact usedRange_iff _ _ _ _
  · show 2 ≤ P.u s 0x00 ∧ P.u s 0x00 ≤ s.caps.order ∧ P.u s 0x00 % 2 = 0
      ↔ (Machine.inRange (P.u s 0x00) 2 s.caps.order && decide (P.u s 0x00 % 2 = 0)) = true
    rw [Bool.and_eq_true, inRange_iff, decide_eq_true_eq, and_assoc]
  · exact mask_iff _ 5
  · exact or_iff _ _
  · exact mask_iff _ _
  · exact mask_iff _ _
  · exact (toInt_range_iff _).trans (and_iff _ _)
  · exact used_iff (pfEn_iff s) (inRange_iff _ _ _).symm

/-! ## The checks between fields and of the tables -/

theorem relationChecks_iff (s : State) : ∀ q ∈ Spec.relationChecks s, (q.2 ↔ checkHolds s q.1 = true) := by
  simp only [Spec.relationChecks, List.forall_mem_cons]
  and_intros
  any_goals exact fun _ h => absurd h List.not_mem_nil
  any_goals exact decide_eq_true_iff.symm
  · show _ ↔ ((decide (P.u s 0x06 = 0) && decide (P.u s 0x07 = 0) && decide (P.u s 0x08 = 0))
      || (decide (P.u s 0x06 = 1) && decide (1 ≤ P.u s 0x07) && decide (1 ≤ P.u s 0x08))) = true
    simp only [Bool.or_eq_true, Bool.and_eq_true, decide_eq_true_eq, and_assoc]
    rfl
  · exact and_iff _ _
  · exact or_iff _ _
  · exact codeRoom_iff _ _ _

/-- Check 0x71, one stage. -/
theorem stageDescOk_iff (s : State) (st : Nat) : stageDescOk s st = true ↔ 1 ≤ P.stSize s st ∧ P.stSize s st ≤ 4096
    ∧ P.stLo s st < P.stHi s st ∧ P.stHi s st ≤ P.order s ∧ P.stGray s st ≤ 1 := by
  simp only [stageDescOk, Bool.and_eq_true, inRange_iff, decide_eq_true_eq, and_assoc]

/-- Check 0x7D, by family. -/
theorem fcbDescOk_iff (s : State) : fcbDescOk s = true ↔
    (P.fcbFamily s ≤ 1 → (∀ k < P.fcbNpulses s, P.fcbBits s k ≤ 16
        ∧ 1 ≤ P.fcbTabSize s k ∧ P.fcbTabSize s k ≤ 2 ^ P.fcbBits s k) ∧ fcbBitsSum s (P.fcbNpulses s) ≤ 64)
      ∧ (P.fcbFamily s = 2 → ∀ k < P.fcbNpulses s,
        P.fcbCOfs s k + P.fcbStride s * (P.fcbBase s - 1) ≤ P.sfLen s - 1) := by
  unfold fcbDescOk
  split
  case h_1 h2 => simp [h2, allBelow_iff]
  case h_2 h3 => simp [h3]
  case h_3 hnot2 _ =>
    simp only [Bool.or_eq_true, Bool.and_eq_true, decide_eq_true_eq, allBelow_iff, inRange_iff]
    constructor
    · rintro (h | h)
      · exact ⟨fun h1 => absurd h1 (by omega), fun h2 => absurd h2 hnot2⟩
      · exact ⟨fun _ => h, fun h2 => absurd h2 hnot2⟩
    · rintro ⟨h, -⟩
      rcases Nat.lt_or_ge 1 (P.fcbFamily s) with h1 | h1
      · exact .inl h1
      · exact .inr (h h1)

theorem tableChecks_iff (s : State) : ∀ q ∈ Spec.tableChecks s, (q.2 ↔ checkHolds s q.1 = true) := by
  simp only [Spec.tableChecks, List.forall_mem_append, List.forall_mem_cons, ← cbBase_eq_sum, ← fcbTabBase_eq_sum,
    ← fcbBitsSum_eq_sum]
  and_intros
  any_goals exact fun _ h => absurd h List.not_mem_nil
  any_goals exact spec_table_iff _ _ _
  any_goals exact below_iff _ _ _ _
  · exact (forall₂_congr fun st _ => (stageDescOk_iff s st).symm).trans allBelow_iff.symm
  · exact unless_iff_of_iff (spec_table_iff _ _ _)
  · exact (lspInitOk_iff s).symm
  · exact (fcbDescOk_iff s).symm
  · exact tableFamily_iff (spec_table_iff _ _ _)
  · exact tableFamily_iff (below_iff _ _ _ _)
  · exact used_iff (dispEn_iff s) (spec_table_iff _ _ _)
  · exact used_iff (pfEn_iff s) (spec_table_iff _ _ _)
  · exact used_iff (pfEn_iff s) (below_iff _ _ _ _)
  · exact used_iff (pfEn_iff s) (spec_table_iff _ _ _)
  · exact used_iff (pfEn_iff s) (below_iff _ _ _ _)

/-! ## All of them -/

theorem checks_iff (s : State) : ∀ q ∈ Spec.checks s, (q.2 ↔ checkHolds s q.1 = true) := by
  simp only [Spec.checks, List.forall_mem_append]
  exact ⟨⟨headerChecks_iff s, relationChecks_iff s⟩, tableChecks_iff s⟩

/-- The numbers of the checks R153 lists. -/
def listedChecks : List Nat :=
  (List.range 0x50).filter (fun c => c ≠ 0x2E ∧ c ≠ 0x30) ++ List.range' 0x60 0x0A ++ List.range' 0x70 0x1A

theorem mem_listedChecks (c : Nat) : c ∈ listedChecks ↔
    (c < 0x50 ∧ c ≠ 0x2E ∧ c ≠ 0x30) ∨ (0x60 ≤ c ∧ c < 0x6A) ∨ (0x70 ≤ c ∧ c < 0x8A) := by
  simp only [listedChecks, List.mem_append, List.mem_filter, List.mem_range, List.mem_range'_1, decide_eq_true_eq,
    or_assoc]

theorem checks_numbers (s : State) : (Spec.checks s).map Prod.fst = listedChecks := by
  rfl

/-- A number R153 does not list asks nothing. -/
theorem checkHolds_unlisted {s : State} {c : Nat} (hc : c < 0x8A) (h : c ∉ listedChecks) : checkHolds s c = true := by
  rw [mem_listedChecks] at h
  rcases (by omega : c = 0x2E ∨ c = 0x30 ∨ 0x50 ≤ c ∧ c < 0x60 ∨ 0x6A ≤ c ∧ c < 0x70)
    with rfl | rfl | ⟨hlow, hhigh⟩ | ⟨hlow, hhigh⟩
  · rfl
  · rfl
  · interval_cases c <;> rfl
  · interval_cases c <;> rfl

/-- The checks below a number hold as R153 lists them exactly when the model's do. -/
theorem checks_below_iff (s : State) {n : Nat} (hn : n ≤ 0x8A) :
    (∀ q ∈ Spec.checks s, q.1 < n → q.2) ↔ ∀ c < n, checkHolds s c = true := by
  constructor
  · intro h c hc
    by_cases hlisted : c ∈ listedChecks
    · rw [← checks_numbers s] at hlisted
      obtain ⟨q, hq, rfl⟩ := List.mem_map.mp hlisted
      exact (checks_iff s q hq).mp (h q hq hc)
    · exact checkHolds_unlisted (by omega) hlisted
  · exact fun h q hq hlt => (checks_iff s q hq).mpr (h q.1 hlt)

theorem lt_of_mem_checks {s : State} {q : Nat × Prop} (hq : q ∈ Spec.checks s) : q.1 < 0x8A := by
  have hmem : q.1 ∈ listedChecks := checks_numbers s ▸ List.mem_map_of_mem hq
  rw [mem_listedChecks] at hmem
  omega

/-- A profile is well-formed exactly when it passes the checks of R153. -/
theorem profileOk_iff (s : State) : profileOk s = true ↔ ∀ q ∈ Spec.checks s, q.2 := by
  have hall : profileOk s = true ↔ ∀ c < 0x8A, checkHolds s c = true := by
    rw [profileOk, Option.isNone_iff_eq_none, failedCheck, List.find?_eq_none]
    simp only [checkNumbers, List.mem_range, Bool.not_eq_true', Bool.not_eq_false]
  rw [hall, ← checks_below_iff s le_rfl]
  exact forall₂_congr fun q hq => ⟨fun h => h (lt_of_mem_checks hq), fun h _ => h⟩

/-- The first check that fails is the one reported. -/
theorem failedCheck_of_first {s : State} {c : Nat} {p : Prop} (hmem : (c, p) ∈ Spec.checks s) (hbad : ¬ p)
    (hbefore : ∀ q ∈ Spec.checks s, q.1 < c → q.2) : failedCheck s = some c := by
  have hlt : c < 0x8A := lt_of_mem_checks hmem
  have hfails : checkHolds s c = false := by
    rw [← Bool.not_eq_true]
    exact fun h => hbad ((checks_iff s (c, p) hmem).mpr h)
  have hpassed := (checks_below_iff s hlt.le).mp hbefore
  rw [failedCheck, checkNumbers, List.find?_range_eq_some]
  exact ⟨by rw [hfails]; rfl, List.mem_range.mpr hlt, fun j hj => by rw [hpassed j hj]; rfl⟩

/-- Settles O16: the three ends of INIT, with the checks in the numbers of R153. -/
theorem initOutcome : Obligations.InitOutcome := by
  refine fun s => ⟨fun hinited => ?_, fun c p hinited hmem hbad hbefore => ?_, fun hinited hall => ?_, profileOk_iff s⟩
  · rw [exec_init, execInit, if_pos hinited]
  · rw [exec_init, execInit, if_neg (by simp [hinited]), failedCheck_of_first hmem hbad hbefore]
    rfl
  · have hprof := (profileOk_iff s).mpr hall
    exact ⟨initState s, exec_init_of_profileOk hinited hprof, decOk_initState hprof⟩

end Sys2Proof.Proofs
end
